-- ==== Sys2Proof/Word.lean ====
section
/-! DEFINITION. The word types of the dispatcher: a byte, and the 16-bit register of the check code (R141). -/

namespace Sys2Proof

/-- One byte, as both the serial line (R186) and the line frames (section 7.1) carry it. -/
abbrev Byte := BitVec 8

/-- The 16-bit check of a frame (R141). -/
abbrev Check := BitVec 16

end Sys2Proof
end

