-- ==== Sys2Proof/Syntax.lean ====
section
/-! DEFINITION. The commands of the block: one constructor of `Instr` per row of spec/opcode_table.json, with the
operands of the row. A request carries its fields as the host gave them, in range or not, because the owning block
checks ranges when it takes the request (R188). -/

namespace Sys2Proof

/-- One of the three phases, and the line channel that serves it (00_scope.md, Conventions). -/
inductive Phase where
  | l1 | l2 | l3
  deriving DecidableEq, Repr

/-- One value for each of L1, L2 and L3. -/
structure PerPhase (α : Type) where
  l1 : α
  l2 : α
  l3 : α
  deriving DecidableEq, Repr

/-- An encoded choice as a request carries it: `none` is a code outside the list of its field. -/
abbrev Coded (α : Type) := Option α

/-- The inputs read at power-on: mains sense of each phase (R117) and the two straps (R186; true is high). -/
structure Pins where
  mains  : PerPhase Bool
  strapA : Bool
  strapB : Bool
  deriving DecidableEq, Repr

/-- A character received on the serial line, and whether its stop bit was missing (R186). -/
structure RxChar where
  byte         : Byte
  framingError : Bool
  deriving DecidableEq, Repr

/-- What R188 judges before the owning block sees a request: the tag, and whether the body has the form the request
requires. -/
structure Header where
  tag    : Byte
  formed : Bool
  deriving DecidableEq, Repr

/-- The roles of a receiver (section 1.1). -/
inductive Role where
  | terminal | relay
  deriving DecidableEq, Repr

/-- ON or OFF, as an action or a parameter value. -/
inductive Switch where
  | on | off
  deriving DecidableEq, Repr

/-- The set of attention flags of an entry (section 1.1). -/
structure Flags where
  phaseLearned : Bool
  wentSilent   : Bool
  cameBack     : Bool
  routeFault   : Bool
  refused      : Bool
  reportNew    : Bool
  deriving DecidableEq, Repr

/-- The delivery modes of a campaign (R49). -/
inductive Mode where
  | confirmed | broadcast
  deriving DecidableEq, Repr

/-- The arbitration modes of a channel (R128). -/
inductive ArbMode where
  | fixed | rotating
  deriving DecidableEq, Repr

/-- The sources of the line clock (R159). -/
inductive Source where
  | mains | crystal
  deriving DecidableEq, Repr

/-- The filters of ROSTER SCAN (R22). -/
inductive ScanFilter where
  | all | attention | new | active | silent
  deriving DecidableEq, Repr

/-- The parameters, in the order of the table of section 10.5. -/
inductive ParamName where
  | silenceThreshold | attentionNotices | defaultPassLimit | settleTime | quietInterval | accessLimit
  | arbitrationMode | replyBase | hopExtension | clockSource | mainsFrequency | autoSuspend
  deriving DecidableEq, Repr

/-- A parameter's value as PARAM SET carries it (R194); `other` is a code that names no value of any parameter. -/
inductive ParamValue where
  | number (n : Nat)
  | switch (v : Switch)
  | arb (m : ArbMode)
  | source (v : Source)
  | other
  deriving DecidableEq, Repr

/-- PARAM SET (R194): the channel is present or absent, and a present one may be no channel. -/
structure ParamSetReq where
  name    : Coded ParamName
  channel : Option (Coded Phase)
  value   : ParamValue
  deriving DecidableEq, Repr

/-- PARAM GET (R194): one parameter, or the word ALL. -/
inductive ParamGetReq where
  | all
  | one (name : Coded ParamName) (channel : Option (Coded Phase))
  deriving DecidableEq, Repr

/-- The order of a SUBMIT as the host gives it (R28); `other` is a class that is none of the five, or parameters that
are not those of the class. -/
inductive OrderReq where
  | bandSet (band : Nat)
  | loadSwitch (relay : Nat) (action : Coded Switch) (duration : Nat)
  | planLoad (slot : Nat)
  | clockSync
  | statusPoll
  | other
  deriving DecidableEq, Repr

/-- The target of a SUBMIT as the host gives it (R49); `other` is none of the three. -/
inductive TargetReq where
  | unit (u : Nat)
  | group (g : Nat)
  | all
  | other
  deriving DecidableEq, Repr

/-- SUBMIT (section 3.3). -/
structure SubmitReq where
  order       : OrderReq
  effective   : Option Nat
  target      : TargetReq
  mode        : Coded Mode
  priority    : Option Nat
  start       : Option Nat
  deadline    : Option Nat
  passLimit   : Option Nat
  repeatsBase : Option Nat
  hopBudget   : Option Nat
  interval    : Option Nat
  deriving DecidableEq, Repr

/-- The slot, and the sequence the host may expect there (R61). -/
structure SlotRef where
  slot : Nat
  seq  : Option Nat
  deriving DecidableEq, Repr

/-- ROSTER PUT (R18). A phase of `some none` is UNKNOWN. -/
structure RosterPutReq where
  unit   : Nat
  serial : BitVec 32
  role   : Coded Role
  phase  : Coded (Option Phase)
  groups : List Nat
  route  : List Nat
  deriving DecidableEq, Repr

/-- ROSTER FLAGS (R23): a set that names something that is no attention flag is `none`. -/
structure RosterFlagsReq where
  unit   : Nat
  select : Coded Flags
  value  : Coded Flags
  deriving DecidableEq, Repr

/-- ROSTER SCAN (R22). -/
structure RosterScanReq where
  start  : Nat
  filter : Coded ScanFilter
  deriving DecidableEq, Repr

/-- SEGMENT SET (R14). A phase of `some none` is NONE. -/
structure SegmentSetReq where
  index   : Nat
  first   : Nat
  last    : Nat
  phase   : Coded (Option Phase)
  barred  : Coded Bool
  enabled : Coded Bool
  deriving DecidableEq, Repr

/-- The targets of LINE MASK (R132). -/
inductive MaskTarget where
  | one (ch : Phase)
  | all
  deriving DecidableEq, Repr

/-- LINE MASK (R132): the action is true for MASK and false for UNMASK. -/
structure LineMaskReq where
  target : Coded MaskTarget
  mask   : Coded Bool
  deriving DecidableEq, Repr

/-- A switch point: a minute of the day and a band (section 2.4). -/
structure Point where
  minute : Nat
  band   : Nat
  deriving DecidableEq, Repr

/-- PLAN STAGE (R165). -/
structure PlanStageReq where
  start    : Nat
  points   : List Point
  identity : Option Nat
  version  : Option Nat
  deriving DecidableEq, Repr

/-- The three fields of the site record: carried by a SITE WRITE (R181), or written in the record (R180). -/
structure SiteFields where
  network : Option Nat
  kiosk   : Option (BitVec 32)
  floor   : Option Nat
  deriving DecidableEq, Repr

/-- A request as the inbound queue holds it, or a frame whose kind names none (R188). -/
inductive Request where
  | unknown (kind : Byte)
  | status
  | identify
  | resetAll
  | resetCampaigns
  | paramSet (q : ParamSetReq)
  | paramGet (q : ParamGetReq)
  | clockSet (time : Nat)
  | sequenceSeed (value : Nat)
  | submit (q : SubmitReq)
  | campaignQuery (q : SlotRef)
  | campaignList
  | hold (q : SlotRef)
  | resume (q : SlotRef)
  | cancel (q : SlotRef)
  | release (q : SlotRef)
  | rosterPut (q : RosterPutReq)
  | rosterRemove (unit : Nat)
  | rosterGet (unit : Nat)
  | rosterScan (q : RosterScanReq)
  | rosterFlags (q : RosterFlagsReq)
  | segmentSet (q : SegmentSetReq)
  | segmentGet
  | segmentLock
  | lineMask (q : LineMaskReq)
  | lineStatus
  | planStage (q : PlanStageReq)
  | planClear
  | planCommit (slot : Nat)
  | planRead (slot : Nat)
  | sectorErase (sector : Nat)
  | eraseSuspend
  | eraseResume
  | storeArm
  | storeDisarm
  | storeProtect (value : Nat)
  | storeStatus
  | siteWrite (q : SiteFields)
  | siteLock
  | siteRead
  deriving DecidableEq, Repr

/-- The kinds a reply can carry: the request it answers (R188). RESET is one kind with two scopes (R193). -/
inductive RequestKind where
  | unknown (kind : Byte)
  | status | identify | reset | paramSet | paramGet | clockSet | sequenceSeed | submit | campaignQuery
  | campaignList | hold | resume | cancel | release | rosterPut | rosterRemove | rosterGet | rosterScan
  | rosterFlags | segmentSet | segmentGet | segmentLock | lineMask | lineStatus | planStage | planClear
  | planCommit | planRead | sectorErase | eraseSuspend | eraseResume | storeArm | storeDisarm | storeProtect
  | storeStatus | siteWrite | siteLock | siteRead
  deriving DecidableEq, Repr

/-- The result codes (section 10.2). -/
inductive ResultCode where
  | ok | malformed | unknownKind | notFound | inUse | full | locked | sectorProtected | storeBusy | sectorSuspended
  | notArmed | notEmpty | alreadySet | tooSoon | wrongState | clockUnset | noSequence | noNetwork
  | sequenceExhausted
  deriving DecidableEq, Repr

/-- A request waiting in the inbound queue (R187). -/
structure Inbound where
  hdr : Header
  req : Request
  deriving DecidableEq, Repr

/-- The commands of the block, one per row of spec/opcode_table.json, in its order. -/
inductive Instr where
  | powerOn (pins : Pins)
  | frameComplete (chars : List RxChar) (formed : Bool) (spelled : Option Request)
  | interByteTimeout
  | transmissionEnd
  | unknownKind (h : Header) (kind : Byte)
  | status (h : Header)
  | identify (h : Header)
  | resetAll (h : Header)
  | resetCampaigns (h : Header)
  | paramSet (h : Header) (q : ParamSetReq)
  | paramGet (h : Header) (q : ParamGetReq)
  | clockSet (h : Header) (time : Nat)
  | sequenceSeed (h : Header) (value : Nat)
  | submit (h : Header) (q : SubmitReq)
  | campaignQuery (h : Header) (q : SlotRef)
  | campaignList (h : Header)
  | hold (h : Header) (q : SlotRef)
  | resume (h : Header) (q : SlotRef)
  | cancel (h : Header) (q : SlotRef)
  | release (h : Header) (q : SlotRef)
  | rosterPut (h : Header) (q : RosterPutReq)
  | rosterRemove (h : Header) (unit : Nat)
  | rosterGet (h : Header) (unit : Nat)
  | rosterScan (h : Header) (q : RosterScanReq)
  | rosterFlags (h : Header) (q : RosterFlagsReq)
  | segmentSet (h : Header) (q : SegmentSetReq)
  | segmentGet (h : Header)
  | segmentLock (h : Header)
  | lineMask (h : Header) (q : LineMaskReq)
  | lineStatus (h : Header)
  | planStage (h : Header) (q : PlanStageReq)
  | planClear (h : Header)
  | planCommit (h : Header) (slot : Nat)
  | planRead (h : Header) (slot : Nat)
  | sectorErase (h : Header) (sector : Nat)
  | eraseSuspend (h : Header)
  | eraseResume (h : Header)
  | storeArm (h : Header)
  | storeDisarm (h : Header)
  | storeProtect (h : Header) (value : Nat)
  | storeStatus (h : Header)
  | siteWrite (h : Header) (q : SiteFields)
  | siteLock (h : Header)
  | siteRead (h : Header)
  | programComplete
  | eraseComplete
  | suspensionTaken
  | resumeGuardExpired
  | siteWriteComplete
  | siteLockComplete
  | snapshotDelivery
  | secondComplete
  | mainsLost (ch : Phase)
  | mainsReturned (ch : Phase)
  | settleExpired (ch : Phase)
  | grant (ch : Phase)
  | signalHeard (ch : Phase)
  | quietIntervalHeard (ch : Phase)
  | accessLimitExpired (ch : Phase)
  | sendingEnd (ch : Phase)
  | inboundLineFrame (ch : Phase) (bytes : List Byte)
  | replyWindowExpired (ch : Phase)
  | tailExpired (ch : Phase)
  | outcomeTaken (ch : Phase)
  | transmissionEndedTaken (ch : Phase)
  | tailEndedTaken (ch : Phase)
  | intervalExpired (slot : Nat)
  deriving DecidableEq, Repr

end Sys2Proof
end

