-- ==== Sys2Proof/Decode.lean ====
section
/-! DEFINITION. The table of this block (spec/opcode_table.json) gives no row any bits: a command is an event or a request
at the block, not a word. So no word spells a command. -/

namespace Sys2Proof

/-- The command that a word spells by the table's bits: none, because no row of the table gives bits. -/
def decodeTableWord (_nbits _w : Nat) : Option Instr := none

end Sys2Proof
end

