-- ==== Sys2Proof/Machine/Records.lean ====
section
/-! DEFINITION. The records the blocks keep and exchange: roster entries, orders and campaigns, units of work and their
outcomes, plan store records, and the replies and notices that go to the host. -/

namespace Sys2Proof.Machine

/-! ## The roster (chapter 1) -/

/-- The state of a receiver as the roster judges it (R3). -/
inductive ReceiverState where
  | new | active | silent
  deriving DecidableEq, Repr

/-- The reported state of a receiver's relay (R6). -/
inductive RelayState where
  | on | off | absent
  deriving DecidableEq, Repr

/-- A status report record (R6). The plan's identity and version are present together. -/
structure StatusReport where
  band        : Nat
  relay1      : RelayState
  relay2      : RelayState
  plan        : Option (Nat × Nat)
  clockSet    : Bool
  clockOffset : Option Int
  receivedAt  : Option Nat
  deriving DecidableEq, Repr

/-- A roster entry (section 1.1). A phase of `none` is UNKNOWN. Groups, pending and tried are sets, held in ascending
order without repeats. -/
structure Entry where
  unit          : Nat
  serial        : BitVec 32
  role          : Role
  phase         : Option Phase
  groups        : List Nat
  route         : List Nat
  state         : ReceiverState
  misses        : Nat
  searchPhase   : Phase
  flags         : Flags
  lastContact   : Option Nat
  lastConfirmed : Option Nat
  lastReport    : Option StatusReport
  pending       : List Nat
  tried         : List Nat
  deriving DecidableEq, Repr

/-- A range of the segment map (section 1.4). A phase of `none` is NONE. -/
structure Segment where
  first   : Nat
  last    : Nat
  phase   : Option Phase
  barred  : Bool
  enabled : Bool
  deriving DecidableEq, Repr

/-! ## Orders and campaigns (chapters 2, 3 and 5) -/

/-- A class together with the parameters of that class (R27). -/
inductive OrderBody where
  | bandSet (band : Nat)
  | loadSwitch (relay : Nat) (action : Switch) (duration : Nat)
  | planLoad (slot : Nat)
  | clockSync
  | statusPoll
  deriving DecidableEq, Repr

/-- An order with its optional effective time (R27). -/
structure Order where
  body      : OrderBody
  effective : Option Nat
  deriving DecidableEq, Repr

/-- The five classes by name (R28). -/
inductive OrderClass where
  | bandSet | loadSwitch | planLoad | clockSync | statusPoll
  deriving DecidableEq, Repr

/-- The supersession classes (R42). -/
inductive SuperClass where
  | band | load1 | load2 | plan
  deriving DecidableEq, Repr

/-- The target of a campaign (R25). -/
inductive Target where
  | unit (u : Nat)
  | group (g : Nat)
  | all
  deriving DecidableEq, Repr

/-- The mode of a campaign with the fields of that mode (R50). An interval makes the broadcast standing. -/
inductive Terms where
  | confirmed (passLimit : Nat)
  | broadcast (repeatsBase hopBudget : Nat) (interval : Option Nat)
  deriving DecidableEq, Repr

/-- The states of a campaign that holds a slot (section 3.4). -/
inductive CampaignState where
  | waiting | preparing | running | held | resting
  | complete | exhausted | expired | cancelled | superseded | aborted
  deriving DecidableEq, Repr

/-- The reasons of R69. -/
inductive EndReason where
  | settled | overtaken | noTargets | roundDone | deadline | passLimit | host | newer | targetGone
  deriving DecidableEq, Repr

/-- The seven counts of a campaign (R47). -/
structure Counts where
  barred      : Nat
  applied     : Nat
  declined    : Nat
  refused     : Nat
  superseded  : Nat
  dropped     : Nat
  outstanding : Nat
  deriving DecidableEq, Repr

/-- The four refused-by-reason counts (R47). -/
structure RefusedCounts where
  bandUnsupported : Nat
  relayAbsent     : Nat
  planRejected    : Nat
  noTime          : Nat
  deriving DecidableEq, Repr

/-- A plan: identity, version and switch points (section 2.4). -/
structure Plan where
  identity : Nat
  version  : Nat
  points   : List Point
  deriving DecidableEq, Repr

/-- What a BROADCAST campaign holds from entry into RUNNING (R101, R102); rounds are present when it is standing. -/
structure BroadcastRun where
  phases    : PerPhase Bool
  remaining : PerPhase Nat
  made      : PerPhase Nat
  rounds    : Option Nat
  deriving DecidableEq, Repr

/-- A campaign record (section 3.2), with the interval timer of R108 in milliseconds left. The supersession class is
derived from the order (R42) and not stored. -/
structure Campaign where
  slot          : Nat
  seq           : Nat
  order         : Order
  target        : Target
  terms         : Terms
  priority      : Nat
  start         : Option Nat
  deadline      : Option Nat
  state         : CampaignState
  reason        : Option EndReason
  pass          : Option Nat
  run           : Option BroadcastRun
  snapshot      : Option Plan
  targets       : Option Nat
  counts        : Counts
  byReason      : RefusedCounts
  activatedAt   : Option Nat
  endedAt       : Option Nat
  intervalTimer : Option Nat
  deriving DecidableEq, Repr

/-! ## Units of work and their outcomes (chapters 4 to 7) -/

/-- The refusal reasons of a receiver (R39). -/
inductive Reason where
  | bandUnsupported | relayAbsent | planRejected | noTime
  deriving DecidableEq, Repr

/-- The report of a REPLY frame (R140), fields as received. -/
structure ReportFields where
  band         : Nat
  relay1       : RelayState
  relay2       : RelayState
  clockSet     : Bool
  planIdentity : Nat
  planVersion  : Nat
  time         : Nat
  deriving DecidableEq, Repr

/-- An exchange with one receiver along a copied route (R80), or one broadcast transmission (R103). -/
inductive WorkKind where
  | exchange (dest : Nat) (route : List Nat)
  | broadcast (group hopBudget : Nat)
  deriving DecidableEq, Repr

/-- The record of a unit of work (R80, R103), with the fragment in hand. -/
structure Work where
  slot     : Nat
  seq      : Nat
  order    : Order
  plan     : Option Plan
  count    : Nat
  fragment : Nat
  network  : Nat
  channel  : Phase
  kind     : WorkKind
  deriving DecidableEq, Repr

/-- The outcome of a unit of work (R82, R83). A report carries the line time at which the answer was received (R85). -/
inductive Verdict where
  | applied
  | alreadyNewer
  | refused (r : Reason)
  | report (f : ReportFields) (heardAt : Option Nat)
  | noReply
  | garbled
  | hopFailed (position : Nat)
  | interrupted
  | deferred
  deriving DecidableEq, Repr

/-- What a channel hands back to the campaign controller (R131). -/
inductive ChannelReport where
  | outcome (w : Work) (v : Verdict)
  | transmissionEnded (slot seq : Nat)
  | tailEnded (slot seq : Nat)
  deriving DecidableEq, Repr

/-- The state of a channel with what that state holds (R116): timers in milliseconds left, the unit of work in SENSING,
SENDING and AWAITING only, and the bytes of the frame being sent. In AWAITING the timer is the reply window of an
exchange or the tail of a broadcast. -/
inductive Activity where
  | offline
  | settling (left : Nat)
  | idle
  | sensing (w : Work) (quiet access : Nat)
  | sending (w : Work) (frame : List Byte)
  | awaiting (w : Work) (left : Nat)
  deriving DecidableEq, Repr

/-- A line channel (section 6.1). -/
structure Channel where
  activity : Activity
  masked   : Bool
  jam      : Bool
  arb      : ArbMode
  pointer  : Nat
  deriving DecidableEq, Repr

/-- The channel states by name (R134). -/
inductive ChannelState where
  | offline | settling | idle | sensing | sending | awaiting
  deriving DecidableEq, Repr

/-! ## The plan store (chapter 9) -/

/-- The states of a plan slot (R163). -/
inductive PlanSlot where
  | empty
  | programmed (p : Plan)
  | damaged
  deriving DecidableEq, Repr

/-- The staging buffer (R165): twelve positions, each blank or holding a point. -/
structure Staging where
  identity : Option Nat
  version  : Option Nat
  points   : List (Option Point)
  deriving DecidableEq, Repr

/-- The owner of a suspension (R164). -/
inductive Owner where
  | host | snapshot
  deriving DecidableEq, Repr

/-- The phases of an active erase (R164). -/
inductive ErasePhase where
  | erasing
  | suspending (owner : Owner)
  deriving DecidableEq, Repr

/-- The active operation (R164). -/
inductive Operation where
  | program (slot : Nat) (plan : Plan)
  | erase (sector : Nat) (phase : ErasePhase) (runTime : Nat)
  | siteWrite (fields : SiteFields)
  | siteLock
  deriving DecidableEq, Repr

/-- The suspended erase (R164). -/
structure SuspendedErase where
  sector  : Nat
  runTime : Nat
  owner   : Owner
  deriving DecidableEq, Repr

/-- A waiting snapshot request (R176). -/
structure SnapshotRequest where
  slot     : Nat
  seq      : Nat
  planSlot : Nat
  deriving DecidableEq, Repr

/-- A snapshot delivery (R176). -/
structure Delivery where
  slot : Nat
  seq  : Nat
  plan : Plan
  deriving DecidableEq, Repr

/-- The site record (R180). -/
structure Site where
  fields : SiteFields
  locked : Bool
  deriving DecidableEq, Repr

/-! ## Notices (R190) -/

/-- What a CAMPAIGN ENDED notice carries (R72). The account is present for a CONFIRMED campaign, with its pass number;
the broadcast part for a BROADCAST campaign that entered RUNNING. -/
structure EndedNotice where
  slot     : Nat
  seq      : Nat
  cls      : OrderClass
  mode     : Mode
  state    : CampaignState
  reason   : Option EndReason
  endedAt  : Option Nat
  targets  : Option Nat
  barred   : Option Nat
  account  : Option (Counts × RefusedCounts)
  pass     : Option Nat
  run      : Option BroadcastRun
  deriving DecidableEq, Repr

/-- The change a LINE CHANGE notice reports (R120). -/
inductive LineChange where
  | offline
  | online
  | jammed (slot seq : Nat)
  | cleared
  deriving DecidableEq, Repr

/-- The event of a STORE EVENT notice with its operation and target (R184). That "the fields written" of a site operation are
the fields with their values is MODEL'S CHOICE (log 35). -/
inductive StoreEvent where
  | programDone (slot : Nat)
  | eraseDone (sector : Nat)
  | eraseSuspended (sector : Nat) (owner : Owner)
  | eraseAborted (sector : Nat)
  | siteDone (fields : SiteFields)
  | siteLockDone
  deriving DecidableEq, Repr

/-- The cause of a CLOCK SOURCE notice (R159). -/
inductive SourceCause where
  | noMains | mainsReturned | parameter
  deriving DecidableEq, Repr

/-- The five kinds of notice (R190), each with the fields its owning rule gives. -/
inductive Notice where
  | campaignEnded (n : EndedNotice)
  | attention (count lowest : Nat)
  | lineChange (ch : Phase) (change : LineChange) (time : Option Nat)
  | storeEvent (event : StoreEvent) (time : Option Nat)
  | clockSource (source : Source) (reference : Option Phase) (cause : SourceCause) (time : Option Nat)
  deriving DecidableEq, Repr

/-- The five kinds of notice by name (R190). -/
inductive NoticeKind where
  | campaignEnded | attention | lineChange | storeEvent | clockSource
  deriving DecidableEq, Repr

/-- The kind of a notice. -/
def Notice.kind : Notice → NoticeKind
  | .campaignEnded _ => .campaignEnded
  | .attention _ _ => .attention
  | .lineChange _ _ _ => .lineChange
  | .storeEvent _ _ => .storeEvent
  | .clockSource _ _ _ _ => .clockSource

/-! ## Replies (R188) -/

/-- The body of a STATUS reply (R191). -/
structure StatusBody where
  time          : Option Nat
  source        : Source
  reference     : Option Phase
  counter       : Option Nat
  freeSlots     : Nat
  rosterEntries : Nat
  attention     : Nat
  notices       : Nat
  lost          : Bool
  channels      : PerPhase ChannelState
  deriving DecidableEq, Repr

/-- The body of an IDENTIFY reply (R192). -/
structure IdentifyBody where
  vendor      : Nat
  part        : Nat
  revision    : Nat
  rosterSize  : Nat
  slots       : Nat
  planSlots   : Nat
  sectors     : Nat
  network     : Option Nat
  kiosk       : Option (BitVec 32)
  deriving DecidableEq, Repr

/-- A row of a CAMPAIGN LIST reply (R67). -/
structure CampaignRow where
  slot        : Nat
  seq         : Nat
  cls         : OrderClass
  mode        : Mode
  priority    : Nat
  state       : CampaignState
  pass        : Option Nat
  outstanding : Option Nat
  remaining   : Option Nat
  rounds      : Option Nat
  deriving DecidableEq, Repr

/-- The dispositions of ROSTER PUT (R19). -/
inductive Disposition where
  | added | updated | replaced
  deriving DecidableEq, Repr

/-- An entry as ROSTER GET returns it (R21); a resolved phase of `none` is UNRESOLVED. -/
structure EntryView where
  entry    : Entry
  resolved : Option Phase
  barred   : Bool
  deriving DecidableEq, Repr

/-- Work in flight as LINE STATUS shows it (R134): the kind is EXCHANGE when a destination is present. -/
structure WorkView where
  slot     : Nat
  seq      : Nat
  exchange : Bool
  dest     : Option Nat
  fragment : Nat
  count    : Nat
  deriving DecidableEq, Repr

/-- The record of one channel in a LINE STATUS reply (R134); the requesting set gives each slot with its priority. -/
structure LineRecord where
  state      : ChannelState
  masked     : Bool
  jam        : Bool
  arb        : ArbMode
  pointer    : Nat
  work       : Option WorkView
  requesting : List (Nat × Nat)
  deriving DecidableEq, Repr

/-- The active operation as STORE STATUS shows it (R183); a SITE WRITE shows its fields with their values (MODEL'S CHOICE,
log 35). -/
inductive OperationView where
  | program (slot : Nat)
  | erase (sector : Nat)
  | siteWrite (fields : SiteFields)
  | siteLock
  deriving DecidableEq, Repr

/-- The state of a slot without its plan (R183). -/
inductive SlotView where
  | empty | programmed | damaged
  deriving DecidableEq, Repr

/-- The body of a STORE STATUS reply (R183). -/
structure StoreBody where
  active      : Option OperationView
  erasePhase  : Option ErasePhase
  runTime     : Option Nat
  suspended   : Option (Nat × Owner)
  guard       : Bool
  arm         : Bool
  boundary    : Nat
  autoSuspend : Bool
  waiting     : List (Nat × Nat)
  filled      : Nat
  committable : Bool
  slots       : List SlotView
  deriving DecidableEq, Repr

/-- The body of an OK reply; `none` for a request whose rule gives it no body, and in every refusal. -/
inductive ReplyBody where
  | none
  | status (b : StatusBody)
  | identify (b : IdentifyBody)
  | param (v : ParamValue)
  | params (l : List ParamValue)
  | clock (time : Nat) (wasRunning : Bool)
  | submitted (slot seq : Nat) (state : CampaignState)
  | campaign (c : Campaign) (cls : Option SuperClass)
  | campaigns (free : Nat) (rows : List CampaignRow)
  | disposition (d : Disposition)
  | entry (v : EntryView)
  | entries (l : List EntryView) (next : Nat)
  | flags (f : Flags)
  | segments (l : List Segment) (locked : Bool)
  | masks (m : PerPhase Bool)
  | lines (l : PerPhase LineRecord)
  | staging (b : Staging)
  | plan (p : Plan)
  | arm (set : Bool)
  | boundary (p : Nat)
  | store (b : StoreBody)
  | site (r : Site)
  deriving DecidableEq, Repr

/-- A reply (R188): the request's kind and tag, the result code and the body. -/
structure Reply where
  kind : RequestKind
  tag  : Byte
  code : ResultCode
  body : ReplyBody
  deriving DecidableEq, Repr

/-- What the transmitter sends (R189). -/
inductive Outgoing where
  | reply (r : Reply)
  | notice (n : Notice)
  deriving DecidableEq, Repr

end Sys2Proof.Machine
end

