-- ==== Sys2Proof/Config.lean ====
section
/-! DEFINITION. What is fixed for the part: its capacities and codes, the numbers the manual prints in prose, and the
values that the manual leaves open, which have no body here so that nothing can be proved of what they are. -/

namespace Sys2Proof.Config

/-- Roster capacity (R1). -/
def rosterSize : Nat := 1024
/-- Campaign slots (R43). -/
def campaignSlots : Nat := 16
/-- Plan slots (R163). -/
def planSlots : Nat := 32
/-- Sectors (R163). -/
def sectors : Nat := 8
/-- Slots of a sector (R163). -/
def slotsPerSector : Nat := 4
/-- Positions of the staging buffer (R165). -/
def stagingPositions : Nat := 12
/-- Inbound queue (R187). -/
def inboundSize : Nat := 2
/-- Notice queue (R190). -/
def noticeSize : Nat := 32
/-- Vendor code (R192). -/
def vendorCode : Nat := 1862
/-- Part code (R192). -/
def partCode : Nat := 40
/-- Silicon revision (R192). -/
def siliconRevision : Nat := 3
/-- The largest line time, at which the count stops (R153). -/
def maxTime : Nat := 4294967295
/-- The value of the sequence counter at which SUBMIT is refused (R44). -/
def maxCounter : Nat := 4294967295
/-- The largest seed (R45). -/
def maxSeed : Nat := 4294967279
/-- The largest unit number (R1). -/
def maxUnit : Nat := 4095
/-- The largest miss count (R3). -/
def maxMisses : Nat := 15
/-- Where transmissions made and rounds completed stay (R102). -/
def maxTally : Nat := 65535
/-- The bound of the clock offset (R6). -/
def maxOffset : Int := 32767
/-- The run time of an erase, in milliseconds (R172). -/
def eraseTime : Nat := 900
/-- The resume guard, in milliseconds (R174). -/
def guardTime : Nat := 20
/-- The largest length of a serial body (R186). -/
def maxBody : Nat := 240
/-- The start marker of a serial frame (R186). -/
def startMarker : Byte := 0xA5
/-- The part of the second is counted in units of 1/3000 s: 3 for a crystal millisecond, 30 for a zero crossing at 50 Hz,
25 for one at 60 Hz, so that every source and frequency counts whole units (R154, R161). -/
def secondParts : Nat := 3000

/-! The open values (log 3, 6, 11). -/

/-- OPEN (log 3): which of several events that are due at one moment comes first. The manual gives no order ("the first
taken decides"). -/
opaque dueChoice : Nat → Nat

/-- OPEN (log 11): whether a zero crossing of the reference phase falls in a given millisecond (R154 counts crossings,
not crystal time). -/
opaque zeroCrossing : Nat → Bool

/-- OPEN (log 6): the byte that names a kind of request (R186 gives no codes). -/
opaque requestByte : RequestKind → Byte

/-- OPEN (log 6): how the byte of a request's kind is marked as a reply (R186 says that it is, and not how). -/
opaque markReply : Byte → Byte

/-- OPEN (log 6): the byte that names one of the five kinds of notice (R186 gives no codes). -/
opaque noticeByte : Machine.NoticeKind → Byte

/-- OPEN (log 6): the byte of a result code (R186 gives no codes). -/
opaque resultByte : ResultCode → Byte

/-- OPEN (log 6): how many bytes follow the result code in the body of an OK reply, at most 239 because a body has at
most 240 (R186 gives no layout). -/
opaque replyLength : Machine.ReplyBody → Fin 240

/-- OPEN (log 6): the byte at a position after the result code (R186 gives no layout). -/
opaque replyByte : Machine.ReplyBody → Nat → Byte

/-- OPEN (log 6): how many bytes the body of a notice has, at most 240 (R186 gives no layout). -/
opaque noticeLength : Machine.Notice → Fin 241

/-- OPEN (log 6): the byte at a position of a notice's body (R186 gives no layout). -/
opaque noticeBodyByte : Machine.Notice → Nat → Byte

end Sys2Proof.Config
end

