-- ==== Sys2Proof/Machine/State.lean ====
section
/-! DEFINITION. The state of the block, one record per unit of the part (00_scope.md: each block owns its state), the
reasons a step can stop, and the state after reset. -/

namespace Sys2Proof.Machine

/-- The serial rates (R186). -/
inductive Rate where
  | b9600 | b19200 | b57600 | b115200
  deriving DecidableEq, Repr

/-- The mains frequencies (R161). -/
inductive Frequency where
  | hz50 | hz60
  deriving DecidableEq, Repr

/-- The link controller (chapter 10): the rate, the characters of a partial frame, the inbound queue, the waiting reply,
the notice queue with its lost flag, and the frame being transmitted. -/
structure Link where
  rate    : Rate
  rx      : List RxChar
  inbound : List Inbound
  reply   : Option Reply
  notices : List Notice
  lost    : Bool
  tx      : Option Outgoing
  deriving DecidableEq, Repr

/-- The roster unit (chapter 1). Entries stand in ascending unit order. -/
structure Roster where
  entries   : List Entry
  segments  : List Segment
  locked    : Bool
  attention : Nat
  threshold : Nat
  noticesOn : Bool
  deriving DecidableEq, Repr

/-- The campaign controller (chapter 3). A slot that no record of the table names is FREE; records stand in ascending
slot order. A counter of `none` is UNSET. -/
structure Campaigns where
  table            : List Campaign
  counter          : Option Nat
  defaultPassLimit : Nat
  deriving DecidableEq, Repr

/-- The line channels and the frame codec (chapters 6 and 7): the channels, the reports handed back and not yet taken,
and the parameters, the settle time in seconds and the others in milliseconds. -/
structure Line where
  channels      : PerPhase Channel
  reports       : PerPhase (List ChannelReport)
  settleTime    : Nat
  quietInterval : Nat
  accessLimit   : Nat
  replyBase     : Nat
  hopExtension  : Nat
  deriving DecidableEq, Repr

/-- The line clock (chapter 8). A time of `none` is UNSET; the part of the second is in units of 1/3000 s. -/
structure Clock where
  time        : Option Nat
  part        : Nat
  reference   : Option Phase
  source      : Source
  sourceParam : Source
  frequency   : Frequency
  deriving DecidableEq, Repr

/-- The plan store controller (chapter 9). The guard is the milliseconds left of the resume guard. -/
structure Store where
  slots       : List PlanSlot
  staging     : Staging
  arm         : Bool
  boundary    : Nat
  active      : Option Operation
  suspended   : Option SuspendedErase
  guard       : Option Nat
  waiting     : List SnapshotRequest
  deliveries  : List Delivery
  site        : Site
  autoSuspend : Bool
  deriving DecidableEq, Repr

/-- The whole state. `pending` is the queue of commands waiting, first in, first out; `free` numbers the open values
taken so far (log 3) and is the model's own. -/
structure State where
  pending   : List Instr
  free      : Nat
  pins      : Pins
  link      : Link
  roster    : Roster
  campaigns : Campaigns
  line      : Line
  clock     : Clock
  store     : Store
  deriving DecidableEq, Repr

/-- No command of this block faults: every request has a reply and every event an effect (chapters 1 to 10), so the type
of faults has no member. Nobody raises one; that is safe, because nothing is cut off. -/
inductive Fault where
  deriving DecidableEq, Repr

/-- Reasons a command has no meaning in the model. -/
inductive Refusal where
  /-- Raised by `exec` for a command that has no meaning yet; safe, because nothing is claimed of it. -/
  | notModelled (mnemonic : String)
  deriving DecidableEq, Repr

/-- What a meaning answers. -/
abbrev Result := Host.Outcome State Fault Refusal

/-! ## One setter per block -/

/-- `s` with another queue of waiting commands. -/
def State.setPending (s : State) (v : List Instr) : State := { s with pending := v }
/-- `s` with another count of open values taken. -/
def State.setFree (s : State) (v : Nat) : State := { s with free := v }
/-- `s` with other inputs. -/
def State.setPins (s : State) (v : Pins) : State := { s with pins := v }
/-- `s` with another link controller. -/
def State.setLink (s : State) (v : Link) : State := { s with link := v }
/-- `s` with another roster unit. -/
def State.setRoster (s : State) (v : Roster) : State := { s with roster := v }
/-- `s` with another campaign controller. -/
def State.setCampaigns (s : State) (v : Campaigns) : State := { s with campaigns := v }
/-- `s` with other line channels. -/
def State.setLine (s : State) (v : Line) : State := { s with line := v }
/-- `s` with another line clock. -/
def State.setClock (s : State) (v : Clock) : State := { s with clock := v }
/-- `s` with another plan store. -/
def State.setStore (s : State) (v : Store) : State := { s with store := v }

/-! ## Values at reset -/

/-- The empty set of attention flags. -/
def noFlags : Flags := ⟨false, false, false, false, false, false⟩

/-- A range in the cleared form of R13. -/
def clearedSegment : Segment := ⟨1, 1, none, false, false⟩

/-- The cleared segment map (R13). -/
def clearedMap : List Segment := List.replicate 8 clearedSegment

/-- The roster unit after power-on (R26, R8, R24). -/
def Roster.initial : Roster := ⟨[], clearedMap, false, 0, 4, true⟩

/-- The campaign controller after power-on (R74). -/
def Campaigns.initial : Campaigns := ⟨[], none, 5⟩

/-- A channel without work after power-on (R117). -/
def Channel.initial (a : Activity) : Channel := ⟨a, false, false, .fixed, 15⟩

/-- The line channels after power-on, with the activities R117 gives them and the parameters' defaults (R135, R152). -/
def Line.initial (a : PerPhase Activity) : Line :=
  ⟨⟨.initial a.l1, .initial a.l2, .initial a.l3⟩, ⟨[], [], []⟩, 5, 40, 3000, 300, 450⟩

/-- The blank staging buffer (R165). -/
def Staging.blank : Staging := ⟨none, none, List.replicate 12 none⟩

/-- The plan store after power-on, with the contents that power-on keeps (R179, R185). -/
def Store.initial (slots : List PlanSlot) (site : Site) : Store :=
  ⟨slots, .blank, false, 8, none, none, none, [], [], site, true⟩

/-- The memory as it comes from manufacture: every slot EMPTY (R163). -/
def factorySlots : List PlanSlot := List.replicate 32 .empty

/-- The site record as it comes from manufacture: blank and unlocked (R180). -/
def factorySite : Site := ⟨⟨none, none, none⟩, false⟩

/-- DESIGN CHOICE (log 7): the inputs at reset, no mains on any phase and both straps low. -/
def resetPins : Pins := ⟨⟨false, false, false⟩, false, false⟩

/-- The machine right after power-on of a part fresh from manufacture (log 8): R26, R74, R117, R162, R179, R193. With the
inputs of log 7 every channel is OFFLINE, the clock has no reference phase and runs on the crystal, and the rate is
9,600. -/
def State.reset : State where
  pending := []
  free := 0
  pins := resetPins
  link := ⟨.b9600, [], [], none, [], false, none⟩
  roster := .initial
  campaigns := .initial
  line := .initial ⟨.offline, .offline, .offline⟩
  clock := ⟨none, 0, none, .crystal, .mains, .hz50⟩
  store := .initial factorySlots factorySite

end Sys2Proof.Machine
end

