-- ==== Sys2Proof/Machine/Ops.lean ====
section
/-! DEFINITION. The named operations over the state: per-phase values, sets of slots, tables kept in order of a key, the
entry and campaign accessors, queueing a notice (R190), the transmitter's choice (R189) and taking a request (R188). -/

namespace Sys2Proof

/-- The value of one phase. -/
def PerPhase.get {α : Type} (p : PerPhase α) : Phase → α
  | .l1 => p.l1
  | .l2 => p.l2
  | .l3 => p.l3

/-- Another value for one phase. -/
def PerPhase.set {α : Type} (p : PerPhase α) (ph : Phase) (v : α) : PerPhase α :=
  match ph with
  | .l1 => { p with l1 := v }
  | .l2 => { p with l2 := v }
  | .l3 => { p with l3 := v }

/-- One function on all three phases. -/
def PerPhase.map {α β : Type} (f : α → β) (p : PerPhase α) : PerPhase β := ⟨f p.l1, f p.l2, f p.l3⟩

/-- The same value on all three phases. -/
def PerPhase.const {α : Type} (v : α) : PerPhase α := ⟨v, v, v⟩

/-- A value for each phase. -/
def PerPhase.ofFn {α : Type} (f : Phase → α) : PerPhase α := ⟨f .l1, f .l2, f .l3⟩

/-- The three values in the order L1, L2, L3. -/
def PerPhase.toList {α : Type} (p : PerPhase α) : List α := [p.l1, p.l2, p.l3]

/-- The phases in order (00_scope.md, Conventions). -/
def Phase.all : List Phase := [.l1, .l2, .l3]

/-- The next search phase (R11). -/
def Phase.next : Phase → Phase
  | .l1 => .l2
  | .l2 => .l3
  | .l3 => .l1

/-- The kind a reply to this request carries (R188). -/
def Request.kind : Request → RequestKind
  | .unknown k => .unknown k
  | .status => .status
  | .identify => .identify
  | .resetAll => .reset
  | .resetCampaigns => .reset
  | .paramSet _ => .paramSet
  | .paramGet _ => .paramGet
  | .clockSet _ => .clockSet
  | .sequenceSeed _ => .sequenceSeed
  | .submit _ => .submit
  | .campaignQuery _ => .campaignQuery
  | .campaignList => .campaignList
  | .hold _ => .hold
  | .resume _ => .resume
  | .cancel _ => .cancel
  | .release _ => .release
  | .rosterPut _ => .rosterPut
  | .rosterRemove _ => .rosterRemove
  | .rosterGet _ => .rosterGet
  | .rosterScan _ => .rosterScan
  | .rosterFlags _ => .rosterFlags
  | .segmentSet _ => .segmentSet
  | .segmentGet => .segmentGet
  | .segmentLock => .segmentLock
  | .lineMask _ => .lineMask
  | .lineStatus => .lineStatus
  | .planStage _ => .planStage
  | .planClear => .planClear
  | .planCommit _ => .planCommit
  | .planRead _ => .planRead
  | .sectorErase _ => .sectorErase
  | .eraseSuspend => .eraseSuspend
  | .eraseResume => .eraseResume
  | .storeArm => .storeArm
  | .storeDisarm => .storeDisarm
  | .storeProtect _ => .storeProtect
  | .storeStatus => .storeStatus
  | .siteWrite _ => .siteWrite
  | .siteLock => .siteLock
  | .siteRead => .siteRead

/-- The command that takes a request (R188). -/
def Inbound.command (i : Inbound) : Instr :=
  match i.req with
  | .unknown k => .unknownKind i.hdr k
  | .status => .status i.hdr
  | .identify => .identify i.hdr
  | .resetAll => .resetAll i.hdr
  | .resetCampaigns => .resetCampaigns i.hdr
  | .paramSet q => .paramSet i.hdr q
  | .paramGet q => .paramGet i.hdr q
  | .clockSet t => .clockSet i.hdr t
  | .sequenceSeed v => .sequenceSeed i.hdr v
  | .submit q => .submit i.hdr q
  | .campaignQuery q => .campaignQuery i.hdr q
  | .campaignList => .campaignList i.hdr
  | .hold q => .hold i.hdr q
  | .resume q => .resume i.hdr q
  | .cancel q => .cancel i.hdr q
  | .release q => .release i.hdr q
  | .rosterPut q => .rosterPut i.hdr q
  | .rosterRemove u => .rosterRemove i.hdr u
  | .rosterGet u => .rosterGet i.hdr u
  | .rosterScan q => .rosterScan i.hdr q
  | .rosterFlags q => .rosterFlags i.hdr q
  | .segmentSet q => .segmentSet i.hdr q
  | .segmentGet => .segmentGet i.hdr
  | .segmentLock => .segmentLock i.hdr
  | .lineMask q => .lineMask i.hdr q
  | .lineStatus => .lineStatus i.hdr
  | .planStage q => .planStage i.hdr q
  | .planClear => .planClear i.hdr
  | .planCommit p => .planCommit i.hdr p
  | .planRead p => .planRead i.hdr p
  | .sectorErase k => .sectorErase i.hdr k
  | .eraseSuspend => .eraseSuspend i.hdr
  | .eraseResume => .eraseResume i.hdr
  | .storeArm => .storeArm i.hdr
  | .storeDisarm => .storeDisarm i.hdr
  | .storeProtect v => .storeProtect i.hdr v
  | .storeStatus => .storeStatus i.hdr
  | .siteWrite q => .siteWrite i.hdr q
  | .siteLock => .siteLock i.hdr
  | .siteRead => .siteRead i.hdr

namespace Machine

/-! ## Sets and tables in order -/

/-- A set of numbers in ascending order, with one more member. -/
def insertNat (a : Nat) : List Nat → List Nat
  | [] => [a]
  | b :: r => if a < b then a :: b :: r else if a = b then b :: r else b :: insertNat a r

/-- A set of numbers without one member. -/
def removeNat (a : Nat) (l : List Nat) : List Nat := l.filter (fun b => b != a)

/-- The set of the members of a list. -/
def setOfList : List Nat → List Nat
  | [] => []
  | a :: r => insertNat a (setOfList r)

/-- A table in strictly ascending order of a key: at most one record for each. -/
def InOrder {α : Type} (key : α → Nat) (l : List α) : Prop := l.Pairwise (fun a b => key a < key b)

/-- A table in ascending order of a key, with one record put in: it replaces the record of its key. -/
def putBy {α : Type} (key : α → Nat) (a : α) : List α → List α
  | [] => [a]
  | b :: r => if key a < key b then a :: b :: r else if key a = key b then a :: r else b :: putBy key a r

/-- The record of a key. -/
def findBy {α : Type} (key : α → Nat) (k : Nat) (l : List α) : Option α := l.find? (fun a => key a == k)

/-- A table without the record of a key. -/
def removeBy {α : Type} (key : α → Nat) (k : Nat) (l : List α) : List α := l.filter (fun a => key a != k)

/-- A table with the record of one key changed. -/
def updateBy {α : Type} (key : α → Nat) (k : Nat) (f : α → α) (l : List α) : List α :=
  l.map (fun a => if key a = k then f a else a)

/-- The result code of the first check that fails, in the order a rule lists its checks. -/
def firstRefusal : List (Bool × ResultCode) → Option ResultCode
  | [] => none
  | (passes, code) :: rest => if passes then firstRefusal rest else some code

/-! ## Accessors -/

/-- The entry that holds a unit number, if any. -/
def State.entry (s : State) (u : Nat) : Option Entry := findBy Entry.unit u s.roster.entries

/-- `s` with other roster entries. -/
def State.setEntries (s : State) (l : List Entry) : State := s.setRoster { s.roster with entries := l }

/-- `s` with the entry of one unit changed. -/
def State.updateEntry (s : State) (u : Nat) (f : Entry → Entry) : State :=
  s.setEntries (updateBy Entry.unit u f s.roster.entries)

/-- The campaign in a slot; `none` when the slot is FREE (R43). -/
def State.campaign (s : State) (k : Nat) : Option Campaign := findBy Campaign.slot k s.campaigns.table

/-- `s` with another campaign table. -/
def State.setTable (s : State) (l : List Campaign) : State := s.setCampaigns { s.campaigns with table := l }

/-- `s` with the campaign of one slot changed. -/
def State.updateCampaign (s : State) (k : Nat) (f : Campaign → Campaign) : State :=
  s.setTable (updateBy Campaign.slot k f s.campaigns.table)

/-- The sixteen slots in ascending order (R43). -/
def allSlots : List Nat := List.range Config.campaignSlots

/-- The lowest FREE slot (R43). -/
def State.freeSlot (s : State) : Option Nat := allSlots.find? (fun k => (s.campaign k).isNone)

/-- The number of FREE slots (R43). -/
def State.freeSlots (s : State) : Nat := (allSlots.filter (fun k => (s.campaign k).isNone)).length

/-- One channel. -/
def State.channel (s : State) (ph : Phase) : Channel := s.line.channels.get ph

/-- `s` with another record of one channel. -/
def State.setChannel (s : State) (ph : Phase) (c : Channel) : State :=
  s.setLine { s.line with channels := s.line.channels.set ph c }

/-- `s` with one channel in another activity (R116). -/
def State.setActivity (s : State) (ph : Phase) (a : Activity) : State :=
  s.setChannel ph { s.channel ph with activity := a }

/-- The reports of one channel that the campaign controller has not taken. -/
def State.reports (s : State) (ph : Phase) : List ChannelReport := s.line.reports.get ph

/-- `s` with other untaken reports of one channel. -/
def State.setReports (s : State) (ph : Phase) (l : List ChannelReport) : State :=
  s.setLine { s.line with reports := s.line.reports.set ph l }

/-- A channel hands a report back to the campaign controller (R131). -/
def State.handBack (s : State) (ph : Phase) (r : ChannelReport) : State := s.setReports ph (s.reports ph ++ [r])

/-! ## Notices, the transmitter, and taking a request (chapter 10) -/

/-- A block hands a notice to the link controller (R190). -/
def State.notify (s : State) (n : Notice) : State :=
  if s.link.notices.length < Config.noticeSize then
    s.setLink { s.link with notices := s.link.notices ++ [n] }
  else
    s.setLink { s.link with lost := true }

/-- The transmitter's choice when it is free (R189): the waiting reply, or the notice at the head of the queue. -/
def Link.transmitted (l : Link) : Link :=
  match l.tx with
  | some _ => l
  | none =>
    match l.reply with
    | some r => { l with tx := some (.reply r), reply := none }
    | none =>
      match l.notices with
      | [] => l
      | n :: rest => { l with tx := some (.notice n), notices := rest }

/-- The transmitter chooses (R189). -/
def State.transmit (s : State) : State := s.setLink s.link.transmitted

/-- Every command ends with the transmitter's choice, so that a reply or notice handed over while the transmitter is
free begins at once, and a reply settled together with notices goes first (R188, R189). -/
def finish (s : State) : Result := .next s.transmit

/-- The service of a request by its owner: the state, the result code and the body. -/
structure Served where
  state : State
  code  : ResultCode
  body  : ReplyBody

/-- The request is accepted. -/
def accept (s : State) (b : ReplyBody) : Served := ⟨s, .ok, b⟩

/-- The request is refused: it has no effect and its reply carries the result code alone (00_scope.md, R188). -/
def refuse (s : State) (code : ResultCode) : Served := ⟨s, code, .none⟩

/-- A request can be taken when no reply is waiting and the request heads the inbound queue (R188). A request that comes
to an empty queue passes through it in the same command (log 4). -/
def State.mayTake (s : State) (h : Header) (r : Request) : Bool :=
  s.link.reply.isNone && (match s.link.inbound with
    | [] => true
    | head :: _ => decide (head = ⟨h, r⟩))

/-- `s` with the request at the head of the inbound queue removed. -/
def State.popInbound (s : State) : State := s.setLink { s.link with inbound := s.link.inbound.tail }

/-- The reply becomes the waiting reply, with the request's kind and tag (R188). -/
def State.settle (v : Served) (h : Header) (r : Request) : State :=
  v.state.setLink { v.state.link with reply := some ⟨r.kind, h.tag, v.code, v.body⟩ }

/-- What the link controller decides itself before the owner sees a request whose kind is known (R188, step 2). -/
def serveFormed (h : Header) (serve : State → Served) (s : State) : Served :=
  if h.tag = 0 ∨ h.formed = false then refuse s .malformed else serve s

/-- Taking a request whole (R188): it leaves the queue, its owner serves it, its reply waits, and the transmitter
chooses. A request that cannot be taken now changes nothing (log 1). -/
def takeRequest (h : Header) (r : Request) (serve : State → Served) (s : State) : Result :=
  if s.mayTake h r then finish (State.settle (serveFormed h serve s.popInbound) h r) else .next s

end Machine

end Sys2Proof
end

