-- ==== Sys2Proof/Machine/Flags.lean ====
section
/-! DEFINITION. The flag computations: the attention flags of an entry (section 1.1, R23) and the attention count with
its notice (R24). -/

namespace Sys2Proof

/-- At least one attention flag is set. -/
def Flags.any (f : Flags) : Bool :=
  f.phaseLearned || f.wentSilent || f.cameBack || f.routeFault || f.refused || f.reportNew

/-- One flag after ROSTER FLAGS (R23). -/
def assignFlag (old select value : Bool) : Bool := if select then value else old

/-- The flags after ROSTER FLAGS: those selected take their membership in the value set, the others are kept (R23). -/
def Flags.assign (f select value : Flags) : Flags where
  phaseLearned := assignFlag f.phaseLearned select.phaseLearned value.phaseLearned
  wentSilent := assignFlag f.wentSilent select.wentSilent value.wentSilent
  cameBack := assignFlag f.cameBack select.cameBack value.cameBack
  routeFault := assignFlag f.routeFault select.routeFault value.routeFault
  refused := assignFlag f.refused select.refused value.refused
  reportNew := assignFlag f.reportNew select.reportNew value.reportNew

namespace Machine

/-- The entries with a flag set, in ascending unit order. -/
def flagged (l : List Entry) : List Entry := l.filter (fun e => e.flags.any)

/-- The ATTENTION notice of R24: the new count and the lowest unit with a flag. -/
def attentionNotice (l : List Entry) : Option Notice :=
  match flagged l with
  | [] => none
  | e :: rest => some (.attention (rest.length + 1) e.unit)

/-- The attention count is brought up to date: leaving 0 while the parameter is ON queues a notice (R24). -/
def State.updateAttention (s : State) : State :=
  let count := (flagged s.roster.entries).length
  let t := s.setRoster { s.roster with attention := count }
  if s.roster.attention = 0 ∧ s.roster.noticesOn = true then
    match attentionNotice s.roster.entries with
    | some n => t.notify n
    | none => t
  else t

end Machine

end Sys2Proof
end

