-- ==== Sys2Proof/Machine/RosterUnit.lean ====
section
/-! DEFINITION. The roster unit's own operations (chapter 1): barring and phases, contact and miss reports, the silence
threshold, and the target query. -/

namespace Sys2Proof.Machine

/-! ## The segment map -/

/-- An enabled range that contains the unit (R13). -/
def Segment.governs (g : Segment) (u : Nat) : Bool := g.enabled && decide (g.first ≤ u) && decide (u ≤ g.last)

/-- The governing range of a unit: the lowest-indexed enabled range that contains it (R13). -/
def governing (map : List Segment) (u : Nat) : Option Segment := map.find? (fun g => g.governs u)

/-- A unit is barred when its governing range is (R13). -/
def barredBy (map : List Segment) (u : Nat) : Bool :=
  match governing map u with
  | some g => g.barred
  | none => false

/-- Whether an entry is barred now (R13). -/
def State.barred (s : State) (e : Entry) : Bool := barredBy s.roster.segments e.unit

/-- The phase that the segment map gives a unit: that of the lowest-indexed enabled range with a phase (R10, step 2). -/
def mapPhase (map : List Segment) (u : Nat) : Option Phase :=
  match map.find? (fun g => g.governs u && g.phase.isSome) with
  | some g => g.phase
  | none => none

/-- The resolved phase of an entry; `none` is unresolved (R10). -/
def State.resolved (s : State) (e : Entry) : Option Phase :=
  match e.phase with
  | some ph => some ph
  | none => mapPhase s.roster.segments e.unit

/-- The receiver's channel: the resolved phase, or else the search phase (R77). -/
def State.channelOf (s : State) (e : Entry) : Phase := (s.resolved e).getD e.searchPhase

/-! ## Routes -/

/-- Some entry's route names the unit (R17). -/
def State.routed (s : State) (u : Nat) : Bool := s.roster.entries.any (fun e => e.route.contains u)

/-! ## Contact -/

/-- What a contact report may carry (section 1.2). -/
inductive Extra where
  | nothing
  | confirmed (seq : Nat)
  | report (f : ReportFields) (heardAt : Option Nat)
  | refusal
  deriving DecidableEq, Repr

/-- The clock offset: the receiver's time less the line time at which the answer was received, within ±32,767 (R6, R87). -/
def clockOffset (receiver lineTime : Nat) : Int :=
  max (-Config.maxOffset) (min Config.maxOffset ((receiver : Int) - (lineTime : Int)))

/-- The status report record made of an answer's fields (R6, R140): no plan for identity 0, an offset exactly when the
receiver's clock is set. -/
def statusRecord (f : ReportFields) (heardAt now : Option Nat) : StatusReport where
  band := f.band
  relay1 := f.relay1
  relay2 := f.relay2
  plan := if f.planIdentity = 0 then none else some (f.planIdentity, f.planVersion)
  clockSet := f.clockSet
  clockOffset := if f.clockSet then heardAt.map (clockOffset f.time) else none
  receivedAt := now

/-- The extra of a contact report applied to an entry (R5, R6). -/
def Entry.applyExtra (e : Entry) (x : Extra) (now : Option Nat) : Entry :=
  match x with
  | .nothing => e
  | .confirmed seq => { e with lastConfirmed := some (match e.lastConfirmed with | some old => max old seq | none => seq) }
  | .report f heardAt =>
    { e with lastReport := some (statusRecord f heardAt now), flags := { e.flags with reportNew := true } }
  | .refusal => { e with flags := { e.flags with refused := true } }

/-- Phase learning (R12). -/
def Entry.learnPhase (e : Entry) (ch : Phase) : Entry :=
  match e.phase with
  | some _ => e
  | none => { e with phase := some ch, flags := { e.flags with phaseLearned := true } }

/-- The entry heard from (R3, R4). -/
def Entry.heard (e : Entry) (now : Option Nat) : Entry :=
  { e with
    misses := 0
    state := .active
    lastContact := now
    flags := { e.flags with cameBack := e.flags.cameBack || decide (e.state = .silent) } }

/-- The entry after a contact report (R4). -/
def Entry.contacted (e : Entry) (ch : Phase) (x : Extra) (now : Option Nat) : Entry :=
  ((e.heard now).learnPhase ch).applyExtra x now

/-- The roster unit takes a contact report; one that names no entry is discarded (R4, R9). -/
def State.contact (s : State) (u : Nat) (ch : Phase) (x : Extra) : State :=
  match s.entry u with
  | none => s
  | some _ => (s.updateEntry u (fun e => e.contacted ch x s.clock.time)).updateAttention

/-! ## Misses -/

/-- A miss counted: up to 15, with the passage to SILENT at the threshold (R7). -/
def Entry.countMiss (e : Entry) (threshold : Nat) : Entry :=
  let misses := min Config.maxMisses (e.misses + 1)
  if e.state ≠ .silent ∧ threshold ≤ misses then
    { e with misses := misses, state := .silent, flags := { e.flags with wentSilent := true } }
  else { e with misses := misses }

/-- The route-fault mark of a miss report (R7, R11). -/
def Entry.markRouteFault (e : Entry) (mark : Bool) : Entry :=
  if mark then { e with flags := { e.flags with routeFault := true } } else e

/-- The entry after a miss report: a miss for a resolved one, a step of the search for an unresolved one, with a miss on
the step from L3 to L1 (R7, R11). -/
def State.missed (s : State) (e : Entry) (mark : Bool) : Entry :=
  match s.resolved e with
  | some _ => (e.countMiss s.roster.threshold).markRouteFault mark
  | none =>
    let stepped := { e with searchPhase := e.searchPhase.next }
    if e.searchPhase = .l3 then (stepped.countMiss s.roster.threshold).markRouteFault mark
    else stepped.markRouteFault mark

/-- The roster unit takes a miss report; one that names no entry is discarded (R7, R9, R11). -/
def State.miss (s : State) (u : Nat) (mark : Bool) : State :=
  match s.entry u with
  | none => s
  | some _ => (s.updateEntry u (fun e => s.missed e mark)).updateAttention

/-- The slots pending at a unit that a miss report makes SILENT; empty when it does not (R94). -/
def State.silencedBy (s : State) (u : Nat) (mark : Bool) : List Nat :=
  match s.entry u with
  | none => []
  | some e => if e.state ≠ .silent ∧ (s.missed e mark).state = .silent then e.pending else []

/-! ## The silence threshold (R8) -/

/-- An entry at or above a lowered threshold becomes SILENT. -/
def Entry.underThreshold (e : Entry) (threshold : Nat) : Entry :=
  if e.state ≠ .silent ∧ threshold ≤ e.misses then
    { e with state := .silent, flags := { e.flags with wentSilent := true } }
  else e

/-- The slots pending at the entries that a threshold makes SILENT (R94). -/
def State.silencedByThreshold (s : State) (threshold : Nat) : List Nat :=
  setOfList ((s.roster.entries.filter (fun e => decide (e.state ≠ .silent ∧ threshold ≤ e.misses))).flatMap Entry.pending)

/-- A changed silence threshold: a lower one silences entries at once, and the attention count follows once (R8). -/
def State.setThreshold (s : State) (threshold : Nat) : State :=
  let t := s.setRoster { s.roster with threshold := threshold }
  if threshold < s.roster.threshold then
    (t.setEntries (s.roster.entries.map (fun e => e.underThreshold threshold))).updateAttention
  else t

/-! ## Targets (R25) -/

/-- An entry is a member of a target. -/
def Target.names (t : Target) (e : Entry) : Bool :=
  match t with
  | .unit u => e.unit == u
  | .group g => e.groups.contains g
  | .all => true

/-- The members of a target in ascending unit order. -/
def State.members (s : State) (t : Target) : List Entry := s.roster.entries.filter (fun e => t.names e)

/-- The members of a target that are not barred. -/
def State.openMembers (s : State) (t : Target) : List Entry := (s.members t).filter (fun e => !s.barred e)

/-- The barred members of a target. -/
def State.barredMembers (s : State) (t : Target) : List Entry := (s.members t).filter (fun e => s.barred e)

/-- An entry as ROSTER GET returns it (R21). -/
def State.view (s : State) (e : Entry) : EntryView := ⟨e, s.resolved e, s.barred e⟩

end Sys2Proof.Machine
end

