-- ==== Sys2Proof/Machine/StoreUnit.lean ====
section
/-! DEFINITION. The plan store controller's own operations (chapter 9): slots and sectors, the committable plan, and the
snapshots with the suspensions made for them. -/

namespace Sys2Proof.Machine

/-! ## Slots and sectors -/

/-- The sector of a plan slot (R163). -/
def sectorOf (planSlot : Nat) : Nat := planSlot / Config.slotsPerSector

/-- The state of a plan slot. -/
def Store.slot (st : Store) (p : Nat) : Option PlanSlot := st.slots[p]?

/-- The plan of a PROGRAMMED slot. -/
def Store.planOf (st : Store) (p : Nat) : Option Plan :=
  match st.slot p with
  | some (.programmed plan) => some plan
  | _ => none

/-- The four slots of a sector, all in one state. -/
def fillSector (sector : Nat) (v : PlanSlot) (slots : List PlanSlot) : List PlanSlot :=
  slots.mapIdx (fun p old => if sectorOf p = sector then v else old)

/-- The sector is being erased, in either phase (R164). -/
def Store.erasing (st : Store) (sector : Nat) : Bool :=
  match st.active with
  | some (.erase k _ _) => k == sector
  | _ => false

/-- The sector is the one of the suspended erase (R164). -/
def Store.sectorSuspended (st : Store) (sector : Nat) : Bool :=
  match st.suspended with
  | some e => e.sector == sector
  | none => false

/-- The sector is protected (R168). -/
def Store.covered (st : Store) (sector : Nat) : Bool := decide (sector < st.boundary)

/-! ## The staging buffer -/

/-- Positions start, start + 1 and so on, modulo 12, take the points (R165). -/
def stagePoints (start : Nat) : List Point → List (Option Point) → List (Option Point)
  | [], buffer => buffer
  | p :: rest, buffer =>
    stagePoints (start + 1) rest (buffer.set (start % Config.stagingPositions) (some p))

/-- The minutes are strictly increasing (R166). -/
def minutesRise : List Point → Bool
  | [] => true
  | [_] => true
  | p :: q :: rest => decide (p.minute < q.minute) && minutesRise (q :: rest)

/-- The filled positions from position 0 to the first blank one. -/
def filledRun : List (Option Point) → List Point
  | some p :: rest => p :: filledRun rest
  | _ => []

/-- The number of filled positions (R183). -/
def Staging.filled (b : Staging) : Nat := (b.points.filter Option.isSome).length

/-- The committable plan of the buffer (R166): both identity and version present, the filled positions one unbroken run
from position 0, the minutes strictly increasing, the bands within 1..8. -/
def Staging.committable (b : Staging) : Option Plan :=
  match b.identity, b.version with
  | some identity, some version =>
    let points := filledRun b.points
    if points ≠ [] ∧ points.length = b.filled ∧ minutesRise points = true
        ∧ points.all (fun p => decide (1 ≤ p.band) && decide (p.band ≤ 8)) = true then
      some ⟨identity, version, points⟩
    else none
  | _, _ => none

/-! ## Notices -/

/-- The controller hands over a STORE EVENT notice with the line time (R184). -/
def State.storeNotice (s : State) (e : StoreEvent) : State := s.notify (.storeEvent e s.clock.time)

/-! ## Snapshots (section 9.7) -/

/-- A waiting list in ascending order of sequence, with one request more (R176). -/
def insertRequest (r : SnapshotRequest) : List SnapshotRequest → List SnapshotRequest
  | [] => [r]
  | q :: rest => if r.seq < q.seq then r :: q :: rest else q :: insertRequest r rest

/-- Deliveries in ascending order of sequence, with one delivery more (R176, log 17). -/
def insertDelivery (d : Delivery) : List Delivery → List Delivery
  | [] => [d]
  | e :: rest => if d.seq < e.seq then d :: e :: rest else e :: insertDelivery d rest

/-- Taking the waiting requests in list order: each plan is copied as it stands and handed over (R176). A request whose
slot is not PROGRAMMED, which the law of R171 rules out, stays on the list. -/
def Store.takeSnapshots (st : Store) : Store :=
  { st with
    waiting := st.waiting.filter (fun r => (st.planOf r.planSlot).isNone)
    deliveries := st.waiting.foldl
      (fun l r => match st.planOf r.planSlot with
        | some plan => insertDelivery ⟨r.slot, r.seq, plan⟩ l
        | none => l)
      st.deliveries }

/-- The controller puts an ERASING erase into SUSPENDING for waiting requests (R177). -/
def Store.autoSuspendErase (st : Store) : Store :=
  match st.active with
  | some (.erase sector .erasing runTime) =>
    if st.autoSuspend = true ∧ st.guard = none ∧ st.waiting ≠ [] then
      { st with active := some (.erase sector (.suspending .snapshot) runTime) }
    else st
  | _ => st

/-- What the controller does for waiting requests: a free store takes them, an erase may be suspended for them (R176,
R177). -/
def Store.serve (st : Store) : Store :=
  match st.active with
  | none => st.takeSnapshots
  | some _ => st.autoSuspendErase

/-- A request joins the list (R176). -/
def State.joinSnapshots (s : State) (r : SnapshotRequest) : State :=
  s.setStore ({ s.store with waiting := insertRequest r s.store.waiting }).serve

/-- The request of a campaign that stops being PREPARING is withdrawn (R178). -/
def State.withdrawSnapshot (s : State) (slot : Nat) : State :=
  s.setStore { s.store with waiting := s.store.waiting.filter (fun r => r.slot != slot) }

end Sys2Proof.Machine
end

