-- ==== Sys2Proof/Machine/CampaignUnit.lean ====
section
/-! DEFINITION. The campaign controller's own operations (chapters 3 to 5): the end of a campaign, the settling of a
receiver, work in flight, owed and eligible receivers, pass and round ends, activation with supersession, and the
times. -/

namespace Sys2Proof.Machine

/-! ## Reading a campaign -/

/-- The class of an order (R28). -/
def OrderBody.cls : OrderBody → OrderClass
  | .bandSet _ => .bandSet
  | .loadSwitch _ _ _ => .loadSwitch
  | .planLoad _ => .planLoad
  | .clockSync => .clockSync
  | .statusPoll => .statusPoll

/-- The supersession class of an order (R42). -/
def OrderBody.superClass : OrderBody → Option SuperClass
  | .bandSet _ => some .band
  | .loadSwitch relay _ _ => if relay = 1 then some .load1 else some .load2
  | .planLoad _ => some .plan
  | .clockSync => none
  | .statusPoll => none

/-- The plan slot of a PLAN LOAD (R32). -/
def OrderBody.planSlot : OrderBody → Option Nat
  | .planLoad p => some p
  | _ => none

/-- The mode of a campaign (R50). -/
def Campaign.mode (c : Campaign) : Mode :=
  match c.terms with
  | .confirmed _ => .confirmed
  | .broadcast _ _ _ => .broadcast

/-- A live state (section 3.4). -/
def CampaignState.live : CampaignState → Bool
  | .waiting | .preparing | .running | .held | .resting => true
  | .complete | .exhausted | .expired | .cancelled | .superseded | .aborted => false

/-- RUNNING or HELD. -/
def CampaignState.active : CampaignState → Bool
  | .running | .held => true
  | _ => false

/-- The fragments of a plan: the points divided by four, rounded up (R32). -/
def Plan.fragments (p : Plan) : Nat := (p.points.length + 3) / 4

/-- The fragment count of a campaign's order: 1, or that of the snapshot (R32). -/
def Campaign.fragments (c : Campaign) : Nat :=
  match c.snapshot with
  | some p => p.fragments
  | none => 1

/-! ## The end of a campaign (R69, R72) -/

/-- What the CAMPAIGN ENDED notice carries (R72). -/
def Campaign.endedNotice (c : Campaign) : EndedNotice where
  slot := c.slot
  seq := c.seq
  cls := c.order.body.cls
  mode := c.mode
  state := c.state
  reason := c.reason
  endedAt := c.endedAt
  targets := c.targets
  barred := c.targets.map (fun _ => c.counts.barred)
  account := match c.mode with
    | .confirmed => some (c.counts, c.byReason)
    | .broadcast => none
  pass := c.pass
  run := c.run

/-- The slot leaves an entry's pending and tried sets (R48). -/
def Entry.release (e : Entry) (slot : Nat) : Entry :=
  { e with pending := removeNat slot e.pending, tried := removeNat slot e.tried }

/-- The slot leaves every pending and tried set (R69, step 2). -/
def State.releaseAll (s : State) (slot : Nat) : State :=
  s.setEntries (s.roster.entries.map (fun e => e.release slot))

/-- The record in its terminal state (R69, step 1); the interval timer stops (R108). -/
def Campaign.ended (c : Campaign) (state : CampaignState) (reason : EndReason) (now : Option Nat) : Campaign :=
  { c with state := state, reason := some reason, endedAt := now, intervalTimer := none }

/-- A campaign enters a terminal state (R69). A slot without a live campaign is left as it is. -/
def State.endCampaign (s : State) (slot : Nat) (state : CampaignState) (reason : EndReason) : State :=
  match s.campaign slot with
  | none => s
  | some c =>
    if c.state.live then
      let t := (s.updateCampaign slot (fun d => d.ended state reason s.clock.time)).releaseAll slot
      let u := if c.state = .preparing then t.withdrawSnapshot slot else t
      u.notify (.campaignEnded (c.ended state reason s.clock.time).endedNotice)
    else s

/-! ## Settling a receiver (R47, R48) -/

/-- One receiver is settled for a campaign: the slot leaves its sets, its column rises and outstanding falls (R47). -/
def State.settleReceiver (s : State) (slot unit : Nat) (column : Campaign → Campaign) : State :=
  (s.updateEntry unit (fun e => e.release slot)).updateCampaign slot (fun c =>
    let d := column c
    { d with counts := { d.counts with outstanding := d.counts.outstanding - 1 } })

/-- A campaign whose outstanding has reached 0 becomes COMPLETE, from RUNNING or HELD (R69). -/
def State.completeIfSettled (s : State) (slot : Nat) (reason : EndReason) : State :=
  match s.campaign slot with
  | some c => if c.state.active = true ∧ c.counts.outstanding = 0 then s.endCampaign slot .complete reason else s
  | none => s

/-- One more in a column of R47. -/
def Campaign.addApplied (c : Campaign) : Campaign := { c with counts := { c.counts with applied := c.counts.applied + 1 } }
/-- One more declined (R88). -/
def Campaign.addDeclined (c : Campaign) : Campaign := { c with counts := { c.counts with declined := c.counts.declined + 1 } }
/-- One more dropped (R71). -/
def Campaign.addDropped (c : Campaign) : Campaign := { c with counts := { c.counts with dropped := c.counts.dropped + 1 } }

/-- One more refused for a reason (R47, R89). -/
def RefusedCounts.add (n : RefusedCounts) : Reason → RefusedCounts
  | .bandUnsupported => { n with bandUnsupported := n.bandUnsupported + 1 }
  | .relayAbsent => { n with relayAbsent := n.relayAbsent + 1 }
  | .planRejected => { n with planRejected := n.planRejected + 1 }
  | .noTime => { n with noTime := n.noTime + 1 }

/-- One more refused, with its reason (R89). -/
def Campaign.addRefused (r : Reason) (c : Campaign) : Campaign :=
  { c with counts := { c.counts with refused := c.counts.refused + 1 }, byReason := c.byReason.add r }

/-! ## Work in flight -/

/-- The unit of work of an activity (R116). -/
def Activity.work : Activity → Option Work
  | .offline => none
  | .settling _ => none
  | .idle => none
  | .sensing w _ _ => some w
  | .sending w _ => some w
  | .awaiting w _ => some w

/-- The unit of work whose outcome a report hands back. -/
def ChannelReport.work : ChannelReport → Option Work
  | .outcome w _ => some w
  | .transmissionEnded _ _ => none
  | .tailEnded _ _ => none

/-- Every unit of work in flight: on a channel, or handed back with an outcome not yet taken (R85, R131). -/
def State.works (s : State) : List Work :=
  (s.line.channels.toList.filterMap (fun c => c.activity.work))
    ++ (s.line.reports.toList.flatMap (fun l => l.filterMap ChannelReport.work))

/-- The unit of work was granted to this campaign. -/
def Work.of (w : Work) (c : Campaign) : Bool := w.slot == c.slot && w.seq == c.seq

/-- The destination of an exchange. -/
def Work.dest (w : Work) : Option Nat :=
  match w.kind with
  | .exchange dest _ => some dest
  | .broadcast _ _ => none

/-- A unit of work of the campaign is in flight (R94). -/
def State.inFlight (s : State) (c : Campaign) : Bool := s.works.any (fun w => w.of c)

/-- An exchange of the campaign with this receiver is in flight (R78, third condition). -/
def State.claimed (s : State) (c : Campaign) (unit : Nat) : Bool :=
  s.works.any (fun w => w.of c && (w.dest == some unit))

/-! ## Owed and eligible receivers (R76 to R79) -/

/-- The campaign owes the entry an attempt in its current pass (R76). -/
def Campaign.owes (c : Campaign) (e : Entry) : Bool :=
  e.pending.contains c.slot && !e.tried.contains c.slot && (c.pass == some 1 || decide (e.state ≠ .silent))

/-- The entry is eligible for the campaign on a channel (R78). -/
def State.eligible (s : State) (c : Campaign) (ph : Phase) (e : Entry) : Bool :=
  c.owes e && decide (s.channelOf e = ph) && !s.claimed c e.unit

/-- The eligible receiver with the lowest unit number (R79). -/
def State.firstEligible (s : State) (c : Campaign) (ph : Phase) : Option Entry :=
  s.roster.entries.find? (fun e => s.eligible c ph e)

/-- A transmission-ended report of the campaign on the channel awaits taking (R102). -/
def State.countPending (s : State) (c : Campaign) (ph : Phase) : Bool :=
  (s.reports ph).contains (.transmissionEnded c.slot c.seq)

/-- The campaign requests a channel (R78, R102, R127). -/
def State.requests (s : State) (ph : Phase) (c : Campaign) : Bool :=
  decide (c.state = .running) && (match c.terms with
    | .confirmed _ => (s.firstEligible c ph).isSome
    | .broadcast _ _ _ =>
      (match c.run with
        | some r => decide (0 < r.remaining.get ph)
        | none => false) && !s.countPending c ph)

/-- The requesting set of a channel, in ascending slot order (R127). -/
def State.requesting (s : State) (ph : Phase) : List Campaign := s.campaigns.table.filter (fun c => s.requests ph c)

/-! ## The end of a pass (section 4.6) -/

/-- The pass of a confirmed campaign in RUNNING has ended (R94). -/
def State.passEnded (s : State) (c : Campaign) : Bool :=
  decide (c.state = .running) && decide (c.mode = .confirmed)
    && !s.roster.entries.any (fun e => c.owes e) && !s.inFlight c

/-- The slot leaves every tried set (R96). -/
def State.clearTried (s : State) (slot : Nat) : State :=
  s.setEntries (s.roster.entries.map (fun e => { e with tried := removeNat slot e.tried }))

/-- Pass ends are taken until a pass owes somebody or the pass limit ends the campaign (R94, R96, R97). The number of
rounds bounds the pass limit, 16. -/
def State.runPasses : Nat → Nat → State → State
  | 0, _, s => s
  | n + 1, slot, s =>
    match s.campaign slot with
    | none => s
    | some c =>
      match c.terms with
      | .broadcast _ _ _ => s
      | .confirmed limit =>
        if s.passEnded c then
          if c.pass.getD 1 < limit then
            State.runPasses n slot ((s.clearTried slot).updateCampaign slot (fun d => { d with pass := some (c.pass.getD 1 + 1) }))
          else s.endCampaign slot .exhausted .passLimit
        else s

/-- The campaign controller examines whether the pass of a campaign has ended (R94). -/
def State.examinePass (s : State) (slot : Nat) : State := State.runPasses 17 slot s

/-- The examination of the campaigns whose owed receivers became SILENT, in ascending slot order: those past pass 1
(R92, R94). -/
def State.examineSilenced (s : State) (slots : List Nat) : State :=
  slots.foldl (fun t k =>
    match t.campaign k with
    | some c => if 1 < c.pass.getD 1 then t.examinePass k else t
    | none => t) s

/-! ## The end of a round (R108) -/

/-- One more round completed, up to 65,535 (R102). -/
def BroadcastRun.countRound (r : BroadcastRun) : BroadcastRun :=
  { r with rounds := r.rounds.map (fun n => min Config.maxTally (n + 1)) }

/-- Remaining is 0 on every phase (R108). -/
def BroadcastRun.spent (r : BroadcastRun) : Bool := r.remaining.toList.all (fun n => n == 0)

/-- The campaign controller examines whether the round of a campaign has ended (R108). -/
def State.examineRound (s : State) (slot : Nat) : State :=
  match s.campaign slot with
  | none => s
  | some c =>
    match c.terms, c.run with
    | .broadcast _ _ interval, some r =>
      if c.state = .running ∧ r.spent = true then
        match interval with
        | none => s.endCampaign slot .complete .roundDone
        | some seconds =>
          s.updateCampaign slot (fun d =>
            { d with state := .resting, run := some r.countRound, intervalTimer := some (seconds * 1000) })
      else s
    | _, _ => s

/-! ## Drops (R71) -/

/-- A receiver is dropped from one campaign; the campaign may complete, or its pass may end (R71, R94). -/
def State.dropFrom (s : State) (unit slot : Nat) : State :=
  ((s.settleReceiver slot unit Campaign.addDropped).completeIfSettled slot .settled).examinePass slot

/-- A receiver is dropped from every campaign in its pending set, in ascending slot order (R71). -/
def State.dropReceiver (s : State) (unit : Nat) : State :=
  match s.entry unit with
  | none => s
  | some e => e.pending.foldl (fun t slot => t.dropFrom unit slot) s

/-! ## Activation (section 3.5) -/

/-- The phases a member contributes to a group broadcast: its resolved phase, or all three (R101). -/
def State.contributes (s : State) (e : Entry) (ph : Phase) : Bool :=
  match s.resolved e with
  | some own => decide (own = ph)
  | none => true

/-- The target phases of a broadcast (R101). -/
def State.targetPhases (s : State) (t : Target) : PerPhase Bool :=
  match t with
  | .all => .const true
  | .unit _ => .ofFn (fun ph => (s.openMembers t).any (fun e => s.contributes e ph))
  | .group _ => .ofFn (fun ph => (s.openMembers t).any (fun e => s.contributes e ph))

/-- Remaining as a load sets it: repeats base + 1 on each target phase, 0 elsewhere (R57, R110). -/
def loadRemaining (phases : PerPhase Bool) (repeatsBase : Nat) : PerPhase Nat :=
  phases.map (fun target => if target then repeatsBase + 1 else 0)

/-- Step 2 of activation: the account is opened and the work fixed (R56, R57). -/
def State.openAccount (s : State) (slot : Nat) : State :=
  match s.campaign slot with
  | none => s
  | some c =>
    let barred := (s.barredMembers c.target).length
    let targets := (s.openMembers c.target).length
    match c.terms with
    | .confirmed _ =>
      (s.updateCampaign slot (fun d =>
        { d with
          state := .running
          targets := some targets
          pass := some 1
          counts := { d.counts with barred := barred, outstanding := targets } })).setEntries
        (s.roster.entries.map (fun e =>
          if c.target.names e && !s.barred e then { e with pending := insertNat slot e.pending } else e))
    | .broadcast repeatsBase _ interval =>
      let phases := s.targetPhases c.target
      s.updateCampaign slot (fun d =>
        { d with
          state := .running
          targets := some targets
          counts := { d.counts with barred := barred }
          run := some ⟨phases, loadRemaining phases repeatsBase, .const 0, interval.map (fun _ => 0)⟩ })

/-- An older CONFIRMED campaign gives up the receivers it shares with a newer CONFIRMED one (R58). Its pass may end by it
(R94). -/
def State.overtake (s : State) (old new : Nat) : State :=
  let shared := s.roster.entries.filter (fun e => e.pending.contains new && e.pending.contains old)
  if shared = [] then s
  else
    (((s.setEntries (s.roster.entries.map (fun e => if e.pending.contains new && e.pending.contains old then e.release old else e))).updateCampaign
        old (fun d =>
          { d with counts :=
              { d.counts with
                superseded := d.counts.superseded + shared.length
                outstanding := d.counts.outstanding - shared.length } })).completeIfSettled old .overtaken).examinePass old

/-- Step 3 for one older campaign (R58, R59). -/
def State.supersedeOne (s : State) (new : Campaign) (slot : Nat) : State :=
  match s.campaign slot with
  | none => s
  | some c =>
    if c.seq < new.seq ∧ c.state.active = true ∧ c.order.body.superClass = new.order.body.superClass then
      match c.mode, new.mode with
      | .confirmed, .confirmed => s.overtake c.slot new.slot
      | .confirmed, .broadcast => s
      | .broadcast, _ => if c.target = new.target then s.endCampaign slot .superseded .newer else s
    else s

/-- Step 3 of activation: supersession of older campaigns of the same class, in ascending slot order (R58, R59). -/
def State.supersede (s : State) (slot : Nat) : State :=
  match s.campaign slot with
  | none => s
  | some c =>
    match c.order.body.superClass with
    | none => s
    | some _ => allSlots.foldl (fun t k => t.supersedeOne c k) s

/-- No phase is a target phase. -/
def BroadcastRun.aimless (r : BroadcastRun) : Bool := !(r.phases.toList.any id)

/-- The unit of a UNIT target has left the roster (R60). -/
def State.targetGone (s : State) (t : Target) : Bool :=
  match t with
  | .unit u => (s.entry u).isNone
  | .group _ => false
  | .all => false

/-- A campaign that has just opened its account has nothing to deliver (R60). -/
def Campaign.nothingToDeliver (c : Campaign) : Bool :=
  match c.mode with
  | .confirmed => decide (c.targets = some 0)
  | .broadcast => c.run.any BroadcastRun.aimless

/-- Step 4 of activation: is there anything to deliver? (R60) -/
def State.checkWork (s : State) (slot : Nat) : State :=
  match s.campaign slot with
  | none => s
  | some c =>
    if s.targetGone c.target then s.endCampaign slot .aborted .targetGone
    else if c.nothingToDeliver then s.endCampaign slot .complete .noTargets
    else s

/-- Entry into RUNNING from WAITING, from PREPARING or at acceptance (R55). -/
def State.enterRunning (s : State) (slot : Nat) : State :=
  ((s.openAccount slot).supersede slot).checkWork slot

/-- Activation: activated at is set, a PLAN LOAD enters PREPARING with its snapshot request, any other class enters
RUNNING (R52, R53, R54). -/
def State.activate (s : State) (slot : Nat) : State :=
  match s.campaign slot with
  | none => s
  | some c =>
    let t := s.updateCampaign slot (fun d => { d with activatedAt := s.clock.time })
    match c.order.body.planSlot with
    | some p => (t.updateCampaign slot (fun d => { d with state := .preparing })).joinSnapshots ⟨slot, c.seq, p⟩
    | none => t.enterRunning slot

/-! ## Times (R68, R73) -/

/-- A time given is reached at a line time. -/
def reached (t : Option Nat) (now : Nat) : Bool :=
  match t with
  | some v => decide (v ≤ now)
  | none => false

/-- The deadline of the campaign in a slot is taken when reached (R68). -/
def State.takeDeadline (s : State) (now slot : Nat) : State :=
  match s.campaign slot with
  | none => s
  | some c =>
    if c.state.live = true ∧ reached c.deadline now = true then
      if c.state = .resting then s.endCampaign slot .complete .deadline else s.endCampaign slot .expired .deadline
    else s

/-- The start time of the campaign in a slot is taken when reached (R53). -/
def State.takeStart (s : State) (now slot : Nat) : State :=
  match s.campaign slot with
  | none => s
  | some c => if c.state = .waiting ∧ reached c.start now = true then s.activate slot else s

/-- The campaign controller takes a line time, as a second's advance or a step: every deadline reached, then every start
reached, each in ascending slot order (R73, R154). -/
def State.timeReached (s : State) (now : Nat) : State :=
  allSlots.foldl (fun t k => t.takeStart now k) (allSlots.foldl (fun t k => t.takeDeadline now k) s)

end Sys2Proof.Machine
end

