-- ==== Sys2Proof/Machine/Operands.lean ====
section
/-! DEFINITION. The operand forms of the requests: ranges and codes as the owning rules check them, and the values a
request's fields stand for once they pass. -/

namespace Sys2Proof.Machine

/-- A value within a range that includes both ends (00_scope.md, Conventions). -/
def within (lo n hi : Nat) : Bool := decide (lo ≤ n) && decide (n ≤ hi)

/-- An optional value, when present, within a range. -/
def optWithin (lo : Nat) (n : Option Nat) (hi : Nat) : Bool :=
  match n with
  | some v => within lo v hi
  | none => true

/-- A unit number of a receiver: 1..4,095 (R1). -/
def validUnit (u : Nat) : Bool := within 1 u Config.maxUnit

/-- No member of a list stands in it twice. -/
def distinct : List Nat → Bool
  | [] => true
  | a :: r => !r.contains a && distinct r

/-! ## ROSTER PUT (R18) -/

/-- Check 1 of R18. -/
def rosterPutInRange (q : RosterPutReq) : Bool :=
  validUnit q.unit && q.role.isSome && q.phase.isSome
    && decide (q.groups.length ≤ 4) && q.groups.all (fun g => within 1 g 63) && distinct q.groups
    && decide (q.route.length ≤ 3) && q.route.all validUnit

/-- Check 2 of R18. -/
def rosterRouteSound (q : RosterPutReq) : Bool := !q.route.contains q.unit && distinct q.route

/-! ## SEGMENT SET (R14) -/

/-- The fields of R14 within their lists, as the range they make; `none` is MALFORMED. -/
def segmentRange? (q : SegmentSetReq) : Option Segment :=
  match q.phase, q.barred, q.enabled with
  | some ph, some barred, some enabled =>
    if q.index < 8 ∧ validUnit q.first = true ∧ validUnit q.last = true ∧ q.first ≤ q.last then
      some ⟨q.first, q.last, ph, barred, enabled⟩
    else none
  | _, _, _ => none

/-! ## SUBMIT (R28, R49, R50) -/

/-- The order's class and parameters when they are valid (R28). -/
def orderBody? (o : OrderReq) : Option OrderBody :=
  match o with
  | .bandSet b => if within 1 b 8 then some (.bandSet b) else none
  | .loadSwitch relay action duration =>
    match action with
    | some a => if within 1 relay 2 && within 0 duration 1440 then some (.loadSwitch relay a duration) else none
    | none => none
  | .planLoad p => if p < Config.planSlots then some (.planLoad p) else none
  | .clockSync => some .clockSync
  | .statusPoll => some .statusPoll
  | .other => none

/-- The modes a class allows (R28). -/
def OrderBody.allows (b : OrderBody) (m : Mode) : Bool :=
  match b, m with
  | .clockSync, .confirmed => false
  | .statusPoll, .broadcast => false
  | _, _ => true

/-- The classes that may carry an effective time (R28). -/
def OrderBody.mayWait : OrderBody → Bool
  | .clockSync | .statusPoll => false
  | .bandSet _ | .loadSwitch _ _ _ | .planLoad _ => true

/-- Check 5 of R49: the order valid for its class and mode (R28). -/
def submitOrder? (q : SubmitReq) : Option Order :=
  match orderBody? q.order, q.mode with
  | some body, some mode =>
    if body.allows mode = true ∧ (q.effective.isNone || body.mayWait) = true then some ⟨body, q.effective⟩ else none
  | _, _ => none

/-- Check 6 of R49. -/
def submitTarget? (q : SubmitReq) : Option Target :=
  match q.target with
  | .unit u => if validUnit u then some (.unit u) else none
  | .group g => if within 1 g 63 then some (.group g) else none
  | .all => some .all
  | .other => none

/-- Check 8 of R49: the mode's fields present or absent and within range, with their defaults (R50). -/
def submitTerms? (q : SubmitReq) (defaultPassLimit : Nat) : Option Terms :=
  match q.mode with
  | none => none
  | some .confirmed =>
    if optWithin 1 q.passLimit 16 = true ∧ q.repeatsBase = none ∧ q.hopBudget = none ∧ q.interval = none then
      some (.confirmed (q.passLimit.getD defaultPassLimit))
    else none
  | some .broadcast =>
    if q.passLimit = none ∧ optWithin 0 q.repeatsBase 15 = true ∧ optWithin 0 q.hopBudget 3 = true
        ∧ optWithin 60 q.interval 86400 = true then
      some (.broadcast (q.repeatsBase.getD 0) (q.hopBudget.getD 0) q.interval)
    else none

/-- A BROADCAST target is GROUP or ALL (R49, check 7). -/
def submitBroadcastable (q : SubmitReq) : Bool :=
  match q.mode, q.target with
  | some .broadcast, .unit _ => false
  | _, _ => true

/-- Priority is required, in 0..3 (R50). -/
def submitPriority? (q : SubmitReq) : Option Nat :=
  match q.priority with
  | some p => if p ≤ 3 then some p else none
  | none => none

/-- A present deadline is a line time later than now; an absent one needs a standing broadcast (R49 check 9, R51). -/
def submitDeadlineValid (q : SubmitReq) (now : Nat) : Bool :=
  match q.deadline with
  | some d => decide (now < d) && decide (d ≤ Config.maxTime)
  | none => decide (q.mode = some .broadcast) && q.interval.isSome

/-- A present start time is a line time, and earlier than a present deadline (R49 check 10). -/
def submitStartValid (q : SubmitReq) : Bool :=
  match q.start with
  | none => true
  | some t => decide (t ≤ Config.maxTime) && (match q.deadline with | some d => decide (t < d) | none => true)

/-- A present effective time is a line time with a deadline beside it, and not earlier than the deadline (R49 check 11). -/
def submitEffectiveValid (q : SubmitReq) : Bool :=
  match q.effective with
  | none => true
  | some t => decide (t ≤ Config.maxTime) && (match q.deadline with | some d => decide (d ≤ t) | none => false)

/-- The unit of a UNIT target is present (R49 check 12). -/
def State.targetPresent (s : State) (t : TargetReq) : Bool :=
  match t with
  | .unit u => (s.entry u).isSome
  | .group _ | .all | .other => true

/-- The plan slot of a PLAN LOAD is PROGRAMMED (R49 check 13). -/
def State.planPresent (s : State) (o : OrderReq) : Bool :=
  match o with
  | .planLoad p => (s.store.planOf p).isSome
  | .bandSet _ | .loadSwitch _ _ _ | .clockSync | .statusPoll | .other => true

/-- The sector of a PLAN LOAD's slot is neither being erased nor suspended (R49 check 14). -/
def State.planQuiet (s : State) (o : OrderReq) : Bool :=
  match o with
  | .planLoad p => !s.store.erasing (sectorOf p) && !s.store.sectorSuspended (sectorOf p)
  | .bandSet _ | .loadSwitch _ _ _ | .clockSync | .statusPoll | .other => true

/-- The fifteen checks of R49, in order. -/
def State.submitRefusal (s : State) (q : SubmitReq) : Option ResultCode :=
  firstRefusal [
    (s.clock.time.isSome, .clockUnset),
    (s.campaigns.counter.isSome, .noSequence),
    (decide (s.campaigns.counter.getD 0 < Config.maxCounter), .sequenceExhausted),
    (s.store.site.fields.network.isSome, .noNetwork),
    ((submitOrder? q).isSome, .malformed),
    ((submitTarget? q).isSome, .malformed),
    (submitBroadcastable q, .malformed),
    ((submitTerms? q s.campaigns.defaultPassLimit).isSome && (submitPriority? q).isSome, .malformed),
    (submitDeadlineValid q (s.clock.time.getD 0), .malformed),
    (submitStartValid q, .malformed),
    (submitEffectiveValid q, .malformed),
    (s.targetPresent q.target, .notFound),
    (s.planPresent q.order, .notFound),
    (s.planQuiet q.order, .storeBusy),
    (s.freeSlot.isSome, .full)]

/-- The record an accepted SUBMIT creates (R46), in WAITING until it activates. -/
def newCampaign (slot seq : Nat) (order : Order) (target : Target) (terms : Terms) (priority : Nat) (q : SubmitReq) :
    Campaign where
  slot := slot
  seq := seq
  order := order
  target := target
  terms := terms
  priority := priority
  start := q.start
  deadline := q.deadline
  state := .waiting
  reason := none
  pass := none
  run := none
  snapshot := none
  targets := none
  counts := ⟨0, 0, 0, 0, 0, 0, 0⟩
  byReason := ⟨0, 0, 0, 0⟩
  activatedAt := none
  endedAt := none
  intervalTimer := none

/-- The start time is absent, or has come (R52). -/
def submitStartsNow (q : SubmitReq) (now : Nat) : Bool :=
  match q.start with
  | none => true
  | some t => decide (t ≤ now)

/-! ## PLAN STAGE (R165) and SITE WRITE (R181) -/

/-- The conditions of R165. -/
def planStageInRange (q : PlanStageReq) : Bool :=
  decide (q.start < Config.stagingPositions) && within 1 q.points.length 12
    && q.points.all (fun p => decide (p.minute ≤ 1439) && within 1 p.band 8)
    && optWithin 1 q.identity 65535 && optWithin 0 q.version 255

/-- Check 1 of R181: at least one field is carried, and each carried value lies in its range (R180). -/
def siteInRange (q : SiteFields) : Bool :=
  (q.network.isSome || q.kiosk.isSome || q.floor.isSome) && optWithin 1 q.network 4094 && optWithin 0 q.floor 8

/-- Every field carried by `q` is blank in `f` (R181, check 5). -/
def siteBlankFor (f q : SiteFields) : Bool :=
  (q.network.isNone || f.network.isNone) && (q.kiosk.isNone || f.kiosk.isNone) && (q.floor.isNone || f.floor.isNone)

/-- The fields with the carried ones written (R181). -/
def siteWritten (f q : SiteFields) : SiteFields where
  network := match q.network with | some v => some v | none => f.network
  kiosk := match q.kiosk with | some v => some v | none => f.kiosk
  floor := match q.floor with | some v => some v | none => f.floor

/-- Every field is written (R182). -/
def siteComplete (f : SiteFields) : Bool := f.network.isSome && f.kiosk.isSome && f.floor.isSome

/-! ## Parameters (R194) -/

/-- The parameter named, with a channel exactly when it is the arbitration mode. -/
inductive ParamRef where
  | plain (p : ParamName)
  | arbitration (ch : Phase)
  deriving DecidableEq, Repr

/-- The name and the channel of a parameter request, checked (R194); `none` is MALFORMED. -/
def paramRef? (name : Coded ParamName) (channel : Option (Coded Phase)) : Option ParamRef :=
  match name, channel with
  | some .arbitrationMode, some (some ch) => some (.arbitration ch)
  | some .arbitrationMode, _ => none
  | some p, none => some (.plain p)
  | _, _ => none

/-- The value lies within the range of the parameter (section 10.5). -/
def paramInRange (r : ParamRef) (v : ParamValue) : Bool :=
  match r, v with
  | .arbitration _, .arb _ => true
  | .plain .silenceThreshold, .number n => within 1 n 15
  | .plain .attentionNotices, .switch _ => true
  | .plain .defaultPassLimit, .number n => within 1 n 16
  | .plain .settleTime, .number n => within 1 n 60
  | .plain .quietInterval, .number n => within 10 n 500
  | .plain .accessLimit, .number n => within 500 n 30000
  | .plain .replyBase, .number n => within 100 n 2000
  | .plain .hopExtension, .number n => within 100 n 2000
  | .plain .clockSource, .source _ => true
  | .plain .mainsFrequency, .number n => n == 50 || n == 60
  | .plain .autoSuspend, .switch _ => true
  | _, _ => false

/-- ON or OFF of a mark. -/
def switchOf (b : Bool) : Switch := if b then .on else .off

/-- The number of hertz of a frequency. -/
def Frequency.hertz : Frequency → Nat
  | .hz50 => 50
  | .hz60 => 60

/-- The value a parameter holds (R194). -/
def State.paramValue (s : State) (r : ParamRef) : ParamValue :=
  match r with
  | .arbitration ch => .arb (s.channel ch).arb
  | .plain .silenceThreshold => .number s.roster.threshold
  | .plain .attentionNotices => .switch (switchOf s.roster.noticesOn)
  | .plain .defaultPassLimit => .number s.campaigns.defaultPassLimit
  | .plain .settleTime => .number s.line.settleTime
  | .plain .quietInterval => .number s.line.quietInterval
  | .plain .accessLimit => .number s.line.accessLimit
  | .plain .arbitrationMode => .arb (s.channel .l1).arb
  | .plain .replyBase => .number s.line.replyBase
  | .plain .hopExtension => .number s.line.hopExtension
  | .plain .clockSource => .source s.clock.sourceParam
  | .plain .mainsFrequency => .number s.clock.frequency.hertz
  | .plain .autoSuspend => .switch (switchOf s.store.autoSuspend)

/-- Every parameter in the order of the table of section 10.5, the arbitration mode for L1, L2 and L3 (R194). -/
def allParams : List ParamRef := [
  .plain .silenceThreshold, .plain .attentionNotices, .plain .defaultPassLimit, .plain .settleTime,
  .plain .quietInterval, .plain .accessLimit, .arbitration .l1, .arbitration .l2, .arbitration .l3,
  .plain .replyBase, .plain .hopExtension, .plain .clockSource, .plain .mainsFrequency, .plain .autoSuspend]

end Sys2Proof.Machine
end

