-- ==== Sys2Proof/Machine/CampaignRequests.lean ====
section
/-! DEFINITION. The requests on campaigns (sections 3.1, 3.3 and 3.6), the snapshot delivery (R54) and the interval of a
standing broadcast (R110). -/

namespace Sys2Proof.Machine

/-- SEQUENCE SEED (R45). -/
def serveSequenceSeed (value : Nat) (s : State) : Served :=
  match firstRefusal [
      (within 1 value Config.maxSeed, .malformed),
      (s.campaigns.table.isEmpty, .wrongState)] with
  | some code => refuse s code
  | none => accept (s.setCampaigns { s.campaigns with counter := some value }) .none

/-- SEQUENCE_SEED (R45). -/
def execSequenceSeed (h : Header) (value : Nat) (s : State) : Result :=
  takeRequest h (.sequenceSeed value) (serveSequenceSeed value) s

/-- A campaign takes its slot and its sequence; it activates while the SUBMIT is taken when its start time has come
(R43, R44, R52). -/
def State.acceptCampaign (s : State) (c : Campaign) (startsNow : Bool) : State :=
  let t := s.setCampaigns
    { s.campaigns with table := putBy Campaign.slot c s.campaigns.table, counter := some (c.seq + 1) }
  if startsNow then t.activate c.slot else t

/-- The state of the campaign in a slot, for the reply to SUBMIT (R52). -/
def State.campaignState (s : State) (slot : Nat) : CampaignState :=
  match s.campaign slot with
  | some c => c.state
  | none => .waiting

/-- SUBMIT (R49, R52). -/
def serveSubmit (q : SubmitReq) (s : State) : Served :=
  match s.submitRefusal q with
  | some code => refuse s code
  | none =>
    match submitOrder? q, submitTarget? q, submitTerms? q s.campaigns.defaultPassLimit, submitPriority? q,
        s.campaigns.counter, s.freeSlot with
    | some order, some target, some terms, some priority, some seq, some slot =>
      let c := newCampaign slot seq order target terms priority q
      let t := s.acceptCampaign c (submitStartsNow q (s.clock.time.getD 0))
      accept t (.submitted slot seq (t.campaignState slot))
    | _, _, _, _, _, _ => refuse s .malformed

/-- SUBMIT (R49, R52). -/
def execSubmit (h : Header) (q : SubmitReq) (s : State) : Result := takeRequest h (.submit q) (serveSubmit q) s

/-- The campaign a request names by slot and, optionally, sequence; or the refusal of R61. -/
def State.named (s : State) (q : SlotRef) : Except ResultCode Campaign :=
  if Config.campaignSlots ≤ q.slot then .error .malformed
  else
    match s.campaign q.slot with
    | none => .error .notFound
    | some c =>
      match q.seq with
      | none => .ok c
      | some seq => if seq = c.seq then .ok c else .error .notFound

/-- CAMPAIGN QUERY (R66). The interval timer is no field of the record. -/
def serveCampaignQuery (q : SlotRef) (s : State) : Served :=
  match s.named q with
  | .error code => refuse s code
  | .ok c => accept s (.campaign { c with intervalTimer := none } c.order.body.superClass)

/-- CAMPAIGN_QUERY (R66). -/
def execCampaignQuery (h : Header) (q : SlotRef) (s : State) : Result :=
  takeRequest h (.campaignQuery q) (serveCampaignQuery q) s

/-- A row of CAMPAIGN LIST (R67). -/
def Campaign.row (c : Campaign) : CampaignRow where
  slot := c.slot
  seq := c.seq
  cls := c.order.body.cls
  mode := c.mode
  priority := c.priority
  state := c.state
  pass := match c.mode with | .confirmed => c.pass | .broadcast => none
  outstanding := match c.mode with | .confirmed => some c.counts.outstanding | .broadcast => none
  remaining := match c.mode with | .confirmed => none | .broadcast => c.run.map (fun r => r.remaining.toList.sum)
  rounds := match c.mode with | .confirmed => none | .broadcast => c.run.bind BroadcastRun.rounds

/-- CAMPAIGN LIST (R67). -/
def serveCampaignList (s : State) : Served := accept s (.campaigns s.freeSlots (s.campaigns.table.map Campaign.row))

/-- CAMPAIGN_LIST (R67). -/
def execCampaignList (h : Header) (s : State) : Result := takeRequest h .campaignList serveCampaignList s

/-- `s` with the campaign of a slot in another state. -/
def State.setCampaignState (s : State) (slot : Nat) (v : CampaignState) : State :=
  s.updateCampaign slot (fun c => { c with state := v })

/-- HOLD (R62). -/
def serveHold (q : SlotRef) (s : State) : Served :=
  match s.named q with
  | .error code => refuse s code
  | .ok c => if c.state = .running then accept (s.setCampaignState q.slot .held) .none else refuse s .wrongState

/-- HOLD (R62). -/
def execHold (h : Header) (q : SlotRef) (s : State) : Result := takeRequest h (.hold q) (serveHold q) s

/-- RESUME: the campaign is RUNNING again, and a pass or round that has ended is taken (R63). -/
def serveResume (q : SlotRef) (s : State) : Served :=
  match s.named q with
  | .error code => refuse s code
  | .ok c =>
    if c.state = .held then
      accept (((s.setCampaignState q.slot .running).examinePass q.slot).examineRound q.slot) .none
    else refuse s .wrongState

/-- RESUME (R63). -/
def execResume (h : Header) (q : SlotRef) (s : State) : Result := takeRequest h (.resume q) (serveResume q) s

/-- CANCEL (R64). -/
def serveCancel (q : SlotRef) (s : State) : Served :=
  match s.named q with
  | .error code => refuse s code
  | .ok c => if c.state.live then accept (s.endCampaign q.slot .cancelled .host) .none else refuse s .wrongState

/-- CANCEL (R64). -/
def execCancel (h : Header) (q : SlotRef) (s : State) : Result := takeRequest h (.cancel q) (serveCancel q) s

/-- RELEASE (R65). -/
def serveRelease (q : SlotRef) (s : State) : Served :=
  match s.named q with
  | .error code => refuse s code
  | .ok c =>
    if c.state.live then refuse s .wrongState
    else accept (s.setTable (removeBy Campaign.slot q.slot s.campaigns.table)) .none

/-- RELEASE (R65). -/
def execRelease (h : Header) (q : SlotRef) (s : State) : Result := takeRequest h (.release q) (serveRelease q) s

/-- The delivery meets its campaign in PREPARING: the snapshot is stored and the campaign enters RUNNING (R54). The campaign
is no longer PREPARING, so a request under its slot would leave the list (R178, log 36). -/
def State.takeDelivery (s : State) (d : Delivery) : State :=
  match s.campaign d.slot with
  | none => s
  | some c =>
    if c.state = .preparing ∧ c.seq = d.seq then
      ((s.withdrawSnapshot d.slot).updateCampaign d.slot (fun c => { c with snapshot := some d.plan })).enterRunning d.slot
    else s

/-- SNAPSHOT_DELIVERY: the first delivery handed over is taken (R54, R176). -/
def execSnapshotDelivery (s : State) : Result :=
  match s.store.deliveries with
  | [] => .next s
  | d :: rest => finish ((s.setStore { s.store with deliveries := rest }).takeDelivery d)

/-- INTERVAL_EXPIRED: a RESTING standing broadcast loads remaining on its target phases and is RUNNING again (R110). -/
def execIntervalExpired (slot : Nat) (s : State) : Result :=
  match s.campaign slot with
  | none => .next s
  | some c =>
    match c.state, c.terms, c.run with
    | .resting, .broadcast repeatsBase _ _, some r =>
      finish (s.updateCampaign slot (fun d =>
        { d with
          state := .running
          run := some { r with remaining := loadRemaining r.phases repeatsBase }
          intervalTimer := none }))
    | _, _, _ => .next s

end Sys2Proof.Machine
end

