-- ==== Sys2Proof/Machine/Codec.lean ====
section
/-! DEFINITION. The frame codec (chapter 7): bytes and the check, the three kinds of line frame with their layout, a
builder and a reader. A line frame here is the bytes after the preamble; the preamble's pattern is not given (log 25). -/

namespace Sys2Proof.Machine

/-! ## Bytes and the check -/

/-- A number as `w` bytes, most significant first (section 7.1). -/
def bytesOf : Nat → Nat → List Byte
  | 0, _ => []
  | w + 1, n => BitVec.ofNat 8 (n / 256 ^ w) :: bytesOf w n

/-- The number that bytes spell, most significant first. -/
def numberOf (l : List Byte) : Nat := l.foldl (fun n b => n * 256 + b.toNat) 0

/-- One bit through the register of the check: generator x^16 + x^12 + x^5 + 1 (R141). -/
def checkBit (r : Check) (bit : Bool) : Check :=
  if r.msb != bit then (r <<< 1) ^^^ 0x1021#16 else r <<< 1

/-- One byte through the register, most significant bit first (R141). -/
def checkByte (r : Check) (b : Byte) : Check :=
  [7, 6, 5, 4, 3, 2, 1, 0].foldl (fun r i => checkBit r (b.getLsbD i)) r

/-- The check of a run of bytes: the register starts with all ones and is not complemented (R141). -/
def checkOf (l : List Byte) : Check := l.foldl checkByte 0xFFFF#16

/-- A frame with its check, high byte first (R141). -/
def withCheck (l : List Byte) : List Byte := l ++ bytesOf 2 (checkOf l).toNat

/-- The bytes before the check when the check is right (R141). -/
def checked? (l : List Byte) : Option (List Byte) :=
  let payload := l.take (l.length - 2)
  if 2 ≤ l.length ∧ numberOf (l.drop (l.length - 2)) = (checkOf payload).toNat then some payload else none

/-! ## Frames -/

/-- The body of an ORDER or BROADCAST frame (R139). The points of a PLAN LOAD are those the fragment carries. -/
inductive FrameBody where
  | bandSet (band : Nat) (effective : Option Nat)
  | loadSwitch (relay : Nat) (action : Switch) (duration : Nat) (effective : Option Nat)
  | planLoad (identity version total : Nat) (points : List Point) (effective : Option Nat)
  | clockSync (time : Nat)
  | statusPoll
  deriving DecidableEq, Repr

/-- An ORDER frame (section 7.1). -/
structure OrderFrame where
  network : Nat
  dest    : Nat
  route   : List Nat
  hop     : Nat
  seq     : Nat
  index   : Nat
  count   : Nat
  body    : FrameBody
  deriving DecidableEq, Repr

/-- A BROADCAST frame (section 7.1). -/
structure BroadcastFrame where
  network : Nat
  group   : Nat
  budget  : Nat
  seq     : Nat
  index   : Nat
  count   : Nat
  body    : FrameBody
  deriving DecidableEq, Repr

/-- The answer of a REPLY frame with its detail and report (R140). -/
inductive LineAnswer where
  | applied
  | alreadyNewer
  | refused (r : Reason)
  | report (f : ReportFields)
  | fragmentOk (index : Nat)
  | hopFailed (position : Nat)
  deriving DecidableEq, Repr

/-- A REPLY frame (R140). -/
structure ReplyFrame where
  network : Nat
  source  : Nat
  seq     : Nat
  answer  : LineAnswer
  deriving DecidableEq, Repr

/-- The three kinds of frame (section 7.1). -/
inductive LineFrame where
  | order (f : OrderFrame)
  | broadcast (f : BroadcastFrame)
  | reply (f : ReplyFrame)
  deriving DecidableEq, Repr

/-! ## Building -/

/-- The code of a class (section 7.1). -/
def FrameBody.classCode : FrameBody → Nat
  | .bandSet _ _ => 1
  | .loadSwitch _ _ _ _ => 2
  | .planLoad _ _ _ _ _ => 3
  | .clockSync _ => 4
  | .statusPoll => 5

/-- The flags byte: its highest bit says that an effective time is present (R139). -/
def flagsByte (effective : Option Nat) : Byte := if effective.isSome then 0x80#8 else 0#8

/-- The effective time when present (R139). -/
def effectiveBytes (effective : Option Nat) : List Byte :=
  match effective with
  | some t => bytesOf 4 t
  | none => []

/-- ON 1 or OFF 0 (R139). -/
def actionCode : Switch → Nat
  | .on => 1
  | .off => 0

/-- A point: the minute in the upper 11 bits and the band minus one in the lowest 3 (R139). -/
def pointBytes (p : Point) : List Byte := bytesOf 2 (p.minute * 32 + (p.band - 1))

/-- The bytes of a body (R139). -/
def FrameBody.bytes : FrameBody → List Byte
  | .bandSet band e => flagsByte e :: BitVec.ofNat 8 band :: effectiveBytes e
  | .loadSwitch relay action duration e =>
    flagsByte e :: BitVec.ofNat 8 (relay * 16 + actionCode action) :: (bytesOf 2 duration ++ effectiveBytes e)
  | .planLoad identity version total points e =>
    flagsByte e :: (bytesOf 2 identity ++ BitVec.ofNat 8 version :: BitVec.ofNat 8 total ::
      (points.flatMap pointBytes ++ effectiveBytes e))
  | .clockSync t => bytesOf 4 t
  | .statusPoll => [0#8, 0#8]

/-- The number that the route units make, position 1 first, 12 bits each (section 7.1). -/
def routeNumber (route : List Nat) : Nat := route.foldl (fun n u => n * 4096 + u) 0

/-- The bytes that a route of r units takes: 12 bits each, padded to a whole byte. -/
def routeLength (r : Nat) : Nat := (12 * r + 7) / 8

/-- The zero bits that pad a route of r units. -/
def routePad (r : Nat) : Nat := 8 * routeLength r - 12 * r

/-- The route units as bytes. -/
def routeBytes (route : List Nat) : List Byte :=
  bytesOf (routeLength route.length) (routeNumber route * 2 ^ routePad route.length)

/-- The class byte: class, fragment index and fragment count (section 7.1). -/
def classByte (body : FrameBody) (index count : Nat) : Byte := BitVec.ofNat 8 (body.classCode * 16 + index * 4 + count)

/-- An ORDER frame as bytes (section 7.1, R137). -/
def OrderFrame.bytes (f : OrderFrame) : List Byte :=
  withCheck (bytesOf 2 (1 * 4096 + f.network) ++ bytesOf 2 (f.dest * 16 + f.route.length * 4 + f.hop) ++ routeBytes f.route
    ++ bytesOf 4 f.seq ++ classByte f.body f.index f.count :: f.body.bytes)

/-- A BROADCAST frame as bytes: group and hop budget share the byte after the network number (section 7.1, R137). -/
def BroadcastFrame.bytes (f : BroadcastFrame) : List Byte :=
  withCheck (bytesOf 2 (2 * 4096 + f.network) ++ BitVec.ofNat 8 (f.group * 4 + f.budget) ::
    (bytesOf 4 f.seq ++ classByte f.body f.index f.count :: f.body.bytes))

/-- The code of a refusal reason (R140). -/
def reasonCode : Reason → Nat
  | .bandUnsupported => 1
  | .relayAbsent => 2
  | .planRejected => 3
  | .noTime => 4

/-- The code of a relay state (R140). -/
def relayCode : RelayState → Nat
  | .off => 0
  | .on => 1
  | .absent => 2

/-- The code of an answer (section 7.1). -/
def LineAnswer.code : LineAnswer → Nat
  | .applied => 1
  | .alreadyNewer => 2
  | .refused _ => 3
  | .report _ => 4
  | .fragmentOk _ => 5
  | .hopFailed _ => 6

/-- The detail byte of an answer (R140). -/
def LineAnswer.detail : LineAnswer → Nat
  | .applied => 0
  | .alreadyNewer => 0
  | .refused r => reasonCode r
  | .report _ => 0
  | .fragmentOk i => i
  | .hopFailed k => k

/-- The nine bytes of a report (R140). That a receiver sends the three bits of the state byte that R140 does not name as zero
is MODEL'S CHOICE (log 41). -/
def ReportFields.bytes (f : ReportFields) : List Byte :=
  BitVec.ofNat 8 f.band
    :: BitVec.ofNat 8 (relayCode f.relay1 * 64 + relayCode f.relay2 * 16 + (if f.clockSet then 1 else 0))
    :: (bytesOf 2 f.planIdentity ++ BitVec.ofNat 8 f.planVersion :: bytesOf 4 f.time)

/-- The report of an answer, present with REPORT (section 7.1). -/
def LineAnswer.reportBytes : LineAnswer → List Byte
  | .report f => f.bytes
  | .applied => []
  | .alreadyNewer => []
  | .refused _ => []
  | .fragmentOk _ => []
  | .hopFailed _ => []

/-- A REPLY frame as bytes (R140). The dispatcher builds none; receivers do. -/
def ReplyFrame.bytes (f : ReplyFrame) : List Byte :=
  withCheck (bytesOf 2 (3 * 4096 + f.network) ++ bytesOf 2 (f.source * 16 + f.answer.code) ++ bytesOf 4 f.seq
    ++ BitVec.ofNat 8 f.answer.detail :: f.answer.reportBytes)

/-- A frame as bytes. -/
def LineFrame.bytes : LineFrame → List Byte
  | .order f => f.bytes
  | .broadcast f => f.bytes
  | .reply f => f.bytes

/-! ## Reading (R138): `none` is a frame that is not well formed -/

/-- The first `n` bytes and the rest, when there are as many. -/
def split? (n : Nat) (l : List Byte) : Option (List Byte × List Byte) :=
  if n ≤ l.length then some (l.take n, l.drop n) else none

/-- A number of `n` bytes and the rest. -/
def number? (n : Nat) (l : List Byte) : Option (Nat × List Byte) :=
  match split? n l with
  | some (a, rest) => some (numberOf a, rest)
  | none => none

/-- The effective time that the flags byte announces: the rest of the body is exactly it, or is empty (R139). -/
def effective? (flags : Byte) (l : List Byte) : Option (Option Nat) :=
  if flags.msb then (if l.length = 4 then some (some (numberOf l)) else none)
  else if l = [] then some none else none

/-- The points of a fragment, each with a minute of the day (R139, log 19). -/
def points? : Nat → List Byte → Option (List Point × List Byte)
  | 0, l => some ([], l)
  | n + 1, l =>
    match number? 2 l with
    | none => none
    | some (v, rest) =>
      match points? n rest with
      | none => none
      | some (ps, tail) => if v / 32 ≤ 1439 then some (⟨v / 32, v % 8 + 1⟩ :: ps, tail) else none

/-- The number of points that fragment `index` of a plan of `total` points carries (R32, R139). -/
def pointsIn (total index : Nat) : Nat := min 4 (total - 4 * (index - 1))

/-- BAND SET (R139). -/
def bandSet? (l : List Byte) : Option FrameBody :=
  match l with
  | flags :: band :: rest =>
    match effective? flags rest with
    | some e => if 1 ≤ band.toNat ∧ band.toNat ≤ 8 then some (.bandSet band.toNat e) else none
    | none => none
  | _ => none

/-- The action of a LOAD SWITCH body (R139). -/
def action? : Nat → Option Switch
  | 0 => some .off
  | 1 => some .on
  | _ => none

/-- LOAD SWITCH (R139). -/
def loadSwitch? (l : List Byte) : Option FrameBody :=
  match l with
  | flags :: ra :: d1 :: d0 :: rest =>
    match effective? flags rest, action? (ra.toNat % 16) with
    | some e, some action =>
      let relay := ra.toNat / 16
      let duration := numberOf [d1, d0]
      if 1 ≤ relay ∧ relay ≤ 2 ∧ duration ≤ 1440 then some (.loadSwitch relay action duration e) else none
    | _, _ => none
  | _ => none

/-- PLAN LOAD (R139): at least one point in the fragment, an identity of 1..65,535 and minutes of the day (MODEL'S READING,
log 19: the tables of the frame print no range for these). -/
def planLoad? (index : Nat) (l : List Byte) : Option FrameBody :=
  match l with
  | flags :: i1 :: i0 :: version :: total :: rest =>
    match points? (pointsIn total.toNat index) rest with
    | none => none
    | some (points, tail) =>
      match effective? flags tail with
      | none => none
      | some e =>
        let identity := numberOf [i1, i0]
        if 1 ≤ identity ∧ 1 ≤ total.toNat ∧ total.toNat ≤ 12 ∧ points ≠ [] then
          some (.planLoad identity version.toNat total.toNat points e)
        else none
  | _ => none

/-- The body of a class (R139). -/
def body? (cls index : Nat) (l : List Byte) : Option FrameBody :=
  match cls with
  | 1 => bandSet? l
  | 2 => loadSwitch? l
  | 3 => planLoad? index l
  | 4 => if l.length = 4 then some (.clockSync (numberOf l)) else none
  | 5 => if l.length = 2 then some .statusPoll else none
  | _ => none

/-- The class byte and the body after it, with fragment index and count in range (section 7.1). -/
def fragment? (l : List Byte) : Option (Nat × Nat × FrameBody) :=
  match l with
  | [] => none
  | c :: rest =>
    let index := c.toNat / 4 % 4
    let count := c.toNat % 4
    if 1 ≤ index ∧ index ≤ count then
      match body? (c.toNat / 16) index rest with
      | some b => some (index, count, b)
      | none => none
    else none

/-- The units of a route of r units from their number, position 1 first. -/
def routeUnits : Nat → Nat → List Nat
  | 0, _ => []
  | r + 1, n => routeUnits r (n / 4096) ++ [n % 4096]

/-- A sequence in its range (section 7.1). -/
def validSeq (n : Nat) : Bool := decide (1 ≤ n) && decide (n ≤ 4294967294)

/-- An ORDER frame after its first two bytes. -/
def order? (network : Nat) (l : List Byte) : Option OrderFrame :=
  match number? 2 l with
  | none => none
  | some (v, l1) =>
    let r := v / 4 % 4
    match number? (routeLength r) l1 with
    | none => none
    | some (units, l2) =>
      match number? 4 l2 with
      | none => none
      | some (seq, l3) =>
        match fragment? l3 with
        | none => none
        | some (index, count, body) =>
          let route := routeUnits r (units / 2 ^ routePad r)
          if 1 ≤ v / 16 ∧ v % 4 ≤ r ∧ route.all (fun u => decide (1 ≤ u)) = true ∧ validSeq seq = true then
            some ⟨network, v / 16, route, v % 4, seq, index, count, body⟩
          else none

/-- A BROADCAST frame after its first two bytes. -/
def broadcast? (network : Nat) (l : List Byte) : Option BroadcastFrame :=
  match l with
  | [] => none
  | g :: l1 =>
    match number? 4 l1 with
    | none => none
    | some (seq, l2) =>
      match fragment? l2 with
      | none => none
      | some (index, count, body) =>
        if validSeq seq then some ⟨network, g.toNat / 4, g.toNat % 4, seq, index, count, body⟩ else none

/-- The reason of a REFUSED (R140). -/
def reason? : Nat → Option Reason
  | 1 => some .bandUnsupported
  | 2 => some .relayAbsent
  | 3 => some .planRejected
  | 4 => some .noTime
  | _ => none

/-- A relay state (R140). -/
def relayState? : Nat → Option RelayState
  | 0 => some .off
  | 1 => some .on
  | 2 => some .absent
  | _ => none

/-- The nine bytes of a report (R140). The three bits of the state byte that R140 does not name are ignored. -/
def report? (l : List Byte) : Option ReportFields :=
  match l with
  | [band, st, i1, i0, version, t3, t2, t1, t0] =>
    match relayState? (st.toNat / 64), relayState? (st.toNat / 16 % 4) with
    | some r1, some r2 =>
      if 1 ≤ band.toNat ∧ band.toNat ≤ 8 then
        some ⟨band.toNat, r1, r2, st.toNat % 2 == 1, numberOf [i1, i0], version.toNat, numberOf [t3, t2, t1, t0]⟩
      else none
    | _, _ => none
  | _ => none

/-- The answer with its detail and report (R140, log 19): `code`, `detail`, then the bytes after the detail. -/
def answer? (code detail : Nat) (l : List Byte) : Option LineAnswer :=
  match code with
  | 1 => if detail = 0 ∧ l = [] then some .applied else none
  | 2 => if detail = 0 ∧ l = [] then some .alreadyNewer else none
  | 3 => if l = [] then (reason? detail).map .refused else none
  | 4 => if detail = 0 then (report? l).map .report else none
  | 5 => if 1 ≤ detail ∧ detail ≤ 3 ∧ l = [] then some (.fragmentOk detail) else none
  | 6 => if 1 ≤ detail ∧ detail ≤ 3 ∧ l = [] then some (.hopFailed detail) else none
  | _ => none

/-- A REPLY frame after its first two bytes. -/
def reply? (network : Nat) (l : List Byte) : Option ReplyFrame :=
  match number? 2 l with
  | none => none
  | some (v, l1) =>
    match number? 4 l1 with
    | none => none
    | some (seq, l2) =>
      match l2 with
      | [] => none
      | detail :: rest =>
        match answer? (v % 16) detail.toNat rest with
        | some a => if 1 ≤ v / 16 then some ⟨network, v / 16, seq, a⟩ else none
        | none => none

/-- A frame read from its bytes; `none` when it is not well formed (R138). -/
def readFrame (l : List Byte) : Option LineFrame :=
  match checked? l with
  | none => none
  | some payload =>
    match number? 2 payload with
    | none => none
    | some (v, rest) =>
      let network := v % 4096
      if 1 ≤ network ∧ network ≤ 4094 then
        match v / 4096 with
        | 1 => (order? network rest).map .order
        | 2 => (broadcast? network rest).map .broadcast
        | 3 => (reply? network rest).map .reply
        | _ => none
      else none

end Sys2Proof.Machine
end

