-- ==== Sys2Proof/Machine/LineUnit.lean ====
section
/-! DEFINITION. The line channels' own operations (chapters 6 and 7): the frame of a unit of work, the arbiter, sensing
and the end of a unit, and the classification of what a reply window hears. -/

namespace Sys2Proof.Machine

/-! ## Showing a channel (R134) -/

/-- The name of an activity. -/
def Activity.name : Activity → ChannelState
  | .offline => .offline
  | .settling _ => .settling
  | .idle => .idle
  | .sensing _ _ _ => .sensing
  | .sending _ _ => .sending
  | .awaiting _ _ => .awaiting

/-- Work in flight as LINE STATUS shows it (R134). -/
def Work.view (w : Work) : WorkView where
  slot := w.slot
  seq := w.seq
  exchange := w.dest.isSome
  dest := w.dest
  fragment := w.fragment
  count := w.count

/-- The record of one channel (R134). -/
def State.lineRecord (s : State) (ph : Phase) : LineRecord :=
  let c := s.channel ph
  { state := c.activity.name
    masked := c.masked
    jam := c.jam
    arb := c.arb
    pointer := c.pointer
    work := c.activity.work.map Work.view
    requesting := (s.requesting ph).map (fun d => (d.slot, d.priority)) }

/-! ## The frame of a unit of work (R137, R139) -/

/-- Points 4i − 3 to 4i of a plan, as many as exist (R32). -/
def Plan.pointsOf (p : Plan) (fragment : Nat) : List Point := (p.points.drop (4 * (fragment - 1))).take 4

/-- The body of the fragment in hand; a CLOCK SYNC carries the line time at which sending begins (R112, R139). -/
def Work.body (w : Work) (now : Option Nat) : FrameBody :=
  match w.order.body with
  | .bandSet band => .bandSet band w.order.effective
  | .loadSwitch relay action duration => .loadSwitch relay action duration w.order.effective
  | .planLoad _ =>
    match w.plan with
    | some p => .planLoad p.identity p.version p.points.length (p.pointsOf w.fragment) w.order.effective
    | none => .planLoad 0 0 0 [] w.order.effective
  | .clockSync => .clockSync (now.getD 0)
  | .statusPoll => .statusPoll

/-- The frame of the fragment in hand (R137). -/
def Work.frame (w : Work) (now : Option Nat) : LineFrame :=
  match w.kind with
  | .exchange dest route => .order ⟨w.network, dest, route, 0, w.seq, w.fragment, w.count, w.body now⟩
  | .broadcast group budget => .broadcast ⟨w.network, group, budget, w.seq, w.fragment, w.count, w.body now⟩

/-! ## The arbiter (R127 to R129) -/

/-- The highest priority in a list: the lowest number. -/
def bestPriority : List Campaign → Nat
  | [] => 3
  | [c] => c.priority
  | c :: rest => min c.priority (bestPriority rest)

/-- The arbiter's choice among the requesting campaigns, which stand in ascending slot order (R128). -/
def arbitrate (arb : ArbMode) (pointer : Nat) (l : List Campaign) : Option Campaign :=
  let kept := l.filter (fun c => c.priority == bestPriority l)
  match arb with
  | .fixed => kept.head?
  | .rotating =>
    match kept.find? (fun c => decide (pointer < c.slot)) with
    | some c => some c
    | none => kept.head?

/-- The group a broadcast names: g for GROUP g, 0 for ALL (R103). -/
def Target.groupNumber : Target → Nat
  | .group g => g
  | .all => 0
  | .unit _ => 0

/-- The record of the unit of work a campaign names on a channel: the exchange with its lowest eligible receiver, or one
transmission (R79, R80, R103). None without a receiver, or while the network number is blank (R142, log 22). -/
def State.workFor (s : State) (ph : Phase) (c : Campaign) : Option Work :=
  match s.store.site.fields.network with
  | none => none
  | some network =>
    match c.terms with
    | .confirmed _ =>
      (s.firstEligible c ph).map (fun e =>
        ⟨c.slot, c.seq, c.order, c.snapshot, c.fragments, 1, network, ph, .exchange e.unit e.route⟩)
    | .broadcast _ budget _ =>
      some ⟨c.slot, c.seq, c.order, c.snapshot, c.fragments, 1, network, ph, .broadcast c.target.groupNumber budget⟩

/-- The unit of work a grant on the channel would take now: the channel is IDLE and not masked, and its requesting set is
not empty (R127, R128). -/
def State.grantable (s : State) (ph : Phase) : Option Work :=
  let c := s.channel ph
  if c.activity = .idle ∧ c.masked = false then
    match arbitrate c.arb c.pointer (s.requesting ph) with
    | some winner => s.workFor ph winner
    | none => none
  else none

/-! ## Moving between states -/

/-- The channel enters SENSING: both timers start at their parameters (R121). -/
def State.sense (s : State) (ph : Phase) (w : Work) : State :=
  s.setActivity ph (.sensing w s.line.quietInterval s.line.accessLimit)

/-- The unit of work ends: its outcome is handed back and the channel enters `next` (R131). -/
def State.endUnit (s : State) (ph : Phase) (w : Work) (v : Verdict) (next : Activity) : State :=
  (s.handBack ph (.outcome w v)).setActivity ph next

/-- The channel hands over a LINE CHANGE notice with the line time (R120). -/
def State.lineNotice (s : State) (ph : Phase) (c : LineChange) : State := s.notify (.lineChange ph c s.clock.time)

/-- The jam flag at a deferral (R123). -/
def State.jamSet (s : State) (ph : Phase) (w : Work) : State :=
  if (s.channel ph).jam then s
  else (s.setChannel ph { s.channel ph with jam := true }).lineNotice ph (.jammed w.slot w.seq)

/-- The jam flag when a frame enters SENDING (R123). -/
def State.jamClear (s : State) (ph : Phase) : State :=
  if (s.channel ph).jam then (s.setChannel ph { s.channel ph with jam := false }).lineNotice ph .cleared else s

/-- The reply window of an exchange: the base plus one hop extension per relay of the copied route (R148). -/
def Line.window (l : Line) (route : List Nat) : Nat := l.replyBase + route.length * l.hopExtension

/-- The tail of a broadcast: one hop extension per unit of hop budget (R106). -/
def Line.tail (l : Line) (budget : Nat) : Nat := budget * l.hopExtension

/-! ## What a reply window hears (R82, R149) -/

/-- The effect of a frame on a reply window. -/
inductive Heard where
  | setAside
  | nextFragment
  | ends (v : Verdict)
  deriving DecidableEq, Repr

/-- The classes whose last fragment is answered APPLIED, ALREADY_NEWER or REFUSED (R82). -/
def OrderBody.decided : OrderBody → Bool
  | .bandSet _ | .loadSwitch _ _ _ | .planLoad _ => true
  | .clockSync | .statusPoll => false

/-- An answer of the destination with the exchange's sequence (R82, R149, R150). -/
def destinationAnswer (w : Work) (a : LineAnswer) (now : Option Nat) : Heard :=
  let final := w.order.body.decided && decide (w.fragment = w.count)
  match a with
  | .applied => if final then .ends .applied else .ends .garbled
  | .alreadyNewer => if final then .ends .alreadyNewer else .ends .garbled
  | .refused r => if final then .ends (.refused r) else .ends .garbled
  | .report f => if w.order.body = .statusPoll ∧ w.fragment = w.count then .ends (.report f now) else .ends .garbled
  | .fragmentOk i =>
    if i < w.fragment then .setAside
    else if i = w.fragment ∧ w.fragment < w.count then .nextFragment
    else .ends .garbled
  | .hopFailed _ => .ends .garbled

/-- The classification of a frame in the reply window of an exchange; the first row of R149 that applies decides. -/
def classify (w : Work) (dest : Nat) (route : List Nat) (bytes : List Byte) (now : Option Nat) : Heard :=
  match readFrame bytes with
  | none => .ends .garbled
  | some (.order _) => .setAside
  | some (.broadcast _) => .setAside
  | some (.reply f) =>
    if f.network ≠ w.network then .setAside
    else if f.seq ≠ w.seq then .setAside
    else if f.source = dest then destinationAnswer w f.answer now
    else
      match f.answer with
      | .hopFailed k => if 1 ≤ k ∧ route[k - 1]? = some f.source then .ends (.hopFailed k) else .setAside
      | .applied | .alreadyNewer | .refused _ | .report _ | .fragmentOk _ => .setAside

end Sys2Proof.Machine
end

