-- ==== Sys2Proof/Machine/Channels.lean ====
section
/-! DEFINITION. The events of the line channels (chapters 6 and 7) and the two requests on them, LINE MASK and
LINE STATUS. An event that the channel's state does not admit changes nothing (log 1). -/

namespace Sys2Proof.Machine

/-- SETTLE_EXPIRED: the channel is IDLE and its ONLINE notice is queued (R119). -/
def execSettleExpired (ch : Phase) (s : State) : Result :=
  match (s.channel ch).activity with
  | .settling _ => finish ((s.setActivity ch .idle).lineNotice ch .online)
  | .offline | .idle | .sensing _ _ _ | .sending _ _ | .awaiting _ _ => .next s

/-- The channel takes a unit of work: its pointer names the slot and it enters SENSING (R128, R129). -/
def State.grantTo (s : State) (ch : Phase) (w : Work) : State :=
  (s.setChannel ch { s.channel ch with pointer := w.slot }).sense ch w

/-- GRANT: the arbiter's choice and the campaign's naming in one taking (R79, R103, R127, R128). -/
def execGrant (ch : Phase) (s : State) : Result :=
  match s.grantable ch with
  | some w => finish (s.grantTo ch w)
  | none => .next s

/-- The channel hears signal: in SENSING the quiet-interval timer goes back to its full length (R121, R135). -/
def State.hearSignal (s : State) (ch : Phase) : State :=
  match (s.channel ch).activity with
  | .sensing w _ access => s.setActivity ch (.sensing w s.line.quietInterval access)
  | .offline | .settling _ | .idle | .sending _ _ | .awaiting _ _ => s

/-- SIGNAL_HEARD (R121). -/
def execSignalHeard (ch : Phase) (s : State) : Result := finish (s.hearSignal ch)

/-- A frame enters SENDING: a jam episode ends and the fragment in hand is built (R121, R123, R124). -/
def State.startSending (s : State) (ch : Phase) (w : Work) : State :=
  (s.jamClear ch).setActivity ch (.sending w (w.frame s.clock.time).bytes)

/-- QUIET_INTERVAL_HEARD (R121, R123, R124). -/
def execQuietIntervalHeard (ch : Phase) (s : State) : Result :=
  match (s.channel ch).activity with
  | .sensing w _ _ => finish (s.startSending ch w)
  | .offline | .settling _ | .idle | .sending _ _ | .awaiting _ _ => .next s

/-- ACCESS_LIMIT_EXPIRED: the unit ends DEFERRED, and the deferral reaches the jam flag (R122, R123). -/
def execAccessLimitExpired (ch : Phase) (s : State) : Result :=
  match (s.channel ch).activity with
  | .sensing w _ _ => finish ((s.endUnit ch w .deferred .idle).jamSet ch w)
  | .offline | .settling _ | .idle | .sending _ _ | .awaiting _ _ => .next s

/-- The unit of work with the next fragment in hand (R81, R104). -/
def Work.advance (w : Work) : Work := { w with fragment := w.fragment + 1 }

/-- What follows the end of a sending (R104, R105, R106, R124, R148). -/
def State.sent (s : State) (ch : Phase) (w : Work) : State :=
  match w.kind with
  | .exchange _ route => s.setActivity ch (.awaiting w (s.line.window route))
  | .broadcast _ budget =>
    if w.fragment < w.count then s.sense ch w.advance
    else
      (s.handBack ch (.transmissionEnded w.slot w.seq)).setActivity ch
        (if budget = 0 then .idle else .awaiting w (s.line.tail budget))

/-- SENDING_END (R124). -/
def execSendingEnd (ch : Phase) (s : State) : Result :=
  match (s.channel ch).activity with
  | .sending w _ => finish (s.sent ch w)
  | .offline | .settling _ | .idle | .sensing _ _ _ | .awaiting _ _ => .next s

/-- What a classified frame does to the exchange in its reply window (R82, R125, R150). -/
def State.answered (s : State) (ch : Phase) (w : Work) (e : Heard) : State :=
  match e with
  | .setAside => s
  | .nextFragment => s.sense ch w.advance
  | .ends v => s.endUnit ch w v .idle

/-- INBOUND_LINE_FRAME: classified in the reply window of an exchange, signal in SENSING, set aside or not heard
elsewhere (R125, R149, R151). -/
def execInboundLineFrame (ch : Phase) (bytes : List Byte) (s : State) : Result :=
  match (s.channel ch).activity with
  | .awaiting w _ =>
    match w.kind with
    | .exchange dest route => finish (s.answered ch w (classify w dest route bytes s.clock.time))
    | .broadcast _ _ => finish s
  | .sensing _ _ _ => finish (s.hearSignal ch)
  | .offline | .settling _ | .idle | .sending _ _ => finish s

/-- REPLY_WINDOW_EXPIRED: no answer was taken (R82, R148). -/
def execReplyWindowExpired (ch : Phase) (s : State) : Result :=
  match (s.channel ch).activity with
  | .awaiting w _ =>
    match w.kind with
    | .exchange _ _ => finish (s.endUnit ch w .noReply .idle)
    | .broadcast _ _ => .next s
  | .offline | .settling _ | .idle | .sensing _ _ _ | .sending _ _ => .next s

/-- TAIL_EXPIRED: the tail-ended report is handed back (R106, R125). -/
def execTailExpired (ch : Phase) (s : State) : Result :=
  match (s.channel ch).activity with
  | .awaiting w _ =>
    match w.kind with
    | .exchange _ _ => .next s
    | .broadcast _ _ => finish ((s.handBack ch (.tailEnded w.slot w.seq)).setActivity ch .idle)
  | .offline | .settling _ | .idle | .sensing _ _ _ | .sending _ _ => .next s

/-- A target of LINE MASK covers a channel (R132). -/
def maskCovers (t : MaskTarget) (ch : Phase) : Bool :=
  match t with
  | .one c => decide (c = ch)
  | .all => true

/-- The channels with the marks that LINE MASK sets or clears (R132). -/
def Line.applyMask (l : Line) (t : MaskTarget) (mask : Bool) : Line :=
  { l with channels := .ofFn (fun ch =>
      if maskCovers t ch then { l.channels.get ch with masked := mask } else l.channels.get ch) }

/-- LINE MASK (R132). -/
def serveLineMask (q : LineMaskReq) (s : State) : Served :=
  match q.target, q.mask with
  | some t, some mask =>
    let line := s.line.applyMask t mask
    accept (s.setLine line) (.masks (line.channels.map Channel.masked))
  | _, _ => refuse s .malformed

/-- LINE_MASK (R132). -/
def execLineMask (h : Header) (q : LineMaskReq) (s : State) : Result := takeRequest h (.lineMask q) (serveLineMask q) s

/-- LINE STATUS changes nothing (R134). -/
def serveLineStatus (s : State) : Served := accept s (.lines (.ofFn s.lineRecord))

/-- LINE_STATUS (R134). -/
def execLineStatus (h : Header) (s : State) : Result := takeRequest h .lineStatus serveLineStatus s

end Sys2Proof.Machine
end

