-- ==== Sys2Proof/Machine/Delivery.lean ====
section
/-! DEFINITION. The campaign controller's taking of what the channels hand back: exchange outcomes (sections 4.4 and 4.5),
transmission-ended reports (R105) and tail-ended reports (R106). -/

namespace Sys2Proof.Machine

/-- The first report of a kind and the others, in their order. -/
def takeFirst (p : ChannelReport → Bool) : List ChannelReport → Option (ChannelReport × List ChannelReport)
  | [] => none
  | r :: rest =>
    if p r then some (r, rest)
    else
      match takeFirst p rest with
      | some (found, others) => some (found, r :: others)
      | none => none

/-- A report that ends a unit of work with an outcome. -/
def ChannelReport.isOutcome : ChannelReport → Bool
  | .outcome _ _ => true
  | .transmissionEnded _ _ => false
  | .tailEnded _ _ => false

/-- A transmission-ended report. -/
def ChannelReport.isTransmissionEnded : ChannelReport → Bool
  | .transmissionEnded _ _ => true
  | .outcome _ _ => false
  | .tailEnded _ _ => false

/-- A tail-ended report. -/
def ChannelReport.isTailEnded : ChannelReport → Bool
  | .tailEnded _ _ => true
  | .outcome _ _ => false
  | .transmissionEnded _ _ => false

/-! ## Exchange outcomes -/

/-- The outcome is credited: the slot holds the same campaign in RUNNING or HELD, and it is pending at an entry that
holds the destination (R85). -/
def State.credits (s : State) (w : Work) (dest : Nat) : Bool :=
  (match s.campaign w.slot with
    | some c => decide (c.seq = w.seq) && c.state.active
    | none => false)
  && (match s.entry dest with
    | some e => e.pending.contains w.slot
    | none => false)

/-- The tried mark of a failed exchange (R90, R91). -/
def Entry.markTried (e : Entry) (slot : Nat) : Entry := { e with tried := insertNat slot e.tried }

/-- Step 1 of R92: the campaign's sets and counts (R86 to R91). -/
def State.credit (s : State) (slot dest : Nat) (v : Verdict) : State :=
  match v with
  | .applied => s.settleReceiver slot dest Campaign.addApplied
  | .report _ _ => s.settleReceiver slot dest Campaign.addApplied
  | .alreadyNewer => s.settleReceiver slot dest Campaign.addDeclined
  | .refused r => s.settleReceiver slot dest (Campaign.addRefused r)
  | .noReply => s.updateEntry dest (fun e => e.markTried slot)
  | .garbled => s.updateEntry dest (fun e => e.markTried slot)
  | .hopFailed _ => s.updateEntry dest (fun e => e.markTried slot)
  | .interrupted => s
  | .deferred => s

/-- The relay's contact report of a HOP_FAILED, before the destination's miss report (R91). -/
def State.relayContact (s : State) (ch : Phase) (route : List Nat) (position : Nat) : State :=
  match route[position - 1]? with
  | some relay => s.contact relay ch .nothing
  | none => s

/-- Step 3 of R92: the reports to the roster unit, credited or roster-only (R86 to R91, R93). -/
def State.learn (s : State) (ch : Phase) (seq dest : Nat) (route : List Nat) (v : Verdict) : State :=
  match v with
  | .applied => s.contact dest ch (.confirmed seq)
  | .report f heardAt => s.contact dest ch (.report f heardAt)
  | .alreadyNewer => s.contact dest ch .nothing
  | .refused _ => s.contact dest ch .refusal
  | .noReply => s.miss dest false
  | .garbled => s.miss dest false
  | .hopFailed k => (s.relayContact ch route k).miss dest true
  | .interrupted => s
  | .deferred => s

/-- The slots whose owed receiver the reports make SILENT (R94). -/
def State.silencedByVerdict (s : State) (ch : Phase) (dest : Nat) (route : List Nat) (v : Verdict) : List Nat :=
  match v with
  | .noReply => s.silencedBy dest false
  | .garbled => s.silencedBy dest false
  | .hopFailed k => (s.relayContact ch route k).silencedBy dest true
  | .applied => []
  | .report _ _ => []
  | .alreadyNewer => []
  | .refused _ => []
  | .interrupted => []
  | .deferred => []

/-- The examination of the outcome's own campaign (R94): the slot still holds the campaign it was granted to. -/
def State.examineOwn (s : State) (w : Work) : State :=
  match s.campaign w.slot with
  | some c => if c.seq = w.seq then s.examinePass w.slot else s
  | none => s

/-- Steps 1 and 2 of R92, for a credited outcome only. -/
def State.account (s : State) (w : Work) (dest : Nat) (v : Verdict) : State :=
  if s.credits w dest then (s.credit w.slot dest v).completeIfSettled w.slot .settled else s

/-- An outcome is taken (R92, R93): account, completion, reports, examinations. That an ATTENTION of step 3 thus comes before
the CAMPAIGN ENDED of a campaign that step 4 makes EXHAUSTED is MODEL'S CHOICE (log 40): R92's closing sentence has every
CAMPAIGN ENDED first. A broadcast's outcome changes nothing (R107). -/
def State.takeOutcome (s : State) (ch : Phase) (w : Work) (v : Verdict) : State :=
  match w.kind with
  | .broadcast _ _ => s
  | .exchange dest route =>
    let a := s.account w dest v
    ((a.learn ch w.seq dest route v).examineOwn w).examineSilenced (a.silencedByVerdict ch dest route v)

/-- OUTCOME_TAKEN: the first outcome that the channel handed back (R92, R93). -/
def execOutcomeTaken (ch : Phase) (s : State) : Result :=
  match takeFirst ChannelReport.isOutcome (s.reports ch) with
  | some (.outcome w v, rest) => finish ((s.setReports ch rest).takeOutcome ch w v)
  | some (.transmissionEnded _ _, _) => .next s
  | some (.tailEnded _ _, _) => .next s
  | none => .next s

/-! ## Broadcast reports -/

/-- A transmission counted on a phase (R102, R105). -/
def BroadcastRun.count (r : BroadcastRun) (ch : Phase) : BroadcastRun :=
  { r with
    remaining := r.remaining.set ch (r.remaining.get ch - 1)
    made := r.made.set ch (min Config.maxTally (r.made.get ch + 1)) }

/-- A transmission-ended report is taken: counted for the same campaign in RUNNING or HELD, and the round of a RUNNING
one examined (R105). -/
def State.countTransmission (s : State) (ch : Phase) (slot seq : Nat) : State :=
  match s.campaign slot with
  | none => s
  | some c =>
    if c.seq = seq ∧ c.state.active = true then
      (s.updateCampaign slot (fun d => { d with run := d.run.map (fun r => r.count ch) })).examineRound slot
    else s

/-- TRANSMISSION_ENDED_TAKEN (R105). -/
def execTransmissionEndedTaken (ch : Phase) (s : State) : Result :=
  match takeFirst ChannelReport.isTransmissionEnded (s.reports ch) with
  | some (.transmissionEnded slot seq, rest) => finish ((s.setReports ch rest).countTransmission ch slot seq)
  | some (.outcome _ _, _) => .next s
  | some (.tailEnded _ _, _) => .next s
  | none => .next s

/-- TAIL_ENDED_TAKEN: the report changes no count (R70, R106). -/
def execTailEndedTaken (ch : Phase) (s : State) : Result :=
  match takeFirst ChannelReport.isTailEnded (s.reports ch) with
  | some (_, rest) => finish (s.setReports ch rest)
  | none => .next s

end Sys2Proof.Machine
end

