-- ==== Sys2Proof/Machine/Serial.lean ====
section
/-! DEFINITION. The serial line to the host (section 10.1): assembling an incoming frame from characters, and the bytes of
an outgoing one. -/

namespace Sys2Proof.Machine

/-- The rate that the straps select (R186). -/
def rateOf (strapA strapB : Bool) : Rate :=
  match strapA, strapB with
  | false, false => .b9600
  | false, true => .b19200
  | true, false => .b57600
  | true, true => .b115200

/-- A complete frame from the host: its kind, tag and body (R186). -/
structure SerialFrame where
  kind : Byte
  tag  : Byte
  body : List Byte
  deriving DecidableEq, Repr

/-- A character that starts a frame (R187). -/
def isMarker (c : RxChar) : Bool := c.byte == Config.startMarker && !c.framingError

/-- The frame made of the length byte and the bytes after it, when its check is right: the check covers length, kind,
tag and body (R186). -/
def serialFrame? (length : Byte) (rest : List Byte) : Option SerialFrame :=
  match checked? (length :: rest) with
  | some (_ :: kind :: tag :: body) => some ⟨kind, tag, body⟩
  | _ => none

/-- The first complete frame among the characters received, and the characters kept after it (R187). A frame is given up
at a bad length, at a framing error or at a wrong check, and the search for a marker goes on after that point. Without a
complete frame the partial one is kept from its marker on. The bound counts the frames that can be given up. -/
def nextFrame : Nat → List RxChar → Option SerialFrame × List RxChar
  | 0, cs => (none, cs)
  | n + 1, cs =>
    match cs.dropWhile (fun c => !isMarker c) with
    | [] => (none, [])
    | [m] => (none, [m])
    | m :: len :: rest =>
      if len.framingError = true ∨ Config.maxBody < len.byte.toNat then nextFrame n rest
      else
        let need := len.byte.toNat + 4
        let sound := rest.takeWhile (fun c => !c.framingError)
        if need ≤ sound.length then
          match serialFrame? len.byte ((rest.take need).map RxChar.byte) with
          | some f => (some f, rest.drop need)
          | none => nextFrame n (rest.drop need)
        else if sound.length = rest.length then (none, m :: len :: rest)
        else nextFrame n (rest.drop (sound.length + 1))

/-- The request that a complete frame brings: what its kind and body spell is an operand of the command, because R186
gives no codes (log 5). -/
def SerialFrame.inbound (f : SerialFrame) (formed : Bool) (spelled : Option Request) : Inbound :=
  ⟨⟨f.tag, formed⟩, spelled.getD (.unknown f.kind)⟩

/-- A complete frame joins the inbound queue at its tail, or is discarded when the queue holds two (R187). -/
def State.enqueue (s : State) (i : Inbound) : State :=
  if s.link.inbound.length < Config.inboundSize then s.setLink { s.link with inbound := s.link.inbound ++ [i] } else s

/-- The tag of an outgoing frame: the request's, or 0 in a notice (R186). -/
def Outgoing.tag : Outgoing → Byte
  | .reply r => r.tag
  | .notice _ => 0

/-- The byte of a request's kind; a kind that names no request is its own byte (R186, R188). -/
def RequestKind.byte : RequestKind → Byte
  | .unknown k => k
  | k => Config.requestByte k

/-- The kind of an outgoing frame: a reply names the request it answers, marked as a reply; a notice is of one of five
kinds (R186). The bytes are open (log 6). -/
def Outgoing.kind : Outgoing → Byte
  | .reply r => Config.markReply (RequestKind.byte r.kind)
  | .notice n => Config.noticeByte n.kind

/-- What follows the result code in a reply: nothing in a refusal and where the request's rule gives no body (R186); the
layout of every other body is open (log 6). -/
def Reply.rest (r : Reply) : List Byte :=
  if r.code = .ok then
    match r.body with
    | .none => []
    | b => (List.range (Config.replyLength b).val).map (Config.replyByte b)
  else []

/-- The body of an outgoing frame: a reply begins with its result code (R186); the codes and layouts are open, within the
240 bytes of a body (log 6). -/
def Outgoing.body : Outgoing → List Byte
  | .reply r => Config.resultByte r.code :: r.rest
  | .notice n => (List.range (Config.noticeLength n).val).map (Config.noticeBodyByte n)

/-- The bytes of an outgoing frame on the serial line: marker, length, kind, tag, body, check (R186). -/
def Outgoing.bytes (o : Outgoing) : List Byte :=
  Config.startMarker :: withCheck (BitVec.ofNat 8 o.body.length :: o.kind :: o.tag :: o.body)

end Sys2Proof.Machine
end

