-- ==== Sys2Proof/Machine/HostLink.lean ====
section
/-! DEFINITION. The link's own commands (chapter 10): serial frames in and out, unknown kinds, STATUS and IDENTIFY. -/

namespace Sys2Proof.Machine

/-- FRAME_COMPLETE: the characters received are assembled with the partial frame, and the first complete frame joins the
inbound queue (R187). -/
def execFrameComplete (chars : List RxChar) (formed : Bool) (spelled : Option Request) (s : State) : Result :=
  let received := s.link.rx ++ chars
  let (frame, kept) := nextFrame (received.length + 1) received
  let t := s.setLink { s.link with rx := kept }
  match frame with
  | some f => finish (t.enqueue (f.inbound formed spelled))
  | none => finish t

/-- INTER_BYTE_TIMEOUT: the partial frame is discarded (R187). -/
def execInterByteTimeout (s : State) : Result := finish (s.setLink { s.link with rx := [] })

/-- TRANSMISSION_END: the transmitter is free and chooses (R189). -/
def execTransmissionEnd (s : State) : Result := finish (s.setLink { s.link with tx := none })

/-- UNKNOWN_KIND: whatever its tag, a request whose kind names none is answered so (R188, step 1). -/
def execUnknownKind (h : Header) (kind : Byte) (s : State) : Result :=
  let r := Request.unknown kind
  if s.mayTake h r then finish (State.settle (refuse s.popInbound .unknownKind) h r) else .next s

/-- The body of a STATUS reply (R191). -/
def State.statusBody (s : State) : StatusBody where
  time := s.clock.time
  source := s.clock.source
  reference := s.clock.reference
  counter := s.campaigns.counter
  freeSlots := s.freeSlots
  rosterEntries := s.roster.entries.length
  attention := s.roster.attention
  notices := s.link.notices.length
  lost := s.link.lost
  channels := s.line.channels.map (fun c => c.activity.name)

/-- STATUS clears the notices-lost flag, which its reply still shows (R190, R191). -/
def serveStatus (s : State) : Served :=
  accept (s.setLink { s.link with lost := false }) (.status s.statusBody)

/-- STATUS (R191). -/
def execStatus (h : Header) (s : State) : Result := takeRequest h .status serveStatus s

/-- The body of an IDENTIFY reply (R192). -/
def State.identifyBody (s : State) : IdentifyBody where
  vendor := Config.vendorCode
  part := Config.partCode
  revision := Config.siliconRevision
  rosterSize := Config.rosterSize
  slots := Config.campaignSlots
  planSlots := Config.planSlots
  sectors := Config.sectors
  network := s.store.site.fields.network
  kiosk := s.store.site.fields.kiosk

/-- IDENTIFY changes nothing (R192). -/
def serveIdentify (s : State) : Served := accept s (.identify s.identifyBody)

/-- IDENTIFY (R192). -/
def execIdentify (h : Header) (s : State) : Result := takeRequest h .identify serveIdentify s

end Sys2Proof.Machine
end

