-- ==== Sys2Proof/Machine/LineTime.lean ====
section
/-! DEFINITION. The line clock (chapter 8): the reference phase, the running source, CLOCK SET and the completion of a
second; and mains events, which reach a channel and the clock alike. -/

namespace Sys2Proof.Machine

/-- The reference phase: the lowest-numbered phase with mains (R158). -/
def referenceOf (mains : PerPhase Bool) : Option Phase := Phase.all.find? (fun ph => mains.get ph)

/-- The running source (R159). -/
def runningSource (param : Source) (reference : Option Phase) : Source :=
  match param, reference with
  | .mains, some _ => .mains
  | _, _ => .crystal

/-- The notice of a changed running source (R160). -/
def Clock.sourceNotice (c : Clock) (cause : SourceCause) : Notice :=
  .clockSource c.source (match c.source with | .mains => c.reference | .crystal => none) cause c.time

/-- The clock takes a new reference phase and source parameter: the running source is determined afresh, and a change of
it queues a CLOCK SOURCE notice (R158, R159). -/
def State.retime (s : State) (reference : Option Phase) (param : Source) (cause : SourceCause) : State :=
  let clock := { s.clock with reference := reference, sourceParam := param, source := runningSource param reference }
  let t := s.setClock clock
  if clock.source = s.clock.source then t else t.notify (clock.sourceNotice cause)

/-- CLOCK SET: the clock runs at the carried value and the part of the second begins again; a clock that was RUNNING hands
a step report (R155). -/
def serveClockSet (time : Nat) (s : State) : Served :=
  if Config.maxTime < time then refuse s .malformed
  else
    let t := s.setClock { s.clock with time := some time, part := 0 }
    match s.clock.time with
    | some _ => accept (t.timeReached time) (.clock time true)
    | none => accept t (.clock time false)

/-- CLOCK_SET (R155). -/
def execClockSet (h : Header) (time : Nat) (s : State) : Result := takeRequest h (.clockSet time) (serveClockSet time) s

/-- SECOND_COMPLETE: the part of the second begins again, and a RUNNING line time advances by one, up to its end, with a
time-reached report (R153, R154). -/
def execSecondComplete (s : State) : Result :=
  let t := s.setClock { s.clock with part := 0 }
  match s.clock.time with
  | none => finish t
  | some n =>
    if n < Config.maxTime then finish ((t.setClock { t.clock with time := some (n + 1) }).timeReached (n + 1))
    else finish t

/-- A channel loses mains: OFFLINE from whatever state, its unit of work INTERRUPTED, and a notice (R118). -/
def State.channelLost (s : State) (ph : Phase) : State :=
  match (s.channel ph).activity.work with
  | some w => (s.endUnit ph w .interrupted .offline).lineNotice ph .offline
  | none => (s.setActivity ph .offline).lineNotice ph .offline

/-- MAINS_LOST: the channel first, then the clock (R118, R158, log 18). A phase without mains cannot lose it. -/
def execMainsLost (ch : Phase) (s : State) : Result :=
  if s.pins.mains.get ch then
    let mains := s.pins.mains.set ch false
    let t := (s.setPins { s.pins with mains := mains }).channelLost ch
    finish (t.retime (referenceOf mains) s.clock.sourceParam .noMains)
  else .next s

/-- A channel sees mains return: an OFFLINE one enters SETTLING with its timer at the settle time (R119). -/
def State.channelReturned (s : State) (ph : Phase) : State :=
  match (s.channel ph).activity with
  | .offline => s.setActivity ph (.settling (s.line.settleTime * 1000))
  | .settling _ | .idle | .sensing _ _ _ | .sending _ _ | .awaiting _ _ => s

/-- MAINS_RETURNED: the channel first, then the clock (R119, R158). A phase with mains cannot see it return. -/
def execMainsReturned (ch : Phase) (s : State) : Result :=
  if s.pins.mains.get ch then .next s
  else
    let mains := s.pins.mains.set ch true
    let t := (s.setPins { s.pins with mains := mains }).channelReturned ch
    finish (t.retime (referenceOf mains) s.clock.sourceParam .mainsReturned)

end Sys2Proof.Machine
end

