-- ==== Sys2Proof/Machine/Parameters.lean ====
section
/-! DEFINITION. PARAM SET and PARAM GET (R194): the value is set and the owning block takes the change in the same
taking. -/

namespace Sys2Proof.Machine

/-- A changed silence threshold with what it brings: entries may become SILENT (R8), and passes owed to them may end
(R94). MODEL'S CHOICE (log 33): the ATTENTION notice of the roster unit is queued before the CAMPAIGN ENDED notices of the
passes that end; no rule orders the two. -/
def State.applyThreshold (s : State) (threshold : Nat) : State :=
  (s.setThreshold threshold).examineSilenced
    (if threshold < s.roster.threshold then s.silencedByThreshold threshold else [])

/-- A changed auto-suspend: ON may put an erase into SUSPENDING at once (R177, R185). -/
def State.applyAutoSuspend (s : State) (on : Bool) : State :=
  let st := { s.store with autoSuspend := on }
  s.setStore (if on then st.autoSuspendErase else st)

/-- The frequency that a number of hertz names (R161). -/
def frequencyOf (n : Nat) : Frequency := if n = 60 then .hz60 else .hz50

/-- `s` with a parameter at a new value within its range, and the owner's part of the change (R194). A value that is not
of the parameter's form does not reach this definition. -/
def State.applyParam (s : State) (r : ParamRef) (v : ParamValue) : State :=
  match r, v with
  | .arbitration ch, .arb m => s.setChannel ch { s.channel ch with arb := m }
  | .plain .silenceThreshold, .number n => s.applyThreshold n
  | .plain .attentionNotices, .switch w => s.setRoster { s.roster with noticesOn := decide (w = .on) }
  | .plain .defaultPassLimit, .number n => s.setCampaigns { s.campaigns with defaultPassLimit := n }
  | .plain .settleTime, .number n => s.setLine { s.line with settleTime := n }
  | .plain .quietInterval, .number n => s.setLine { s.line with quietInterval := n }
  | .plain .accessLimit, .number n => s.setLine { s.line with accessLimit := n }
  | .plain .replyBase, .number n => s.setLine { s.line with replyBase := n }
  | .plain .hopExtension, .number n => s.setLine { s.line with hopExtension := n }
  | .plain .clockSource, .source w => s.retime s.clock.reference w .parameter
  | .plain .mainsFrequency, .number n => s.setClock { s.clock with frequency := frequencyOf n }
  | .plain .autoSuspend, .switch w => s.applyAutoSuspend (decide (w = .on))
  | _, _ => s

/-- PARAM SET: the value the parameter already holds changes nothing (R194). -/
def serveParamSet (q : ParamSetReq) (s : State) : Served :=
  match paramRef? q.name q.channel with
  | none => refuse s .malformed
  | some r =>
    if paramInRange r q.value then
      let t := if s.paramValue r = q.value then s else s.applyParam r q.value
      accept t (.param (t.paramValue r))
    else refuse s .malformed

/-- PARAM_SET (R194). -/
def execParamSet (h : Header) (q : ParamSetReq) (s : State) : Result :=
  takeRequest h (.paramSet q) (serveParamSet q) s

/-- PARAM GET (R194). -/
def serveParamGet (q : ParamGetReq) (s : State) : Served :=
  match q with
  | .all => accept s (.params (allParams.map s.paramValue))
  | .one name channel =>
    match paramRef? name channel with
    | some r => accept s (.param (s.paramValue r))
    | none => refuse s .malformed

/-- PARAM_GET (R194). -/
def execParamGet (h : Header) (q : ParamGetReq) (s : State) : Result :=
  takeRequest h (.paramGet q) (serveParamGet q) s

end Sys2Proof.Machine
end

