-- ==== Sys2Proof/Machine/Reset.lean ====
section
/-! DEFINITION. Power-on (R26, R74, R117, R162, R179, R193) and the two scopes of RESET (R193). -/

namespace Sys2Proof.Machine

/-! ## Power-on -/

/-- The slots damaged by the operation that was active when power went (R179). -/
def damageActive (active : Option Operation) (slots : List PlanSlot) : List PlanSlot :=
  match active with
  | some (.program p _) => slots.set p .damaged
  | some (.erase k _ _) => fillSector k .damaged slots
  | some (.siteWrite _) => slots
  | some .siteLock => slots
  | none => slots

/-- The slots damaged by the erase that was suspended when power went (R179). -/
def damageSuspended (suspended : Option SuspendedErase) (slots : List PlanSlot) : List PlanSlot :=
  match suspended with
  | some e => fillSector e.sector .damaged slots
  | none => slots

/-- The plan store after power-on (R179). -/
def Store.poweredOn (st : Store) : Store :=
  .initial (damageSuspended st.suspended (damageActive st.active st.slots)) st.site

/-- The activity of a channel after power-on (R117). -/
def activityAtPowerOn (mains : Bool) : Activity :=
  if mains then .settling (5 * 1000) else .offline

/-- The line clock after power-on (R162). -/
def clockAtPowerOn (mains : PerPhase Bool) : Clock :=
  ⟨none, 0, referenceOf mains, runningSource .mains (referenceOf mains), .mains, .hz50⟩

/-- The link controller after power-on, with the rate of the straps (R186, R193). That it holds no character of a partial
inbound frame is MODEL'S CHOICE (log 39): R193 does not name one. -/
def linkAtPowerOn (pins : Pins) : Link := ⟨rateOf pins.strapA pins.strapB, [], [], none, [], false, none⟩

/-- POWER_ON, and assertion of the reset input: every block at its initial state, the plan store with its damage recorded
(R26, R74, R117, R162, R179, R193). -/
def execPowerOn (pins : Pins) (s : State) : Result :=
  .next
    { s with
      pins := pins
      link := linkAtPowerOn pins
      roster := .initial
      campaigns := .initial
      line := .initial (pins.mains.map activityAtPowerOn)
      clock := clockAtPowerOn pins.mains
      store := s.store.poweredOn }

/-! ## RESET (R193) -/

/-- The activity of a channel after a reset: work is abandoned, SETTLING and OFFLINE are kept (R136). -/
def Activity.reset : Activity → Activity
  | .offline => .offline
  | .settling left => .settling left
  | .idle => .idle
  | .sensing _ _ _ => .idle
  | .sending _ _ => .idle
  | .awaiting _ _ => .idle

/-- A channel after RESET CAMPAIGNS (R136). -/
def Channel.resetCampaigns (c : Channel) : Channel :=
  { c with activity := c.activity.reset, jam := false, pointer := 15 }

/-- The link controller's own part, the same for both scopes (R193). -/
def Link.reset (l : Link) : Link := { l with inbound := [], notices := [], lost := false }

/-- An entry with empty pending and tried sets (R26, R74). -/
def Entry.forgetSlots (e : Entry) : Entry := { e with pending := [], tried := [] }

/-- The line channels after RESET CAMPAIGNS; untaken reports are discarded (R74, R136, log 13). -/
def Line.resetCampaigns (l : Line) : Line :=
  { l with channels := l.channels.map Channel.resetCampaigns, reports := .const [] }

/-- The plan store after RESET CAMPAIGNS (R178, R185); untaken deliveries are discarded (log 13). -/
def Store.resetCampaigns (st : Store) : Store := { st with arm := false, waiting := [], deliveries := [] }

/-- RESET of scope CAMPAIGNS (R26, R74, R136, R185, R193). -/
def State.resetCampaigns (s : State) : State :=
  { s with
    link := s.link.reset
    roster := { s.roster with entries := s.roster.entries.map Entry.forgetSlots }
    campaigns := { s.campaigns with table := [] }
    line := s.line.resetCampaigns
    store := s.store.resetCampaigns }

/-- The roster unit after RESET ALL: the segment map is kept exactly when it is locked (R13, R16, R26). -/
def Roster.resetAll (r : Roster) : Roster :=
  if r.locked then { Roster.initial with segments := r.segments, locked := true } else .initial

/-- The line channels after RESET ALL: those of power-on, with the activities that R136 keeps. -/
def Line.resetAll (l : Line) : Line := .initial (l.channels.map (fun c => c.activity.reset))

/-- The line clock after RESET ALL: parameters at their defaults and the running source re-determined, without a notice
(R162). -/
def Clock.resetAll (c : Clock) : Clock :=
  { c with sourceParam := .mains, frequency := .hz50, source := runningSource .mains c.reference }

/-- The plan store after RESET ALL (R185). -/
def Store.resetAll (st : Store) : Store :=
  { st.resetCampaigns with staging := .blank, boundary := 8, autoSuspend := true }

/-- RESET of scope ALL (R26, R74, R136, R162, R185, R193). -/
def State.resetAll (s : State) : State :=
  { s with
    link := s.link.reset
    roster := s.roster.resetAll
    campaigns := .initial
    line := s.line.resetAll
    clock := s.clock.resetAll
    store := s.store.resetAll }

/-- RESET ALL is refused for no state (R193). -/
def serveResetAll (s : State) : Served := accept s.resetAll .none

/-- RESET_ALL (R193). -/
def execResetAll (h : Header) (s : State) : Result := takeRequest h .resetAll serveResetAll s

/-- RESET CAMPAIGNS is refused for no state (R193). -/
def serveResetCampaigns (s : State) : Served := accept s.resetCampaigns .none

/-- RESET_CAMPAIGNS (R193). -/
def execResetCampaigns (h : Header) (s : State) : Result := takeRequest h .resetCampaigns serveResetCampaigns s

end Sys2Proof.Machine
end

