-- ==== Sys2Proof/Machine/RosterRequests.lean ====
section
/-! DEFINITION. The requests on the roster and the segment map (sections 1.4 and 1.6). -/

namespace Sys2Proof.Machine

/-- The six checks of R18, in order. -/
def State.rosterPutRefusal (s : State) (q : RosterPutReq) : Option ResultCode :=
  firstRefusal [
    (rosterPutInRange q, .malformed),
    (rosterRouteSound q, .malformed),
    (q.route.all (fun u => (s.entry u).isSome), .notFound),
    (q.route.all (fun u => (s.entry u).any (fun e => decide (e.role = .relay))), .malformed),
    (!((s.entry q.unit).any (fun e => decide (e.role = .relay)) && decide (q.role = some .terminal) && s.routed q.unit),
      .inUse),
    ((s.entry q.unit).isSome || decide (s.roster.entries.length < Config.rosterSize), .full)]

/-- A new entry (R2). -/
def freshEntry (q : RosterPutReq) (role : Role) (phase : Option Phase) : Entry where
  unit := q.unit
  serial := q.serial
  role := role
  phase := phase
  groups := setOfList q.groups
  route := q.route
  state := .new
  misses := 0
  searchPhase := .l1
  flags := noFlags
  lastContact := none
  lastConfirmed := none
  lastReport := none
  pending := []
  tried := []

/-- An UPDATED entry: a changed route resets the miss count, a changed phase field the search phase (R19). -/
def Entry.updated (e : Entry) (q : RosterPutReq) (role : Role) (phase : Option Phase) : Entry :=
  { e with
    role := role
    phase := phase
    groups := setOfList q.groups
    route := q.route
    misses := if q.route = e.route then e.misses else 0
    searchPhase := if phase = e.phase then e.searchPhase else .l1 }

/-- A REPLACED entry: everything learned is forgotten, the pending and tried sets are kept (R19). -/
def Entry.replaced (e : Entry) (q : RosterPutReq) (role : Role) (phase : Option Phase) : Entry :=
  { freshEntry q role phase with pending := e.pending, tried := e.tried }

/-- ROSTER PUT, once its checks pass (R19). -/
def State.putReceiver (s : State) (q : RosterPutReq) (role : Role) (phase : Option Phase) : Served :=
  let (entry, disposition) := match s.entry q.unit with
    | none => (freshEntry q role phase, Disposition.added)
    | some e =>
      if e.serial = q.serial then (e.updated q role phase, Disposition.updated)
      else (e.replaced q role phase, Disposition.replaced)
  accept ((s.setEntries (putBy Entry.unit entry s.roster.entries)).updateAttention) (.disposition disposition)

/-- ROSTER PUT (R18, R19). -/
def serveRosterPut (q : RosterPutReq) (s : State) : Served :=
  match s.rosterPutRefusal q, q.role, q.phase with
  | none, some role, some phase => s.putReceiver q role phase
  | some code, _, _ => refuse s code
  | none, _, _ => refuse s .malformed

/-- ROSTER_PUT (R18, R19). -/
def execRosterPut (h : Header) (q : RosterPutReq) (s : State) : Result :=
  takeRequest h (.rosterPut q) (serveRosterPut q) s

/-- ROSTER REMOVE: the receiver is dropped from its campaigns first, then the entry leaves (R20). -/
def serveRosterRemove (unit : Nat) (s : State) : Served :=
  match firstRefusal [
      (validUnit unit, .malformed),
      ((s.entry unit).isSome, .notFound),
      (!s.routed unit, .inUse)] with
  | some code => refuse s code
  | none =>
    let t := s.dropReceiver unit
    accept ((t.setEntries (removeBy Entry.unit unit t.roster.entries)).updateAttention) .none

/-- ROSTER_REMOVE (R20). -/
def execRosterRemove (h : Header) (unit : Nat) (s : State) : Result :=
  takeRequest h (.rosterRemove unit) (serveRosterRemove unit) s

/-- ROSTER GET (R21). -/
def serveRosterGet (unit : Nat) (s : State) : Served :=
  if validUnit unit then
    match s.entry unit with
    | some e => accept s (.entry (s.view e))
    | none => refuse s .notFound
  else refuse s .malformed

/-- ROSTER_GET (R21). -/
def execRosterGet (h : Header) (unit : Nat) (s : State) : Result :=
  takeRequest h (.rosterGet unit) (serveRosterGet unit) s

/-- A filter matches an entry (R22). -/
def scanMatches (f : ScanFilter) (e : Entry) : Bool :=
  match f with
  | .all => true
  | .attention => e.flags.any
  | .new => decide (e.state = .new)
  | .active => decide (e.state = .active)
  | .silent => decide (e.state = .silent)

/-- The page of a scan and the next unit: up to four matching entries from the start unit, then the lowest matching unit
above them, or 0 (R22). -/
def State.scan (s : State) (start : Nat) (f : ScanFilter) : List Entry × Nat :=
  let found := s.roster.entries.filter (fun e => decide (start ≤ e.unit) && scanMatches f e)
  (found.take 4, match found.drop 4 with | e :: _ => e.unit | [] => 0)

/-- ROSTER SCAN (R22). -/
def serveRosterScan (q : RosterScanReq) (s : State) : Served :=
  match q.filter with
  | none => refuse s .malformed
  | some f =>
    if validUnit q.start then accept s (.entries ((s.scan q.start f).1.map s.view) (s.scan q.start f).2)
    else refuse s .malformed

/-- ROSTER_SCAN (R22). -/
def execRosterScan (h : Header) (q : RosterScanReq) (s : State) : Result :=
  takeRequest h (.rosterScan q) (serveRosterScan q) s

/-- ROSTER FLAGS (R23). -/
def serveRosterFlags (q : RosterFlagsReq) (s : State) : Served :=
  match validUnit q.unit, q.select, q.value with
  | true, some select, some value =>
    match s.entry q.unit with
    | none => refuse s .notFound
    | some e =>
      let flags := e.flags.assign select value
      accept ((s.updateEntry q.unit (fun e => { e with flags := flags })).updateAttention) (.flags flags)
  | _, _, _ => refuse s .malformed

/-- ROSTER_FLAGS (R23). -/
def execRosterFlags (h : Header) (q : RosterFlagsReq) (s : State) : Result :=
  takeRequest h (.rosterFlags q) (serveRosterFlags q) s

/-- Every newly barred receiver with a pending set is dropped, in ascending unit order (R14). -/
def State.dropBarred (s : State) : State :=
  (s.roster.entries.filter (fun e => s.barred e && !e.pending.isEmpty)).foldl (fun t e => t.dropReceiver e.unit) s

/-- SEGMENT SET (R14). -/
def serveSegmentSet (q : SegmentSetReq) (s : State) : Served :=
  if s.roster.locked then refuse s .locked
  else
    match segmentRange? q with
    | none => refuse s .malformed
    | some g =>
      accept (s.setRoster { s.roster with segments := s.roster.segments.set q.index g }).dropBarred .none

/-- SEGMENT_SET (R14). -/
def execSegmentSet (h : Header) (q : SegmentSetReq) (s : State) : Result :=
  takeRequest h (.segmentSet q) (serveSegmentSet q) s

/-- SEGMENT GET (R15). -/
def serveSegmentGet (s : State) : Served := accept s (.segments s.roster.segments s.roster.locked)

/-- SEGMENT_GET (R15). -/
def execSegmentGet (h : Header) (s : State) : Result := takeRequest h .segmentGet serveSegmentGet s

/-- SEGMENT LOCK (R16). -/
def serveSegmentLock (s : State) : Served := accept (s.setRoster { s.roster with locked := true }) .none

/-- SEGMENT_LOCK (R16). -/
def execSegmentLock (h : Header) (s : State) : Result := takeRequest h .segmentLock serveSegmentLock s

end Sys2Proof.Machine
end

