-- ==== Sys2Proof/Machine/StoreRequests.lean ====
section
/-! DEFINITION. The requests on the plan store and its events (chapter 9). An event of an operation that is not active
changes nothing (log 1). -/

namespace Sys2Proof.Machine

/-! ## The staging buffer -/

/-- The buffer after PLAN STAGE (R165). -/
def Staging.stage (b : Staging) (q : PlanStageReq) : Staging where
  identity := match q.identity with | some v => some v | none => b.identity
  version := match q.version with | some v => some v | none => b.version
  points := stagePoints q.start q.points b.points

/-- PLAN STAGE (R165). -/
def servePlanStage (q : PlanStageReq) (s : State) : Served :=
  if planStageInRange q then
    let b := s.store.staging.stage q
    accept (s.setStore { s.store with staging := b }) (.staging b)
  else refuse s .malformed

/-- PLAN_STAGE (R165). -/
def execPlanStage (h : Header) (q : PlanStageReq) (s : State) : Result :=
  takeRequest h (.planStage q) (servePlanStage q) s

/-- PLAN CLEAR (R166). -/
def servePlanClear (s : State) : Served := accept (s.setStore { s.store with staging := .blank }) .none

/-- PLAN_CLEAR (R166). -/
def execPlanClear (h : Header) (s : State) : Result := takeRequest h .planClear servePlanClear s

/-! ## Operations -/

/-- An accepted change to the memory: the arm is cleared and the operation becomes active (R167, R169, R171, R181,
R182). -/
def State.begin (s : State) (op : Operation) : State :=
  s.setStore { s.store with arm := false, active := some op }

/-- The seven checks of R169, in order. -/
def State.planCommitRefusal (s : State) (p : Nat) : Option ResultCode :=
  firstRefusal [
    (decide (p < Config.planSlots), .malformed),
    (s.store.arm, .notArmed),
    (!s.store.covered (sectorOf p), .sectorProtected),
    (!s.store.sectorSuspended (sectorOf p), .sectorSuspended),
    (s.store.active.isNone, .storeBusy),
    (decide (s.store.slot p = some .empty), .notEmpty),
    (s.store.staging.committable.isSome, .malformed)]

/-- PLAN COMMIT (R169). -/
def servePlanCommit (p : Nat) (s : State) : Served :=
  match s.planCommitRefusal p, s.store.staging.committable with
  | some code, _ => refuse s code
  | none, some plan => accept (s.begin (.program p plan)) .none
  | none, none => refuse s .malformed

/-- PLAN_COMMIT (R169). -/
def execPlanCommit (h : Header) (p : Nat) (s : State) : Result := takeRequest h (.planCommit p) (servePlanCommit p) s

/-- PLAN READ (R175). -/
def servePlanRead (p : Nat) (s : State) : Served :=
  match firstRefusal [
      (decide (p < Config.planSlots), .malformed),
      (s.store.active.isNone, .storeBusy),
      (!s.store.sectorSuspended (sectorOf p), .sectorSuspended)] with
  | some code => refuse s code
  | none =>
    match s.store.planOf p with
    | some plan => accept s (.plan plan)
    | none => refuse s .notFound

/-- PLAN_READ (R175). -/
def execPlanRead (h : Header) (p : Nat) (s : State) : Result := takeRequest h (.planRead p) (servePlanRead p) s

/-- A campaign in WAITING or PREPARING has a PLAN LOAD from the sector (R171, check 5; log 16). -/
def Campaign.usesSector (c : Campaign) (sector : Nat) : Bool :=
  decide (c.state = .waiting ∨ c.state = .preparing)
    && (match c.order.body.planSlot with | some p => sectorOf p == sector | none => false)

/-- The five checks of R171, in order. -/
def State.sectorEraseRefusal (s : State) (sector : Nat) : Option ResultCode :=
  firstRefusal [
    (decide (sector < Config.sectors), .malformed),
    (s.store.arm, .notArmed),
    (!s.store.covered sector, .sectorProtected),
    (s.store.active.isNone && s.store.suspended.isNone, .storeBusy),
    (!s.campaigns.table.any (fun c => c.usesSector sector), .inUse)]

/-- SECTOR ERASE (R171). -/
def serveSectorErase (sector : Nat) (s : State) : Served :=
  match s.sectorEraseRefusal sector with
  | some code => refuse s code
  | none => accept (s.begin (.erase sector .erasing 0)) .none

/-- SECTOR_ERASE (R171). -/
def execSectorErase (h : Header) (sector : Nat) (s : State) : Result :=
  takeRequest h (.sectorErase sector) (serveSectorErase sector) s

/-- `s` with an active erase in a phase. -/
def State.setErase (s : State) (sector : Nat) (phase : ErasePhase) (runTime : Nat) : State :=
  s.setStore { s.store with active := some (.erase sector phase runTime) }

/-- ERASE SUSPEND (R173). -/
def serveEraseSuspend (s : State) : Served :=
  match s.store.active with
  | some (.erase sector .erasing runTime) =>
    if s.store.guard.isSome then refuse s .tooSoon
    else accept (s.setErase sector (.suspending .host) runTime) .none
  | some (.erase sector (.suspending .snapshot) runTime) =>
    accept (s.setErase sector (.suspending .host) runTime) .none
  | some (.erase _ (.suspending .host) _) => refuse s .wrongState
  | some (.program _ _) => refuse s .wrongState
  | some (.siteWrite _) => refuse s .wrongState
  | some .siteLock => refuse s .wrongState
  | none => refuse s .wrongState

/-- ERASE_SUSPEND (R173). -/
def execEraseSuspend (h : Header) (s : State) : Result := takeRequest h .eraseSuspend serveEraseSuspend s

/-- The suspended erase is active again in ERASING, and the resume guard starts (R174). -/
def Store.resumeErase (st : Store) (e : SuspendedErase) : Store :=
  { st with
    active := some (.erase e.sector .erasing e.runTime)
    suspended := none
    guard := some Config.guardTime }

/-- ERASE RESUME (R174). -/
def serveEraseResume (s : State) : Served :=
  match s.store.suspended with
  | none => refuse s .wrongState
  | some e =>
    match e.owner with
    | .snapshot => refuse s .wrongState
    | .host =>
      if s.store.active.isSome then refuse s .storeBusy else accept (s.setStore (s.store.resumeErase e)) .none

/-- ERASE_RESUME (R174). -/
def execEraseResume (h : Header) (s : State) : Result := takeRequest h .eraseResume serveEraseResume s

/-! ## Arm and protection -/

/-- STORE ARM (R167). -/
def serveStoreArm (s : State) : Served := accept (s.setStore { s.store with arm := true }) (.arm true)

/-- STORE_ARM (R167). -/
def execStoreArm (h : Header) (s : State) : Result := takeRequest h .storeArm serveStoreArm s

/-- STORE DISARM (R167). -/
def serveStoreDisarm (s : State) : Served := accept (s.setStore { s.store with arm := false }) (.arm false)

/-- STORE_DISARM (R167). -/
def execStoreDisarm (h : Header) (s : State) : Result := takeRequest h .storeDisarm serveStoreDisarm s

/-- The protect floor binds: the record is locked or being locked (R168, R182). -/
def Store.floorBinds (st : Store) : Bool := st.site.locked || decide (st.active = some .siteLock)

/-- A suspended erase whose sector the new boundary newly covers is abandoned (R168). -/
def State.abandonErase (s : State) (old new : Nat) : State :=
  match s.store.suspended with
  | none => s
  | some e =>
    if old ≤ e.sector ∧ e.sector < new then
      (s.setStore { s.store with slots := fillSector e.sector .damaged s.store.slots, suspended := none }).storeNotice
        (.eraseAborted e.sector)
    else s

/-- STORE PROTECT (R168). -/
def serveStoreProtect (value : Nat) (s : State) : Served :=
  match firstRefusal [
      (decide (value ≤ Config.sectors), .malformed),
      (!(s.store.floorBinds && decide (value < s.store.site.fields.floor.getD 0)), .locked)] with
  | some code => refuse s code
  | none =>
    accept ((s.setStore { s.store with boundary := value }).abandonErase s.store.boundary value) (.boundary value)

/-- STORE_PROTECT (R168). -/
def execStoreProtect (h : Header) (value : Nat) (s : State) : Result :=
  takeRequest h (.storeProtect value) (serveStoreProtect value) s

/-! ## STORE STATUS (R183) -/

/-- The active operation without its data. -/
def Operation.view : Operation → OperationView
  | .program p _ => .program p
  | .erase k _ _ => .erase k
  | .siteWrite f => .siteWrite f
  | .siteLock => .siteLock

/-- The phase of an active erase. -/
def Operation.erasePhase? : Operation → Option ErasePhase
  | .erase _ phase _ => some phase
  | .program _ _ => none
  | .siteWrite _ => none
  | .siteLock => none

/-- The run time of an active erase. -/
def Operation.runTime? : Operation → Option Nat
  | .erase _ _ runTime => some runTime
  | .program _ _ => none
  | .siteWrite _ => none
  | .siteLock => none

/-- The accumulated run time of an active or suspended erase. -/
def Store.runTime? (st : Store) : Option Nat :=
  match st.active.bind Operation.runTime? with
  | some n => some n
  | none => st.suspended.map SuspendedErase.runTime

/-- The state of a slot without its plan. -/
def PlanSlot.view : PlanSlot → SlotView
  | .empty => .empty
  | .programmed _ => .programmed
  | .damaged => .damaged

/-- The body of a STORE STATUS reply (R183). -/
def Store.body (st : Store) : StoreBody where
  active := st.active.map Operation.view
  erasePhase := st.active.bind Operation.erasePhase?
  runTime := st.runTime?
  suspended := st.suspended.map (fun e => (e.sector, e.owner))
  guard := st.guard.isSome
  arm := st.arm
  boundary := st.boundary
  autoSuspend := st.autoSuspend
  waiting := st.waiting.map (fun r => (r.slot, r.seq))
  filled := st.staging.filled
  committable := st.staging.committable.isSome
  slots := st.slots.map PlanSlot.view

/-- STORE STATUS changes nothing (R183). -/
def serveStoreStatus (s : State) : Served := accept s (.store s.store.body)

/-- STORE_STATUS (R183). -/
def execStoreStatus (h : Header) (s : State) : Result := takeRequest h .storeStatus serveStoreStatus s

/-! ## The site record -/

/-- The five checks of R181, in order. -/
def State.siteWriteRefusal (s : State) (q : SiteFields) : Option ResultCode :=
  firstRefusal [
    (siteInRange q, .malformed),
    (s.store.arm, .notArmed),
    (!s.store.site.locked, .locked),
    (s.store.active.isNone, .storeBusy),
    (siteBlankFor s.store.site.fields q, .alreadySet)]

/-- SITE WRITE (R181). -/
def serveSiteWrite (q : SiteFields) (s : State) : Served :=
  match s.siteWriteRefusal q with
  | some code => refuse s code
  | none => accept (s.begin (.siteWrite q)) .none

/-- SITE_WRITE (R181). -/
def execSiteWrite (h : Header) (q : SiteFields) (s : State) : Result :=
  takeRequest h (.siteWrite q) (serveSiteWrite q) s

/-- The checks of R182, in order. -/
def State.siteLockRefusal (s : State) : Option ResultCode :=
  firstRefusal [
    (s.store.arm, .notArmed),
    (!s.store.site.locked, .locked),
    (s.store.active.isNone, .storeBusy),
    (siteComplete s.store.site.fields && decide (s.store.site.fields.floor.getD 0 ≤ s.store.boundary), .wrongState)]

/-- SITE LOCK (R182). -/
def serveSiteLock (s : State) : Served :=
  match s.siteLockRefusal with
  | some code => refuse s code
  | none => accept (s.begin .siteLock) .none

/-- SITE_LOCK (R182). -/
def execSiteLock (h : Header) (s : State) : Result := takeRequest h .siteLock serveSiteLock s

/-- SITE READ (R180). -/
def serveSiteRead (s : State) : Served := accept s (.site s.store.site)

/-- SITE_READ (R180). -/
def execSiteRead (h : Header) (s : State) : Result := takeRequest h .siteRead serveSiteRead s

/-! ## Events -/

/-- The store becomes free: the notice of the event precedes the snapshot deliveries (R176, R184). -/
def State.completeOperation (s : State) (st : Store) (e : StoreEvent) : State :=
  let t := (s.setStore { st with active := none }).storeNotice e
  t.setStore t.store.serve

/-- PROGRAM_COMPLETE (R170). -/
def execProgramComplete (s : State) : Result :=
  match s.store.active with
  | some (.program p plan) =>
    finish (s.completeOperation { s.store with slots := s.store.slots.set p (.programmed plan) } (.programDone p))
  | some (.erase _ _ _) | some (.siteWrite _) | some .siteLock | none => .next s

/-- ERASE_COMPLETE (R172). -/
def execEraseComplete (s : State) : Result :=
  match s.store.active with
  | some (.erase sector _ _) =>
    finish (s.completeOperation
      { s.store with slots := fillSector sector .empty s.store.slots, guard := none } (.eraseDone sector))
  | some (.program _ _) | some (.siteWrite _) | some .siteLock | none => .next s

/-- The suspension is taken with owner HOST: the erase stays suspended, and its notice precedes the snapshots (R173,
R177). -/
def State.suspendForHost (s : State) (sector runTime : Nat) : State :=
  let st := { s.store with active := none, suspended := some ⟨sector, runTime, .host⟩ }
  let t := (s.setStore st).storeNotice (.eraseSuspended sector .host)
  t.setStore t.store.takeSnapshots

/-- The suspension is taken with owner SNAPSHOT: the snapshots are taken and the erase is resumed in the same taking,
without a notice (R177). -/
def State.suspendForSnapshot (s : State) (sector runTime : Nat) : State :=
  let st := { s.store with active := none, suspended := some ⟨sector, runTime, .snapshot⟩ }
  s.setStore (st.takeSnapshots.resumeErase ⟨sector, runTime, .snapshot⟩)

/-- SUSPENSION_TAKEN (R173, R177). -/
def execSuspensionTaken (s : State) : Result :=
  match s.store.active with
  | some (.erase sector (.suspending .host) runTime) => finish (s.suspendForHost sector runTime)
  | some (.erase sector (.suspending .snapshot) runTime) => finish (s.suspendForSnapshot sector runTime)
  | some (.erase _ .erasing _) | some (.program _ _) | some (.siteWrite _) | some .siteLock | none => .next s

/-- RESUME_GUARD_EXPIRED: waiting requests may suspend the erase now (R174, R177). -/
def execResumeGuardExpired (s : State) : Result :=
  match s.store.guard with
  | some _ => finish (s.setStore ({ s.store with guard := none }).autoSuspendErase)
  | none => .next s

/-- SITE_WRITE_COMPLETE: every carried field is written together (R181). -/
def execSiteWriteComplete (s : State) : Result :=
  match s.store.active with
  | some (.siteWrite q) =>
    finish (s.completeOperation
      { s.store with site := { s.store.site with fields := siteWritten s.store.site.fields q } } (.siteDone q))
  | some (.program _ _) | some (.erase _ _ _) | some .siteLock | none => .next s

/-- SITE_LOCK_COMPLETE: the record is locked (R182). -/
def execSiteLockComplete (s : State) : Result :=
  match s.store.active with
  | some .siteLock => finish (s.completeOperation { s.store with site := { s.store.site with locked := true } } .siteLockDone)
  | some (.program _ _) | some (.erase _ _ _) | some (.siteWrite _) | none => .next s

end Sys2Proof.Machine
end

