-- ==== Sys2Proof/Machine/Dispatch.lean ====
section
/-! DEFINITION. One arm per command, each a direct call of its meaning. -/

namespace Sys2Proof.Machine

/-- The meaning of a command: its effect on everything but the queue of waiting commands. -/
def exec (i : Instr) (s : State) : Host.Outcome State Fault Refusal :=
  match i with
  | .powerOn pins => Sys2Proof.Machine.execPowerOn pins s
  | .frameComplete chars formed spelled => Sys2Proof.Machine.execFrameComplete chars formed spelled s
  | .interByteTimeout => Sys2Proof.Machine.execInterByteTimeout s
  | .transmissionEnd => Sys2Proof.Machine.execTransmissionEnd s
  | .unknownKind h kind => Sys2Proof.Machine.execUnknownKind h kind s
  | .status h => Sys2Proof.Machine.execStatus h s
  | .identify h => Sys2Proof.Machine.execIdentify h s
  | .resetAll h => Sys2Proof.Machine.execResetAll h s
  | .resetCampaigns h => Sys2Proof.Machine.execResetCampaigns h s
  | .paramSet h q => Sys2Proof.Machine.execParamSet h q s
  | .paramGet h q => Sys2Proof.Machine.execParamGet h q s
  | .clockSet h time => Sys2Proof.Machine.execClockSet h time s
  | .sequenceSeed h value => Sys2Proof.Machine.execSequenceSeed h value s
  | .submit h q => Sys2Proof.Machine.execSubmit h q s
  | .campaignQuery h q => Sys2Proof.Machine.execCampaignQuery h q s
  | .campaignList h => Sys2Proof.Machine.execCampaignList h s
  | .hold h q => Sys2Proof.Machine.execHold h q s
  | .resume h q => Sys2Proof.Machine.execResume h q s
  | .cancel h q => Sys2Proof.Machine.execCancel h q s
  | .release h q => Sys2Proof.Machine.execRelease h q s
  | .rosterPut h q => Sys2Proof.Machine.execRosterPut h q s
  | .rosterRemove h unit => Sys2Proof.Machine.execRosterRemove h unit s
  | .rosterGet h unit => Sys2Proof.Machine.execRosterGet h unit s
  | .rosterScan h q => Sys2Proof.Machine.execRosterScan h q s
  | .rosterFlags h q => Sys2Proof.Machine.execRosterFlags h q s
  | .segmentSet h q => Sys2Proof.Machine.execSegmentSet h q s
  | .segmentGet h => Sys2Proof.Machine.execSegmentGet h s
  | .segmentLock h => Sys2Proof.Machine.execSegmentLock h s
  | .lineMask h q => Sys2Proof.Machine.execLineMask h q s
  | .lineStatus h => Sys2Proof.Machine.execLineStatus h s
  | .planStage h q => Sys2Proof.Machine.execPlanStage h q s
  | .planClear h => Sys2Proof.Machine.execPlanClear h s
  | .planCommit h slot => Sys2Proof.Machine.execPlanCommit h slot s
  | .planRead h slot => Sys2Proof.Machine.execPlanRead h slot s
  | .sectorErase h sector => Sys2Proof.Machine.execSectorErase h sector s
  | .eraseSuspend h => Sys2Proof.Machine.execEraseSuspend h s
  | .eraseResume h => Sys2Proof.Machine.execEraseResume h s
  | .storeArm h => Sys2Proof.Machine.execStoreArm h s
  | .storeDisarm h => Sys2Proof.Machine.execStoreDisarm h s
  | .storeProtect h value => Sys2Proof.Machine.execStoreProtect h value s
  | .storeStatus h => Sys2Proof.Machine.execStoreStatus h s
  | .siteWrite h q => Sys2Proof.Machine.execSiteWrite h q s
  | .siteLock h => Sys2Proof.Machine.execSiteLock h s
  | .siteRead h => Sys2Proof.Machine.execSiteRead h s
  | .programComplete => Sys2Proof.Machine.execProgramComplete s
  | .eraseComplete => Sys2Proof.Machine.execEraseComplete s
  | .suspensionTaken => Sys2Proof.Machine.execSuspensionTaken s
  | .resumeGuardExpired => Sys2Proof.Machine.execResumeGuardExpired s
  | .siteWriteComplete => Sys2Proof.Machine.execSiteWriteComplete s
  | .siteLockComplete => Sys2Proof.Machine.execSiteLockComplete s
  | .snapshotDelivery => Sys2Proof.Machine.execSnapshotDelivery s
  | .secondComplete => Sys2Proof.Machine.execSecondComplete s
  | .mainsLost ch => Sys2Proof.Machine.execMainsLost ch s
  | .mainsReturned ch => Sys2Proof.Machine.execMainsReturned ch s
  | .settleExpired ch => Sys2Proof.Machine.execSettleExpired ch s
  | .grant ch => Sys2Proof.Machine.execGrant ch s
  | .signalHeard ch => Sys2Proof.Machine.execSignalHeard ch s
  | .quietIntervalHeard ch => Sys2Proof.Machine.execQuietIntervalHeard ch s
  | .accessLimitExpired ch => Sys2Proof.Machine.execAccessLimitExpired ch s
  | .sendingEnd ch => Sys2Proof.Machine.execSendingEnd ch s
  | .inboundLineFrame ch bytes => Sys2Proof.Machine.execInboundLineFrame ch bytes s
  | .replyWindowExpired ch => Sys2Proof.Machine.execReplyWindowExpired ch s
  | .tailExpired ch => Sys2Proof.Machine.execTailExpired ch s
  | .outcomeTaken ch => Sys2Proof.Machine.execOutcomeTaken ch s
  | .transmissionEndedTaken ch => Sys2Proof.Machine.execTransmissionEndedTaken ch s
  | .tailEndedTaken ch => Sys2Proof.Machine.execTailEndedTaken ch s
  | .intervalExpired slot => Sys2Proof.Machine.execIntervalExpired slot s

end Sys2Proof.Machine
end

