-- ==== Sys2Proof/Machine/Idle.lean ====
section
/-! DEFINITION. What the block does when no command waits (log 2): the commands that are due by its own state, the choice
among them (log 3), and one millisecond of its timers when none is due. -/

namespace Sys2Proof.Machine

/-! ## What is due -/

/-- The command when the condition holds. -/
def dueIf (b : Bool) (c : Instr) : List Instr := if b then [c] else []

/-- The request that the link controller takes now (R188). -/
def State.dueRequest (s : State) : List Instr :=
  match s.link.reply, s.link.inbound with
  | none, head :: _ => [head.command]
  | _, _ => []

/-- The expiry due by a channel's timers (R119, R121, R122, R125). -/
def Activity.due (a : Activity) (ch : Phase) : List Instr :=
  match a with
  | .offline => []
  | .settling left => dueIf (left == 0) (.settleExpired ch)
  | .idle => []
  | .sensing _ quiet access => dueIf (quiet == 0) (.quietIntervalHeard ch) ++ dueIf (access == 0) (.accessLimitExpired ch)
  | .sending _ _ => []
  | .awaiting w left =>
    match w.kind with
    | .exchange _ _ => dueIf (left == 0) (.replyWindowExpired ch)
    | .broadcast _ _ => dueIf (left == 0) (.tailExpired ch)

/-- The taking due for a report (R131). -/
def ChannelReport.taking (r : ChannelReport) (ch : Phase) : Instr :=
  match r with
  | .outcome _ _ => .outcomeTaken ch
  | .transmissionEnded _ _ => .transmissionEndedTaken ch
  | .tailEnded _ _ => .tailEndedTaken ch

/-- What is due on one channel: an expiry, a grant (R127), and the takings of its reports. -/
def State.dueOn (s : State) (ch : Phase) : List Instr :=
  (s.channel ch).activity.due ch ++ dueIf (s.grantable ch).isSome (.grant ch) ++ (s.reports ch).map (fun r => r.taking ch)

/-- The store's expiries due: the resume guard (R174) and the run time of an erase (R172), and a delivery to take
(R176). -/
def Store.due (st : Store) : List Instr :=
  dueIf (decide (st.guard = some 0)) .resumeGuardExpired
    ++ dueIf (match st.active with | some (.erase _ _ runTime) => decide (Config.eraseTime ≤ runTime) | _ => false)
      .eraseComplete
    ++ dueIf (!st.deliveries.isEmpty) .snapshotDelivery

/-- Every command due by the state itself. -/
def State.due (s : State) : List Instr :=
  s.dueRequest ++ s.dueOn .l1 ++ s.dueOn .l2 ++ s.dueOn .l3 ++ s.store.due
    ++ (s.campaigns.table.filter (fun c => decide (c.intervalTimer = some 0))).map (fun c => .intervalExpired c.slot)
    ++ dueIf (decide (Config.secondParts ≤ s.clock.part)) .secondComplete

/-! ## One millisecond -/

/-- The channel's timers after one millisecond. -/
def Activity.tick : Activity → Activity
  | .offline => .offline
  | .settling left => .settling (left - 1)
  | .idle => .idle
  | .sensing w quiet access => .sensing w (quiet - 1) (access - 1)
  | .sending w frame => .sending w frame
  | .awaiting w left => .awaiting w (left - 1)

/-- An operation after one millisecond: an erase, ERASING or SUSPENDING, accumulates run time (R172). -/
def Operation.tick : Operation → Operation
  | .erase sector phase runTime => .erase sector phase (min Config.eraseTime (runTime + 1))
  | .program p plan => .program p plan
  | .siteWrite f => .siteWrite f
  | .siteLock => .siteLock

/-- The plan store after one millisecond. -/
def Store.tick (st : Store) : Store :=
  { st with active := st.active.map Operation.tick, guard := st.guard.map (fun n => n - 1) }

/-- The units of 1/3000 s that one zero crossing is worth (R154, R161). -/
def Frequency.crossing : Frequency → Nat
  | .hz50 => 30
  | .hz60 => 25

/-- The line clock after one millisecond, in which a zero crossing fell or did not (R154, log 11). -/
def Clock.tick (c : Clock) (crossing : Bool) : Clock :=
  match c.source with
  | .crystal => { c with part := c.part + 3 }
  | .mains => if crossing then { c with part := c.part + c.frequency.crossing } else c

/-- A campaign after one millisecond: the interval timer of a RESTING standing broadcast runs (R108). -/
def Campaign.tick (c : Campaign) : Campaign := { c with intervalTimer := c.intervalTimer.map (fun n => n - 1) }

/-- One millisecond passes. -/
def State.passMillisecond (s : State) : State :=
  { s with
    free := s.free + 1
    campaigns := { s.campaigns with table := s.campaigns.table.map Campaign.tick }
    line := { s.line with channels := s.line.channels.map (fun c => { c with activity := c.activity.tick }) }
    clock := s.clock.tick (Config.zeroCrossing s.free)
    store := s.store.tick }

/-- The open choice among several due commands (log 3). -/
def chooseDue (free : Nat) (l : List Instr) : List Instr := (l.drop (Config.dueChoice free % l.length)).take 1

/-- The block on an empty queue (log 2): a due command comes to the queue, or a millisecond passes. -/
def State.idle (s : State) : State :=
  match s.due with
  | [] => s.passMillisecond
  | [c] => s.setPending [c]
  | l => (s.setPending (chooseDue s.free l)).setFree (s.free + 1)

end Sys2Proof.Machine
end

