-- ==== Sys2Proof/Safety.lean ====
section
/-! DEFINITION. What the manual says of every state that the part can reach: one law per block, and the account that the
campaign controller and the roster keep together. -/

namespace Sys2Proof.Machine

/-! ## The link controller -/

/-- The queues hold no more than their sizes (R187, R190), and nothing waits while the transmitter is free (R189). -/
structure Link.Sound (l : Link) : Prop where
  inbound : l.inbound.length ≤ 2
  notices : l.notices.length ≤ 32
  flowing : l.tx = none → l.reply = none ∧ l.notices = []

/-! ## The roster unit -/

/-- An entry's unit is a unit number (R1), its miss count is at most 15, and it is below the silence threshold unless the
entry is SILENT (R3). -/
structure Entry.Sound (threshold : Nat) (e : Entry) : Prop where
  unit   : 1 ≤ e.unit ∧ e.unit ≤ 4095
  misses : e.misses ≤ 15
  judged : e.state ≠ .silent → e.misses < threshold

/-- A route names at most three units, none twice, not its own unit, and each is present as a RELAY (R17). -/
structure Entry.Routed (l : List Entry) (e : Entry) : Prop where
  length  : e.route.length ≤ 3
  once    : e.route.Nodup
  others  : e.unit ∉ e.route
  present : ∀ u ∈ e.route, ∃ d ∈ l, d.unit = u ∧ d.role = .relay

/-- The roster holds at most 1,024 entries, one for each unit number (R1); every entry is judged by the threshold (R3),
which is at least 1 (R8); every route keeps the law of R17; the map has eight ranges (R13); the attention count counts the
entries with a flag (R24). -/
structure Roster.Sound (r : Roster) : Prop where
  order     : InOrder Entry.unit r.entries
  size      : r.entries.length ≤ 1024
  entries   : ∀ e ∈ r.entries, e.Sound r.threshold
  routes    : ∀ e ∈ r.entries, e.Routed r.entries
  threshold : 1 ≤ r.threshold
  map       : r.segments.length = 8
  attention : r.attention = (flagged r.entries).length

/-! ## The campaign controller -/

/-- Sixteen slots, each with at most one campaign (R43); every sequence in the table is below the counter, and sequences
are pairwise distinct (R44). -/
structure Campaigns.Sound (cs : Campaigns) : Prop where
  order    : InOrder Campaign.slot cs.table
  slots    : ∀ c ∈ cs.table, c.slot < 16
  below    : ∀ c ∈ cs.table, ∃ n, cs.counter = some n ∧ c.seq < n
  distinct : cs.table.Pairwise (fun a b => a.seq ≠ b.seq)

/-! ## The plan store -/

/-- A second erase never starts beside a suspended one, and no program runs in its sector (R164). -/
def Operation.besideSuspended (o : Operation) (sector : Nat) : Prop :=
  match o with
  | .erase _ _ _ => False
  | .program p _ => sectorOf p ≠ sector
  | .siteWrite _ => True
  | .siteLock => True

/-- The plan store between commands: 32 slots and 12 staging positions (R163, R165), a boundary of 0..8 that the protect
floor, itself 0..8 (R180), bounds from the lock on (R168, R182), no write to a locked record (R181), at most one erase (R164), suspended only for the host (R177), run times up to
900 ms (R172), a program only into an EMPTY slot (R163), and the resume guard only beside an ERASING erase (R174). -/
structure Store.Sound (st : Store) : Prop where
  slots     : st.slots.length = 32
  positions : st.staging.points.length = 12
  boundary  : st.boundary ≤ 8
  floor     : st.floorBinds = true → st.site.fields.floor.getD 0 ≤ st.boundary
  floors    : st.site.fields.floor.getD 0 ≤ 8
  writing   : ∀ q, st.active = some (.siteWrite q) → st.site.locked = false ∧ q.floor.getD 0 ≤ 8
  beside    : ∀ e, st.suspended = some e → ∀ o, st.active = some o → o.besideSuspended e.sector
  owner     : ∀ e, st.suspended = some e → e.owner = .host ∧ e.sector < 8 ∧ e.runTime ≤ 900
  erasing   : ∀ k ph n, st.active = some (.erase k ph n) → k < 8 ∧ n ≤ 900
  program   : ∀ p plan, st.active = some (.program p plan) → st.slots[p]? = some .empty
  guard     : ∀ n, st.guard = some n → ∃ k m, st.active = some (.erase k .erasing m)

/-! ## The account (R47, R48) -/

/-- The number of entries whose pending set contains a slot. -/
def pendingAt (slot : Nat) (l : List Entry) : Nat := (l.filter (fun e => e.pending.contains slot)).length

/-- The four refused-by-reason counts together (R47). -/
def RefusedCounts.total (n : RefusedCounts) : Nat := n.bandUnsupported + n.relayAbsent + n.planRejected + n.noTime

/-- One campaign's account against the roster (R47, R48). -/
structure Campaign.Balanced (l : List Entry) (c : Campaign) : Prop where
  outstanding : c.state.live = true → c.counts.outstanding = pendingAt c.slot l
  targets     : c.mode = .confirmed → ∀ n, c.targets = some n →
    n = c.counts.applied + c.counts.declined + c.counts.refused + c.counts.superseded + c.counts.dropped + c.counts.outstanding
  reasons     : c.counts.refused = c.byReason.total
  unopened    : c.state = .waiting ∨ c.state = .preparing →
    c.targets = none ∧ c.counts = ⟨0, 0, 0, 0, 0, 0, 0⟩ ∧ c.byReason = ⟨0, 0, 0, 0⟩
  broadcast   : c.mode = .broadcast → c.counts.outstanding = 0

/-- One entry's sets against the table (R48): in ascending order, tried within pending, and pending only for CONFIRMED
campaigns in RUNNING or HELD. -/
structure Entry.Settled (table : List Campaign) (e : Entry) : Prop where
  order : e.pending.Pairwise (· < ·)
  tried : ∀ k ∈ e.tried, k ∈ e.pending
  owed  : ∀ k ∈ e.pending, ∃ c ∈ table, c.slot = k ∧ c.state.active = true ∧ c.mode = .confirmed

/-- The account of a table and a roster together (R47, R48), each with one record for each key (R1, R43). -/
structure Accounts (table : List Campaign) (l : List Entry) : Prop where
  units   : InOrder Entry.unit l
  slots   : InOrder Campaign.slot table
  records : ∀ c ∈ table, c.Balanced l
  entries : ∀ e ∈ l, e.Settled table

/-- The account of the block (R47, R48). -/
def State.Balanced (s : State) : Prop := Accounts s.campaigns.table s.roster.entries

/-! ## The snapshots (R171, R176, R178) -/

/-- The plan slot of every PLAN LOAD in WAITING or PREPARING is PROGRAMMED and lies in a sector neither erasing nor suspended
(R171); the waiting requests ascend by sequence (R176), each of a campaign in PREPARING, which names its plan slot (R178);
the deliveries not yet taken ascend by sequence (R176, log 17). -/
structure State.Snapshots (s : State) : Prop where
  kept   : ∀ c ∈ s.campaigns.table, c.state = .waiting ∨ c.state = .preparing → ∀ p, c.order.body = .planLoad p →
    (∃ plan, s.store.slots[p]? = some (.programmed plan)) ∧ (∀ phase n, s.store.active ≠ some (.erase (p / 4) phase n))
      ∧ ∀ e, s.store.suspended = some e → e.sector ≠ p / 4
  rising : s.store.waiting.Pairwise (fun a b => a.seq < b.seq)
  asked  : ∀ r ∈ s.store.waiting, ∃ c ∈ s.campaigns.table, c.slot = r.slot ∧ c.seq = r.seq ∧ c.state = .preparing
    ∧ c.order.body = .planLoad r.planSlot
  handed : s.store.deliveries.Pairwise (fun a b => a.seq ≤ b.seq)

/-! ## Requests (R188) -/

/-- The header and the request of a command that takes a request. -/
def requestOf : Instr → Option Inbound
  | .unknownKind h kind => some ⟨h, .unknown kind⟩
  | .status h => some ⟨h, .status⟩
  | .identify h => some ⟨h, .identify⟩
  | .resetAll h => some ⟨h, .resetAll⟩
  | .resetCampaigns h => some ⟨h, .resetCampaigns⟩
  | .paramSet h q => some ⟨h, .paramSet q⟩
  | .paramGet h q => some ⟨h, .paramGet q⟩
  | .clockSet h time => some ⟨h, .clockSet time⟩
  | .sequenceSeed h value => some ⟨h, .sequenceSeed value⟩
  | .submit h q => some ⟨h, .submit q⟩
  | .campaignQuery h q => some ⟨h, .campaignQuery q⟩
  | .campaignList h => some ⟨h, .campaignList⟩
  | .hold h q => some ⟨h, .hold q⟩
  | .resume h q => some ⟨h, .resume q⟩
  | .cancel h q => some ⟨h, .cancel q⟩
  | .release h q => some ⟨h, .release q⟩
  | .rosterPut h q => some ⟨h, .rosterPut q⟩
  | .rosterRemove h unit => some ⟨h, .rosterRemove unit⟩
  | .rosterGet h unit => some ⟨h, .rosterGet unit⟩
  | .rosterScan h q => some ⟨h, .rosterScan q⟩
  | .rosterFlags h q => some ⟨h, .rosterFlags q⟩
  | .segmentSet h q => some ⟨h, .segmentSet q⟩
  | .segmentGet h => some ⟨h, .segmentGet⟩
  | .segmentLock h => some ⟨h, .segmentLock⟩
  | .lineMask h q => some ⟨h, .lineMask q⟩
  | .lineStatus h => some ⟨h, .lineStatus⟩
  | .planStage h q => some ⟨h, .planStage q⟩
  | .planClear h => some ⟨h, .planClear⟩
  | .planCommit h slot => some ⟨h, .planCommit slot⟩
  | .planRead h slot => some ⟨h, .planRead slot⟩
  | .sectorErase h sector => some ⟨h, .sectorErase sector⟩
  | .eraseSuspend h => some ⟨h, .eraseSuspend⟩
  | .eraseResume h => some ⟨h, .eraseResume⟩
  | .storeArm h => some ⟨h, .storeArm⟩
  | .storeDisarm h => some ⟨h, .storeDisarm⟩
  | .storeProtect h value => some ⟨h, .storeProtect value⟩
  | .storeStatus h => some ⟨h, .storeStatus⟩
  | .siteWrite h q => some ⟨h, .siteWrite q⟩
  | .siteLock h => some ⟨h, .siteLock⟩
  | .siteRead h => some ⟨h, .siteRead⟩
  | .powerOn _ => none
  | .frameComplete _ _ _ => none
  | .interByteTimeout => none
  | .transmissionEnd => none
  | .programComplete => none
  | .eraseComplete => none
  | .suspensionTaken => none
  | .resumeGuardExpired => none
  | .siteWriteComplete => none
  | .siteLockComplete => none
  | .snapshotDelivery => none
  | .secondComplete => none
  | .mainsLost _ => none
  | .mainsReturned _ => none
  | .settleExpired _ => none
  | .grant _ => none
  | .signalHeard _ => none
  | .quietIntervalHeard _ => none
  | .accessLimitExpired _ => none
  | .sendingEnd _ => none
  | .inboundLineFrame _ _ => none
  | .replyWindowExpired _ => none
  | .tailExpired _ => none
  | .outcomeTaken _ => none
  | .transmissionEndedTaken _ => none
  | .tailEndedTaken _ => none
  | .intervalExpired _ => none

/-- What the owner of a request makes of it; a kind that names no request has no owner and is answered so (R188). -/
def serveOf : Request → State → Served
  | .unknown _ => fun s => refuse s .unknownKind
  | .status => serveStatus
  | .identify => serveIdentify
  | .resetAll => serveResetAll
  | .resetCampaigns => serveResetCampaigns
  | .paramSet q => serveParamSet q
  | .paramGet q => serveParamGet q
  | .clockSet time => serveClockSet time
  | .sequenceSeed value => serveSequenceSeed value
  | .submit q => serveSubmit q
  | .campaignQuery q => serveCampaignQuery q
  | .campaignList => serveCampaignList
  | .hold q => serveHold q
  | .resume q => serveResume q
  | .cancel q => serveCancel q
  | .release q => serveRelease q
  | .rosterPut q => serveRosterPut q
  | .rosterRemove unit => serveRosterRemove unit
  | .rosterGet unit => serveRosterGet unit
  | .rosterScan q => serveRosterScan q
  | .rosterFlags q => serveRosterFlags q
  | .segmentSet q => serveSegmentSet q
  | .segmentGet => serveSegmentGet
  | .segmentLock => serveSegmentLock
  | .lineMask q => serveLineMask q
  | .lineStatus => serveLineStatus
  | .planStage q => servePlanStage q
  | .planClear => servePlanClear
  | .planCommit slot => servePlanCommit slot
  | .planRead slot => servePlanRead slot
  | .sectorErase sector => serveSectorErase sector
  | .eraseSuspend => serveEraseSuspend
  | .eraseResume => serveEraseResume
  | .storeArm => serveStoreArm
  | .storeDisarm => serveStoreDisarm
  | .storeProtect value => serveStoreProtect value
  | .storeStatus => serveStoreStatus
  | .siteWrite q => serveSiteWrite q
  | .siteLock => serveSiteLock
  | .siteRead => serveSiteRead

/-- The request can be taken now: no reply waits, and it heads the inbound queue or comes to an empty one (R188, log 4). -/
def State.CanTake (s : State) (h : Header) (r : Request) : Prop :=
  s.link.reply = none ∧ (s.link.inbound = [] ∨ ∃ rest, s.link.inbound = ⟨h, r⟩ :: rest)

/-- The block after a request was taken and its owner left it in `s`: the reply waits, with the request's kind and tag, and
the transmitter has chosen (R188, R189). -/
def State.replied (s : State) (h : Header) (r : Request) (code : ResultCode) (body : ReplyBody) : State :=
  (s.setLink { s.link with reply := some ⟨r.kind, h.tag, code, body⟩ }).transmit

/-- The request passes the link controller's own checks (R188, step 2). -/
def Passes (h : Header) : Prop := h.tag ≠ 0 ∧ h.formed = true

/-- A request whose header passes, at a moment at which it can be taken. -/
def State.Takes (s : State) (h : Header) (r : Request) : Prop := s.CanTake h r ∧ Passes h

/-- A request names this campaign by its slot and, when it gives one, its sequence (R61). -/
def State.Names (s : State) (q : SlotRef) (c : Campaign) : Prop :=
  q.slot < 16 ∧ s.campaign q.slot = some c ∧ (q.seq = none ∨ q.seq = some c.seq)

/-- The values a parameter admits (section 10.5); the arbitration mode is the one that also takes a channel (R194). -/
def paramAdmits (p : ParamName) (v : ParamValue) : Prop :=
  match p, v with
  | .silenceThreshold, .number n => 1 ≤ n ∧ n ≤ 15
  | .attentionNotices, .switch _ => True
  | .defaultPassLimit, .number n => 1 ≤ n ∧ n ≤ 16
  | .settleTime, .number n => 1 ≤ n ∧ n ≤ 60
  | .quietInterval, .number n => 10 ≤ n ∧ n ≤ 500
  | .accessLimit, .number n => 500 ≤ n ∧ n ≤ 30000
  | .arbitrationMode, .arb _ => True
  | .replyBase, .number n => 100 ≤ n ∧ n ≤ 2000
  | .hopExtension, .number n => 100 ≤ n ∧ n ≤ 2000
  | .clockSource, .source _ => True
  | .mainsFrequency, .number n => n = 50 ∨ n = 60
  | .autoSuspend, .switch _ => True
  | _, _ => False

/-- A parameter comes with a valid channel exactly when it is the arbitration mode (R194). -/
def properlyChannelled (name : Coded ParamName) (channel : Option (Coded Phase)) : Prop :=
  (name = some .arbitrationMode ∧ ∃ ch, channel = some (some ch))
    ∨ (∃ p, name = some p ∧ p ≠ .arbitrationMode ∧ channel = none)

/-- The lowest-numbered phase with mains (R158). -/
def lowestWithMains (mains : PerPhase Bool) : Option Phase :=
  if mains.l1 then some .l1 else if mains.l2 then some .l2 else if mains.l3 then some .l3 else none

/-- The running source under a source parameter and a reference phase (R159). -/
def sourceUnder (param : Source) (reference : Option Phase) : Source :=
  if param = .mains ∧ reference ≠ none then .mains else .crystal

/-- The clock with a new reference phase and source parameter; a change of its running source hands over a CLOCK SOURCE
notice (R159, R160). -/
def State.clockMoved (s : State) (reference : Option Phase) (param : Source) (cause : SourceCause) : State :=
  let source := sourceUnder param reference
  let t := s.setClock { s.clock with reference := reference, sourceParam := param, source := source }
  if source = s.clock.source then t
  else t.notify (.clockSource source (if source = .mains then reference else none) cause s.clock.time)

/-- The checks of a rule in its order, each with its refusal: the first that fails gives the code (R18, R49, R169, R171,
R175, R181). -/
def FirstFails : List (Prop × ResultCode) → ResultCode → Prop
  | [], _ => False
  | (check, refusal) :: rest, code => (¬ check ∧ code = refusal) ∨ (check ∧ FirstFails rest code)

/-- Every check passes. -/
def AllPass (l : List (Prop × ResultCode)) : Prop := ∀ c ∈ l, c.1

/-! ## What a block may change -/

/-- Between two moments a block only handed over notices (R190). -/
structure Link.Grows (a b : Link) : Prop where
  rate    : b.rate = a.rate
  rx      : b.rx = a.rx
  inbound : b.inbound = a.inbound
  reply   : b.reply = a.reply
  tx      : b.tx = a.tx
  joined  : ∃ l, b.notices = a.notices ++ l
  bound   : a.notices.length ≤ 32 → b.notices.length ≤ 32
  lost    : a.lost = true → b.lost = true

/-- Between two moments the plan store only served the campaign controller: it took or withdrew requests, handed over
deliveries, and perhaps put an ERASING erase into SUSPENDING for them (R176 to R178). -/
structure Store.Serves (a b : Store) : Prop where
  slots       : b.slots = a.slots
  staging     : b.staging = a.staging
  arm         : b.arm = a.arm
  boundary    : b.boundary = a.boundary
  suspended   : b.suspended = a.suspended
  guard       : b.guard = a.guard
  site        : b.site = a.site
  autoSuspend : b.autoSuspend = a.autoSuspend
  active      : b.active = a.active ∨ ∃ k n, a.active = some (.erase k .erasing n) ∧
    b.active = some (.erase k (.suspending .snapshot) n) ∧ a.guard = none

/-- The link controller after blocks handed it these notices, the first of the list first: each joins the tail of a queue that
holds fewer than 32, and otherwise sets the lost flag (R190). -/
def Link.handed (l : Link) (notices : List Notice) : Link :=
  notices.foldl (fun l n =>
    if l.notices.length < 32 then { l with notices := l.notices ++ [n] } else { l with lost := true }) l

/-- The fields of a campaign that no request and no event changes after acceptance (R46). -/
def Campaign.hostFields (c : Campaign) : Nat × Nat × Order × Target × Terms × Nat × Option Nat × Option Nat :=
  (c.slot, c.seq, c.order, c.target, c.terms, c.priority, c.start, c.deadline)

/-- Between two moments only the campaign controller acted: campaigns keep their slots and host's fields, entries differ in
their pending and tried sets alone, and the store served it. -/
structure OnlyCampaigns (s t : State) : Prop where
  pending   : t.pending = s.pending
  free      : t.free = s.free
  pins      : t.pins = s.pins
  line      : t.line = s.line
  clock     : t.clock = s.clock
  link      : Link.Grows s.link t.link
  segments  : t.roster.segments = s.roster.segments
  locked    : t.roster.locked = s.roster.locked
  attention : t.roster.attention = s.roster.attention
  threshold : t.roster.threshold = s.roster.threshold
  noticesOn : t.roster.noticesOn = s.roster.noticesOn
  entries   : t.roster.entries.map Entry.forgetSlots = s.roster.entries.map Entry.forgetSlots
  table     : t.campaigns.table.map Campaign.hostFields = s.campaigns.table.map Campaign.hostFields
  counter   : t.campaigns.counter = s.campaigns.counter
  passLimit : t.campaigns.defaultPassLimit = s.campaigns.defaultPassLimit
  store     : Store.Serves s.store t.store

/-! ## The ends of campaigns (R69, R72) -/

/-- Between two moments exactly the campaigns of `ended` entered a terminal state, with these records, in this order, and
each handed over its CAMPAIGN ENDED notice; no other notice was handed over, a record once terminal stayed as it was, and no
slot was taken or freed (R69, R72). -/
structure State.Concludes (s t : State) (ended : List Campaign) : Prop where
  notices : t.link = s.link.handed (ended.map (fun d => .campaignEnded d.endedNotice))
  exact   : ∀ d, d ∈ ended ↔ t.campaign d.slot = some d ∧ d.state.live = false
    ∧ ∃ c, s.campaign d.slot = some c ∧ c.state.live = true
  once    : (ended.map Campaign.slot).Nodup
  frozen  : ∀ k c, s.campaign k = some c → c.state.live = false → t.campaign k = some c
  taken   : ∀ k, (t.campaign k).isSome = (s.campaign k).isSome

/-- The ends that the activation of a slot's campaign brought: older campaigns in ascending slot order, then perhaps its own
(R55, R72). -/
def State.ActivationEnds (s t : State) (slot : Nat) : Prop :=
  ∃ older own : List Campaign, s.Concludes t (older ++ own) ∧ older.Pairwise (fun a b => a.slot < b.slot)
    ∧ (∀ d ∈ older, d.slot ≠ slot) ∧ ∀ d ∈ own, d.slot = slot

/-- The ends that a clock step brought: first those by deadline, `first`, in ascending slot order, and then those that its
activations brought (R72, R73). -/
def State.DeadlinesFirst (s t : State) (first : List Campaign) : Prop :=
  ∃ later : List Campaign, s.Concludes t (first ++ later) ∧ first.Pairwise (fun a b => a.slot < b.slot)
    ∧ (∀ d ∈ first, d.reason = some .deadline) ∧ ∀ d ∈ later, d.reason ≠ some .deadline

/-- Between two moments the pending and tried sets kept every membership, of a slot in a unit's entry, that is not of `may`. -/
def State.SetsKept (s t : State) (may : Nat → Nat → Prop) : Prop :=
  ∀ u d e k, s.entry u = some d → t.entry u = some e → ¬ may u k →
    (k ∈ e.pending ↔ k ∈ d.pending) ∧ (k ∈ e.tried ↔ k ∈ d.tried)

/-- Between two moments only the roster unit acted: it rewrote entries, the attention count or the threshold, and handed
over notices. -/
structure OnlyRoster (s t : State) : Prop where
  pending   : t.pending = s.pending
  free      : t.free = s.free
  pins      : t.pins = s.pins
  campaigns : t.campaigns = s.campaigns
  line      : t.line = s.line
  clock     : t.clock = s.clock
  store     : t.store = s.store
  link      : Link.Grows s.link t.link
  segments  : t.roster.segments = s.roster.segments
  locked    : t.roster.locked = s.roster.locked
  noticesOn : t.roster.noticesOn = s.roster.noticesOn

/-! ## What is due (log 2) -/

/-- A command is due by the state itself: an expiry whose timer has run out (R119, R121, R122, R125, R108, R174), an erase
that has run 900 ms (R172), a second that is full (R154), a grant (R127), a report or delivery to take (R131, R176), or the
request at the head of the inbound queue (R188). -/
def State.IsDue (s : State) : Instr → Prop
  | .settleExpired ch => (s.channel ch).activity = .settling 0
  | .quietIntervalHeard ch => ∃ w access, (s.channel ch).activity = .sensing w 0 access
  | .accessLimitExpired ch => ∃ w quiet, (s.channel ch).activity = .sensing w quiet 0
  | .replyWindowExpired ch => ∃ w dest route, (s.channel ch).activity = .awaiting w 0 ∧ w.kind = .exchange dest route
  | .tailExpired ch => ∃ w group budget, (s.channel ch).activity = .awaiting w 0 ∧ w.kind = .broadcast group budget
  | .grant ch => (s.channel ch).activity = .idle ∧ (s.channel ch).masked = false ∧ s.requesting ch ≠ []
    ∧ s.store.site.fields.network ≠ none
  | .outcomeTaken ch => ∃ w v, .outcome w v ∈ s.reports ch
  | .transmissionEndedTaken ch => ∃ slot seq, .transmissionEnded slot seq ∈ s.reports ch
  | .tailEndedTaken ch => ∃ slot seq, .tailEnded slot seq ∈ s.reports ch
  | .intervalExpired k => ∃ c ∈ s.campaigns.table, c.slot = k ∧ c.intervalTimer = some 0
  | .resumeGuardExpired => s.store.guard = some 0
  | .eraseComplete => ∃ k phase n, s.store.active = some (.erase k phase n) ∧ 900 ≤ n
  | .snapshotDelivery => s.store.deliveries ≠ []
  | .secondComplete => 3000 ≤ s.clock.part
  | c => s.link.reply = none ∧ ∃ i rest, s.link.inbound = i :: rest ∧ requestOf c = some i

/-! ## The end of a pass (R76, R94, R96, R97) -/

/-- The campaign owes the entry an attempt in its pass (R76). -/
def Campaign.Owed (c : Campaign) (e : Entry) : Prop :=
  c.slot ∈ e.pending ∧ c.slot ∉ e.tried ∧ (c.pass = some 1 ∨ e.state ≠ .silent)

/-- What an examination of its pass makes of a campaign `c` on the roster `l`, with a unit of its work in flight or not: the
pass goes on, gives way to the next, or is the last, passing through any that owe nobody; `after` is the roster then. -/
structure Campaign.PassTaken (l : List Entry) (flying : Bool) (now : Option Nat) (after : List Entry) (c d : Campaign) :
    Prop where
  goesOn : c.mode = .broadcast ∨ c.state ≠ .running ∨ flying = true ∨ (∃ e ∈ l, c.Owed e) → d = c
  next   : ∀ limit p, c.terms = .confirmed limit → c.pass = some p → c.state = .running → flying = false →
    (∀ e ∈ l, ¬ c.Owed e) → 1 ≤ p → p < limit → (∃ e ∈ l, c.slot ∈ e.pending ∧ e.state ≠ .silent) →
    d = { c with pass := some (p + 1) } ∧ ∀ e ∈ after, c.slot ∉ e.tried
  last   : ∀ limit p, c.terms = .confirmed limit → c.pass = some p → c.state = .running → flying = false →
    (∀ e ∈ l, ¬ c.Owed e) → 1 ≤ p → p ≤ limit → limit ≤ 16 →
    (p = limit ∨ ∀ e ∈ l, c.slot ∈ e.pending → e.state = .silent) →
    d = { c with
        pass := some limit, state := .exhausted, reason := some .passLimit, endedAt := now, intervalTimer := none }
      ∧ ∀ e ∈ after, c.slot ∉ e.pending ∧ c.slot ∉ e.tried

/-- The pass of `c` was examined in `s`, and `t` is the state afterwards. -/
def State.PassTaken (s t : State) (c d : Campaign) : Prop :=
  Campaign.PassTaken s.roster.entries (s.inFlight c) s.clock.time t.roster.entries c d

/-- Between two moments the campaign controller only examined passes, those of `must` among them: a record changed only as
its pass was taken, tried sets only shrank, a pending set lost a slot only where its campaign became EXHAUSTED, the only
notices are those of the campaigns that ended, and the plan store stayed as it was. -/
structure State.PassesExamined (s t : State) (must : Campaign → Prop) : Prop where
  only    : OnlyCampaigns s t
  store   : t.store = s.store
  ended   : ∃ ended, s.Concludes t ended
  records : ∀ k c, s.campaign k = some c → ∃ d, t.campaign k = some d ∧ (d = c ∨ s.PassTaken t c d)
    ∧ (must c → s.PassTaken t c d)
  sets    : ∀ u e d, s.entry u = some e → t.entry u = some d → (∀ k ∈ d.tried, k ∈ e.tried)
    ∧ (∀ k ∈ d.pending, k ∈ e.pending)
    ∧ ∀ k ∈ e.pending, k ∉ d.pending → ∃ a b, s.campaign k = some a ∧ t.campaign k = some b ∧ a.state = .running
      ∧ b.state = .exhausted

/-! ## Acceptance, activation and supersession (R46, R52 to R60) -/

/-- The record that an accepted SUBMIT creates, before it activates: the lowest FREE slot, the counter's value, the fields of
the request with the defaults filled in, and nothing of a campaign that ran (R43, R44, R46, R50, R52). -/
structure State.Creates (s : State) (q : SubmitReq) (c : Campaign) : Prop where
  slot      : c.slot < 16 ∧ s.campaign c.slot = none ∧ ∀ k, k < c.slot → s.campaign k ≠ none
  seq       : s.campaigns.counter = some c.seq
  bandSet   : ∀ b, q.order = .bandSet b → c.order.body = .bandSet b
  load      : ∀ r a d, q.order = .loadSwitch r (some a) d → c.order.body = .loadSwitch r a d
  planLoad  : ∀ p, q.order = .planLoad p → c.order.body = .planLoad p
  clockSync : q.order = .clockSync → c.order.body = .clockSync
  poll      : q.order = .statusPoll → c.order.body = .statusPoll
  effective : c.order.effective = q.effective
  unit      : ∀ u, q.target = .unit u → c.target = .unit u
  group     : ∀ g, q.target = .group g → c.target = .group g
  all       : q.target = .all → c.target = .all
  confirmed : q.mode = some .confirmed → c.terms = .confirmed (q.passLimit.getD s.campaigns.defaultPassLimit)
  broadcast : q.mode = some .broadcast →
    c.terms = .broadcast (q.repeatsBase.getD 0) (q.hopBudget.getD 0) q.interval
  priority  : q.priority = some c.priority
  times     : c.start = q.start ∧ c.deadline = q.deadline
  fresh     : c.state = .waiting ∧ c.reason = none ∧ c.pass = none ∧ c.run = none ∧ c.snapshot = none ∧ c.targets = none
    ∧ c.counts = ⟨0, 0, 0, 0, 0, 0, 0⟩ ∧ c.byReason = ⟨0, 0, 0, 0⟩ ∧ c.activatedAt = none ∧ c.endedAt = none
    ∧ c.intervalTimer = none

/-- The campaign is to reach the entry: a member of its target that is not barred (R56). -/
def State.reaches (s : State) (c : Campaign) (e : Entry) : Bool := c.target.names e && !s.barred e

/-- The record of a campaign with its account opened and its work fixed on the roster as it stands (R56, R57). -/
def State.opened (s : State) (c : Campaign) : Campaign :=
  let targets := (s.roster.entries.filter (s.reaches c)).length
  let barred := (s.roster.entries.filter (fun e => c.target.names e && s.barred e)).length
  match c.terms with
  | .confirmed _ =>
    { c with
      state := .running, targets := some targets, pass := some 1
      counts := { c.counts with barred := barred, outstanding := targets } }
  | .broadcast base _ interval =>
    let phases := s.targetPhases c.target
    { c with
      state := .running, targets := some targets
      counts := { c.counts with barred := barred }
      run := some ⟨phases, phases.map (fun target => if target then base + 1 else 0), ⟨0, 0, 0⟩,
        interval.map (fun _ => 0)⟩ }

/-- Between `s` and `t` the campaign `c` entered RUNNING, and `d` is its record then: ABORTED with TARGET_GONE, COMPLETE with
NO_TARGETS, or RUNNING and, when CONFIRMED, pending at exactly the receivers it is to reach (R55, R56, R57, R60). -/
structure State.Starts (s t : State) (c d : Campaign) : Prop where
  gone    : (∃ u, c.target = .unit u ∧ s.entry u = none) → d = { s.opened c with
    state := .aborted, reason := some .targetGone, endedAt := s.clock.time, intervalTimer := none }
  nothing : (∀ u, c.target = .unit u → s.entry u ≠ none) →
    ((c.mode = .confirmed ∧ ∀ e ∈ s.roster.entries, s.reaches c e = false)
      ∨ (c.mode = .broadcast ∧ ∀ ph, (s.targetPhases c.target).get ph = false)) → d = { s.opened c with
    state := .complete, reason := some .noTargets, endedAt := s.clock.time, intervalTimer := none }
  running : (∀ u, c.target = .unit u → s.entry u ≠ none) →
    ((c.mode = .confirmed ∧ ∃ e ∈ s.roster.entries, s.reaches c e = true)
      ∨ (c.mode = .broadcast ∧ ∃ ph, (s.targetPhases c.target).get ph = true)) → d = s.opened c
  pending : ∀ e ∈ t.roster.entries,
    c.slot ∈ e.pending ↔ d.state = .running ∧ c.mode = .confirmed ∧ s.reaches c e = true

/-- Step 3 of activation examines `old` for `new`: a lower sequence, RUNNING or HELD, the same supersession class (R58). -/
def Campaign.Supersedes (new old : Campaign) : Prop :=
  old.seq < new.seq ∧ old.state.active = true ∧ old.order.body.superClass = new.order.body.superClass
    ∧ new.order.body.superClass ≠ none

/-- The receivers of `old` that `new` takes over: those pending for it that `new` reaches (R58). -/
def State.shared (s : State) (new old : Campaign) : List Entry :=
  s.roster.entries.filter (fun e => s.reaches new e && e.pending.contains old.slot)

/-- What became of every other campaign between `s` and `t`, when `new` was activated (R58, R59): only the older ones of its
class changed. A CONFIRMED one gives up the receivers it shares with a CONFIRMED one, counts them superseded, and is
COMPLETE with OVERTAKEN at 0 outstanding, or else its pass may end; a BROADCAST one with the same target is SUPERSEDED. -/
structure State.Superseded (s t : State) (new : Campaign) : Prop where
  others    : ∀ k old, s.campaign k = some old → k ≠ new.slot → ¬ new.Supersedes old → t.campaign k = some old
  broadcast : ∀ k old, s.campaign k = some old → k ≠ new.slot → new.Supersedes old → old.mode = .broadcast →
    (old.target = new.target → t.campaign k = some { old with
        state := .superseded, reason := some .newer, endedAt := s.clock.time, intervalTimer := none })
    ∧ (old.target ≠ new.target → t.campaign k = some old)
  untouched : ∀ k old, s.campaign k = some old → k ≠ new.slot → new.Supersedes old → old.mode = .confirmed →
    new.mode = .broadcast ∨ s.shared new old = [] → t.campaign k = some old
  overtaken : ∀ k old, s.campaign k = some old → k ≠ new.slot → new.Supersedes old → old.mode = .confirmed →
    new.mode = .confirmed → s.shared new old ≠ [] →
    let left : Campaign := { old with counts := { old.counts with
      superseded := old.counts.superseded + (s.shared new old).length
      outstanding := old.counts.outstanding - (s.shared new old).length } }
    ∃ d, t.campaign k = some d
      ∧ (left.counts.outstanding = 0 → d = { left with
          state := .complete, reason := some .overtaken, endedAt := s.clock.time, intervalTimer := none })
      ∧ (left.counts.outstanding ≠ 0 → Campaign.PassTaken
          (s.roster.entries.filter (fun e => !(s.reaches new e && e.pending.contains old.slot))) (s.inFlight old)
          s.clock.time t.roster.entries left d)
      ∧ ∀ e ∈ t.roster.entries, s.reaches new e = true → k ∉ e.pending ∧ k ∉ e.tried

/-- The snapshots of the waiting requests, each plan copied as it stands and handed over in ascending sequence. -/
def Store.handedOver (st : Store) : List Delivery :=
  st.waiting.filterMap (fun r => (st.planOf r.planSlot).map (fun plan => ⟨r.slot, r.seq, plan⟩))

/-- Between two moments exactly these snapshot requests joined the store's list, one after another (R176, R177): a free store
copies the plans and hands them over in ascending sequence, and otherwise they wait; an ERASING erase is put into SUSPENDING with owner SNAPSHOT
for them with auto-suspend ON and no guard, and in every other case the operation stays; nothing else changes. -/
structure Store.Gathers (a b : Store) (requests : List SnapshotRequest) : Prop where
  frame    : b = { a with active := b.active, waiting := b.waiting, deliveries := b.deliveries }
  nothing  : requests = [] → b = a
  free     : a.active = none → requests ≠ [] →
    b.deliveries.Perm (a.deliveries ++ { a with waiting := requests ++ a.waiting }.handedOver)
      ∧ ∀ r ∈ b.waiting, r ∈ requests ++ a.waiting ∧ ∀ plan, a.slots[r.planSlot]? ≠ some (.programmed plan)
  waits    : a.active ≠ none → b.deliveries = a.deliveries ∧ b.waiting.Perm (requests ++ a.waiting)
  rising   : a.deliveries.Pairwise (fun d e => d.seq ≤ e.seq) → b.deliveries.Pairwise (fun d e => d.seq ≤ e.seq)
  suspends : requests ≠ [] → ∀ k n, a.active = some (.erase k .erasing n) → a.autoSuspend = true → a.guard = none →
    b.active = some (.erase k (.suspending .snapshot) n)
  stays    : (∀ k n, a.active ≠ some (.erase k .erasing n)) ∨ a.autoSuspend = false ∨ a.guard ≠ none →
    b.active = a.active

/-- A WAITING campaign has its start time reached, and no deadline with it (R53, R68). -/
def Campaign.StartsAt (c : Campaign) (now : Nat) : Prop :=
  c.state = .waiting ∧ (∃ n, c.start = some n ∧ n ≤ now) ∧ ∀ d, c.deadline = some d → now < d

/-- The waiting requests but for those of the PREPARING campaigns whose deadline a line time reaches (R68, R178). -/
def State.requestsLeft (s : State) (now : Nat) : List SnapshotRequest :=
  s.store.waiting.filter (fun r => !(s.campaign r.slot).any (fun c =>
    decide (c.state = .preparing) && c.deadline.any (fun d => decide (d ≤ now))))

/-- Between `s`, whose line time is `now`, and `t` the campaign controller took that line time, and every start it reached
activated: a PLAN LOAD is PREPARING (R54) and its snapshot request joined the list, after the requests of the campaigns
expired by the step had left it (R176 to R178); and any other campaign has entered RUNNING, whatever a later start of the same
step took from it (R53). Where one start was all that was reached, its entry into RUNNING is all that happened. -/
structure State.StartsTaken (s t : State) (now : Nat) : Prop where
  requests : ∃ rs, Store.Gathers { s.store with waiting := s.requestsLeft now } t.store rs
    ∧ ∀ r, r ∈ rs ↔ ∃ c ∈ s.campaigns.table, c.StartsAt now ∧ c.order.body = .planLoad r.planSlot ∧ c.slot = r.slot
      ∧ c.seq = r.seq
  loads   : ∀ c ∈ s.campaigns.table, c.StartsAt now → ∀ p, c.order.body = .planLoad p →
    t.campaign c.slot = some { c with state := .preparing, activatedAt := some now }
  starts  : ∀ c ∈ s.campaigns.table, c.StartsAt now → (∀ p, c.order.body ≠ .planLoad p) → ∃ d,
    t.campaign c.slot = some d ∧ d.hostFields = c.hostFields ∧ d.activatedAt = some now
      ∧ d.state ≠ .waiting ∧ d.state ≠ .preparing
      ∧ d.targets = some (s.roster.entries.filter (s.reaches c)).length
      ∧ d.counts.barred = (s.roster.entries.filter (fun e => c.target.names e && s.barred e)).length
  alone   : ∀ c ∈ s.campaigns.table, c.StartsAt now → (∀ p, c.order.body ≠ .planLoad p) →
    (∀ d ∈ s.campaigns.table, d.state.live = true → ∀ n, d.deadline = some n → now < n) →
    (∀ d ∈ s.campaigns.table, d.state = .waiting → ∀ n, d.start = some n → n ≤ now → d = c) →
    ∃ d, t.campaign c.slot = some d ∧ s.Starts t { c with activatedAt := some now } d
      ∧ s.Superseded t { c with activatedAt := some now } ∧ s.ActivationEnds t c.slot

/-! ## Mains and the running source -/

/-- The reference phase is the lowest with mains (R158), the running source follows from it and from the parameter (R159),
and exactly the phases without mains have their channels OFFLINE (R116, R117). -/
structure State.Powered (s : State) : Prop where
  reference : s.clock.reference = lowestWithMains s.pins.mains
  source    : s.clock.source = sourceUnder s.clock.sourceParam s.clock.reference
  offline   : ∀ ph, (s.channel ph).activity = .offline ↔ s.pins.mains.get ph = false

/-! ## Frames that a sender can build (section 7.1, R139, R140) -/

/-- A line time, when present. -/
def timeFits (t : Option Nat) : Bool := t.all (fun n => decide (n < 2 ^ 32))

/-- A switch point (section 2.4). -/
def Point.valid (p : Point) : Bool := decide (p.minute ≤ 1439) && decide (1 ≤ p.band) && decide (p.band ≤ 8)

/-- A body within the ranges of R139; a PLAN LOAD carries as many points as its fragment has (R32). -/
def FrameBody.sendable (index : Nat) : FrameBody → Bool
  | .bandSet band e => decide (1 ≤ band) && decide (band ≤ 8) && timeFits e
  | .loadSwitch relay _ duration e => decide (1 ≤ relay) && decide (relay ≤ 2) && decide (duration ≤ 1440) && timeFits e
  | .planLoad identity version total points e =>
    decide (1 ≤ identity) && decide (identity ≤ 65535) && decide (version ≤ 255) && decide (1 ≤ total) && decide (total ≤ 12)
      && decide (points.length = pointsIn total index) && decide (points ≠ []) && points.all Point.valid && timeFits e
  | .clockSync t => decide (t < 2 ^ 32)
  | .statusPoll => true

/-- A network number of the site record (R142, R180). -/
def validNetwork (n : Nat) : Bool := decide (1 ≤ n) && decide (n ≤ 4094)

/-- The unit number of a receiver (R1). -/
def validReceiver (n : Nat) : Bool := decide (1 ≤ n) && decide (n ≤ 4095)

/-- A fragment index within a fragment count of 1..3 (section 7.1). -/
def validFragment (index count : Nat) : Bool := decide (1 ≤ index) && decide (index ≤ count) && decide (count ≤ 3)

/-- An ORDER frame within its ranges. -/
def OrderFrame.sendable (f : OrderFrame) : Bool :=
  validNetwork f.network && validReceiver f.dest && decide (f.route.length ≤ 3) && f.route.all validReceiver
    && decide (f.hop ≤ f.route.length) && validSeq f.seq && validFragment f.index f.count && f.body.sendable f.index

/-- A BROADCAST frame within its ranges. -/
def BroadcastFrame.sendable (f : BroadcastFrame) : Bool :=
  validNetwork f.network && decide (f.group ≤ 63) && decide (f.budget ≤ 3) && validSeq f.seq
    && validFragment f.index f.count && f.body.sendable f.index

/-- An answer within the ranges of R140. -/
def LineAnswer.sendable : LineAnswer → Bool
  | .applied => true
  | .alreadyNewer => true
  | .refused _ => true
  | .report f =>
    decide (1 ≤ f.band) && decide (f.band ≤ 8) && decide (f.planIdentity ≤ 65535) && decide (f.planVersion ≤ 255)
      && decide (f.time < 2 ^ 32)
  | .fragmentOk i => decide (1 ≤ i) && decide (i ≤ 3)
  | .hopFailed k => decide (1 ≤ k) && decide (k ≤ 3)

/-- A REPLY frame within its ranges. -/
def ReplyFrame.sendable (f : ReplyFrame) : Bool :=
  validNetwork f.network && validReceiver f.source && decide (f.seq < 2 ^ 32) && f.answer.sendable

/-- A frame within its ranges. -/
def LineFrame.sendable : LineFrame → Bool
  | .order f => f.sendable
  | .broadcast f => f.sendable
  | .reply f => f.sendable

/-! ## What the rules check and compute, as the statements read them -/

/-- A frame of the serial line as the characters received, none with a framing error (R186). -/
def frameChars (kind tag : Byte) (body : List Byte) : List RxChar :=
  (Config.startMarker :: withCheck (BitVec.ofNat 8 body.length :: kind :: tag :: body)).map (fun b => ⟨b, false⟩)

/-- The fifteen checks of SUBMIT, with the validity of the order (R28), the fields of the mode (R50) and the times (R51);
that each time given must be a line time is the model's reading (log 24). -/
def State.submitChecks (s : State) (q : SubmitReq) : List (Prop × ResultCode) := [
  (s.clock.time ≠ none, .clockUnset),
  (s.campaigns.counter ≠ none, .noSequence),
  (∃ n, s.campaigns.counter = some n ∧ n < 4294967295, .sequenceExhausted),
  (s.store.site.fields.network ≠ none, .noNetwork),
  ((match q.order with
      | .bandSet b => 1 ≤ b ∧ b ≤ 8 ∧ q.mode ≠ none
      | .loadSwitch r a d => 1 ≤ r ∧ r ≤ 2 ∧ a ≠ none ∧ d ≤ 1440 ∧ q.mode ≠ none
      | .planLoad p => p < 32 ∧ q.mode ≠ none
      | .clockSync => q.mode = some .broadcast ∧ q.effective = none
      | .statusPoll => q.mode = some .confirmed ∧ q.effective = none
      | .other => False), .malformed),
  ((match q.target with
      | .unit u => 1 ≤ u ∧ u ≤ 4095
      | .group g => 1 ≤ g ∧ g ≤ 63
      | .all => True
      | .other => False), .malformed),
  (q.mode = some .broadcast → ∀ u, q.target ≠ .unit u, .malformed),
  ((∃ p, q.priority = some p ∧ p ≤ 3)
    ∧ (q.mode = some .confirmed → (∀ n, q.passLimit = some n → 1 ≤ n ∧ n ≤ 16) ∧ q.repeatsBase = none ∧ q.hopBudget = none
        ∧ q.interval = none)
    ∧ (q.mode = some .broadcast → q.passLimit = none ∧ (∀ n, q.repeatsBase = some n → n ≤ 15)
        ∧ (∀ n, q.hopBudget = some n → n ≤ 3) ∧ (∀ n, q.interval = some n → 60 ≤ n ∧ n ≤ 86400)), .malformed),
  ((q.deadline = none → q.mode = some .broadcast ∧ q.interval ≠ none)
    ∧ (∀ d now, q.deadline = some d → s.clock.time = some now → now < d ∧ d ≤ 4294967295), .malformed),
  (∀ t, q.start = some t → t ≤ 4294967295 ∧ ∀ d, q.deadline = some d → t < d, .malformed),
  (∀ t, q.effective = some t → t ≤ 4294967295 ∧ ∃ d, q.deadline = some d ∧ d ≤ t, .malformed),
  (∀ u, q.target = .unit u → s.entry u ≠ none, .notFound),
  (∀ p, q.order = .planLoad p → ∃ plan, s.store.slots[p]? = some (.programmed plan), .notFound),
  (∀ p, q.order = .planLoad p → (∀ phase n, s.store.active ≠ some (.erase (p / 4) phase n))
    ∧ (∀ e, s.store.suspended = some e → e.sector ≠ p / 4), .storeBusy),
  (∃ k, k < 16 ∧ s.campaign k = none, .full)]

/-- The six checks of R18. -/
def State.rosterPutChecks (s : State) (q : RosterPutReq) : List (Prop × ResultCode) := [
  ((1 ≤ q.unit ∧ q.unit ≤ 4095) ∧ q.role ≠ none ∧ q.phase ≠ none ∧ q.groups.length ≤ 4
    ∧ (∀ g ∈ q.groups, 1 ≤ g ∧ g ≤ 63) ∧ q.groups.Nodup ∧ q.route.length ≤ 3 ∧ (∀ u ∈ q.route, 1 ≤ u ∧ u ≤ 4095), .malformed),
  (q.unit ∉ q.route ∧ q.route.Nodup, .malformed),
  (∀ u ∈ q.route, s.entry u ≠ none, .notFound),
  (∀ u ∈ q.route, ∀ e, s.entry u = some e → e.role = .relay, .malformed),
  (∀ e, s.entry q.unit = some e → e.role = .relay → q.role = some .terminal →
    ∀ d ∈ s.roster.entries, q.unit ∉ d.route, .inUse),
  (s.entry q.unit = none → s.roster.entries.length < 1024, .full)]

/-- The verdict of R82 on an answer of the destination to the fragment in hand. -/
def Work.verdict (w : Work) (a : LineAnswer) (now : Option Nat) : Option Verdict :=
  match a, w.order.body with
  | .applied, .bandSet _ => if w.fragment = w.count then some .applied else some .garbled
  | .applied, .loadSwitch _ _ _ => if w.fragment = w.count then some .applied else some .garbled
  | .applied, .planLoad _ => if w.fragment = w.count then some .applied else some .garbled
  | .alreadyNewer, .bandSet _ => if w.fragment = w.count then some .alreadyNewer else some .garbled
  | .alreadyNewer, .loadSwitch _ _ _ => if w.fragment = w.count then some .alreadyNewer else some .garbled
  | .alreadyNewer, .planLoad _ => if w.fragment = w.count then some .alreadyNewer else some .garbled
  | .refused r, .bandSet _ => if w.fragment = w.count then some (.refused r) else some .garbled
  | .refused r, .loadSwitch _ _ _ => if w.fragment = w.count then some (.refused r) else some .garbled
  | .refused r, .planLoad _ => if w.fragment = w.count then some (.refused r) else some .garbled
  | .report f, .statusPoll => if w.fragment = w.count then some (.report f now) else some .garbled
  | .fragmentOk i, _ =>
    if i < w.fragment then none else if i = w.fragment ∧ w.fragment < w.count then none else some .garbled
  | _, _ => some .garbled

/-- What the roster unit is told of an outcome, the same when credited and when roster-only: a contact or a miss for the
destination, and for HOP_FAILED first a contact for the relay at its position of the copied route (R93, R86 to R91). -/
def State.told (s : State) (ch : Phase) (seq dest : Nat) (route : List Nat) : Verdict → State
  | .applied => s.contact dest ch (.confirmed seq)
  | .report f heardAt => s.contact dest ch (.report f heardAt)
  | .alreadyNewer => s.contact dest ch .nothing
  | .refused _ => s.contact dest ch .refusal
  | .noReply => s.miss dest false
  | .garbled => s.miss dest false
  | .hopFailed k =>
    (match route[k - 1]? with
      | some relay => s.contact relay ch .nothing
      | none => s).miss dest true
  | .interrupted => s
  | .deferred => s

/-- The checks of PLAN COMMIT (R169), SECTOR ERASE (R171), SITE WRITE (R181) and SITE LOCK (R182), in order. -/
def State.armedChecks (s : State) : Request → List (Prop × ResultCode)
  | .planCommit p => [
      (p < 32, .malformed),
      (s.store.arm = true, .notArmed),
      (s.store.boundary ≤ p / 4, .sectorProtected),
      (∀ e, s.store.suspended = some e → e.sector ≠ p / 4, .sectorSuspended),
      (s.store.active = none, .storeBusy),
      (s.store.slots[p]? = some .empty, .notEmpty),
      (∃ plan, s.store.staging.committable = some plan, .malformed)]
  | .sectorErase k => [
      (k < 8, .malformed),
      (s.store.arm = true, .notArmed),
      (s.store.boundary ≤ k, .sectorProtected),
      (s.store.active = none ∧ s.store.suspended = none, .storeBusy),
      (∀ c ∈ s.campaigns.table, c.state = .waiting ∨ c.state = .preparing → ∀ p, c.order.body = .planLoad p → p / 4 ≠ k,
        .inUse)]
  | .siteWrite q => [
      ((q.network ≠ none ∨ q.kiosk ≠ none ∨ q.floor ≠ none) ∧ (∀ n, q.network = some n → 1 ≤ n ∧ n ≤ 4094)
        ∧ (∀ n, q.floor = some n → n ≤ 8), .malformed),
      (s.store.arm = true, .notArmed),
      (s.store.site.locked = false, .locked),
      (s.store.active = none, .storeBusy),
      ((q.network ≠ none → s.store.site.fields.network = none) ∧ (q.kiosk ≠ none → s.store.site.fields.kiosk = none)
        ∧ (q.floor ≠ none → s.store.site.fields.floor = none), .alreadySet)]
  | .siteLock => [
      (s.store.arm = true, .notArmed),
      (s.store.site.locked = false, .locked),
      (s.store.active = none, .storeBusy),
      (s.store.site.fields.network ≠ none ∧ s.store.site.fields.kiosk ≠ none
        ∧ ∃ n, s.store.site.fields.floor = some n ∧ n ≤ s.store.boundary, .wrongState)]
  | _ => []

/-! ## The whole block -/

/-- The laws of the blocks together. -/
structure State.Sound (s : State) : Prop where
  link      : s.link.Sound
  roster    : s.roster.Sound
  campaigns : s.campaigns.Sound
  store     : s.store.Sound
  powered   : s.Powered

end Sys2Proof.Machine
end

