-- ==== Sys2Proof/Certificates/Slice0/Obligations.lean ====
section
/-! DEFINITION. The statements for the provers. Each is the conjunction of what its title names; the premises that a
statement puts on a state (a block's law, the account) are invariants stated at the end. -/

open Sys2Proof Sys2Proof.Machine

/-- The command at the front of the queue is taken whole: a step is the effect of that command on the state with the rest
of the queue (95_what_each_step_holds.md). -/
def Obligations.StepTakesTheFrontCommand : Prop :=
  ∀ (c : Instr) (rest : List Instr) (s : State), step (s.setPending (c :: rest)) = exec c (s.setPending rest)

/-- On an empty queue a command that is due comes to the queue, alone or as an open choice among several, and a millisecond
passes when nothing is due (MODEL'S CHOICE, logs 2 and 3: the manual names the events and gives them no order). Due is an
expiry whose timer stands at 0 (settle time R119, quiet interval R121, access limit R122, reply window R125 and R148, tail
R106, interval R108, resume guard R174), an erase that has run 900 ms (R172), a full second (R154), a grant (R127), an
untaken report (R131) or delivery (R176), and the request at the head of the queue while no reply waits (R188). One
millisecond lowers each running timer by 1 and the run time of an erase rises by 1, up to 900; the part of the second, in
units of 1/3000 s, rises by 3 from the crystal, or by 30 or 25 for a zero crossing at 50 or 60 Hz, if one fell (R154, R161,
log 11); nothing else changes. -/
def Obligations.StepOnAnEmptyQueueTakesWhatIsDue : Prop :=
  ∀ s : State, s.pending = [] → (∀ c, c ∈ s.due ↔ s.IsDue c) ∧ ∃ t, step s = .next t
    ∧ (s.due = [] → ∃ crossing : Bool, t = { s with
        free := s.free + 1
        campaigns := { s.campaigns with
          table := s.campaigns.table.map (fun c => { c with intervalTimer := c.intervalTimer.map (fun n => n - 1) }) }
        line := { s.line with
          channels := .ofFn (fun ph => { s.channel ph with
            activity := match (s.channel ph).activity with
              | .settling left => .settling (left - 1)
              | .sensing w quiet access => .sensing w (quiet - 1) (access - 1)
              | .awaiting w left => .awaiting w (left - 1)
              | a => a }) }
        clock := { s.clock with
          part := s.clock.part + match s.clock.source, crossing, s.clock.frequency with
            | .crystal, _, _ => 3
            | .mains, true, .hz50 => 30
            | .mains, true, .hz60 => 25
            | .mains, false, _ => 0 }
        store := { s.store with
          guard := s.store.guard.map (fun n => n - 1)
          active := match s.store.active with
            | some (.erase sector phase runTime) => some (.erase sector phase (min 900 (runTime + 1)))
            | o => o } })
    ∧ (∀ c, s.due = [c] → t = s.setPending [c])
    ∧ (2 ≤ s.due.length → ∃ c ∈ s.due, t = (s.setPending [c]).setFree (s.free + 1))

/-- Every command of the block answers a next state and leaves the queue of waiting commands as it was. In a state that does
not admit its event, or in which its request cannot be taken, that it answers at all is MODEL'S CHOICE (log 1): the manual
does not say what such a command does. -/
def Obligations.EveryCommandAnswersAndLeavesTheQueue : Prop :=
  ∀ (c : Instr) (s : State), ∃ t, exec c s = .next t ∧ t.pending = s.pending

/-- An event that the state does not admit changes nothing: the end of an operation that is not active, an expiry of a
timer that does not run, a taking of a report that was not handed back, a mains event that is no change, a grant without
anything to grant (MODEL'S CHOICE, log 1; a blank network number, log 22). -/
def Obligations.EventsThatCannotOccurChangeNothing : Prop :=
  ∀ (ch : Phase) (s : State),
    ((∀ p plan, s.store.active ≠ some (.program p plan)) → exec .programComplete s = .next s)
    ∧ ((∀ k phase n, s.store.active ≠ some (.erase k phase n)) → exec .eraseComplete s = .next s)
    ∧ ((∀ k owner n, s.store.active ≠ some (.erase k (.suspending owner) n)) → exec .suspensionTaken s = .next s)
    ∧ ((∀ q, s.store.active ≠ some (.siteWrite q)) → exec .siteWriteComplete s = .next s)
    ∧ (s.store.active ≠ some .siteLock → exec .siteLockComplete s = .next s)
    ∧ (s.store.guard = none → exec .resumeGuardExpired s = .next s)
    ∧ (s.store.deliveries = [] → exec .snapshotDelivery s = .next s)
    ∧ (s.pins.mains.get ch = false → exec (.mainsLost ch) s = .next s)
    ∧ (s.pins.mains.get ch = true → exec (.mainsReturned ch) s = .next s)
    ∧ ((∀ n, (s.channel ch).activity ≠ .settling n) → exec (.settleExpired ch) s = .next s)
    ∧ ((∀ w quiet access, (s.channel ch).activity ≠ .sensing w quiet access) →
        exec (.quietIntervalHeard ch) s = .next s ∧ exec (.accessLimitExpired ch) s = .next s)
    ∧ ((∀ w frame, (s.channel ch).activity ≠ .sending w frame) → exec (.sendingEnd ch) s = .next s)
    ∧ ((∀ w left dest route, (s.channel ch).activity = .awaiting w left → w.kind ≠ .exchange dest route) →
        exec (.replyWindowExpired ch) s = .next s)
    ∧ ((∀ w left group budget, (s.channel ch).activity = .awaiting w left → w.kind ≠ .broadcast group budget) →
        exec (.tailExpired ch) s = .next s)
    ∧ ((∀ r ∈ s.reports ch, r.isOutcome = false) → exec (.outcomeTaken ch) s = .next s)
    ∧ ((∀ r ∈ s.reports ch, r.isTransmissionEnded = false) → exec (.transmissionEndedTaken ch) s = .next s)
    ∧ ((∀ r ∈ s.reports ch, r.isTailEnded = false) → exec (.tailEndedTaken ch) s = .next s)
    ∧ (((s.channel ch).activity ≠ .idle ∨ (s.channel ch).masked = true ∨ s.requesting ch = []
          ∨ s.store.site.fields.network = none) → exec (.grant ch) s = .next s)
    ∧ ∀ k, (∀ c, s.campaign k = some c → c.state ≠ .resting) → exec (.intervalExpired k) s = .next s

/-- Taking a request settles its reply, with the request's kind and tag: a free transmitter begins it at once, ahead of
every notice, and a busy one finishes its frame first while the reply waits. A refusal carries the code alone (part of
R188 and R189; a request that meets an empty inbound queue is taken at once, log 4).

A request that its owner refuses has no effect: it leaves the queue and its reply carries the owner's code alone
(part of R188). -/
def Obligations.TakenRequestsAreRepliedToFirst : Prop :=
  (∀ (c : Instr) (h : Header) (r : Request) (s : State), requestOf c = some ⟨h, r⟩ → s.CanTake h r →
     ∃ t code body, exec c s = .next t
       ∧ (s.link.tx = none → t.link.tx = some (.reply ⟨r.kind, h.tag, code, body⟩) ∧ t.link.reply = none)
       ∧ (∀ o, s.link.tx = some o → t.link.tx = some o ∧ t.link.reply = some ⟨r.kind, h.tag, code, body⟩)
       ∧ (code ≠ .ok → body = .none))
  ∧ (∀ (c : Instr) (h : Header) (r : Request) (s : State), requestOf c = some ⟨h, r⟩ → s.Takes h r →
       (serveOf r s.popInbound).code ≠ .ok →
       exec c s = .next (s.popInbound.replied h r (serveOf r s.popInbound).code .none))

/-- A kind that names no request is answered UNKNOWN_KIND, whatever the tag and the body (R188, step 1).

A request of a known kind whose tag is 0, or whose body has not the form required, is answered MALFORMED and has no
effect, whatever it asks (R188, step 2).

No request is taken while a reply waits or while another request heads the queue; such a command changes nothing
(the first half is R188's, the second is MODEL'S CHOICE, log 1; a request that meets an empty queue can be taken, log 4). -/
def Obligations.RequestsAreCheckedBeforeTheirOwner : Prop :=
  (∀ (h : Header) (k : Byte) (s : State), s.CanTake h (.unknown k) →
     exec (.unknownKind h k) s = .next (s.popInbound.replied h (.unknown k) .unknownKind .none))
  ∧ (∀ (c : Instr) (h : Header) (r : Request) (s : State), requestOf c = some ⟨h, r⟩ → (∀ k, r ≠ .unknown k) →
       s.CanTake h r → (h.tag = 0 ∨ h.formed = false) → exec c s = .next (s.popInbound.replied h r .malformed .none))
  ∧ (∀ (c : Instr) (h : Header) (r : Request) (s : State), requestOf c = some ⟨h, r⟩ → ¬ s.CanTake h r → exec c s = .next s)

/-- A complete frame, however its characters were split and whatever stood before its start marker, joins the inbound
queue at its tail when the queue holds fewer than two, and is discarded when it holds two (part of R187; what the kind
and the body spell is an operand, log 5).

A frame whose length is above 240, that has a framing error, in its length byte or in a later character, or whose check
is wrong is discarded, whatever stood before its start marker, with no reply and no other effect; and the search for a start
marker goes on with the characters that follow the point where the frame was given up (part of R187). -/
def Obligations.FramesAreReceivedOrDiscarded : Prop :=
  (∀ (s : State) (before chars : List RxChar) (kind tag : Byte) (body : List Byte) (formed : Bool) (spelled : Option Request),
     body.length ≤ 240 → (∀ c ∈ before, isMarker c = false) → s.link.rx ++ chars = before ++ frameChars kind tag body →
     exec (.frameComplete chars formed spelled) s = .next (s.setLink
       { s.link with
         rx := []
         inbound := if s.link.inbound.length < 2 then
             s.link.inbound ++ [⟨⟨tag, formed⟩, spelled.getD (.unknown kind)⟩]
           else s.link.inbound }).transmit)
  ∧ (∀ (s : State) (before damaged after chars : List RxChar) (formed : Bool) (spelled : Option Request) (length : Byte)
       (rest : List RxChar) (last : RxChar),
       (∀ c ∈ before, isMarker c = false) → s.link.rx ++ chars = before ++ damaged ++ after →
       ((damaged = [⟨Config.startMarker, false⟩, ⟨length, false⟩] ∧ 240 < length.toNat)
         ∨ damaged = [⟨Config.startMarker, false⟩, ⟨length, true⟩]
         ∨ (damaged = ⟨Config.startMarker, false⟩ :: ⟨length, false⟩ :: (rest ++ [last]) ∧ length.toNat ≤ 240
             ∧ (∀ c ∈ rest, c.framingError = false) ∧ last.framingError = true ∧ rest.length < length.toNat + 4)
         ∨ (damaged = ⟨Config.startMarker, false⟩ :: ⟨length, false⟩ :: (rest ++ [last]) ∧ length.toNat ≤ 240
             ∧ (∀ c ∈ rest ++ [last], c.framingError = false) ∧ rest.length + 1 = length.toNat + 4
             ∧ checked? (length :: (rest ++ [last]).map RxChar.byte) = none)) →
       exec (.frameComplete chars formed spelled) s
           = exec (.frameComplete after formed spelled) (s.setLink { s.link with rx := [] })
       ∧ (after = [] → exec (.frameComplete chars formed spelled) s = .next (s.setLink { s.link with rx := [] }).transmit))

/-- The end of a transmission frees the transmitter, which sends the waiting reply, or else the notice at the head of the
queue; a silence longer than 10 characters discards the partial frame (part of R187 and R189).

A notice handed over joins the tail of a queue that holds fewer than 32; otherwise it is discarded and the lost flag
is set (part of R190).

An outgoing frame is the marker, the length, kind, tag and body, and the check over those four; its body has at most 240
bytes. A reply names its request's kind and carries its tag and its result code, which is all of a refusal; a notice has
tag 0 (part of R186; the bytes of kinds, codes and bodies are open, log 6). -/
def Obligations.TheTransmitterSendsRepliesBeforeNotices : Prop :=
  (∀ s : State,
     (∀ r, s.link.reply = some r →
       exec .transmissionEnd s = .next (s.setLink { s.link with tx := some (.reply r), reply := none }))
     ∧ (∀ n rest, s.link.reply = none → s.link.notices = n :: rest →
       exec .transmissionEnd s = .next (s.setLink { s.link with tx := some (.notice n), notices := rest }))
     ∧ (s.link.reply = none → s.link.notices = [] → exec .transmissionEnd s = .next (s.setLink { s.link with tx := none }))
     ∧ exec .interByteTimeout s = .next (s.setLink { s.link with rx := [] }).transmit)
  ∧ (∀ (s : State) (n : Notice), s.notify n = s.setLink
       (if s.link.notices.length < 32 then { s.link with notices := s.link.notices ++ [n] } else { s.link with lost := true }))
  ∧ (∀ o : Outgoing, ∃ (kind tag : Byte) (body : List Byte),
       o.bytes = Config.startMarker :: withCheck (BitVec.ofNat 8 body.length :: kind :: tag :: body)
       ∧ body.length ≤ 240
       ∧ (∀ r, o = .reply r → kind = Config.markReply (RequestKind.byte r.kind) ∧ tag = r.tag
           ∧ (r.code = .ok → ∃ rest, body = Config.resultByte .ok :: rest)
           ∧ (r.code ≠ .ok → body = [Config.resultByte r.code]))
       ∧ (∀ n, o = .notice n → kind = Config.noticeByte n.kind ∧ tag = 0))

/-- STATUS shows the block as it stands, the lost flag included, and clears that flag alone (R191).

IDENTIFY shows the codes and the capacities of the part and two fields of the site record, and changes nothing
(R192).

SEGMENT GET shows the map in index order and its lock (R15), SITE READ the site record (part of R180); both
change nothing. -/
def Obligations.PlainReadsShowTheBlock : Prop :=
  (∀ (h : Header) (s : State), s.Takes h .status →
     exec (.status h) s = .next ((s.popInbound.setLink { s.popInbound.link with lost := false }).replied h .status .ok
       (.status
         { time := s.clock.time
           source := s.clock.source
           reference := s.clock.reference
           counter := s.campaigns.counter
           freeSlots := ((List.range 16).filter (fun k => (s.campaign k).isNone)).length
           rosterEntries := s.roster.entries.length
           attention := s.roster.attention
           notices := s.link.notices.length
           lost := s.link.lost
           channels := ⟨(s.channel .l1).activity.name, (s.channel .l2).activity.name, (s.channel .l3).activity.name⟩ })))
  ∧ (∀ (h : Header) (s : State), s.Takes h .identify →
       exec (.identify h) s = .next (s.popInbound.replied h .identify .ok
         (.identify ⟨1862, 40, 3, 1024, 16, 32, 8, s.store.site.fields.network, s.store.site.fields.kiosk⟩)))
  ∧ (∀ (h : Header) (s : State),
       (s.Takes h .segmentGet → exec (.segmentGet h) s = .next (s.popInbound.replied h .segmentGet .ok
         (.segments s.roster.segments s.roster.locked)))
       ∧ (s.Takes h .siteRead → exec (.siteRead h) s = .next (s.popInbound.replied h .siteRead .ok (.site s.store.site))))

/-- CAMPAIGN LIST shows the number of FREE slots and one row for every other slot, in ascending slot order, and changes
nothing (R67).

CAMPAIGN QUERY shows the whole record, with the supersession class of its order, and changes nothing (R66). The
interval timer is no field of the record. -/
def Obligations.CampaignReadsShowTheTable : Prop :=
  (∀ (h : Header) (s : State), s.Takes h .campaignList → s.campaigns.Sound →
     ∃ rows : List CampaignRow,
       exec (.campaignList h) s = .next (s.popInbound.replied h .campaignList .ok
         (.campaigns ((List.range 16).filter (fun k => (s.campaign k).isNone)).length rows))
       ∧ rows.Pairwise (fun a b => a.slot < b.slot)
       ∧ ∀ row, row ∈ rows ↔ ∃ c ∈ s.campaigns.table,
           row.slot = c.slot ∧ row.seq = c.seq ∧ row.cls = c.order.body.cls ∧ row.mode = c.mode
           ∧ row.priority = c.priority ∧ row.state = c.state
           ∧ (c.mode = .confirmed → row.pass = c.pass ∧ row.outstanding = some c.counts.outstanding
               ∧ row.remaining = none ∧ row.rounds = none)
           ∧ (c.mode = .broadcast → row.pass = none ∧ row.outstanding = none
               ∧ row.remaining = c.run.map (fun r => r.remaining.l1 + r.remaining.l2 + r.remaining.l3)
               ∧ row.rounds = c.run.bind BroadcastRun.rounds))
  ∧ (∀ (h : Header) (q : SlotRef) (s : State) (c : Campaign), s.Takes h (.campaignQuery q) → s.Names q c →
       exec (.campaignQuery h q) s = .next (s.popInbound.replied h (.campaignQuery q) .ok
         (.campaign { c with intervalTimer := none } (match c.order.body with
           | .bandSet _ => some .band
           | .loadSwitch relay _ _ => if relay = 1 then some .load1 else some .load2
           | .planLoad _ => some .plan
           | .clockSync => none
           | .statusPoll => none))))

/-- LINE STATUS shows one record for each channel, with its work in flight and its requesting set, and changes nothing
(R134). -/
def Obligations.LineStatusShowsTheChannels : Prop :=
  ∀ (h : Header) (s : State), s.Takes h .lineStatus → ∃ records : PerPhase LineRecord,
    exec (.lineStatus h) s = .next (s.popInbound.replied h .lineStatus .ok (.lines records))
    ∧ ∀ ph, (records.get ph).state = (s.channel ph).activity.name
      ∧ (records.get ph).masked = (s.channel ph).masked
      ∧ (records.get ph).jam = (s.channel ph).jam
      ∧ (records.get ph).arb = (s.channel ph).arb
      ∧ (records.get ph).pointer = (s.channel ph).pointer
      ∧ (records.get ph).requesting = (s.requesting ph).map (fun c => (c.slot, c.priority))
      ∧ (s.campaigns.Sound → (records.get ph).requesting.Pairwise (fun a b => a.1 < b.1))
      ∧ ((s.channel ph).activity.work = none → (records.get ph).work = none)
      ∧ (∀ w dest route, (s.channel ph).activity.work = some w → w.kind = .exchange dest route →
          (records.get ph).work = some ⟨w.slot, w.seq, true, some dest, w.fragment, w.count⟩)
      ∧ (∀ w group budget, (s.channel ph).activity.work = some w → w.kind = .broadcast group budget →
          (records.get ph).work = some ⟨w.slot, w.seq, false, none, w.fragment, w.count⟩)

/-- STORE STATUS shows the store as it stands and changes nothing (R183; that an active SITE WRITE is shown with the fields it
writes and their values is MODEL'S CHOICE, log 35).

PLAN READ: MALFORMED, STORE_BUSY, SECTOR_SUSPENDED and NOT_FOUND, checked in that order; otherwise the slot's plan. It
changes nothing (R175). -/
def Obligations.StoreReadsShowTheStore : Prop :=
  (∀ (h : Header) (s : State), s.Takes h .storeStatus → ∃ body : StoreBody,
     exec (.storeStatus h) s = .next (s.popInbound.replied h .storeStatus .ok (.store body))
     ∧ (s.store.active = none → body.active = none ∧ body.erasePhase = none
         ∧ body.runTime = s.store.suspended.map SuspendedErase.runTime)
     ∧ (∀ p plan, s.store.active = some (.program p plan) → body.active = some (.program p) ∧ body.erasePhase = none
         ∧ body.runTime = s.store.suspended.map SuspendedErase.runTime)
     ∧ (∀ k phase n, s.store.active = some (.erase k phase n) →
         body.active = some (.erase k) ∧ body.erasePhase = some phase ∧ body.runTime = some n)
     ∧ (∀ f, s.store.active = some (.siteWrite f) → body.active = some (.siteWrite f) ∧ body.erasePhase = none
         ∧ body.runTime = s.store.suspended.map SuspendedErase.runTime)
     ∧ (s.store.active = some .siteLock → body.active = some .siteLock ∧ body.erasePhase = none
         ∧ body.runTime = s.store.suspended.map SuspendedErase.runTime)
     ∧ body.suspended = s.store.suspended.map (fun e => (e.sector, e.owner))
     ∧ body.guard = s.store.guard.isSome ∧ body.arm = s.store.arm ∧ body.boundary = s.store.boundary
     ∧ body.autoSuspend = s.store.autoSuspend
     ∧ body.waiting = s.store.waiting.map (fun r => (r.slot, r.seq))
     ∧ body.filled = (s.store.staging.points.filter Option.isSome).length
     ∧ body.committable = s.store.staging.committable.isSome
     ∧ body.slots = s.store.slots.map PlanSlot.view)
  ∧ (∀ (h : Header) (p : Nat) (s : State), s.Takes h (.planRead p) →
       (∀ code, FirstFails [
           (p < 32, .malformed),
           (s.store.active = none, .storeBusy),
           (∀ e, s.store.suspended = some e → e.sector ≠ p / 4, .sectorSuspended),
           (∃ plan, s.store.slots[p]? = some (.programmed plan), .notFound)] code →
         exec (.planRead h p) s = .next (s.popInbound.replied h (.planRead p) code .none))
       ∧ (∀ plan, p < 32 → s.store.active = none → (∀ e, s.store.suspended = some e → e.sector ≠ p / 4) →
           s.store.slots[p]? = some (.programmed plan) →
           exec (.planRead h p) s = .next (s.popInbound.replied h (.planRead p) .ok (.plan plan))))

/-- ROSTER GET: MALFORMED outside 1..4,095, NOT_FOUND without an entry, and otherwise every field of the entry with its
resolved phase and whether it is barred; it changes nothing (R21).

ROSTER SCAN: MALFORMED for a start unit or filter outside its values; otherwise up to four matching entries from the
start unit on, in ascending unit order, and the lowest matching unit above them, or 0; it changes nothing (R22). -/
def Obligations.RosterReadsShowEntries : Prop :=
  (∀ (h : Header) (u : Nat) (s : State), s.Takes h (.rosterGet u) →
     ((u < 1 ∨ 4095 < u) → exec (.rosterGet h u) s = .next (s.popInbound.replied h (.rosterGet u) .malformed .none))
     ∧ (1 ≤ u → u ≤ 4095 → s.entry u = none →
         exec (.rosterGet h u) s = .next (s.popInbound.replied h (.rosterGet u) .notFound .none))
     ∧ (∀ e, 1 ≤ u → u ≤ 4095 → s.entry u = some e →
         exec (.rosterGet h u) s = .next (s.popInbound.replied h (.rosterGet u) .ok
           (.entry ⟨e, s.resolved e, s.barred e⟩))))
  ∧ (∀ (h : Header) (q : RosterScanReq) (s : State), s.Takes h (.rosterScan q) → s.roster.Sound →
       ((q.filter = none ∨ q.start < 1 ∨ 4095 < q.start) →
           exec (.rosterScan h q) s = .next (s.popInbound.replied h (.rosterScan q) .malformed .none))
       ∧ ∀ f, q.filter = some f → 1 ≤ q.start → q.start ≤ 4095 →
           ∃ (page rest : List Entry) (next : Nat),
             exec (.rosterScan h q) s = .next (s.popInbound.replied h (.rosterScan q) .ok
               (.entries (page.map (fun e => ⟨e, s.resolved e, s.barred e⟩)) next))
             ∧ page ++ rest = s.roster.entries.filter (fun e => decide (q.start ≤ e.unit) && (match f with
                 | .all => true
                 | .attention => e.flags.any
                 | .new => decide (e.state = .new)
                 | .active => decide (e.state = .active)
                 | .silent => decide (e.state = .silent)))
             ∧ InOrder Entry.unit (page ++ rest)
             ∧ page.length ≤ 4 ∧ (rest ≠ [] → page.length = 4)
             ∧ (rest = [] → next = 0) ∧ (∀ e tail, rest = e :: tail → next = e.unit))

/-- PARAM GET: MALFORMED for an unknown name, for the arbitration mode without a valid channel and for another parameter
with one; otherwise the value asked for, or every value in the order of section 10.5 (part of R194). -/
def Obligations.ParamGetShowsTheValues : Prop :=
  ∀ (h : Header) (s : State),
    (∀ name channel, (name = none ∨ (name = some .arbitrationMode ∧ (channel = none ∨ channel = some none))
          ∨ (name ≠ some .arbitrationMode ∧ channel ≠ none)) →
        s.Takes h (.paramGet (.one name channel)) →
        exec (.paramGet h (.one name channel)) s
          = .next (s.popInbound.replied h (.paramGet (.one name channel)) .malformed .none))
    ∧ (∀ ch, s.Takes h (.paramGet (.one (some .arbitrationMode) (some (some ch)))) →
        exec (.paramGet h (.one (some .arbitrationMode) (some (some ch)))) s
          = .next (s.popInbound.replied h (.paramGet (.one (some .arbitrationMode) (some (some ch)))) .ok
              (.param (.arb (s.channel ch).arb))))
    ∧ (∀ p, p ≠ .arbitrationMode → s.Takes h (.paramGet (.one (some p) none)) →
        exec (.paramGet h (.one (some p) none)) s
          = .next (s.popInbound.replied h (.paramGet (.one (some p) none)) .ok (.param (s.paramValue (.plain p)))))
    ∧ (s.Takes h (.paramGet .all) → exec (.paramGet h .all) s = .next (s.popInbound.replied h (.paramGet .all) .ok
        (.params [.number s.roster.threshold, .switch (if s.roster.noticesOn then .on else .off),
          .number s.campaigns.defaultPassLimit, .number s.line.settleTime, .number s.line.quietInterval,
          .number s.line.accessLimit, .arb (s.channel .l1).arb, .arb (s.channel .l2).arb, .arb (s.channel .l3).arb,
          .number s.line.replyBase, .number s.line.hopExtension, .source s.clock.sourceParam,
          .number (match s.clock.frequency with | .hz50 => 50 | .hz60 => 60),
          .switch (if s.store.autoSuspend then .on else .off)])))

/-- At power-on the slot of an interrupted program, and the four slots of a sector whose erase was active or suspended,
are DAMAGED; every other slot keeps its state, a site operation leaves the record as it was, and the store has no
operation, suspended erase, guard or waiting request, the arm clear, P at 8, a blank buffer, auto-suspend ON and no
notice (R179).

POWER ON, and assertion of the reset input, brings every block but the plan store's contents to its initial state:
the rate from the straps, channels SETTLING or OFFLINE by their mains, the clock UNSET with its reference phase and
source from the mains inputs, and no notice (part of R26, R74, R117, R162, R186 and R193; that the link holds no character of
a partial frame either is MODEL'S CHOICE, log 39). -/
def Obligations.PowerOnBringsTheInitialState : Prop :=
  (∀ (pins : Pins) (s : State), ∃ t, exec (.powerOn pins) s = .next t
     ∧ (∀ p plan, s.store.active = some (.program p plan) → p < s.store.slots.length → t.store.slots[p]? = some .damaged)
     ∧ (∀ p k phase n, s.store.active = some (.erase k phase n) → p / 4 = k → p < s.store.slots.length →
         t.store.slots[p]? = some .damaged)
     ∧ (∀ p e, s.store.suspended = some e → p / 4 = e.sector → p < s.store.slots.length →
         t.store.slots[p]? = some .damaged)
     ∧ (∀ p, (∀ plan, s.store.active ≠ some (.program p plan)) → (∀ phase n, s.store.active ≠ some (.erase (p / 4) phase n)) →
         (∀ e, s.store.suspended = some e → e.sector ≠ p / 4) → t.store.slots[p]? = s.store.slots[p]?)
     ∧ t.store.slots.length = s.store.slots.length
     ∧ t.store.site = s.store.site ∧ t.store.active = none ∧ t.store.suspended = none ∧ t.store.guard = none
     ∧ t.store.waiting = [] ∧ t.store.deliveries = [] ∧ t.store.arm = false ∧ t.store.boundary = 8
     ∧ t.store.staging = ⟨none, none, List.replicate 12 none⟩ ∧ t.store.autoSuspend = true ∧ t.link.notices = [])
  ∧ (∀ (pins : Pins) (s : State), ∃ store : Store, exec (.powerOn pins) s = .next
       { pending := s.pending
         free := s.free
         pins := pins
         link := ⟨match pins.strapA, pins.strapB with
             | false, false => .b9600
             | false, true => .b19200
             | true, false => .b57600
             | true, true => .b115200, [], [], none, [], false, none⟩
         roster := ⟨[], List.replicate 8 ⟨1, 1, none, false, false⟩, false, 0, 4, true⟩
         campaigns := ⟨[], none, 5⟩
         line :=
           { channels := .ofFn (fun ph => ⟨if pins.mains.get ph then .settling 5000 else .offline, false, false, .fixed, 15⟩)
             reports := ⟨[], [], []⟩
             settleTime := 5
             quietInterval := 40
             accessLimit := 3000
             replyBase := 300
             hopExtension := 450 }
         clock := ⟨none, 0, lowestWithMains pins.mains, sourceUnder .mains (lowestWithMains pins.mains), .mains, .hz50⟩
         store := store })

/-- RESET of scope ALL: what each block resets and what it keeps. A channel SENSING, SENDING or AWAITING goes to IDLE, and one
OFFLINE, SETTLING or IDLE keeps its state, its timer with it (part of R13, R16, R26, R74, R136, R162, R185 and R193; that
untaken reports and deliveries go with it is the model's reading, log 13).

RESET of scope CAMPAIGNS: the campaign table, the pending and tried sets, all work on the line (the channel states as in
scope ALL), the jam flags and pointers, the waiting snapshots, the arm and the queues are emptied or cleared; everything else is kept (part of R26, R74,
R136, R178, R185 and R193; untaken reports and deliveries, log 13). -/
def Obligations.ResetsOfBothScopes : Prop :=
  (∀ (h : Header) (s : State), s.Takes h .resetAll →
     exec (.resetAll h) s = .next (State.replied
       { s with
         link := { s.link with inbound := [], notices := [], lost := false }
         roster := ⟨[], if s.roster.locked then s.roster.segments else List.replicate 8 ⟨1, 1, none, false, false⟩,
           s.roster.locked, 0, 4, true⟩
         campaigns := ⟨[], none, 5⟩
         line :=
           { channels := .ofFn (fun ph => ⟨(match (s.channel ph).activity with
               | .offline => .offline
               | .settling left => .settling left
               | .idle => .idle
               | .sensing _ _ _ => .idle
               | .sending _ _ => .idle
               | .awaiting _ _ => .idle), false, false, .fixed, 15⟩)
             reports := ⟨[], [], []⟩
             settleTime := 5
             quietInterval := 40
             accessLimit := 3000
             replyBase := 300
             hopExtension := 450 }
         clock := { s.clock with
           sourceParam := .mains, frequency := .hz50, source := sourceUnder .mains s.clock.reference }
         store := { s.store with
           arm := false, waiting := [], deliveries := [], boundary := 8, autoSuspend := true
           staging := ⟨none, none, List.replicate 12 none⟩ } } h .resetAll .ok .none))
  ∧ (∀ (h : Header) (s : State), s.Takes h .resetCampaigns →
       exec (.resetCampaigns h) s = .next (State.replied
         { s with
           link := { s.link with inbound := [], notices := [], lost := false }
           roster := { s.roster with entries := s.roster.entries.map (fun e => { e with pending := [], tried := [] }) }
           campaigns := { s.campaigns with table := [] }
           line := { s.line with
             channels := .ofFn (fun ph => { s.channel ph with
               activity := match (s.channel ph).activity with
                 | .offline => .offline
                 | .settling left => .settling left
                 | .idle => .idle
                 | .sensing _ _ _ => .idle
                 | .sending _ _ => .idle
                 | .awaiting _ _ => .idle
               jam := false
               pointer := 15 })
             reports := ⟨[], [], []⟩ }
           store := { s.store with arm := false, waiting := [], deliveries := [] } } h .resetCampaigns .ok .none))

/-- PARAM SET is refused with MALFORMED, and changes nothing, for an unknown parameter, for the arbitration mode without a
valid channel or another parameter with one, and for a value outside the parameter's range (part of R194).

PARAM SET of a parameter that no rule gives a further effect sets its value, which the reply shows; nothing else
changes (part of R24, R50, R129, R135, R152, R161 and R194). -/
def Obligations.ParamSetIsCheckedAndSetsOneValue : Prop :=
  (∀ (h : Header) (q : ParamSetReq) (s : State), s.Takes h (.paramSet q) →
     (¬ properlyChannelled q.name q.channel ∨ ∃ p, q.name = some p ∧ ¬ paramAdmits p q.value) →
     exec (.paramSet h q) s = .next (s.popInbound.replied h (.paramSet q) .malformed .none))
  ∧ (∀ (h : Header) (s t : State) (q : ParamSetReq), s.Takes h (.paramSet q) →
       ((∃ ch m, q = ⟨some .arbitrationMode, some (some ch), .arb m⟩
           ∧ t = s.popInbound.setChannel ch { s.channel ch with arb := m })
         ∨ (∃ w, q = ⟨some .attentionNotices, none, .switch w⟩
           ∧ t = s.popInbound.setRoster { s.roster with noticesOn := decide (w = .on) })
         ∨ (∃ n, q = ⟨some .defaultPassLimit, none, .number n⟩ ∧ 1 ≤ n ∧ n ≤ 16
           ∧ t = s.popInbound.setCampaigns { s.campaigns with defaultPassLimit := n })
         ∨ (∃ n, q = ⟨some .settleTime, none, .number n⟩ ∧ 1 ≤ n ∧ n ≤ 60
           ∧ t = s.popInbound.setLine { s.line with settleTime := n })
         ∨ (∃ n, q = ⟨some .quietInterval, none, .number n⟩ ∧ 10 ≤ n ∧ n ≤ 500
           ∧ t = s.popInbound.setLine { s.line with quietInterval := n })
         ∨ (∃ n, q = ⟨some .accessLimit, none, .number n⟩ ∧ 500 ≤ n ∧ n ≤ 30000
           ∧ t = s.popInbound.setLine { s.line with accessLimit := n })
         ∨ (∃ n, q = ⟨some .replyBase, none, .number n⟩ ∧ 100 ≤ n ∧ n ≤ 2000
           ∧ t = s.popInbound.setLine { s.line with replyBase := n })
         ∨ (∃ n, q = ⟨some .hopExtension, none, .number n⟩ ∧ 100 ≤ n ∧ n ≤ 2000
           ∧ t = s.popInbound.setLine { s.line with hopExtension := n })
         ∨ (q = ⟨some .mainsFrequency, none, .number 50⟩ ∧ t = s.popInbound.setClock { s.clock with frequency := .hz50 })
         ∨ (q = ⟨some .mainsFrequency, none, .number 60⟩ ∧ t = s.popInbound.setClock { s.clock with frequency := .hz60 })) →
       exec (.paramSet h q) s = .next (t.replied h (.paramSet q) .ok (.param q.value)))

/-- PARAM SET of the silence threshold: a value not below the old one changes no entry; a lower one makes every NEW or
ACTIVE entry at or above it SILENT with WENT_SILENT set, leaves every other field of every entry but its sets, and brings
the attention count up to date. Then the campaign controller examines the passes past the first of the campaigns pending at
those entries and does nothing else: a pass goes on, or the next begins, or the campaign is EXHAUSTED, with its notice; the
plan store stays as it was (part of R8, R69, R72, R94, R96 and R97; that the ATTENTION notice precedes a CAMPAIGN ENDED notice is MODEL'S CHOICE, log 33).

PARAM SET of the clock source determines the running source afresh, with a CLOCK SOURCE notice of cause PARAMETER when
it changes; PARAM SET of auto-suspend sets it, and turning it ON puts an ERASING erase into SUSPENDING with owner SNAPSHOT
when requests wait and no guard runs (part of R159, R160, R161, R177 and R185). -/
def Obligations.ParametersWithAFurtherEffect : Prop :=
  (∀ (h : Header) (n : Nat) (s : State),
     let q : ParamSetReq := ⟨some .silenceThreshold, none, .number n⟩
     s.Takes h (.paramSet q) → 1 ≤ n → n ≤ 15 →
     (s.roster.threshold ≤ n → exec (.paramSet h q) s
         = .next ((s.popInbound.setRoster { s.roster with threshold := n }).replied h (.paramSet q) .ok (.param (.number n))))
     ∧ (n < s.roster.threshold →
         let a := ((s.popInbound.setRoster { s.roster with threshold := n }).setEntries (s.roster.entries.map (fun e =>
           if e.state ≠ .silent ∧ n ≤ e.misses then
             { e with state := .silent, flags := { e.flags with wentSilent := true } }
           else e))).updateAttention
         ∃ t, exec (.paramSet h q) s = .next (t.replied h (.paramSet q) .ok (.param (.number n)))
           ∧ t.roster.threshold = n
           ∧ t.roster.entries.map Entry.forgetSlots = s.roster.entries.map (fun e => Entry.forgetSlots
               (if e.state ≠ .silent ∧ n ≤ e.misses then
                 { e with state := .silent, flags := { e.flags with wentSilent := true } }
               else e))
           ∧ t.roster.attention = (t.roster.entries.filter (fun e => e.flags.any)).length
           ∧ OnlyRoster s.popInbound a
           ∧ a.PassesExamined t (fun c => (∃ p, c.pass = some p ∧ 1 < p)
             ∧ ∃ e ∈ s.roster.entries, e.state ≠ .silent ∧ n ≤ e.misses ∧ c.slot ∈ e.pending)))
  ∧ (∀ (h : Header) (s : State),
       (∀ w, s.Takes h (.paramSet ⟨some .clockSource, none, .source w⟩) → s.Powered →
         exec (.paramSet h ⟨some .clockSource, none, .source w⟩) s
           = .next ((s.popInbound.clockMoved s.clock.reference w .parameter).replied h
               (.paramSet ⟨some .clockSource, none, .source w⟩) .ok (.param (.source w))))
       ∧ (∀ w, s.Takes h (.paramSet ⟨some .autoSuspend, none, .switch w⟩) →
         (w = .off ∨ s.store.autoSuspend = true ∨ s.store.waiting = [] ∨ s.store.guard ≠ none
           ∨ ∀ k n, s.store.active ≠ some (.erase k .erasing n)) →
         exec (.paramSet h ⟨some .autoSuspend, none, .switch w⟩) s
           = .next ((s.popInbound.setStore { s.store with autoSuspend := decide (w = .on) }).replied h
               (.paramSet ⟨some .autoSuspend, none, .switch w⟩) .ok (.param (.switch w))))
       ∧ (∀ k n, s.Takes h (.paramSet ⟨some .autoSuspend, none, .switch .on⟩) → s.store.autoSuspend = false →
         s.store.waiting ≠ [] → s.store.guard = none → s.store.active = some (.erase k .erasing n) →
         exec (.paramSet h ⟨some .autoSuspend, none, .switch .on⟩) s
           = .next ((s.popInbound.setStore
               { s.store with autoSuspend := true, active := some (.erase k (.suspending .snapshot) n) }).replied h
               (.paramSet ⟨some .autoSuspend, none, .switch .on⟩) .ok (.param (.switch .on)))))

/-- CLOCK SET: a value beyond the range of line time is MALFORMED; otherwise the clock is RUNNING at the carried value
with a new second. An UNSET clock hands over no step; a RUNNING one hands the step to the campaigns, after which no live
campaign has a deadline reached and none WAITING a start reached (part of R73 and R155). A reached start activates: activated
at is the new line time, a PLAN LOAD is PREPARING and its snapshot request joins the store's list as R177 says, after those of
the campaigns the step expired have left it, and any other class has entered RUNNING, with the account, the check and
the supersession of R56 to R60. Each campaign that ends hands over its notice, those ended by deadline first (R53; part of R54,
R55, R69, R72, R176, R177 and R178).

A completed second begins the next part from nothing. An UNSET clock and one at its end do no more; otherwise line
time is one second later and the campaigns take it as a step of one second, deadlines, starts, requests and notices alike (part
of R53, R69, R72, R153, R154 and R176 to R178; that the row may come at any moment of the second is MODEL'S CHOICE, log 10). -/
def Obligations.LineTimeIsSetAndCounts : Prop :=
  (∀ (h : Header) (time : Nat) (s : State), s.Takes h (.clockSet time) →
     (4294967295 < time → exec (.clockSet h time) s = .next (s.popInbound.replied h (.clockSet time) .malformed .none))
     ∧ (time ≤ 4294967295 → s.clock.time = none →
         exec (.clockSet h time) s = .next ((s.popInbound.setClock { s.clock with time := some time, part := 0 }).replied h
           (.clockSet time) .ok (.clock time false)))
     ∧ (time ≤ 4294967295 → s.clock.time ≠ none → s.campaigns.Sound →
         ∃ t, exec (.clockSet h time) s = .next (t.replied h (.clockSet time) .ok (.clock time true))
           ∧ OnlyCampaigns (s.popInbound.setClock { s.clock with time := some time, part := 0 }) t
           ∧ (∀ c ∈ t.campaigns.table, c.state.live = true → ∀ d, c.deadline = some d → time < d)
           ∧ (∀ c ∈ t.campaigns.table, c.state = .waiting → ∀ d, c.start = some d → time < d)
           ∧ (∃ first, (s.popInbound.setClock { s.clock with time := some time, part := 0 }).DeadlinesFirst t first)
           ∧ (s.Balanced → (s.popInbound.setClock { s.clock with time := some time, part := 0 }).StartsTaken t time)))
  ∧ (∀ s : State,
       ((s.clock.time = none ∨ s.clock.time = some 4294967295) →
         exec .secondComplete s = .next (s.setClock { s.clock with part := 0 }).transmit)
       ∧ (∀ now, s.clock.time = some now → now < 4294967295 → s.campaigns.Sound →
           ∃ t, exec .secondComplete s = .next t.transmit
             ∧ OnlyCampaigns (s.setClock { s.clock with time := some (now + 1), part := 0 }) t
             ∧ (∀ c ∈ t.campaigns.table, c.state.live = true → ∀ d, c.deadline = some d → now + 1 < d)
             ∧ (∀ c ∈ t.campaigns.table, c.state = .waiting → ∀ d, c.start = some d → now + 1 < d)
             ∧ (∃ first, (s.setClock { s.clock with time := some (now + 1), part := 0 }).DeadlinesFirst t first)
             ∧ (s.Balanced → (s.setClock { s.clock with time := some (now + 1), part := 0 }).StartsTaken t (now + 1))))

/-- A step, which a completed second makes as well as CLOCK SET, takes every deadline reached with the result of the
campaign's state, before any start, whatever start the same step reaches: EXPIRED from WAITING, PREPARING, RUNNING and HELD,
COMPLETE from RESTING, both with reason DEADLINE. The ended campaign hands over its notice, with those of the other deadlines
in ascending slot order, and the notices of what the starts end come after them (R68; R69, R72, R73 and R154 in part). -/
def Obligations.DeadlinesEndCampaignsBeforeStarts : Prop :=
  ∀ (time deadline : Nat) (s : State) (c : Campaign), s.campaigns.Sound → c ∈ s.campaigns.table → c.state.live = true →
    c.deadline = some deadline → deadline ≤ time → time ≤ 4294967295 →
    let ended : Campaign := { c with
      state := if c.state = .resting then .complete else .expired
      reason := some .deadline
      endedAt := some time
      intervalTimer := none }
    (∀ h : Header, s.Takes h (.clockSet time) → s.clock.time ≠ none →
      ∃ (t : State) (first : List Campaign),
        exec (.clockSet h time) s = .next (t.replied h (.clockSet time) .ok (.clock time true))
        ∧ t.campaign c.slot = some ended ∧ ended ∈ first
        ∧ (s.popInbound.setClock { s.clock with time := some time, part := 0 }).DeadlinesFirst t first)
    ∧ (∀ now, s.clock.time = some now → time = now + 1 →
      ∃ (t : State) (first : List Campaign), exec .secondComplete s = .next t.transmit
        ∧ t.campaign c.slot = some ended ∧ ended ∈ first
        ∧ (s.setClock { s.clock with time := some time, part := 0 }).DeadlinesFirst t first)

/-- Mains lost on a phase that had it: the channel is OFFLINE from whatever state, its unit of work is handed back
INTERRUPTED, an OFFLINE notice is handed over, and the clock takes its reference phase and source afresh with cause
NO_MAINS (part of R118, R158 and R159; that the channel's notice precedes the clock's is MODEL'S CHOICE, log 18).

Mains returned on a phase that had none: an OFFLINE channel is SETTLING for the settle time, without a notice, and the
clock takes its reference phase and source afresh with cause MAINS_RETURNED (part of R119, R158 and R159).

SETTLE EXPIRED: a SETTLING channel is IDLE and hands over its ONLINE notice (part of R119 and R120; whatever is left of
the settle time, MODEL'S CHOICE, log 10). -/
def Obligations.MainsEventsReachChannelAndClock : Prop :=
  (∀ (ch : Phase) (s : State), s.pins.mains.get ch = true →
     let mains := s.pins.mains.set ch false
     let a := s.setPins { s.pins with mains := mains }
     (∀ w, (s.channel ch).activity.work = some w → exec (.mainsLost ch) s = .next
       (((((a.setReports ch (s.reports ch ++ [.outcome w .interrupted])).setChannel ch
           { s.channel ch with activity := .offline }).notify (.lineChange ch .offline s.clock.time)).clockMoved
             (lowestWithMains mains) s.clock.sourceParam .noMains).transmit))
     ∧ ((s.channel ch).activity.work = none → exec (.mainsLost ch) s = .next
       ((((a.setChannel ch { s.channel ch with activity := .offline }).notify
           (.lineChange ch .offline s.clock.time)).clockMoved
             (lowestWithMains mains) s.clock.sourceParam .noMains).transmit)))
  ∧ (∀ (ch : Phase) (s : State), s.pins.mains.get ch = false → s.Powered →
       let mains := s.pins.mains.set ch true
       exec (.mainsReturned ch) s = .next
         ((((s.setPins { s.pins with mains := mains }).setChannel ch
             { s.channel ch with activity := .settling (s.line.settleTime * 1000) }).clockMoved
               (lowestWithMains mains) s.clock.sourceParam .mainsReturned).transmit))
  ∧ (∀ (ch : Phase) (left : Nat) (s : State), (s.channel ch).activity = .settling left →
       exec (.settleExpired ch) s = .next ((s.setChannel ch { s.channel ch with activity := .idle }).notify
         (.lineChange ch .online s.clock.time)).transmit)

/-- SEQUENCE SEED: MALFORMED outside 1..4,294,967,279, then WRONG_STATE while any slot is not FREE; otherwise the counter
takes the value, UNSET or not (R45). -/
def Obligations.SequenceSeedSetsTheCounter : Prop :=
  ∀ (h : Header) (value : Nat) (s : State), s.Takes h (.sequenceSeed value) →
    (∀ code, FirstFails [
        (1 ≤ value ∧ value ≤ 4294967279, .malformed),
        (s.campaigns.table = [], .wrongState)] code →
      exec (.sequenceSeed h value) s = .next (s.popInbound.replied h (.sequenceSeed value) code .none))
    ∧ (1 ≤ value → value ≤ 4294967279 → s.campaigns.table = [] →
      exec (.sequenceSeed h value) s
        = .next ((s.popInbound.setCampaigns { s.campaigns with counter := some value }).replied h (.sequenceSeed value) .ok .none))

/-- SUBMIT is checked in the order of R49, and the first check that fails gives the result code; a refused SUBMIT takes no
slot and no sequence and changes nothing (R49; log 24). -/
def Obligations.SubmitIsCheckedInOrder : Prop :=
  ∀ (h : Header) (q : SubmitReq) (s : State) (code : ResultCode), s.Takes h (.submit q) →
    FirstFails (s.submitChecks q) code →
    exec (.submit h q) s = .next (s.popInbound.replied h (.submit q) code .none)

/-- A SUBMIT that passes its checks takes the lowest FREE slot and the counter's value, which then increases by one, and
the record holds the request's fields with the defaults filled in; with a start time still ahead the campaign is WAITING,
with no count and no field of a running one, and nothing else changes (part of R43, R44, R46, R50 and R52). -/
def Obligations.SubmitWithALaterStartWaits : Prop :=
  ∀ (h : Header) (q : SubmitReq) (s : State) (now start : Nat), s.Takes h (.submit q) → AllPass (s.submitChecks q) →
    s.clock.time = some now → q.start = some start → now < start →
    ∃ c : Campaign, s.Creates q c ∧ exec (.submit h q) s = .next ((s.popInbound.setCampaigns
        { s.campaigns with table := putBy Campaign.slot c s.campaigns.table, counter := some (c.seq + 1) }).replied
      h (.submit q) .ok (.submitted c.slot c.seq .waiting))

/-- A SUBMIT whose start time is absent or has come creates its record and activates it in the same taking: activated at is
the line time; a PLAN LOAD is PREPARING, nothing else of it changes, and its snapshot request joins the store's list or is
taken at once by a free store, and the reply says so. An ERASING erase is then put into SUSPENDING with owner SNAPSHOT when
auto-suspend is ON and no guard runs, and in every other case the operation stays, and no notice is handed over. Any other
class enters RUNNING, with the account of R56, or the work and phases of R57 and R101, on the roster as it stands, or ends
there: ABORTED with TARGET_GONE, COMPLETE with NO_TARGETS; the campaigns it supersedes hand over their notices first, and the
store stays as it was (part of R43, R44, R46, R50, R52, R54, R55, R60, R69, R72, R176 and R177; R56 and R57). -/
def Obligations.SubmitWithoutALaterStartActivates : Prop :=
  ∀ (h : Header) (q : SubmitReq) (s : State) (now : Nat), s.Takes h (.submit q) → AllPass (s.submitChecks q) →
    s.clock.time = some now → (∀ t, q.start = some t → t ≤ now) → s.campaigns.Sound → s.Balanced →
    ∃ (c d : Campaign) (t : State), s.Creates q c
      ∧ exec (.submit h q) s = .next (t.replied h (.submit q) .ok (.submitted c.slot c.seq d.state))
      ∧ t.campaign c.slot = some d
      ∧ OnlyCampaigns (s.popInbound.setCampaigns
          { s.campaigns with table := putBy Campaign.slot c s.campaigns.table, counter := some (c.seq + 1) }) t
      ∧ (∀ p, q.order = .planLoad p → d = { c with state := .preparing, activatedAt := some now }
          ∧ (∀ k, k ≠ c.slot → t.campaign k = s.campaign k) ∧ t.roster = s.roster ∧ t.link = s.popInbound.link
          ∧ Store.Gathers s.store t.store [⟨c.slot, c.seq, p⟩]
          ∧ (s.store.active ≠ none → ⟨c.slot, c.seq, p⟩ ∈ t.store.waiting)
          ∧ (s.store.active = none → ∃ plan, s.store.slots[p]? = some (.programmed plan)
              ∧ ⟨c.slot, c.seq, plan⟩ ∈ t.store.deliveries))
      ∧ ((∀ p, q.order ≠ .planLoad p) → s.Starts t { c with activatedAt := some now } d ∧ t.store = s.store
          ∧ (s.popInbound.setCampaigns { s.campaigns with
              table := putBy Campaign.slot c s.campaigns.table, counter := some (c.seq + 1) }).ActivationEnds t c.slot)

/-- Activation supersedes: of the older campaigns of the class in RUNNING or HELD, a CONFIRMED one loses the receivers that a
new CONFIRMED one reaches, counts each superseded with outstanding one lower, and is COMPLETE with OVERTAKEN at 0, or else
its pass may end; a BROADCAST one with the same target is SUPERSEDED with NEWER; every other campaign keeps its record. After
it no receiver is pending both for the new campaign and for an older CONFIRMED one of the class, and no older BROADCAST one
with the target is RUNNING or HELD. Those that end hand over their notices in ascending slot order, and then its own, if it
ended (R58, R59; part of R69, R72 and R94). The class PLAN supersedes at its snapshot delivery, and a campaign with a start
time at that time; the statements about them say the same. -/
def Obligations.NewerCampaignsSupersede : Prop :=
  ∀ (h : Header) (q : SubmitReq) (s : State) (now : Nat), s.Takes h (.submit q) → AllPass (s.submitChecks q) →
    s.clock.time = some now → (∀ t, q.start = some t → t ≤ now) → (∀ p, q.order ≠ .planLoad p) →
    s.campaigns.Sound → s.Balanced →
    ∃ (c d : Campaign) (t : State), s.Creates q c
      ∧ exec (.submit h q) s = .next (t.replied h (.submit q) .ok (.submitted c.slot c.seq d.state))
      ∧ t.campaign c.slot = some d ∧ s.Superseded t c ∧ t.store = s.store
      ∧ (s.popInbound.setCampaigns { s.campaigns with
          table := putBy Campaign.slot c s.campaigns.table, counter := some (c.seq + 1) }).ActivationEnds t c.slot
      ∧ ∀ old ∈ t.campaigns.table, old.slot ≠ c.slot → old.order.body.superClass = c.order.body.superClass →
          old.order.body.superClass ≠ none →
          (old.mode = .broadcast → old.target = c.target → old.state.active = false)
          ∧ (old.mode = .confirmed → c.mode = .confirmed → ∀ e ∈ t.roster.entries,
              c.slot ∈ e.pending → old.slot ∉ e.pending)

/-- HOLD, RESUME, CANCEL, RELEASE and CAMPAIGN QUERY are refused with MALFORMED for a slot outside 0..15, and then with
NOT_FOUND for a FREE slot or another sequence (R61). -/
def Obligations.RequestsNamingACampaignAreChecked : Prop :=
  ∀ (h : Header) (q : SlotRef) (s : State) (c : Instr) (r : Request),
    (c, r) ∈ [(.hold h q, .hold q), (.resume h q, .resume q), (.cancel h q, .cancel q), (.release h q, .release q),
      (.campaignQuery h q, Request.campaignQuery q)] →
    s.Takes h r →
    (16 ≤ q.slot → exec c s = .next (s.popInbound.replied h r .malformed .none))
    ∧ (q.slot < 16 → s.campaign q.slot = none → exec c s = .next (s.popInbound.replied h r .notFound .none))
    ∧ (∀ d n, q.slot < 16 → s.campaign q.slot = some d → q.seq = some n → n ≠ d.seq →
        exec c s = .next (s.popInbound.replied h r .notFound .none))

/-- HOLD: a RUNNING campaign is HELD, and nothing else changes; in any other state WRONG_STATE (part of R62).

CANCEL: a live campaign is CANCELLED with reason HOST at the line time with its counts frozen, its slot leaves every
pending and tried set, the snapshot request of a PREPARING one is withdrawn, and its CAMPAIGN ENDED notice is handed over;
a terminal one is WRONG_STATE (part of R64, R69 and R72).

A CAMPAIGN ENDED notice carries the slot, the sequence, the class, the mode, the end state, the end reason and ended at;
targets and barred, absent if the campaign never entered RUNNING; the counts and the refused-by-reason counts of a CONFIRMED
one and its pass; and the target phases and counts of a BROADCAST one (part of R72).

RELEASE: the slot of a terminal campaign is FREE and nothing else changes; a live one is WRONG_STATE (part of
R65). -/
def Obligations.HoldCancelAndRelease : Prop :=
  (∀ (h : Header) (q : SlotRef) (s : State) (c : Campaign), s.Takes h (.hold q) → s.Names q c →
     (c.state = .running → exec (.hold h q) s = .next ((s.popInbound.setTable
         (updateBy Campaign.slot q.slot (fun d => { d with state := .held }) s.campaigns.table)).replied h (.hold q) .ok .none))
     ∧ (c.state ≠ .running → exec (.hold h q) s = .next (s.popInbound.replied h (.hold q) .wrongState .none)))
  ∧ (∀ (h : Header) (q : SlotRef) (s : State) (c : Campaign), s.Takes h (.cancel q) → s.Names q c →
       let ended : Campaign := { c with
         state := .cancelled, reason := some .host, endedAt := s.clock.time, intervalTimer := none }
       let a := (s.popInbound.setTable (updateBy Campaign.slot q.slot (fun d => { d with
           state := .cancelled, reason := some .host, endedAt := s.clock.time, intervalTimer := none }) s.campaigns.table)).setEntries
         (s.roster.entries.map (fun e => { e with pending := removeNat q.slot e.pending, tried := removeNat q.slot e.tried }))
       (c.state.live = false → exec (.cancel h q) s = .next (s.popInbound.replied h (.cancel q) .wrongState .none))
       ∧ (c.state.live = true → c.state ≠ .preparing →
           exec (.cancel h q) s = .next ((a.notify (.campaignEnded ended.endedNotice)).replied h (.cancel q) .ok .none))
       ∧ (c.state = .preparing → exec (.cancel h q) s = .next (((a.setStore
           { s.store with waiting := s.store.waiting.filter (fun r => r.slot != q.slot) }).notify
             (.campaignEnded ended.endedNotice)).replied h (.cancel q) .ok .none)))
  ∧ (∀ c : Campaign, c.endedNotice =
       { slot := c.slot
         seq := c.seq
         cls := match c.order.body with
           | .bandSet _ => .bandSet
           | .loadSwitch _ _ _ => .loadSwitch
           | .planLoad _ => .planLoad
           | .clockSync => .clockSync
           | .statusPoll => .statusPoll
         mode := match c.terms with | .confirmed _ => .confirmed | .broadcast _ _ _ => .broadcast
         state := c.state
         reason := c.reason
         endedAt := c.endedAt
         targets := c.targets
         barred := c.targets.map (fun _ => c.counts.barred)
         account := match c.terms with | .confirmed _ => some (c.counts, c.byReason) | .broadcast _ _ _ => none
         pass := c.pass
         run := c.run })
  ∧ (∀ (h : Header) (q : SlotRef) (s : State) (c : Campaign), s.Takes h (.release q) → s.Names q c →
       (c.state.live = true → exec (.release h q) s = .next (s.popInbound.replied h (.release q) .wrongState .none))
       ∧ (c.state.live = false → ∃ t, exec (.release h q) s = .next (t.replied h (.release q) .ok .none)
           ∧ t = s.popInbound.setTable (s.campaigns.table.filter (fun d => d.slot != q.slot)) ∧ t.campaign q.slot = none))

/-- RESUME: a HELD campaign is RUNNING again. Where neither its pass nor its round has ended nothing else changes; where
its last pass has ended it is EXHAUSTED, where an earlier one has the next begins with nobody tried, through passes that owe
nobody to the last; and where the round of a broadcast has ended it is COMPLETE, or RESTING with one round more, up to 65,535,
and its interval started when it is standing. One that ends hands over its notice; every other campaign, every set but at its
slot and the plan store stay as they were. In any other state WRONG_STATE (part of R63, R69, R72, R94, R96, R97, R102 and
R108). -/
def Obligations.ResumeTakesAnEndedPassOrRound : Prop :=
  ∀ (h : Header) (q : SlotRef) (s : State) (c : Campaign), s.Takes h (.resume q) → s.Names q c → s.campaigns.Sound →
    (c.state ≠ .held → exec (.resume h q) s = .next (s.popInbound.replied h (.resume q) .wrongState .none))
    ∧ (c.state = .held →
        let a := s.popInbound.setTable
          (updateBy Campaign.slot q.slot (fun d => { d with state := .running }) s.campaigns.table)
        ∃ t, exec (.resume h q) s = .next (t.replied h (.resume q) .ok .none)
        ∧ OnlyCampaigns a t ∧ t.store = s.store ∧ (∃ ended, a.Concludes t ended)
        ∧ (∀ k, k ≠ q.slot → t.campaign k = s.campaign k) ∧ s.SetsKept t (fun _ k => k = q.slot)
        ∧ ((∀ limit, c.terms = .confirmed limit → (∃ e ∈ s.roster.entries, c.owes e = true) ∨ s.inFlight c = true) →
            (c.mode = .broadcast → ∀ r, c.run = some r → ∃ ph, r.remaining.get ph ≠ 0) → t = a)
        ∧ (∀ limit, c.terms = .confirmed limit → c.pass = some limit → s.inFlight c = false →
            (∀ e ∈ s.roster.entries, c.owes e = false) →
            t.campaign q.slot = some { c with
              state := .exhausted, reason := some .passLimit, endedAt := s.clock.time, intervalTimer := none }
            ∧ ∀ e ∈ t.roster.entries, q.slot ∉ e.pending ∧ q.slot ∉ e.tried)
        ∧ (c.mode = .confirmed → ∃ d, t.campaign q.slot = some d
            ∧ s.PassTaken t { c with state := .running } d)
        ∧ (∀ base budget r, c.terms = .broadcast base budget none → c.run = some r → (∀ ph, r.remaining.get ph = 0) →
            t.campaign q.slot = some { c with
              state := .complete, reason := some .roundDone, endedAt := s.clock.time, intervalTimer := none })
        ∧ (∀ base budget seconds r n, c.terms = .broadcast base budget (some seconds) → c.run = some r →
            (∀ ph, r.remaining.get ph = 0) → r.rounds = some n →
            t.campaign q.slot = some { c with
              state := .resting, run := some { r with rounds := some (min 65535 (n + 1)) }
              intervalTimer := some (seconds * 1000) }))

/-- A snapshot delivery that meets its campaign in PREPARING stores the snapshot and enters RUNNING with the account of R56
or the work of R57 on the roster as it stands, or ends there: ABORTED with TARGET_GONE when the unit of its target has left
the roster, COMPLETE with NO_TARGETS when it reaches nobody, or no phase; and it supersedes the older campaigns of class PLAN.
The superseded campaigns that end hand over their notices in ascending slot order, and then its own, if it ended. The other
deliveries stay, and a further request of the slot leaves the list (log 36; no run has one). One
that meets another campaign, or one no longer PREPARING, changes nothing else (part of R54, R55, R60, R69 and R72; R56 to
R59). -/
def Obligations.SnapshotDeliveriesStartPlanLoads : Prop :=
  ∀ (s : State) (snap : Delivery) (rest : List Delivery), s.store.deliveries = snap :: rest →
    let a := s.setStore { s.store with deliveries := rest }
    ((∀ c, s.campaign snap.slot = some c → c.state ≠ .preparing ∨ c.seq ≠ snap.seq) →
      exec .snapshotDelivery s = .next a.transmit)
    ∧ ∀ c, s.campaign snap.slot = some c → c.state = .preparing → c.seq = snap.seq → s.campaigns.Sound → s.Balanced →
        let loaded : Campaign := { c with snapshot := some snap.plan }
        ∃ (t : State) (d : Campaign), exec .snapshotDelivery s = .next t.transmit ∧ OnlyCampaigns a t
          ∧ t.store = { s.store with
              deliveries := rest, waiting := s.store.waiting.filter (fun r => r.slot != snap.slot) }
          ∧ t.campaign snap.slot = some d ∧ a.Starts t loaded d ∧ a.Superseded t loaded ∧ a.ActivationEnds t snap.slot

/-- ROSTER PUT is checked in the order of R18, and the first check that fails gives the result code; a refused one leaves
the roster unchanged (R18).

The effect of an accepted ROSTER PUT: ADDED with the learned fields at their starting values (R2), UPDATED, which
resets the miss count with a changed route and the search phase with a changed phase, or REPLACED, which keeps the pending
and tried sets alone; the attention count then follows, and no other entry changes (R19; groups are held as a set,
log 28). -/
def Obligations.RosterPutIsCheckedAndTakesEffect : Prop :=
  (∀ (h : Header) (q : RosterPutReq) (s : State) (code : ResultCode), s.Takes h (.rosterPut q) →
     FirstFails (s.rosterPutChecks q) code →
     exec (.rosterPut h q) s = .next (s.popInbound.replied h (.rosterPut q) code .none))
  ∧ (∀ (h : Header) (q : RosterPutReq) (s : State) (role : Role) (phase : Option Phase), s.Takes h (.rosterPut q) →
       AllPass (s.rosterPutChecks q) → q.role = some role → q.phase = some phase →
       let fresh : Entry := ⟨q.unit, q.serial, role, phase, setOfList q.groups, q.route, .new, 0, .l1,
         ⟨false, false, false, false, false, false⟩, none, none, none, [], []⟩
       (s.entry q.unit = none → exec (.rosterPut h q) s
         = .next (((s.popInbound.setEntries (putBy Entry.unit fresh s.roster.entries)).updateAttention).replied h
             (.rosterPut q) .ok (.disposition .added)))
       ∧ (∀ e, s.entry q.unit = some e → e.serial = q.serial → exec (.rosterPut h q) s
         = .next (((s.popInbound.setEntries (putBy Entry.unit
             { e with
               role := role
               phase := phase
               groups := setOfList q.groups
               route := q.route
               misses := if q.route = e.route then e.misses else 0
               searchPhase := if phase = e.phase then e.searchPhase else .l1 } s.roster.entries)).updateAttention).replied h
             (.rosterPut q) .ok (.disposition .updated)))
       ∧ (∀ e, s.entry q.unit = some e → e.serial ≠ q.serial → exec (.rosterPut h q) s
         = .next (((s.popInbound.setEntries (putBy Entry.unit
             { fresh with pending := e.pending, tried := e.tried } s.roster.entries)).updateAttention).replied h
             (.rosterPut q) .ok (.disposition .replaced))))

/-- ROSTER REMOVE: MALFORMED, NOT_FOUND and IN_USE in that order; otherwise every campaign in the entry's pending set
counts the receiver dropped with outstanding one lower, one that reaches 0 outstanding is COMPLETE with reason SETTLED and
the pass of another may end; those that end hand over their notices in ascending slot order, before ATTENTION; the entry
leaves, the other entries keep everything but their sets at those slots, and the plan store stays as it was (R20; part of R69,
R71, R72, R94, R96 and R97). -/
def Obligations.RosterRemoveDropsTheReceiver : Prop :=
  ∀ (h : Header) (u : Nat) (s : State), s.Takes h (.rosterRemove u) →
    (∀ code, FirstFails [
        (1 ≤ u ∧ u ≤ 4095, .malformed),
        (s.entry u ≠ none, .notFound),
        (∀ e ∈ s.roster.entries, u ∉ e.route, .inUse)] code →
      exec (.rosterRemove h u) s = .next (s.popInbound.replied h (.rosterRemove u) code .none))
    ∧ ∀ e, 1 ≤ u → u ≤ 4095 → s.entry u = some e → (∀ d ∈ s.roster.entries, u ∉ d.route) → s.Balanced →
        ∃ a t, exec (.rosterRemove h u) s = .next (t.updateAttention.replied h (.rosterRemove u) .ok .none)
          ∧ OnlyCampaigns s.popInbound a ∧ t = a.setEntries (a.roster.entries.filter (fun d => d.unit != u))
          ∧ a.store = s.store ∧ s.SetsKept a (fun _ k => k ∈ e.pending)
          ∧ (∃ ended, s.popInbound.Concludes a ended ∧ ended.Pairwise (fun x y => x.slot < y.slot))
          ∧ t.entry u = none
          ∧ ∀ c ∈ s.campaigns.table,
              (c.slot ∉ e.pending → t.campaign c.slot = some c)
              ∧ (c.slot ∈ e.pending →
                  let left : Campaign := { c with counts := { c.counts with
                    dropped := c.counts.dropped + 1, outstanding := c.counts.outstanding - 1 } }
                  ∃ d, t.campaign c.slot = some d ∧ d.counts = left.counts
                    ∧ (c.counts.outstanding = 1 → d = { left with
                        state := .complete, reason := some .settled, endedAt := s.clock.time, intervalTimer := none })
                    ∧ (c.counts.outstanding ≠ 1 → Campaign.PassTaken (s.roster.entries.filter (fun x => x.unit != u))
                        (s.inFlight c) s.clock.time t.roster.entries left d))

/-- ROSTER FLAGS: MALFORMED for a unit outside 1..4,095 or a set that names no attention flag, then NOT_FOUND; otherwise
each selected flag takes its membership in the value set and every other flag keeps its value, the reply shows the flags,
and the attention count follows (R23).

Bringing the attention count up to date sets it to the number of entries with a flag; leaving 0 while the parameter is
ON hands over an ATTENTION notice with the new count and the lowest unit that has a flag, and nothing else changes (part of
R24). -/
def Obligations.RosterFlagsAndTheAttentionCount : Prop :=
  (∀ (h : Header) (q : RosterFlagsReq) (s : State), s.Takes h (.rosterFlags q) →
     ((q.unit < 1 ∨ 4095 < q.unit ∨ q.select = none ∨ q.value = none) →
       exec (.rosterFlags h q) s = .next (s.popInbound.replied h (.rosterFlags q) .malformed .none))
     ∧ (1 ≤ q.unit → q.unit ≤ 4095 → q.select ≠ none → q.value ≠ none → s.entry q.unit = none →
       exec (.rosterFlags h q) s = .next (s.popInbound.replied h (.rosterFlags q) .notFound .none))
     ∧ ∀ e x v, 1 ≤ q.unit → q.unit ≤ 4095 → q.select = some x → q.value = some v → s.entry q.unit = some e →
         let flags : Flags := ⟨if x.phaseLearned then v.phaseLearned else e.flags.phaseLearned,
           if x.wentSilent then v.wentSilent else e.flags.wentSilent,
           if x.cameBack then v.cameBack else e.flags.cameBack,
           if x.routeFault then v.routeFault else e.flags.routeFault,
           if x.refused then v.refused else e.flags.refused,
           if x.reportNew then v.reportNew else e.flags.reportNew⟩
         exec (.rosterFlags h q) s = .next (((s.popInbound.setEntries
           (updateBy Entry.unit q.unit (fun d => { d with flags := flags }) s.roster.entries)).updateAttention).replied h
           (.rosterFlags q) .ok (.flags flags)))
  ∧ (∀ s : State,
       let found := s.roster.entries.filter (fun e => e.flags.any)
       let t := s.setRoster { s.roster with attention := found.length }
       (s.roster.attention ≠ 0 ∨ s.roster.noticesOn = false ∨ found = [] → s.updateAttention = t)
       ∧ ∀ e rest, found = e :: rest → s.roster.attention = 0 → s.roster.noticesOn = true →
           s.updateAttention = t.notify (.attention found.length e.unit))

/-- SEGMENT SET: LOCKED while the map is locked, then MALFORMED for an index, unit or field outside its values or a last
unit below the first; otherwise the range is replaced, and after it no barred entry is pending for any campaign; where no
pending receiver became barred nothing else changes. Each campaign pending at newly barred receivers counts them dropped
with outstanding lower by as many, up to the one at which its pass limit ends it EXHAUSTED, and is COMPLETE with SETTLED at
0; each that ends hands over its notice, and the plan store stays as it was (R69, R71, R72 and R97 in part). SEGMENT LOCK locks the map (part of R14 and R16). -/
def Obligations.SegmentSetReplacesARangeAndDropsTheBarred : Prop :=
  ∀ (h : Header) (q : SegmentSetReq) (s : State),
    (s.Takes h (.segmentSet q) →
      (s.roster.locked = true → exec (.segmentSet h q) s = .next (s.popInbound.replied h (.segmentSet q) .locked .none))
      ∧ (s.roster.locked = false → (8 ≤ q.index ∨ q.first < 1 ∨ 4095 < q.first ∨ q.last < 1 ∨ 4095 < q.last
            ∨ q.last < q.first ∨ q.phase = none ∨ q.barred = none ∨ q.enabled = none) →
          exec (.segmentSet h q) s = .next (s.popInbound.replied h (.segmentSet q) .malformed .none))
      ∧ ∀ phase barred enabled, s.roster.locked = false → q.index < 8 → 1 ≤ q.first → q.first ≤ q.last → q.last ≤ 4095 →
          q.phase = some phase → q.barred = some barred → q.enabled = some enabled → s.Balanced →
          let a := s.popInbound.setRoster { s.roster with
            segments := s.roster.segments.set q.index ⟨q.first, q.last, phase, barred, enabled⟩ }
          ∃ t, exec (.segmentSet h q) s = .next (t.replied h (.segmentSet q) .ok .none)
            ∧ OnlyCampaigns a t ∧ t.store = s.store ∧ (∃ ended, a.Concludes t ended)
            ∧ (∀ e ∈ t.roster.entries, t.barred e = true → e.pending = [])
            ∧ ((∀ e ∈ s.roster.entries, a.barred e = true → e.pending = []) → t = a)
            ∧ ∀ c ∈ s.campaigns.table,
                let n := (s.roster.entries.filter (fun e => a.barred e && e.pending.contains c.slot)).length
                (n = 0 → t.campaign c.slot = some c)
                ∧ (n ≠ 0 → ∃ (d : Campaign) (m : Nat), t.campaign c.slot = some d ∧ 1 ≤ m ∧ m ≤ n
                    ∧ d.counts = { c.counts with
                        dropped := c.counts.dropped + m, outstanding := c.counts.outstanding - m }
                    ∧ (m = n ∨ d.state = .exhausted)
                    ∧ (m = c.counts.outstanding → d.state = .complete ∧ d.reason = some .settled)))
    ∧ (s.Takes h .segmentLock → exec (.segmentLock h) s
        = .next ((s.popInbound.setRoster { s.roster with locked := true }).replied h .segmentLock .ok .none))

/-- The resolved phase of an entry is its phase field, or else the phase of the lowest-indexed enabled range that contains
its unit and has a phase, or else none, and then the receiver's channel is the search phase (R10 and part of R77). A unit is
barred when the lowest-indexed enabled range that contains it is (part of R13).

The target phases of an activated broadcast, which its run holds from entry into RUNNING: all three for ALL; for GROUP g
exactly the resolved phases of its members that are not barred, and all three once one of them is unresolved (part of R57
and R101). -/
def Obligations.PhaseAndBarringFollowTheSegmentMap : Prop :=
  (∀ (s : State) (e : Entry),
     (∀ ph, e.phase = some ph → s.resolved e = some ph)
     ∧ (∀ (i : Nat) (g : Segment) (ph : Phase), e.phase = none → s.roster.segments[i]? = some g →
         g.enabled = true → g.first ≤ e.unit → e.unit ≤ g.last → g.phase = some ph →
         (∀ (j : Nat) (d : Segment), j < i → s.roster.segments[j]? = some d →
           d.enabled = false ∨ e.unit < d.first ∨ d.last < e.unit ∨ d.phase = none) →
         s.resolved e = some ph)
     ∧ (e.phase = none → (∀ g ∈ s.roster.segments,
           g.enabled = false ∨ e.unit < g.first ∨ g.last < e.unit ∨ g.phase = none) → s.resolved e = none)
     ∧ (∀ ph, s.resolved e = some ph → s.channelOf e = ph)
     ∧ (s.resolved e = none → s.channelOf e = e.searchPhase)
     ∧ (∀ (i : Nat) (g : Segment), s.roster.segments[i]? = some g → g.enabled = true → g.first ≤ e.unit → e.unit ≤ g.last →
         (∀ (j : Nat) (d : Segment), j < i → s.roster.segments[j]? = some d →
           d.enabled = false ∨ e.unit < d.first ∨ d.last < e.unit) → s.barred e = g.barred)
     ∧ ((∀ g ∈ s.roster.segments, g.enabled = false ∨ e.unit < g.first ∨ g.last < e.unit) → s.barred e = false))
  ∧ (∀ (s : State) (ph : Phase),
       (s.targetPhases .all).get ph = true
       ∧ (∀ g, (s.targetPhases (.group g)).get ph = true ↔
           ∃ e ∈ s.roster.entries, g ∈ e.groups ∧ s.barred e = false ∧ (s.resolved e = some ph ∨ s.resolved e = none))
       ∧ ∀ (c : Campaign) (base budget : Nat) (interval : Option Nat), c.terms = .broadcast base budget interval →
           ∃ r, (s.opened c).run = some r ∧ r.phases = s.targetPhases c.target ∧ r.made.get ph = 0
             ∧ r.remaining.get ph = (if (s.targetPhases c.target).get ph then base + 1 else 0))

/-- LINE MASK: MALFORMED for a target or action outside its values; otherwise, in every state of the channels, the mark of
each targeted channel is set or cleared and the reply shows the three marks (part of R132). -/
def Obligations.LineMaskSetsTheMarks : Prop :=
  ∀ (h : Header) (q : LineMaskReq) (s : State), s.Takes h (.lineMask q) →
    ((q.target = none ∨ q.mask = none) →
      exec (.lineMask h q) s = .next (s.popInbound.replied h (.lineMask q) .malformed .none))
    ∧ (∀ ch mask, q = ⟨some (.one ch), some mask⟩ → ∃ t, t = s.popInbound.setChannel ch { s.channel ch with masked := mask }
        ∧ exec (.lineMask h q) s = .next (t.replied h (.lineMask q) .ok
            (.masks ⟨(t.channel .l1).masked, (t.channel .l2).masked, (t.channel .l3).masked⟩)))
    ∧ (∀ mask, q = ⟨some .all, some mask⟩ → exec (.lineMask h q) s = .next ((s.popInbound.setLine
        { s.line with channels := .ofFn (fun ch => { s.channel ch with masked := mask }) }).replied h (.lineMask q) .ok
          (.masks ⟨mask, mask, mask⟩)))

/-- The requesting set of a channel: RUNNING campaigns of the table, a CONFIRMED one with an eligible receiver, which is
pending, untried, owed in the pass, on the channel, and not already in flight for it, and a BROADCAST one with remaining
on the phase and no transmission-ended report of it there untaken (R127; R76, R78 and R102 in part). -/
def Obligations.RequestingCampaignsHaveWorkOnThePhase : Prop :=
  ∀ (s : State) (ph : Phase) (c : Campaign), c ∈ s.requesting ph ↔ c ∈ s.campaigns.table ∧ c.state = .running ∧
    ((c.mode = .confirmed ∧ ∃ e ∈ s.roster.entries, c.slot ∈ e.pending ∧ c.slot ∉ e.tried
        ∧ (c.pass = some 1 ∨ e.state ≠ .silent) ∧ s.channelOf e = ph
        ∧ ∀ w ∈ s.works, w.slot = c.slot → w.seq = c.seq → w.dest ≠ some e.unit)
      ∨ (c.mode = .broadcast ∧ (∃ r, c.run = some r ∧ 0 < r.remaining.get ph)
        ∧ .transmissionEnded c.slot c.seq ∉ s.reports ph))

/-- GRANT on an IDLE, unmasked channel with a requesting set that is not empty: a campaign of the highest priority wins,
the lowest slot in FIXED, the first slot after the pointer in ROTATING; the unit's record names the lowest eligible
receiver or the broadcast's transmission, the pointer names the slot, and the channel is SENSING with both timers at their
parameters; nothing else changes (part of R79, R80, R103, R121, R127, R128 and R129; a blank network number, which SUBMIT
rules out, gives no grant, log 22; a plan load without a snapshot, which no run grants, counts one fragment, log 31). -/
def Obligations.GrantsServeTheArbitersChoice : Prop :=
  ∀ (ch : Phase) (s : State) (network : Nat), (s.channel ch).activity = .idle → (s.channel ch).masked = false →
    s.requesting ch ≠ [] → s.store.site.fields.network = some network → s.campaigns.Sound → s.roster.Sound →
    ∃ (c : Campaign) (w : Work), c ∈ s.requesting ch
      ∧ exec (.grant ch) s = .next (s.setChannel ch { s.channel ch with
          activity := .sensing w s.line.quietInterval s.line.accessLimit, pointer := c.slot }).transmit
      ∧ (∀ d ∈ s.requesting ch, c.priority ≤ d.priority)
      ∧ (∀ d ∈ s.requesting ch, d.priority = c.priority → (s.channel ch).arb = .fixed → c.slot ≤ d.slot)
      ∧ (∀ d ∈ s.requesting ch, d.priority = c.priority → (s.channel ch).arb = .rotating →
          ((s.channel ch).pointer < c.slot → (s.channel ch).pointer < d.slot → c.slot ≤ d.slot)
          ∧ (c.slot ≤ (s.channel ch).pointer → d.slot ≤ (s.channel ch).pointer ∧ c.slot ≤ d.slot))
      ∧ w.slot = c.slot ∧ w.seq = c.seq ∧ w.order = c.order ∧ w.plan = c.snapshot ∧ w.fragment = 1
      ∧ w.count = (match c.snapshot with | some p => (p.points.length + 3) / 4 | none => 1)
      ∧ w.network = network ∧ w.channel = ch
      ∧ (c.mode = .confirmed → ∃ e ∈ s.roster.entries, s.eligible c ch e = true ∧ w.kind = .exchange e.unit e.route
          ∧ ∀ d ∈ s.roster.entries, s.eligible c ch d = true → e.unit ≤ d.unit)
      ∧ (∀ base budget interval, c.terms = .broadcast base budget interval →
          w.kind = .broadcast (match c.target with | .group g => g | .all => 0 | .unit _ => 0) budget)

/-- In SENSING, signal and frames heard set the quiet interval back to its full length and change nothing else; in every
other state SIGNAL HEARD changes nothing (part of R121 and R151; that one row is one moment of signal is MODEL'S CHOICE,
log 27).

QUIET INTERVAL HEARD: the channel enters SENDING with the frame of the fragment in hand: an ORDER of the exchange with its
destination, copied route and hop index 0, or a BROADCAST with its group and hop budget; network, sequence, fragment index and
count; and the body of the class, fragment i of a plan with points 4i − 3 to 4i, a CLOCK SYNC with the line time (0 while it
is UNSET, MODEL'S CHOICE, log 23; a plan load without a snapshot, log 31). A set jam flag is cleared with a CLEARED notice
first (part of R32, R80, R103, R112, R121, R123, R137 and R139; a quiet interval heard early, log 10).

ACCESS LIMIT EXPIRED in SENSING: the unit is handed back DEFERRED and the channel is IDLE; a clear jam flag is set with
a JAMMED notice that names the unit, a set one stays without a notice (part of R122 and R123; an expiry is taken whatever is
left of its timer, MODEL'S CHOICE, log 10). -/
def Obligations.SensingEndsInSendingOrDeferral : Prop :=
  (∀ (ch : Phase) (s : State) (bytes : List Byte),
     (∀ w quiet access, (s.channel ch).activity = .sensing w quiet access →
       let t := (s.setChannel ch { s.channel ch with activity := .sensing w s.line.quietInterval access }).transmit
       exec (.signalHeard ch) s = .next t ∧ exec (.inboundLineFrame ch bytes) s = .next t)
     ∧ ((∀ w quiet access, (s.channel ch).activity ≠ .sensing w quiet access) →
       exec (.signalHeard ch) s = .next s.transmit))
  ∧ (∀ (ch : Phase) (s : State) (w : Work) (quiet access : Nat), (s.channel ch).activity = .sensing w quiet access →
       let body : FrameBody := match w.order.body, w.plan with
         | .bandSet band, _ => .bandSet band w.order.effective
         | .loadSwitch relay action duration, _ => .loadSwitch relay action duration w.order.effective
         | .planLoad _, some p => .planLoad p.identity p.version p.points.length
             ((p.points.drop (4 * (w.fragment - 1))).take 4) w.order.effective
         | .planLoad _, none => .planLoad 0 0 0 [] w.order.effective
         | .clockSync, _ => .clockSync (s.clock.time.getD 0)
         | .statusPoll, _ => .statusPoll
       let frame := LineFrame.bytes (match w.kind with
         | .exchange dest route => .order ⟨w.network, dest, route, 0, w.seq, w.fragment, w.count, body⟩
         | .broadcast group budget => .broadcast ⟨w.network, group, budget, w.seq, w.fragment, w.count, body⟩)
       ((s.channel ch).jam = false → exec (.quietIntervalHeard ch) s
           = .next (s.setChannel ch { s.channel ch with activity := .sending w frame }).transmit)
       ∧ ((s.channel ch).jam = true → exec (.quietIntervalHeard ch) s
           = .next ((s.setChannel ch { s.channel ch with activity := .sending w frame, jam := false }).notify
               (.lineChange ch .cleared s.clock.time)).transmit))
  ∧ (∀ (ch : Phase) (s : State) (w : Work) (quiet access : Nat), (s.channel ch).activity = .sensing w quiet access →
       let a := (s.setReports ch (s.reports ch ++ [.outcome w .deferred])).setChannel ch { s.channel ch with
         activity := .idle, jam := true }
       ((s.channel ch).jam = true → exec (.accessLimitExpired ch) s = .next a.transmit)
       ∧ ((s.channel ch).jam = false → exec (.accessLimitExpired ch) s
           = .next (a.notify (.lineChange ch (.jammed w.slot w.seq) s.clock.time)).transmit))

/-- The end of a sending: an exchange waits in its reply window, base plus one hop extension for each relay; a broadcast
senses again for its next fragment, or after its last one hands back the transmission-ended report and waits out its tail,
one hop extension for each unit of hop budget, or is IDLE with a budget of 0 (part of R104, R105, R106, R124 and R148; the
moment of the end of a sending is the world's, MODEL'S CHOICE, log 9).

A reply window that expires hands the exchange back NO_REPLY, a tail that expires hands back the tail-ended report;
either way the channel is IDLE (part of R106, R125 and R148; whatever is left of the timer, MODEL'S CHOICE, log 10). -/
def Obligations.SendingsEndInWindowsTailsOrTheNextFragment : Prop :=
  (∀ (ch : Phase) (s : State) (w : Work) (frame : List Byte), (s.channel ch).activity = .sending w frame →
     (∀ dest route, w.kind = .exchange dest route → exec (.sendingEnd ch) s
       = .next (s.setChannel ch { s.channel ch with
           activity := .awaiting w (s.line.replyBase + route.length * s.line.hopExtension) }).transmit)
     ∧ (∀ group budget, w.kind = .broadcast group budget →
       (w.fragment < w.count → exec (.sendingEnd ch) s
         = .next (s.setChannel ch { s.channel ch with
             activity := .sensing w.advance s.line.quietInterval s.line.accessLimit }).transmit)
       ∧ (w.count ≤ w.fragment → exec (.sendingEnd ch) s
         = .next ((s.setReports ch (s.reports ch ++ [.transmissionEnded w.slot w.seq])).setChannel ch { s.channel ch with
             activity := if budget = 0 then .idle else .awaiting w (budget * s.line.hopExtension) }).transmit)))
  ∧ (∀ (ch : Phase) (s : State) (w : Work) (left : Nat), (s.channel ch).activity = .awaiting w left →
       (∀ dest route, w.kind = .exchange dest route → exec (.replyWindowExpired ch) s
         = .next ((s.setReports ch (s.reports ch ++ [.outcome w .noReply])).setChannel ch
             { s.channel ch with activity := .idle }).transmit)
       ∧ (∀ group budget, w.kind = .broadcast group budget → exec (.tailExpired ch) s
         = .next ((s.setReports ch (s.reports ch ++ [.tailEnded w.slot w.seq])).setChannel ch
             { s.channel ch with activity := .idle }).transmit))

/-- A frame in a reply window: one that is not well formed ends the exchange GARBLED; an order, a broadcast, a reply of
another network or sequence, a stale FRAGMENT_OK and a reply of another unit are set aside; FRAGMENT_OK for a fragment in
hand that is not the last goes on to the next; a HOP_FAILED of the route's relay at its own position ends it HOP_FAILED;
any other answer of the destination ends it as R82 says. Ending hands the outcome back and the channel is IDLE (R149; R82
and R125 in part; where a frame is well formed the edges that R138 to R140 leave are the model's reading, log 19).

Outside SENSING and the reply window of an exchange a frame heard changes nothing (part of R125 and R151). -/
def Obligations.ReplyWindowsClassifyWhatTheyHear : Prop :=
  (∀ (ch : Phase) (s : State) (w : Work) (left dest : Nat) (route : List Nat) (bytes : List Byte),
     (s.channel ch).activity = .awaiting w left → w.kind = .exchange dest route →
     let ends (v : Verdict) : State := (s.setReports ch (s.reports ch ++ [.outcome w v])).setChannel ch
       { s.channel ch with activity := .idle }
     (readFrame bytes = none → exec (.inboundLineFrame ch bytes) s = .next (ends .garbled).transmit)
     ∧ (∀ f, readFrame bytes = some (.order f) → exec (.inboundLineFrame ch bytes) s = .next s.transmit)
     ∧ (∀ f, readFrame bytes = some (.broadcast f) → exec (.inboundLineFrame ch bytes) s = .next s.transmit)
     ∧ ∀ f, readFrame bytes = some (.reply f) →
       (f.network ≠ w.network ∨ f.seq ≠ w.seq → exec (.inboundLineFrame ch bytes) s = .next s.transmit)
       ∧ (f.network = w.network → f.seq = w.seq → f.source = dest →
         (∀ v, w.verdict f.answer s.clock.time = some v → exec (.inboundLineFrame ch bytes) s = .next (ends v).transmit)
         ∧ (∀ i, f.answer = .fragmentOk i → i < w.fragment → exec (.inboundLineFrame ch bytes) s = .next s.transmit)
         ∧ (f.answer = .fragmentOk w.fragment → w.fragment < w.count → exec (.inboundLineFrame ch bytes) s
             = .next (s.setChannel ch { s.channel ch with
                 activity := .sensing w.advance s.line.quietInterval s.line.accessLimit }).transmit))
       ∧ (f.network = w.network → f.seq = w.seq → f.source ≠ dest →
         (∀ k, f.answer = .hopFailed k → 1 ≤ k → route[k - 1]? = some f.source →
             exec (.inboundLineFrame ch bytes) s = .next (ends (.hopFailed k)).transmit)
         ∧ ((∀ k, f.answer = .hopFailed k → ¬ (1 ≤ k ∧ route[k - 1]? = some f.source)) →
             exec (.inboundLineFrame ch bytes) s = .next s.transmit)))
  ∧ (∀ (ch : Phase) (s : State) (bytes : List Byte),
       ((s.channel ch).activity = .offline ∨ (s.channel ch).activity = .idle ∨ (∃ n, (s.channel ch).activity = .settling n)
         ∨ (∃ w frame, (s.channel ch).activity = .sending w frame)
         ∨ (∃ w left group budget, (s.channel ch).activity = .awaiting w left ∧ w.kind = .broadcast group budget)) →
       exec (.inboundLineFrame ch bytes) s = .next s.transmit)

/-- A contact report makes an entry ACTIVE with miss count 0 and the line time as last contact, with CAME_BACK after
SILENT, teaches an UNKNOWN phase with PHASE_LEARNED, and applies its extra: a confirmed sequence that never lowers, a
status report with REPORT_NEW, or REFUSED; the attention count follows. A report that names no entry changes nothing (R4,
R9 and R12 in part; R5 and R6). -/
def Obligations.ContactReportsUpdateTheEntry : Prop :=
  ∀ (s : State) (u : Nat) (ch : Phase) (x : Extra),
    (s.entry u = none → s.contact u ch x = s)
    ∧ (s.entry u ≠ none → s.contact u ch x = (s.updateEntry u (fun e =>
        { e with
          misses := 0
          state := .active
          lastContact := s.clock.time
          phase := match e.phase with | some ph => some ph | none => some ch
          lastConfirmed := match x with
            | .confirmed seq => some (match e.lastConfirmed with | some old => max old seq | none => seq)
            | _ => e.lastConfirmed
          lastReport := match x with
            | .report f heardAt => some
                { band := f.band, relay1 := f.relay1, relay2 := f.relay2
                  plan := if f.planIdentity = 0 then none else some (f.planIdentity, f.planVersion)
                  clockSet := f.clockSet
                  clockOffset := if f.clockSet then
                      heardAt.map (fun now : Nat => max (-32767) (min 32767 ((f.time : Int) - (now : Int))))
                    else none
                  receivedAt := s.clock.time }
            | _ => e.lastReport
          flags := { e.flags with
            cameBack := e.flags.cameBack || decide (e.state = .silent)
            phaseLearned := e.flags.phaseLearned || e.phase.isNone
            reportNew := e.flags.reportNew || (match x with | .report _ _ => true | _ => false)
            refused := e.flags.refused || (match x with | .refusal => true | _ => false) } })).updateAttention)

/-- A miss report counts a miss up to 15 for a resolved entry, with the passage to SILENT and WENT_SILENT at the threshold;
for an unresolved one it moves the search phase on, and counts a miss only on the step from L3 to L1; a route-fault mark
sets ROUTE_FAULT; the attention count follows. A report that names no entry changes nothing (R7 and R11; R9 in part). -/
def Obligations.MissReportsUpdateTheEntry : Prop :=
  ∀ (s : State) (u : Nat) (mark : Bool),
    let counted (e : Entry) : Entry :=
      if e.state ≠ .silent ∧ s.roster.threshold ≤ min 15 (e.misses + 1) then
        { e with misses := min 15 (e.misses + 1), state := .silent, flags := { e.flags with wentSilent := true } }
      else { e with misses := min 15 (e.misses + 1) }
    let marked (e : Entry) : Entry := { e with flags := { e.flags with routeFault := e.flags.routeFault || mark } }
    (s.entry u = none → s.miss u mark = s)
    ∧ (s.entry u ≠ none → s.miss u mark = (s.updateEntry u (fun e =>
        if s.resolved e ≠ none then marked (counted e)
        else match e.searchPhase with
          | .l1 => marked { e with searchPhase := .l2 }
          | .l2 => marked { e with searchPhase := .l3 }
          | .l3 => marked (counted { e with searchPhase := .l1 }))).updateAttention)

/-- A credited outcome (same campaign RUNNING or HELD in the slot, receiver still pending there) settles or marks the
receiver: APPLIED and REPORT count applied, ALREADY_NEWER declined, REFUSED refused with its reason, each with outstanding
one lower and the slot out of the receiver's sets; NO_REPLY, GARBLED and HOP_FAILED mark it tried and count nothing;
outstanding 0 makes the campaign COMPLETE with reason SETTLED, with its notice, before the roster is told; nothing else of the
campaign changes, nor any other set or the plan store. Then the campaign controller examines the pass of that campaign, and
those past the first of the campaigns pending at a destination that the report made SILENT, and does nothing else: a pass goes
on, or the next begins with nobody tried, or the campaign is EXHAUSTED, with its notice (R85 to R92, R69, R72, R94, R96 and R97
in part; the first outcome on the channel is taken, log 12; that an ATTENTION precedes the notice of a campaign EXHAUSTED by
the same outcome is MODEL'S CHOICE, log 40). -/
def Obligations.CreditedOutcomesSettleTheReceiver : Prop :=
  ∀ (ch : Phase) (s : State) (w : Work) (dest : Nat) (route : List Nat) (v : Verdict) (rest : List ChannelReport)
    (c : Campaign) (e : Entry),
    takeFirst ChannelReport.isOutcome (s.reports ch) = some (.outcome w v, rest) → w.kind = .exchange dest route →
    s.Balanced → s.campaign w.slot = some c → c.seq = w.seq → c.state.active = true → s.entry dest = some e →
    w.slot ∈ e.pending →
    ∃ (settled told t : State) (c' : Campaign) (e' : Entry), exec (.outcomeTaken ch) s = .next t.transmit
      ∧ OnlyCampaigns (s.setReports ch rest) settled ∧ settled.store = s.store
      ∧ (∃ ended, (s.setReports ch rest).Concludes settled ended)
      ∧ s.SetsKept settled (fun u k => u = dest ∧ k = w.slot) ∧ told = settled.told ch w.seq dest route v
      ∧ told.PassesExamined t (fun d => (d.slot = w.slot ∧ d.seq = w.seq) ∨ ((∃ p, d.pass = some p ∧ 1 < p)
          ∧ ∃ x y, settled.entry dest = some x ∧ told.entry dest = some y ∧ x.state ≠ .silent ∧ y.state = .silent
            ∧ d.slot ∈ x.pending))
      ∧ settled.campaign w.slot = some c' ∧ settled.entry dest = some e'
      ∧ (∀ d ∈ s.campaigns.table, d.slot ≠ w.slot → settled.campaign d.slot = some d)
      ∧ c'.byReason = (match v with | .refused r => c.byReason.add r | _ => c.byReason)
      ∧ c'.counts = (match v with
          | .applied => { c.counts with applied := c.counts.applied + 1, outstanding := c.counts.outstanding - 1 }
          | .report _ _ => { c.counts with applied := c.counts.applied + 1, outstanding := c.counts.outstanding - 1 }
          | .alreadyNewer => { c.counts with declined := c.counts.declined + 1, outstanding := c.counts.outstanding - 1 }
          | .refused _ => { c.counts with refused := c.counts.refused + 1, outstanding := c.counts.outstanding - 1 }
          | .noReply => c.counts
          | .garbled => c.counts
          | .hopFailed _ => c.counts
          | .interrupted => c.counts
          | .deferred => c.counts)
      ∧ ((v = .applied ∨ (∃ f n, v = .report f n) ∨ v = .alreadyNewer ∨ ∃ r, v = .refused r) →
          w.slot ∉ e'.pending ∧ w.slot ∉ e'.tried
          ∧ (c.counts.outstanding = 1 → c' = { c with
              counts := c'.counts, byReason := c'.byReason
              state := .complete, reason := some .settled, endedAt := s.clock.time, intervalTimer := none })
          ∧ (c.counts.outstanding ≠ 1 → c' = { c with counts := c'.counts, byReason := c'.byReason }))
      ∧ ((v = .noReply ∨ v = .garbled ∨ ∃ k, v = .hopFailed k) →
          w.slot ∈ e'.tried ∧ e'.pending = e.pending ∧ c' = c)
      ∧ ((v = .interrupted ∨ v = .deferred) → settled = s.setReports ch rest)

/-- An outcome that is not credited, because the campaign ended, the slot was released or refilled, or the receiver is no
longer pending, hands the roster the same reports and moves no count, marks nothing tried and removes nothing pending; the
campaign controller then only examines passes, that of the outcome's own campaign among them: tried sets only shrink, a
pending set loses a slot only as its RUNNING campaign becomes EXHAUSTED, the only notices are those of the campaigns that end
so, and the plan store stays as it was (R70, R93, R69, R72, R94, R96 and R97 in part; the first outcome on the channel is
taken, log 12; that an ATTENTION precedes those notices is MODEL'S CHOICE, log 40).

The outcome of a broadcast's unit, INTERRUPTED or DEFERRED, changes nothing when it is taken (part of R107 and
R118; the first outcome on the channel is taken, log 12). -/
def Obligations.OtherOutcomesMoveNoCount : Prop :=
  (∀ (ch : Phase) (s : State) (w : Work) (dest : Nat) (route : List Nat) (v : Verdict) (rest : List ChannelReport),
     takeFirst ChannelReport.isOutcome (s.reports ch) = some (.outcome w v, rest) → w.kind = .exchange dest route →
     ((∀ c, s.campaign w.slot = some c → c.seq ≠ w.seq ∨ c.state.active = false)
       ∨ (∀ e, s.entry dest = some e → w.slot ∉ e.pending)) →
     ∃ told t, exec (.outcomeTaken ch) s = .next t.transmit ∧ told = (s.setReports ch rest).told ch w.seq dest route v
       ∧ told.PassesExamined t (fun d => (d.slot = w.slot ∧ d.seq = w.seq) ∨ ((∃ p, d.pass = some p ∧ 1 < p)
           ∧ ∃ x y, s.entry dest = some x ∧ told.entry dest = some y ∧ x.state ≠ .silent ∧ y.state = .silent
             ∧ d.slot ∈ x.pending))
       ∧ told.campaigns = s.campaigns ∧ told.roster.entries.map (fun e => (e.unit, e.pending, e.tried))
           = s.roster.entries.map (fun e => (e.unit, e.pending, e.tried))
       ∧ t.campaigns.table.map Campaign.counts = s.campaigns.table.map Campaign.counts)
  ∧ (∀ (ch : Phase) (s : State) (w : Work) (group budget : Nat) (v : Verdict) (rest : List ChannelReport),
       takeFirst ChannelReport.isOutcome (s.reports ch) = some (.outcome w v, rest) → w.kind = .broadcast group budget →
       exec (.outcomeTaken ch) s = .next (s.setReports ch rest).transmit)

/-- A transmission-ended report is counted for the same campaign in RUNNING or HELD: remaining on the phase falls by one,
transmissions made rises by one and stays at 65,535, on that phase alone. A HELD campaign, and a RUNNING one with anything
remaining, changes no more; a RUNNING one whose round has ended is COMPLETE, with its notice, or RESTING when standing, and every other
campaign, every set but at its slot and the plan store stay as they were. In every other case
the report changes nothing. A tail-ended report changes no count (R69, R72, R102, R105, R106 and R108 in part; the first report of the
kind on the channel is taken, log 12).

INTERVAL EXPIRED: a RESTING standing broadcast loads remaining with repeats base + 1 on each of its target phases and
is RUNNING again; everything else keeps its value (part of R110; whatever is left of the timer, MODEL'S CHOICE, log 10). -/
def Obligations.TransmissionsAreCountedByRound : Prop :=
  (∀ (ch : Phase) (s : State) (slot seq : Nat) (rest : List ChannelReport),
     (takeFirst ChannelReport.isTransmissionEnded (s.reports ch) = some (.transmissionEnded slot seq, rest) →
       ((∀ c, s.campaign slot = some c → c.seq ≠ seq ∨ c.state.active = false) →
         exec (.transmissionEndedTaken ch) s = .next (s.setReports ch rest).transmit)
       ∧ ∀ (c : Campaign) (base budget : Nat) (interval : Option Nat) (r : BroadcastRun), s.campaigns.Sound →
           s.campaign slot = some c → c.seq = seq → c.state.active = true → c.terms = .broadcast base budget interval →
           c.run = some r →
           let counted : BroadcastRun := { r with
             remaining := r.remaining.set ch (r.remaining.get ch - 1)
             made := r.made.set ch (min 65535 (r.made.get ch + 1)) }
           ((c.state = .held ∨ ∃ ph, counted.remaining.get ph ≠ 0) → exec (.transmissionEndedTaken ch) s
             = .next ((s.setReports ch rest).setTable
                 (updateBy Campaign.slot slot (fun d => { d with run := some counted }) s.campaigns.table)).transmit)
           ∧ (c.state = .running → (∀ ph, counted.remaining.get ph = 0) →
             ∃ t : State, exec (.transmissionEndedTaken ch) s = .next t.transmit
               ∧ OnlyCampaigns (s.setReports ch rest) t ∧ t.store = s.store
               ∧ (∃ ended, (s.setReports ch rest).Concludes t ended)
               ∧ (∀ k, k ≠ slot → t.campaign k = s.campaign k) ∧ s.SetsKept t (fun _ k => k = slot)
               ∧ (interval = none → t.campaign slot = some { c with
                   run := some counted, state := .complete, reason := some .roundDone, endedAt := s.clock.time
                   intervalTimer := none })
               ∧ (∀ seconds, interval = some seconds → t.campaign slot = some { c with
                   run := some { counted with rounds := r.rounds.map (fun n => min 65535 (n + 1)) }
                   state := .resting, intervalTimer := some (seconds * 1000) })))
     ∧ (∀ report, takeFirst ChannelReport.isTailEnded (s.reports ch) = some (report, rest) →
         exec (.tailEndedTaken ch) s = .next (s.setReports ch rest).transmit))
  ∧ (∀ (s : State) (c : Campaign) (base budget : Nat) (interval : Option Nat) (r : BroadcastRun),
       s.campaigns.Sound → c ∈ s.campaigns.table → c.state = .resting → c.terms = .broadcast base budget interval →
       c.run = some r →
       exec (.intervalExpired c.slot) s = .next (s.setTable (updateBy Campaign.slot c.slot (fun _ => { c with
         state := .running
         run := some { r with remaining := r.phases.map (fun target => if target then base + 1 else 0) }
         intervalTimer := none }) s.campaigns.table)).transmit)

/-- PLAN STAGE: MALFORMED for a start index outside 0..11, a number of points outside 1..12, a point, identity or version
outside its range; otherwise position start + i, modulo 12, takes point i, the other positions keep their contents, an
identity or version present replaces the buffer's, and nothing else changes. PLAN CLEAR blanks the buffer (part of R165 and
R166).

The buffer holds a committable plan exactly when identity and version are present, the filled positions are 0..n − 1 for
some n of at least 1, the minutes rise strictly and the bands are within 1..8; the plan is its identity, its version and
those points (part of R166). -/
def Obligations.StagingFollowsStageAndClear : Prop :=
  (∀ (h : Header) (q : PlanStageReq) (s : State),
     (s.Takes h (.planStage q) →
       ((12 ≤ q.start ∨ q.points.length = 0 ∨ 12 < q.points.length
           ∨ (∃ p ∈ q.points, 1439 < p.minute ∨ p.band < 1 ∨ 8 < p.band)
           ∨ (∃ n, q.identity = some n ∧ (n < 1 ∨ 65535 < n)) ∨ (∃ n, q.version = some n ∧ 255 < n)) →
         exec (.planStage h q) s = .next (s.popInbound.replied h (.planStage q) .malformed .none))
       ∧ (q.start < 12 → 1 ≤ q.points.length → q.points.length ≤ 12 →
           (∀ p ∈ q.points, p.minute ≤ 1439 ∧ 1 ≤ p.band ∧ p.band ≤ 8) →
           (∀ n, q.identity = some n → 1 ≤ n ∧ n ≤ 65535) → (∀ n, q.version = some n → n ≤ 255) →
           s.store.staging.points.length = 12 →
           ∃ b : Staging, exec (.planStage h q) s
               = .next ((s.popInbound.setStore { s.store with staging := b }).replied h (.planStage q) .ok (.staging b))
             ∧ b.points.length = 12
             ∧ (∀ i p, q.points[i]? = some p → b.points[(q.start + i) % 12]? = some (some p))
             ∧ (∀ j, j < 12 → (∀ i, i < q.points.length → (q.start + i) % 12 ≠ j) → b.points[j]? = s.store.staging.points[j]?)
             ∧ b.identity = (match q.identity with | some n => some n | none => s.store.staging.identity)
             ∧ b.version = (match q.version with | some n => some n | none => s.store.staging.version)))
     ∧ (s.Takes h .planClear → exec (.planClear h) s = .next ((s.popInbound.setStore
         { s.store with staging := ⟨none, none, List.replicate 12 none⟩ }).replied h .planClear .ok .none)))
  ∧ (∀ (b : Staging) (plan : Plan), b.committable = some plan ↔
       b.identity = some plan.identity ∧ b.version = some plan.version ∧ plan.points ≠ []
         ∧ plan.points.Pairwise (fun p q => p.minute < q.minute) ∧ (∀ p ∈ plan.points, 1 ≤ p.band ∧ p.band ≤ 8)
         ∧ ∃ blank, b.points = plan.points.map some ++ List.replicate blank none)

/-- PLAN COMMIT, SECTOR ERASE, SITE WRITE and SITE LOCK are checked in the orders of R169, R171, R181 and R182; the first
check that fails gives the result code and a refused request changes nothing, the arm included (part of R167, R169, R171,
R181 and R182; check 5 of R171 reads the campaign table, log 16).

Accepted, each of the four clears the arm and becomes the active operation: PLAN COMMIT with the committable plan
copied out of the buffer, SECTOR ERASE in phase ERASING with run time 0, SITE WRITE with the carried fields, SITE LOCK;
nothing else changes until it completes (part of R167, R169, R171, R181 and R182). -/
def Obligations.ArmedRequestsAreCheckedAndStart : Prop :=
  (∀ (h : Header) (c : Instr) (r : Request) (s : State) (code : ResultCode),
     ((∃ p, c = .planCommit h p ∧ r = .planCommit p) ∨ (∃ k, c = .sectorErase h k ∧ r = .sectorErase k)
       ∨ (∃ q, c = .siteWrite h q ∧ r = .siteWrite q) ∨ (c = .siteLock h ∧ r = .siteLock)) →
     s.Takes h r → FirstFails (s.armedChecks r) code →
     exec c s = .next (s.popInbound.replied h r code .none))
  ∧ (∀ (h : Header) (s : State),
       (∀ p plan, s.Takes h (.planCommit p) → AllPass (s.armedChecks (.planCommit p)) →
         s.store.staging.committable = some plan →
         exec (.planCommit h p) s = .next ((s.popInbound.setStore
           { s.store with arm := false, active := some (.program p plan) }).replied h (.planCommit p) .ok .none))
       ∧ (∀ k, s.Takes h (.sectorErase k) → AllPass (s.armedChecks (.sectorErase k)) →
         exec (.sectorErase h k) s = .next ((s.popInbound.setStore
           { s.store with arm := false, active := some (.erase k .erasing 0) }).replied h (.sectorErase k) .ok .none))
       ∧ (∀ q, s.Takes h (.siteWrite q) → AllPass (s.armedChecks (.siteWrite q)) →
         exec (.siteWrite h q) s = .next ((s.popInbound.setStore
           { s.store with arm := false, active := some (.siteWrite q) }).replied h (.siteWrite q) .ok .none))
       ∧ (s.Takes h .siteLock → AllPass (s.armedChecks .siteLock) →
         exec (.siteLock h) s = .next ((s.popInbound.setStore
           { s.store with arm := false, active := some .siteLock }).replied h .siteLock .ok .none)))

/-- STORE ARM sets the arm and STORE DISARM clears it, in every state. STORE PROTECT: MALFORMED outside 0..8, LOCKED below
the protect floor of a record locked or being locked; otherwise P takes the value, and a suspended erase whose sector the
new P newly covers is abandoned, its four slots DAMAGED and an ABORTED notice handed over (part of R167 and R168). -/
def Obligations.ArmAndProtectionAreSet : Prop :=
  ∀ (h : Header) (s : State),
    (s.Takes h .storeArm → exec (.storeArm h) s
      = .next ((s.popInbound.setStore { s.store with arm := true }).replied h .storeArm .ok (.arm true)))
    ∧ (s.Takes h .storeDisarm → exec (.storeDisarm h) s
      = .next ((s.popInbound.setStore { s.store with arm := false }).replied h .storeDisarm .ok (.arm false)))
    ∧ ∀ value, s.Takes h (.storeProtect value) →
      (8 < value → exec (.storeProtect h value) s = .next (s.popInbound.replied h (.storeProtect value) .malformed .none))
      ∧ (value ≤ 8 → (s.store.site.locked = true ∨ s.store.active = some .siteLock) →
          (∃ n, s.store.site.fields.floor = some n ∧ value < n) →
          exec (.storeProtect h value) s = .next (s.popInbound.replied h (.storeProtect value) .locked .none))
      ∧ (value ≤ 8 → ((s.store.site.locked = false ∧ s.store.active ≠ some .siteLock)
            ∨ ∀ n, s.store.site.fields.floor = some n → n ≤ value) →
          ((∀ e, s.store.suspended = some e → ¬ (s.store.boundary ≤ e.sector ∧ e.sector < value)) →
            exec (.storeProtect h value) s = .next ((s.popInbound.setStore
              { s.store with boundary := value }).replied h (.storeProtect value) .ok (.boundary value)))
          ∧ ∀ e, s.store.suspended = some e → s.store.boundary ≤ e.sector → e.sector < value →
            exec (.storeProtect h value) s = .next (((s.popInbound.setStore
              { s.store with
                boundary := value
                suspended := none
                slots := s.store.slots.mapIdx (fun p old => if p / 4 = e.sector then .damaged else old) }).notify
                  (.storeEvent (.eraseAborted e.sector) s.clock.time)).replied h (.storeProtect value) .ok (.boundary value)))

/-- ERASE SUSPEND: accepted for an ERASING erase without the guard, which enters SUSPENDING with owner HOST, and for one
SUSPENDING with owner SNAPSHOT, whose owner becomes HOST; TOO_SOON while the guard runs, WRONG_STATE otherwise. ERASE
RESUME: WRONG_STATE without a suspended erase of the host's, STORE_BUSY while an operation is active; otherwise the erase
is active in ERASING with its run time and the guard starts at 20 ms (part of R173 and R174). -/
def Obligations.ErasesAreSuspendedAndResumed : Prop :=
  ∀ (h : Header) (s : State),
    (s.Takes h .eraseSuspend →
      (∀ k n, s.store.active = some (.erase k .erasing n) →
        (s.store.guard ≠ none → exec (.eraseSuspend h) s = .next (s.popInbound.replied h .eraseSuspend .tooSoon .none))
        ∧ (s.store.guard = none → exec (.eraseSuspend h) s = .next ((s.popInbound.setStore
            { s.store with active := some (.erase k (.suspending .host) n) }).replied h .eraseSuspend .ok .none)))
      ∧ (∀ k n, s.store.active = some (.erase k (.suspending .snapshot) n) →
          exec (.eraseSuspend h) s = .next ((s.popInbound.setStore
            { s.store with active := some (.erase k (.suspending .host) n) }).replied h .eraseSuspend .ok .none))
      ∧ ((∀ k n, s.store.active ≠ some (.erase k .erasing n) ∧ s.store.active ≠ some (.erase k (.suspending .snapshot) n)) →
          exec (.eraseSuspend h) s = .next (s.popInbound.replied h .eraseSuspend .wrongState .none)))
    ∧ (s.Takes h .eraseResume →
      ((∀ e, s.store.suspended = some e → e.owner = .snapshot) →
        exec (.eraseResume h) s = .next (s.popInbound.replied h .eraseResume .wrongState .none))
      ∧ ∀ e, s.store.suspended = some e → e.owner = .host →
        (s.store.active ≠ none → exec (.eraseResume h) s = .next (s.popInbound.replied h .eraseResume .storeBusy .none))
        ∧ (s.store.active = none → exec (.eraseResume h) s = .next ((s.popInbound.setStore
            { s.store with active := some (.erase e.sector .erasing e.runTime), suspended := none, guard := some 20 }).replied h
              .eraseResume .ok .none)))

/-- A completion makes the store free: the slot is PROGRAMMED with the copied plan, the erased sector's four slots are
EMPTY and the guard stops, the carried site fields are written together, or the record is locked; the DONE notice is handed
over, and then every waiting request is taken with its plan copied as it stands, the deliveries in ascending order of
sequence (R170, R172, R176, R181, R182 and R184 in part; deliveries not yet taken keep their place in that order, log 17; that
the SITE DONE notice carries the written fields with their values is MODEL'S CHOICE, log 35; the moment of an end is the
world's, whatever the run time, MODEL'S CHOICE, logs 9 and 10). -/
def Obligations.CompletionsFreeTheStore : Prop :=
  ∀ (s : State) (op : Operation) (c : Instr) (done : Store) (event : StoreEvent),
    ((∃ p plan, op = .program p plan ∧ c = .programComplete ∧ event = .programDone p
        ∧ done = { s.store with active := none, slots := s.store.slots.set p (.programmed plan) })
      ∨ (∃ k phase n, op = .erase k phase n ∧ c = .eraseComplete ∧ event = .eraseDone k
        ∧ done = { s.store with
            active := none, guard := none
            slots := s.store.slots.mapIdx (fun p old => if p / 4 = k then .empty else old) })
      ∨ (∃ q, op = .siteWrite q ∧ c = .siteWriteComplete ∧ event = .siteDone q
        ∧ done = { s.store with active := none, site := { s.store.site with fields :=
            ⟨if q.network = none then s.store.site.fields.network else q.network,
              if q.kiosk = none then s.store.site.fields.kiosk else q.kiosk,
              if q.floor = none then s.store.site.fields.floor else q.floor⟩ } })
      ∨ (op = .siteLock ∧ c = .siteLockComplete ∧ event = .siteLockDone
        ∧ done = { s.store with active := none, site := { s.store.site with locked := true } })) →
    s.store.active = some op → s.Snapshots → ∃ l : List Delivery,
      exec c s = .next (((s.setStore { done with waiting := [], deliveries := l }).notify
        (.storeEvent event s.clock.time)).transmit)
      ∧ l.Perm (s.store.deliveries ++ done.handedOver) ∧ l.Pairwise (fun a b => a.seq ≤ b.seq)

/-- A suspension taken stops the erase with its run time. With owner HOST it is the suspended erase, a SUSPENDED notice is
handed over, and the waiting requests are taken; with owner SNAPSHOT they are taken and the erase is ERASING again in the
same taking, with the guard at 20 ms and no notice. When the guard expires, an ERASING erase enters SUSPENDING for waiting
requests while auto-suspend is ON (part of R173, R174, R176 and R177; deliveries not yet taken keep their place, log 17; the
moment of a suspension is the world's and an expiry is taken whatever is left, MODEL'S CHOICE, logs 9 and 10). -/
def Obligations.SuspensionsAreTaken : Prop :=
  ∀ (s : State) (k n : Nat),
    (s.Snapshots → ∃ l : List Delivery,
      l.Perm (s.store.deliveries ++ s.store.handedOver) ∧ l.Pairwise (fun a b => a.seq ≤ b.seq)
      ∧ (s.store.active = some (.erase k (.suspending .host) n) →
          exec .suspensionTaken s = .next (((s.setStore { s.store with
            active := none, suspended := some ⟨k, n, .host⟩, waiting := [], deliveries := l }).notify
              (.storeEvent (.eraseSuspended k .host) s.clock.time)).transmit))
      ∧ (s.store.active = some (.erase k (.suspending .snapshot) n) →
          exec .suspensionTaken s = .next ((s.setStore { s.store with
            active := some (.erase k .erasing n), suspended := none, guard := some 20, waiting := []
            deliveries := l }).transmit)))
    ∧ (∀ m, s.store.guard = some m →
      (s.store.active = some (.erase k .erasing n) → s.store.waiting ≠ [] → s.store.autoSuspend = true →
        exec .resumeGuardExpired s = .next (s.setStore { s.store with
          guard := none, active := some (.erase k (.suspending .snapshot) n) }).transmit)
      ∧ ((s.store.waiting = [] ∨ s.store.autoSuspend = false ∨ ∀ j i, s.store.active ≠ some (.erase j .erasing i)) →
        exec .resumeGuardExpired s = .next (s.setStore { s.store with guard := none }).transmit))

/-- The laws of every block, the account of the whole block and the law of the snapshots hold of `State.reset` (the
reset inputs are MODEL'S CHOICE, logs 7 and 8; no clause rests on them). -/
def Obligations.SoundAtReset : Prop :=
  State.reset.Sound ∧ State.reset.Balanced ∧ State.reset.Snapshots

/-- Every step keeps the link controller's law: at most two inbound requests and 32 notices, and nothing waits while the
transmitter is free. -/
def Obligations.LinkSoundKept : Prop :=
  ∀ s t : State, s.link.Sound → step s = .next t → t.link.Sound

/-- Every step keeps the roster's law: at most 1,024 entries, one for each unit, none below SILENT at or above the silence
threshold, every route at most three distinct units, each present as a RELAY and none the entry's own, eight ranges, and an attention count that counts the entries with a flag. -/
def Obligations.RosterSoundKept : Prop :=
  ∀ s t : State, s.roster.Sound → step s = .next t → t.roster.Sound

/-- Every step keeps the campaign table's law: at most one campaign for each of sixteen slots, every sequence below the
counter, sequences pairwise distinct. -/
def Obligations.CampaignsSoundKept : Prop :=
  ∀ s t : State, s.campaigns.Sound → step s = .next t → t.campaigns.Sound

/-- Every step keeps the plan store's law: 32 slots and 12 positions, a boundary that the protect floor bounds from the lock
on, at most one erase, suspended only for the host, a program only into an EMPTY slot, and the resume guard only beside an
ERASING erase. And with the campaign table's law it keeps the law of the snapshots: the plan slot of each PLAN LOAD in
WAITING or PREPARING is PROGRAMMED, in a sector neither erasing nor suspended; the waiting requests ascend by sequence, each
of a campaign in PREPARING that names its plan slot; the deliveries not yet taken ascend by sequence (where some wait
already, MODEL'S READING, log 17). -/
def Obligations.StoreSoundKept : Prop :=
  (∀ s t : State, s.store.Sound → step s = .next t → t.store.Sound)
  ∧ (∀ s t : State, s.campaigns.Sound → s.Snapshots → step s = .next t → t.Snapshots)

/-- Every step keeps the reference phase at the lowest phase with mains, the running source as the parameter and it give, and
exactly the channels without mains OFFLINE. -/
def Obligations.PoweredKept : Prop :=
  ∀ s t : State, s.Powered → step s = .next t → t.Powered

/-- Every step keeps the account of the campaign controller and the roster: outstanding is the number of receivers pending,
targets is the sum of the counts, refused the sum of its reasons, tried lies within pending, and only CONFIRMED campaigns
in RUNNING or HELD are owed anything. -/
def Obligations.BalancedKept : Prop :=
  ∀ s t : State, s.Balanced → step s = .next t → t.Balanced

/-- Reading the bytes of a frame within its ranges gives that frame back, every field at every value (ORDER, BROADCAST and
REPLY). -/
def Obligations.FramesRoundTrip : Prop :=
  ∀ f : LineFrame, f.sendable = true → readFrame f.bytes = some f
end

