-- ==== Sys2Proof/Laws/State.lean ====
section
/-! SUPPORT. One lemma per field and setter of State, and the same for the composite updates of Ops, all true by
unfolding, so that no later proof unfolds a record update. -/

namespace Sys2Proof.Machine

@[simp] theorem State.setPending_pending (s : State) (v : List Instr) : (s.setPending v).pending = v := rfl
@[simp] theorem State.setPending_free (s : State) (v : List Instr) : (s.setPending v).free = s.free := rfl
@[simp] theorem State.setPending_pins (s : State) (v : List Instr) : (s.setPending v).pins = s.pins := rfl
@[simp] theorem State.setPending_link (s : State) (v : List Instr) : (s.setPending v).link = s.link := rfl
@[simp] theorem State.setPending_roster (s : State) (v : List Instr) : (s.setPending v).roster = s.roster := rfl
@[simp] theorem State.setPending_campaigns (s : State) (v : List Instr) : (s.setPending v).campaigns = s.campaigns := rfl
@[simp] theorem State.setPending_line (s : State) (v : List Instr) : (s.setPending v).line = s.line := rfl
@[simp] theorem State.setPending_clock (s : State) (v : List Instr) : (s.setPending v).clock = s.clock := rfl
@[simp] theorem State.setPending_store (s : State) (v : List Instr) : (s.setPending v).store = s.store := rfl

@[simp] theorem State.setFree_pending (s : State) (v : Nat) : (s.setFree v).pending = s.pending := rfl
@[simp] theorem State.setFree_free (s : State) (v : Nat) : (s.setFree v).free = v := rfl
@[simp] theorem State.setFree_pins (s : State) (v : Nat) : (s.setFree v).pins = s.pins := rfl
@[simp] theorem State.setFree_link (s : State) (v : Nat) : (s.setFree v).link = s.link := rfl
@[simp] theorem State.setFree_roster (s : State) (v : Nat) : (s.setFree v).roster = s.roster := rfl
@[simp] theorem State.setFree_campaigns (s : State) (v : Nat) : (s.setFree v).campaigns = s.campaigns := rfl
@[simp] theorem State.setFree_line (s : State) (v : Nat) : (s.setFree v).line = s.line := rfl
@[simp] theorem State.setFree_clock (s : State) (v : Nat) : (s.setFree v).clock = s.clock := rfl
@[simp] theorem State.setFree_store (s : State) (v : Nat) : (s.setFree v).store = s.store := rfl

@[simp] theorem State.setPins_pending (s : State) (v : Pins) : (s.setPins v).pending = s.pending := rfl
@[simp] theorem State.setPins_free (s : State) (v : Pins) : (s.setPins v).free = s.free := rfl
@[simp] theorem State.setPins_pins (s : State) (v : Pins) : (s.setPins v).pins = v := rfl
@[simp] theorem State.setPins_link (s : State) (v : Pins) : (s.setPins v).link = s.link := rfl
@[simp] theorem State.setPins_roster (s : State) (v : Pins) : (s.setPins v).roster = s.roster := rfl
@[simp] theorem State.setPins_campaigns (s : State) (v : Pins) : (s.setPins v).campaigns = s.campaigns := rfl
@[simp] theorem State.setPins_line (s : State) (v : Pins) : (s.setPins v).line = s.line := rfl
@[simp] theorem State.setPins_clock (s : State) (v : Pins) : (s.setPins v).clock = s.clock := rfl
@[simp] theorem State.setPins_store (s : State) (v : Pins) : (s.setPins v).store = s.store := rfl

@[simp] theorem State.setLink_pending (s : State) (v : Link) : (s.setLink v).pending = s.pending := rfl
@[simp] theorem State.setLink_free (s : State) (v : Link) : (s.setLink v).free = s.free := rfl
@[simp] theorem State.setLink_pins (s : State) (v : Link) : (s.setLink v).pins = s.pins := rfl
@[simp] theorem State.setLink_link (s : State) (v : Link) : (s.setLink v).link = v := rfl
@[simp] theorem State.setLink_roster (s : State) (v : Link) : (s.setLink v).roster = s.roster := rfl
@[simp] theorem State.setLink_campaigns (s : State) (v : Link) : (s.setLink v).campaigns = s.campaigns := rfl
@[simp] theorem State.setLink_line (s : State) (v : Link) : (s.setLink v).line = s.line := rfl
@[simp] theorem State.setLink_clock (s : State) (v : Link) : (s.setLink v).clock = s.clock := rfl
@[simp] theorem State.setLink_store (s : State) (v : Link) : (s.setLink v).store = s.store := rfl

@[simp] theorem State.setRoster_pending (s : State) (v : Roster) : (s.setRoster v).pending = s.pending := rfl
@[simp] theorem State.setRoster_free (s : State) (v : Roster) : (s.setRoster v).free = s.free := rfl
@[simp] theorem State.setRoster_pins (s : State) (v : Roster) : (s.setRoster v).pins = s.pins := rfl
@[simp] theorem State.setRoster_link (s : State) (v : Roster) : (s.setRoster v).link = s.link := rfl
@[simp] theorem State.setRoster_roster (s : State) (v : Roster) : (s.setRoster v).roster = v := rfl
@[simp] theorem State.setRoster_campaigns (s : State) (v : Roster) : (s.setRoster v).campaigns = s.campaigns := rfl
@[simp] theorem State.setRoster_line (s : State) (v : Roster) : (s.setRoster v).line = s.line := rfl
@[simp] theorem State.setRoster_clock (s : State) (v : Roster) : (s.setRoster v).clock = s.clock := rfl
@[simp] theorem State.setRoster_store (s : State) (v : Roster) : (s.setRoster v).store = s.store := rfl

@[simp] theorem State.setCampaigns_pending (s : State) (v : Campaigns) : (s.setCampaigns v).pending = s.pending := rfl
@[simp] theorem State.setCampaigns_free (s : State) (v : Campaigns) : (s.setCampaigns v).free = s.free := rfl
@[simp] theorem State.setCampaigns_pins (s : State) (v : Campaigns) : (s.setCampaigns v).pins = s.pins := rfl
@[simp] theorem State.setCampaigns_link (s : State) (v : Campaigns) : (s.setCampaigns v).link = s.link := rfl
@[simp] theorem State.setCampaigns_roster (s : State) (v : Campaigns) : (s.setCampaigns v).roster = s.roster := rfl
@[simp] theorem State.setCampaigns_campaigns (s : State) (v : Campaigns) : (s.setCampaigns v).campaigns = v := rfl
@[simp] theorem State.setCampaigns_line (s : State) (v : Campaigns) : (s.setCampaigns v).line = s.line := rfl
@[simp] theorem State.setCampaigns_clock (s : State) (v : Campaigns) : (s.setCampaigns v).clock = s.clock := rfl
@[simp] theorem State.setCampaigns_store (s : State) (v : Campaigns) : (s.setCampaigns v).store = s.store := rfl

@[simp] theorem State.setLine_pending (s : State) (v : Line) : (s.setLine v).pending = s.pending := rfl
@[simp] theorem State.setLine_free (s : State) (v : Line) : (s.setLine v).free = s.free := rfl
@[simp] theorem State.setLine_pins (s : State) (v : Line) : (s.setLine v).pins = s.pins := rfl
@[simp] theorem State.setLine_link (s : State) (v : Line) : (s.setLine v).link = s.link := rfl
@[simp] theorem State.setLine_roster (s : State) (v : Line) : (s.setLine v).roster = s.roster := rfl
@[simp] theorem State.setLine_campaigns (s : State) (v : Line) : (s.setLine v).campaigns = s.campaigns := rfl
@[simp] theorem State.setLine_line (s : State) (v : Line) : (s.setLine v).line = v := rfl
@[simp] theorem State.setLine_clock (s : State) (v : Line) : (s.setLine v).clock = s.clock := rfl
@[simp] theorem State.setLine_store (s : State) (v : Line) : (s.setLine v).store = s.store := rfl

@[simp] theorem State.setClock_pending (s : State) (v : Clock) : (s.setClock v).pending = s.pending := rfl
@[simp] theorem State.setClock_free (s : State) (v : Clock) : (s.setClock v).free = s.free := rfl
@[simp] theorem State.setClock_pins (s : State) (v : Clock) : (s.setClock v).pins = s.pins := rfl
@[simp] theorem State.setClock_link (s : State) (v : Clock) : (s.setClock v).link = s.link := rfl
@[simp] theorem State.setClock_roster (s : State) (v : Clock) : (s.setClock v).roster = s.roster := rfl
@[simp] theorem State.setClock_campaigns (s : State) (v : Clock) : (s.setClock v).campaigns = s.campaigns := rfl
@[simp] theorem State.setClock_line (s : State) (v : Clock) : (s.setClock v).line = s.line := rfl
@[simp] theorem State.setClock_clock (s : State) (v : Clock) : (s.setClock v).clock = v := rfl
@[simp] theorem State.setClock_store (s : State) (v : Clock) : (s.setClock v).store = s.store := rfl

@[simp] theorem State.setStore_pending (s : State) (v : Store) : (s.setStore v).pending = s.pending := rfl
@[simp] theorem State.setStore_free (s : State) (v : Store) : (s.setStore v).free = s.free := rfl
@[simp] theorem State.setStore_pins (s : State) (v : Store) : (s.setStore v).pins = s.pins := rfl
@[simp] theorem State.setStore_link (s : State) (v : Store) : (s.setStore v).link = s.link := rfl
@[simp] theorem State.setStore_roster (s : State) (v : Store) : (s.setStore v).roster = s.roster := rfl
@[simp] theorem State.setStore_campaigns (s : State) (v : Store) : (s.setStore v).campaigns = s.campaigns := rfl
@[simp] theorem State.setStore_line (s : State) (v : Store) : (s.setStore v).line = s.line := rfl
@[simp] theorem State.setStore_clock (s : State) (v : Store) : (s.setStore v).clock = s.clock := rfl
@[simp] theorem State.setStore_store (s : State) (v : Store) : (s.setStore v).store = v := rfl

@[simp] theorem State.setEntries_pending (s : State) (l : List Entry) : (s.setEntries l).pending = s.pending := rfl
@[simp] theorem State.setEntries_free (s : State) (l : List Entry) : (s.setEntries l).free = s.free := rfl
@[simp] theorem State.setEntries_pins (s : State) (l : List Entry) : (s.setEntries l).pins = s.pins := rfl
@[simp] theorem State.setEntries_link (s : State) (l : List Entry) : (s.setEntries l).link = s.link := rfl
@[simp] theorem State.setEntries_roster (s : State) (l : List Entry) : (s.setEntries l).roster = { s.roster with entries := l } := rfl
@[simp] theorem State.setEntries_campaigns (s : State) (l : List Entry) : (s.setEntries l).campaigns = s.campaigns := rfl
@[simp] theorem State.setEntries_line (s : State) (l : List Entry) : (s.setEntries l).line = s.line := rfl
@[simp] theorem State.setEntries_clock (s : State) (l : List Entry) : (s.setEntries l).clock = s.clock := rfl
@[simp] theorem State.setEntries_store (s : State) (l : List Entry) : (s.setEntries l).store = s.store := rfl

@[simp] theorem State.setTable_pending (s : State) (l : List Campaign) : (s.setTable l).pending = s.pending := rfl
@[simp] theorem State.setTable_free (s : State) (l : List Campaign) : (s.setTable l).free = s.free := rfl
@[simp] theorem State.setTable_pins (s : State) (l : List Campaign) : (s.setTable l).pins = s.pins := rfl
@[simp] theorem State.setTable_link (s : State) (l : List Campaign) : (s.setTable l).link = s.link := rfl
@[simp] theorem State.setTable_roster (s : State) (l : List Campaign) : (s.setTable l).roster = s.roster := rfl
@[simp] theorem State.setTable_campaigns (s : State) (l : List Campaign) : (s.setTable l).campaigns = { s.campaigns with table := l } := rfl
@[simp] theorem State.setTable_line (s : State) (l : List Campaign) : (s.setTable l).line = s.line := rfl
@[simp] theorem State.setTable_clock (s : State) (l : List Campaign) : (s.setTable l).clock = s.clock := rfl
@[simp] theorem State.setTable_store (s : State) (l : List Campaign) : (s.setTable l).store = s.store := rfl

@[simp] theorem State.updateEntry_pending (s : State) (u : Nat) (f : Entry → Entry) : (s.updateEntry u f).pending = s.pending := rfl
@[simp] theorem State.updateEntry_free (s : State) (u : Nat) (f : Entry → Entry) : (s.updateEntry u f).free = s.free := rfl
@[simp] theorem State.updateEntry_pins (s : State) (u : Nat) (f : Entry → Entry) : (s.updateEntry u f).pins = s.pins := rfl
@[simp] theorem State.updateEntry_link (s : State) (u : Nat) (f : Entry → Entry) : (s.updateEntry u f).link = s.link := rfl
@[simp] theorem State.updateEntry_roster (s : State) (u : Nat) (f : Entry → Entry) : (s.updateEntry u f).roster = { s.roster with entries := updateBy Entry.unit u f s.roster.entries } := rfl
@[simp] theorem State.updateEntry_campaigns (s : State) (u : Nat) (f : Entry → Entry) : (s.updateEntry u f).campaigns = s.campaigns := rfl
@[simp] theorem State.updateEntry_line (s : State) (u : Nat) (f : Entry → Entry) : (s.updateEntry u f).line = s.line := rfl
@[simp] theorem State.updateEntry_clock (s : State) (u : Nat) (f : Entry → Entry) : (s.updateEntry u f).clock = s.clock := rfl
@[simp] theorem State.updateEntry_store (s : State) (u : Nat) (f : Entry → Entry) : (s.updateEntry u f).store = s.store := rfl

@[simp] theorem State.updateCampaign_pending (s : State) (k : Nat) (f : Campaign → Campaign) : (s.updateCampaign k f).pending = s.pending := rfl
@[simp] theorem State.updateCampaign_free (s : State) (k : Nat) (f : Campaign → Campaign) : (s.updateCampaign k f).free = s.free := rfl
@[simp] theorem State.updateCampaign_pins (s : State) (k : Nat) (f : Campaign → Campaign) : (s.updateCampaign k f).pins = s.pins := rfl
@[simp] theorem State.updateCampaign_link (s : State) (k : Nat) (f : Campaign → Campaign) : (s.updateCampaign k f).link = s.link := rfl
@[simp] theorem State.updateCampaign_roster (s : State) (k : Nat) (f : Campaign → Campaign) : (s.updateCampaign k f).roster = s.roster := rfl
@[simp] theorem State.updateCampaign_campaigns (s : State) (k : Nat) (f : Campaign → Campaign) : (s.updateCampaign k f).campaigns = { s.campaigns with table := updateBy Campaign.slot k f s.campaigns.table } := rfl
@[simp] theorem State.updateCampaign_line (s : State) (k : Nat) (f : Campaign → Campaign) : (s.updateCampaign k f).line = s.line := rfl
@[simp] theorem State.updateCampaign_clock (s : State) (k : Nat) (f : Campaign → Campaign) : (s.updateCampaign k f).clock = s.clock := rfl
@[simp] theorem State.updateCampaign_store (s : State) (k : Nat) (f : Campaign → Campaign) : (s.updateCampaign k f).store = s.store := rfl

@[simp] theorem State.setChannel_pending (s : State) (ph : Phase) (c : Channel) : (s.setChannel ph c).pending = s.pending := rfl
@[simp] theorem State.setChannel_free (s : State) (ph : Phase) (c : Channel) : (s.setChannel ph c).free = s.free := rfl
@[simp] theorem State.setChannel_pins (s : State) (ph : Phase) (c : Channel) : (s.setChannel ph c).pins = s.pins := rfl
@[simp] theorem State.setChannel_link (s : State) (ph : Phase) (c : Channel) : (s.setChannel ph c).link = s.link := rfl
@[simp] theorem State.setChannel_roster (s : State) (ph : Phase) (c : Channel) : (s.setChannel ph c).roster = s.roster := rfl
@[simp] theorem State.setChannel_campaigns (s : State) (ph : Phase) (c : Channel) : (s.setChannel ph c).campaigns = s.campaigns := rfl
@[simp] theorem State.setChannel_line (s : State) (ph : Phase) (c : Channel) : (s.setChannel ph c).line = { s.line with channels := s.line.channels.set ph c } := rfl
@[simp] theorem State.setChannel_clock (s : State) (ph : Phase) (c : Channel) : (s.setChannel ph c).clock = s.clock := rfl
@[simp] theorem State.setChannel_store (s : State) (ph : Phase) (c : Channel) : (s.setChannel ph c).store = s.store := rfl

@[simp] theorem State.setActivity_pending (s : State) (ph : Phase) (a : Activity) : (s.setActivity ph a).pending = s.pending := rfl
@[simp] theorem State.setActivity_free (s : State) (ph : Phase) (a : Activity) : (s.setActivity ph a).free = s.free := rfl
@[simp] theorem State.setActivity_pins (s : State) (ph : Phase) (a : Activity) : (s.setActivity ph a).pins = s.pins := rfl
@[simp] theorem State.setActivity_link (s : State) (ph : Phase) (a : Activity) : (s.setActivity ph a).link = s.link := rfl
@[simp] theorem State.setActivity_roster (s : State) (ph : Phase) (a : Activity) : (s.setActivity ph a).roster = s.roster := rfl
@[simp] theorem State.setActivity_campaigns (s : State) (ph : Phase) (a : Activity) : (s.setActivity ph a).campaigns = s.campaigns := rfl
@[simp] theorem State.setActivity_line (s : State) (ph : Phase) (a : Activity) : (s.setActivity ph a).line = { s.line with channels := s.line.channels.set ph { s.channel ph with activity := a } } := rfl
@[simp] theorem State.setActivity_clock (s : State) (ph : Phase) (a : Activity) : (s.setActivity ph a).clock = s.clock := rfl
@[simp] theorem State.setActivity_store (s : State) (ph : Phase) (a : Activity) : (s.setActivity ph a).store = s.store := rfl

@[simp] theorem State.setReports_pending (s : State) (ph : Phase) (l : List ChannelReport) : (s.setReports ph l).pending = s.pending := rfl
@[simp] theorem State.setReports_free (s : State) (ph : Phase) (l : List ChannelReport) : (s.setReports ph l).free = s.free := rfl
@[simp] theorem State.setReports_pins (s : State) (ph : Phase) (l : List ChannelReport) : (s.setReports ph l).pins = s.pins := rfl
@[simp] theorem State.setReports_link (s : State) (ph : Phase) (l : List ChannelReport) : (s.setReports ph l).link = s.link := rfl
@[simp] theorem State.setReports_roster (s : State) (ph : Phase) (l : List ChannelReport) : (s.setReports ph l).roster = s.roster := rfl
@[simp] theorem State.setReports_campaigns (s : State) (ph : Phase) (l : List ChannelReport) : (s.setReports ph l).campaigns = s.campaigns := rfl
@[simp] theorem State.setReports_line (s : State) (ph : Phase) (l : List ChannelReport) : (s.setReports ph l).line = { s.line with reports := s.line.reports.set ph l } := rfl
@[simp] theorem State.setReports_clock (s : State) (ph : Phase) (l : List ChannelReport) : (s.setReports ph l).clock = s.clock := rfl
@[simp] theorem State.setReports_store (s : State) (ph : Phase) (l : List ChannelReport) : (s.setReports ph l).store = s.store := rfl

@[simp] theorem State.handBack_pending (s : State) (ph : Phase) (r : ChannelReport) : (s.handBack ph r).pending = s.pending := rfl
@[simp] theorem State.handBack_free (s : State) (ph : Phase) (r : ChannelReport) : (s.handBack ph r).free = s.free := rfl
@[simp] theorem State.handBack_pins (s : State) (ph : Phase) (r : ChannelReport) : (s.handBack ph r).pins = s.pins := rfl
@[simp] theorem State.handBack_link (s : State) (ph : Phase) (r : ChannelReport) : (s.handBack ph r).link = s.link := rfl
@[simp] theorem State.handBack_roster (s : State) (ph : Phase) (r : ChannelReport) : (s.handBack ph r).roster = s.roster := rfl
@[simp] theorem State.handBack_campaigns (s : State) (ph : Phase) (r : ChannelReport) : (s.handBack ph r).campaigns = s.campaigns := rfl
@[simp] theorem State.handBack_line (s : State) (ph : Phase) (r : ChannelReport) : (s.handBack ph r).line = { s.line with reports := s.line.reports.set ph (s.reports ph ++ [r]) } := rfl
@[simp] theorem State.handBack_clock (s : State) (ph : Phase) (r : ChannelReport) : (s.handBack ph r).clock = s.clock := rfl
@[simp] theorem State.handBack_store (s : State) (ph : Phase) (r : ChannelReport) : (s.handBack ph r).store = s.store := rfl

@[simp] theorem State.popInbound_pending (s : State) : s.popInbound.pending = s.pending := rfl
@[simp] theorem State.popInbound_free (s : State) : s.popInbound.free = s.free := rfl
@[simp] theorem State.popInbound_pins (s : State) : s.popInbound.pins = s.pins := rfl
@[simp] theorem State.popInbound_link (s : State) : s.popInbound.link = { s.link with inbound := s.link.inbound.tail } := rfl
@[simp] theorem State.popInbound_roster (s : State) : s.popInbound.roster = s.roster := rfl
@[simp] theorem State.popInbound_campaigns (s : State) : s.popInbound.campaigns = s.campaigns := rfl
@[simp] theorem State.popInbound_line (s : State) : s.popInbound.line = s.line := rfl
@[simp] theorem State.popInbound_clock (s : State) : s.popInbound.clock = s.clock := rfl
@[simp] theorem State.popInbound_store (s : State) : s.popInbound.store = s.store := rfl

@[simp] theorem State.notify_pending (s : State) (n : Notice) : (s.notify n).pending = s.pending := by
  unfold State.notify; split <;> rfl
@[simp] theorem State.notify_free (s : State) (n : Notice) : (s.notify n).free = s.free := by
  unfold State.notify; split <;> rfl
@[simp] theorem State.notify_pins (s : State) (n : Notice) : (s.notify n).pins = s.pins := by
  unfold State.notify; split <;> rfl
@[simp] theorem State.notify_roster (s : State) (n : Notice) : (s.notify n).roster = s.roster := by
  unfold State.notify; split <;> rfl
@[simp] theorem State.notify_campaigns (s : State) (n : Notice) : (s.notify n).campaigns = s.campaigns := by
  unfold State.notify; split <;> rfl
@[simp] theorem State.notify_line (s : State) (n : Notice) : (s.notify n).line = s.line := by
  unfold State.notify; split <;> rfl
@[simp] theorem State.notify_clock (s : State) (n : Notice) : (s.notify n).clock = s.clock := by
  unfold State.notify; split <;> rfl
@[simp] theorem State.notify_store (s : State) (n : Notice) : (s.notify n).store = s.store := by
  unfold State.notify; split <;> rfl

@[simp] theorem State.transmit_pending (s : State) : s.transmit.pending = s.pending := rfl
@[simp] theorem State.transmit_free (s : State) : s.transmit.free = s.free := rfl
@[simp] theorem State.transmit_pins (s : State) : s.transmit.pins = s.pins := rfl
@[simp] theorem State.transmit_roster (s : State) : s.transmit.roster = s.roster := rfl
@[simp] theorem State.transmit_campaigns (s : State) : s.transmit.campaigns = s.campaigns := rfl
@[simp] theorem State.transmit_line (s : State) : s.transmit.line = s.line := rfl
@[simp] theorem State.transmit_clock (s : State) : s.transmit.clock = s.clock := rfl
@[simp] theorem State.transmit_store (s : State) : s.transmit.store = s.store := rfl

end Sys2Proof.Machine
end

