-- ==== Sys2Proof/Laws/Tables.lean ====
section
/-! SUPPORT. Sets of numbers and tables in order of a key: membership, order, and what the operations keep. -/

namespace Sys2Proof

@[simp] theorem PerPhase.get_set_same {α : Type} (p : PerPhase α) (ph : Phase) (v : α) : (p.set ph v).get ph = v := by
  cases ph <;> rfl

theorem PerPhase.get_set_other {α : Type} (p : PerPhase α) (ph q : Phase) (v : α) (h : q ≠ ph) :
    (p.set ph v).get q = p.get q := by
  cases ph <;> cases q <;> first | rfl | exact absurd rfl h

theorem PerPhase.get_set {α : Type} (p : PerPhase α) (ph q : Phase) (v : α) :
    (p.set ph v).get q = if q = ph then v else p.get q := by
  cases ph <;> cases q <;> rfl

@[simp] theorem PerPhase.get_map {α β : Type} (f : α → β) (p : PerPhase α) (ph : Phase) :
    (p.map f).get ph = f (p.get ph) := by
  cases ph <;> rfl

@[simp] theorem PerPhase.get_const {α : Type} (v : α) (ph : Phase) : (PerPhase.const v).get ph = v := by
  cases ph <;> rfl

@[simp] theorem PerPhase.get_ofFn {α : Type} (f : Phase → α) (ph : Phase) : (PerPhase.ofFn f).get ph = f ph := by
  cases ph <;> rfl

theorem PerPhase.ext_get {α : Type} {p q : PerPhase α} (h : ∀ ph, p.get ph = q.get ph) : p = q := by
  cases p; cases q
  have h1 := h .l1; have h2 := h .l2; have h3 := h .l3
  simp only [PerPhase.get] at h1 h2 h3
  simp [h1, h2, h3]

@[simp] theorem PerPhase.set_get {α : Type} (p : PerPhase α) (ph : Phase) : p.set ph (p.get ph) = p := by
  cases ph <;> rfl

@[simp] theorem PerPhase.set_set {α : Type} (p : PerPhase α) (ph : Phase) (v w : α) : (p.set ph v).set ph w = p.set ph w := by
  cases ph <;> rfl

theorem PerPhase.mem_toList {α : Type} (p : PerPhase α) (a : α) : a ∈ p.toList ↔ ∃ ph, p.get ph = a := by
  constructor
  · intro h
    simp only [PerPhase.toList, List.mem_cons, List.not_mem_nil, or_false] at h
    rcases h with h | h | h
    · exact ⟨.l1, h.symm⟩
    · exact ⟨.l2, h.symm⟩
    · exact ⟨.l3, h.symm⟩
  · rintro ⟨ph, rfl⟩
    cases ph <;> simp [PerPhase.toList, PerPhase.get]

namespace Machine

/-! ## Sets -/

@[simp] theorem mem_insertNat {x a : Nat} {l : List Nat} : x ∈ insertNat a l ↔ x = a ∨ x ∈ l := by
  induction l with
  | nil => simp [insertNat]
  | cons b r ih =>
    unfold insertNat
    split
    · simp
    · split
      · rename_i h; subst h; simp
      · simp [ih]; constructor <;> intro h <;> rcases h with h | h | h <;> simp [h]

@[simp] theorem mem_removeNat {x a : Nat} {l : List Nat} : x ∈ removeNat a l ↔ x ∈ l ∧ x ≠ a := by
  simp [removeNat]

theorem removeNat_of_not_mem {a : Nat} {l : List Nat} (h : a ∉ l) : removeNat a l = l := by
  unfold removeNat
  rw [List.filter_eq_self]
  intro b hb
  simp only [bne_iff_ne, ne_eq]
  intro e; subst e; exact h hb

theorem insertNat_rising {a : Nat} {l : List Nat} (h : l.Pairwise (· < ·)) : (insertNat a l).Pairwise (· < ·) := by
  induction l with
  | nil => simp [insertNat]
  | cons b r ih =>
    rw [List.pairwise_cons] at h
    unfold insertNat
    split
    · rename_i hlt
      refine List.pairwise_cons.mpr ⟨?_, List.pairwise_cons.mpr h⟩
      intro x hx
      rcases List.mem_cons.mp hx with rfl | hx
      · exact hlt
      · exact Nat.lt_trans hlt (h.1 x hx)
    · split
      · exact List.pairwise_cons.mpr h
      · refine List.pairwise_cons.mpr ⟨?_, ih h.2⟩
        intro x hx
        rcases mem_insertNat.mp hx with rfl | hx
        · omega
        · exact h.1 x hx

theorem removeNat_rising {a : Nat} {l : List Nat} (h : l.Pairwise (· < ·)) : (removeNat a l).Pairwise (· < ·) :=
  h.filter _

@[simp] theorem mem_setOfList {x : Nat} {l : List Nat} : x ∈ setOfList l ↔ x ∈ l := by
  induction l with
  | nil => simp [setOfList]
  | cons a r ih => simp [setOfList, ih]

theorem setOfList_rising (l : List Nat) : (setOfList l).Pairwise (· < ·) := by
  induction l with
  | nil => simp [setOfList]
  | cons a r ih => exact insertNat_rising ih

/-! ## Tables -/

section
variable {α : Type} {key : α → Nat}

theorem InOrder.map_lt {l : List α} (h : InOrder key l) : (l.map key).Pairwise (· < ·) :=
  List.pairwise_map.mpr h

theorem InOrder.of_map {l : List α} (h : (l.map key).Pairwise (· < ·)) : InOrder key l :=
  List.pairwise_map.mp h

theorem InOrder.eq_of_key {l : List α} (h : InOrder key l) {a b : α} (ha : a ∈ l) (hb : b ∈ l) (he : key a = key b) :
    a = b := by
  induction l with
  | nil => cases ha
  | cons c r ih =>
    have hc := List.pairwise_cons.mp h
    rcases List.mem_cons.mp ha with rfl | ha' <;> rcases List.mem_cons.mp hb with rfl | hb'
    · rfl
    · have := hc.1 b hb'; omega
    · have := hc.1 a ha'; omega
    · exact ih hc.2 ha' hb'

theorem findBy_some {k : Nat} {l : List α} {a : α} (h : findBy key k l = some a) : a ∈ l ∧ key a = k := by
  unfold findBy at h
  exact ⟨List.mem_of_find?_eq_some h, by simpa using List.find?_some h⟩

theorem findBy_none {k : Nat} {l : List α} : findBy key k l = none ↔ ∀ a ∈ l, key a ≠ k := by
  simp [findBy]

theorem InOrder.findBy_of_mem {l : List α} (h : InOrder key l) {a : α} (ha : a ∈ l) : findBy key (key a) l = some a := by
  cases hf : findBy key (key a) l with
  | none => exact absurd rfl (findBy_none.mp hf a ha)
  | some b =>
    have hb := findBy_some hf
    rw [h.eq_of_key hb.1 ha hb.2]

theorem updateBy_keys {k : Nat} {f : α → α} {l : List α} (hf : ∀ a, key (f a) = key a) :
    (updateBy key k f l).map key = l.map key := by
  unfold updateBy
  rw [List.map_map]
  apply List.map_congr_left
  intro a _
  simp only [Function.comp]
  split
  · exact hf a
  · rfl

/-- The change need keep the key only where it applies. -/
theorem updateBy_keys_at {k : Nat} {f : α → α} {l : List α} (hf : ∀ a ∈ l, key a = k → key (f a) = k) :
    (updateBy key k f l).map key = l.map key := by
  unfold updateBy
  rw [List.map_map]
  apply List.map_congr_left
  intro a ha
  simp only [Function.comp]
  split
  · rename_i h; rw [hf a ha h, h]
  · rfl

theorem updateBy_inOrder {k : Nat} {f : α → α} {l : List α} (hf : ∀ a ∈ l, key a = k → key (f a) = k) (h : InOrder key l) :
    InOrder key (updateBy key k f l) :=
  InOrder.of_map (by rw [updateBy_keys_at hf]; exact h.map_lt)

theorem mem_updateBy {k : Nat} {f : α → α} {l : List α} {b : α} :
    b ∈ updateBy key k f l ↔ (∃ a ∈ l, key a = k ∧ b = f a) ∨ (b ∈ l ∧ key b ≠ k) := by
  unfold updateBy
  rw [List.mem_map]
  constructor
  · rintro ⟨a, ha, he⟩
    by_cases h : key a = k
    · rw [if_pos h] at he; exact .inl ⟨a, ha, h, he.symm⟩
    · rw [if_neg h] at he; subst he; exact .inr ⟨ha, h⟩
  · rintro (⟨a, ha, h, rfl⟩ | ⟨hb, h⟩)
    · exact ⟨a, ha, by rw [if_pos h]⟩
    · exact ⟨b, hb, by rw [if_neg h]⟩

theorem findBy_updateBy_same {k : Nat} {f : α → α} {l : List α} (hf : ∀ a, key a = k → key (f a) = k) :
    findBy key k (updateBy key k f l) = (findBy key k l).map f := by
  induction l with
  | nil => rfl
  | cons a r ih =>
    unfold updateBy findBy at ih ⊢
    simp only [List.map_cons, List.find?_cons]
    by_cases h : key a = k
    · simp [h, hf a h]
    · simp only [if_neg h, beq_eq_false_iff_ne.mpr h]
      exact ih

theorem findBy_updateBy_other {k j : Nat} {f : α → α} {l : List α} (hf : ∀ a, key a = k → key (f a) = k) (hj : j ≠ k) :
    findBy key j (updateBy key k f l) = findBy key j l := by
  induction l with
  | nil => rfl
  | cons a r ih =>
    unfold updateBy findBy at ih ⊢
    simp only [List.map_cons, List.find?_cons]
    by_cases h : key a = k
    · have h1 : key (f a) ≠ j := by rw [hf a h]; exact fun e => hj e.symm
      have h2 : key a ≠ j := by rw [h]; exact fun e => hj e.symm
      simp only [if_pos h, beq_eq_false_iff_ne.mpr h1, beq_eq_false_iff_ne.mpr h2]
      exact ih
    · rw [if_neg h]
      by_cases hk : key a = j
      · simp [hk]
      · simp only [beq_eq_false_iff_ne.mpr hk]
        exact ih

theorem removeBy_inOrder {k : Nat} {l : List α} (h : InOrder key l) : InOrder key (removeBy key k l) := List.Pairwise.filter _ h

@[simp] theorem mem_removeBy {k : Nat} {l : List α} {a : α} : a ∈ removeBy key k l ↔ a ∈ l ∧ key a ≠ k := by
  simp [removeBy]

theorem putBy_mem {a b : α} {l : List α} (h : b ∈ putBy key a l) : b = a ∨ b ∈ l := by
  induction l with
  | nil => simp [putBy] at h; exact .inl h
  | cons c r ih =>
    unfold putBy at h
    split at h
    · rcases List.mem_cons.mp h with h | h
      · exact .inl h
      · exact .inr h
    · split at h
      · rcases List.mem_cons.mp h with h | h
        · exact .inl h
        · exact .inr (List.mem_cons_of_mem _ h)
      · rcases List.mem_cons.mp h with h | h
        · exact .inr (h ▸ List.mem_cons_self)
        · rcases ih h with h | h
          · exact .inl h
          · exact .inr (List.mem_cons_of_mem _ h)

theorem putBy_inOrder {a : α} {l : List α} (h : InOrder key l) : InOrder key (putBy key a l) := by
  induction l with
  | nil => simp [putBy, InOrder]
  | cons c r ih =>
    have hc := List.pairwise_cons.mp h
    unfold putBy
    split
    · rename_i hlt
      refine List.pairwise_cons.mpr ⟨?_, h⟩
      intro x hx
      rcases List.mem_cons.mp hx with rfl | hx
      · exact hlt
      · exact Nat.lt_trans hlt (hc.1 x hx)
    · split
      · rename_i he
        refine List.pairwise_cons.mpr ⟨?_, hc.2⟩
        intro x hx
        rw [he]; exact hc.1 x hx
      · refine List.pairwise_cons.mpr ⟨?_, ih hc.2⟩
        intro x hx
        rcases putBy_mem hx with rfl | hx
        · omega
        · exact hc.1 x hx

theorem mem_putBy {a b : α} {l : List α} (h : InOrder key l) :
    b ∈ putBy key a l ↔ b = a ∨ (b ∈ l ∧ key b ≠ key a) := by
  induction l with
  | nil => simp [putBy]
  | cons c r ih =>
    have hc := List.pairwise_cons.mp h
    unfold putBy
    split
    · rename_i hlt
      simp only [List.mem_cons]
      constructor
      · rintro (h | h | h)
        · exact .inl h
        · subst h; exact .inr ⟨.inl rfl, by omega⟩
        · exact .inr ⟨.inr h, by have := hc.1 b h; omega⟩
      · rintro (h | ⟨h | h, _⟩)
        · exact .inl h
        · exact .inr (.inl h)
        · exact .inr (.inr h)
    · split
      · rename_i he
        simp only [List.mem_cons]
        constructor
        · rintro (h | h)
          · exact .inl h
          · exact .inr ⟨.inr h, by have := hc.1 b h; omega⟩
        · rintro (h | ⟨h | h, hk⟩)
          · exact .inl h
          · subst h; exact absurd he.symm hk
          · exact .inr h
      · simp only [List.mem_cons, ih hc.2]
        constructor
        · rintro (h | h | ⟨h, hk⟩)
          · subst h; exact .inr ⟨.inl rfl, by omega⟩
          · exact .inl h
          · exact .inr ⟨.inr h, hk⟩
        · rintro (h | ⟨h | h, hk⟩)
          · exact .inr (.inl h)
          · exact .inl h
          · exact .inr (.inr ⟨h, hk⟩)

theorem findBy_putBy_same {a : α} {l : List α} (h : InOrder key l) : findBy key (key a) (putBy key a l) = some a :=
  (putBy_inOrder h).findBy_of_mem ((mem_putBy h).mpr (.inl rfl))

end

end Machine

end Sys2Proof
end

