-- ==== Sys2Proof/Laws/Touch.lean ====
section
/-! SUPPORT. Relations that say once what a shared operation can do: how the link controller, the plan store, the campaign
controller and the roster unit may differ before and after. Each is reflexive and transitive. -/

namespace Sys2Proof.Machine

theorem Link.Grows.refl (a : Link) : Link.Grows a a := ⟨rfl, rfl, rfl, rfl, rfl, ⟨[], by simp⟩, id, id⟩

theorem Link.Grows.trans {a b c : Link} (h : Link.Grows a b) (g : Link.Grows b c) : Link.Grows a c where
  rate := g.rate.trans h.rate
  rx := g.rx.trans h.rx
  inbound := g.inbound.trans h.inbound
  reply := g.reply.trans h.reply
  tx := g.tx.trans h.tx
  joined := by
    obtain ⟨l, hl⟩ := h.joined
    obtain ⟨m, hm⟩ := g.joined
    exact ⟨l ++ m, by rw [hm, hl, List.append_assoc]⟩
  bound := fun x => g.bound (h.bound x)
  lost := fun x => g.lost (h.lost x)

/-- What notify does to the link controller (R190). -/
theorem State.notify_grows (s : State) (n : Notice) : Link.Grows s.link (s.notify n).link := by
  unfold State.notify
  split
  · rename_i h
    refine ⟨rfl, rfl, rfl, rfl, rfl, ⟨[n], rfl⟩, ?_, id⟩
    intro _
    simp only [Config.noticeSize] at h
    simp only [State.setLink_link, List.length_append, List.length_cons, List.length_nil]
    omega
  · exact ⟨rfl, rfl, rfl, rfl, rfl, ⟨[], by simp⟩, id, fun _ => rfl⟩

theorem Store.Serves.refl (a : Store) : Store.Serves a a := ⟨rfl, rfl, rfl, rfl, rfl, rfl, rfl, rfl, .inl rfl⟩

theorem Store.Serves.trans {a b c : Store} (h : Store.Serves a b) (g : Store.Serves b c) : Store.Serves a c where
  slots := g.slots.trans h.slots
  staging := g.staging.trans h.staging
  arm := g.arm.trans h.arm
  boundary := g.boundary.trans h.boundary
  suspended := g.suspended.trans h.suspended
  guard := g.guard.trans h.guard
  site := g.site.trans h.site
  autoSuspend := g.autoSuspend.trans h.autoSuspend
  active := by
    rcases h.active with h1 | ⟨k, n, h1, h2, h3⟩
    · rcases g.active with g1 | ⟨k, n, g1, g2, g3⟩
      · exact .inl (g1.trans h1)
      · exact .inr ⟨k, n, h1 ▸ g1, g2, h.guard ▸ g3⟩
    · rcases g.active with g1 | ⟨k', n', g1, _, _⟩
      · exact .inr ⟨k, n, h1, g1.trans h2, h3⟩
      · rw [h2] at g1; cases g1

theorem OnlyCampaigns.refl (s : State) : OnlyCampaigns s s :=
  ⟨rfl, rfl, rfl, rfl, rfl, .refl _, rfl, rfl, rfl, rfl, rfl, rfl, rfl, rfl, rfl, .refl _⟩

theorem OnlyCampaigns.trans {s t u : State} (h : OnlyCampaigns s t) (g : OnlyCampaigns t u) : OnlyCampaigns s u :=
  ⟨g.pending.trans h.pending, g.free.trans h.free, g.pins.trans h.pins, g.line.trans h.line, g.clock.trans h.clock,
    h.link.trans g.link, g.segments.trans h.segments, g.locked.trans h.locked, g.attention.trans h.attention,
    g.threshold.trans h.threshold, g.noticesOn.trans h.noticesOn, g.entries.trans h.entries, g.table.trans h.table,
    g.counter.trans h.counter, g.passLimit.trans h.passLimit, h.store.trans g.store⟩

/-- A fold of operations that each keep a reflexive and transitive relation keeps it. -/
theorem foldl_keeps {β : Type} {R : State → State → Prop} (refl : ∀ s, R s s)
    (trans : ∀ {s t u}, R s t → R t u → R s u) (f : State → β → State) (step : ∀ s b, R s (f s b)) :
    ∀ (l : List β) (s : State), R s (l.foldl f s)
  | [], s => refl s
  | b :: rest, s => trans (step s b) (foldl_keeps refl trans f step rest (f s b))

theorem OnlyCampaigns.foldl {β : Type} (f : State → β → State) (step : ∀ s b, OnlyCampaigns s (f s b)) (l : List β)
    (s : State) : OnlyCampaigns s (l.foldl f s) :=
  foldl_keeps OnlyCampaigns.refl OnlyCampaigns.trans f step l s

/-- What an entry keeps when only its sets change. -/
theorem Entry.forgetSlots_release (e : Entry) (k : Nat) : (e.release k).forgetSlots = e.forgetSlots := rfl

/-- Only the entries' sets were rewritten. -/
theorem OnlyCampaigns.of_entries {s : State} {l : List Entry}
    (h : l.map Entry.forgetSlots = s.roster.entries.map Entry.forgetSlots) : OnlyCampaigns s (s.setEntries l) :=
  ⟨rfl, rfl, rfl, rfl, rfl, .refl _, rfl, rfl, rfl, rfl, rfl, h, rfl, rfl, rfl, .refl _⟩

theorem map_forgetSlots {f : Entry → Entry} (hf : ∀ e, (f e).forgetSlots = e.forgetSlots) (l : List Entry) :
    (l.map f).map Entry.forgetSlots = l.map Entry.forgetSlots := by
  rw [List.map_map]; exact List.map_congr_left (fun e _ => hf e)

theorem OnlyCampaigns.of_map_entries {s : State} {f : Entry → Entry} (hf : ∀ e, (f e).forgetSlots = e.forgetSlots) :
    OnlyCampaigns s (s.setEntries (s.roster.entries.map f)) :=
  .of_entries (map_forgetSlots hf _)

theorem OnlyCampaigns.of_updateEntry {s : State} {u : Nat} {f : Entry → Entry}
    (hf : ∀ e, (f e).forgetSlots = e.forgetSlots) : OnlyCampaigns s (s.updateEntry u f) := by
  refine .of_entries (map_forgetSlots (fun e => ?_) _)
  split
  · exact hf e
  · rfl

/-- Only one campaign's record was rewritten, its host's fields kept. -/
theorem OnlyCampaigns.of_updateCampaign {s : State} {k : Nat} {f : Campaign → Campaign}
    (hf : ∀ c ∈ s.campaigns.table, c.slot = k → (f c).hostFields = c.hostFields) : OnlyCampaigns s (s.updateCampaign k f) := by
  refine ⟨rfl, rfl, rfl, rfl, rfl, .refl _, rfl, rfl, rfl, rfl, rfl, rfl, ?_, rfl, rfl, .refl _⟩
  simp only [State.updateCampaign_campaigns, updateBy]
  rw [List.map_map]
  apply List.map_congr_left
  intro c hc
  simp only [Function.comp]
  split
  · rename_i h; exact hf c hc h
  · rfl

theorem OnlyCampaigns.of_notify (s : State) (n : Notice) : OnlyCampaigns s (s.notify n) := by
  refine ⟨by simp, by simp, by simp, by simp, by simp, s.notify_grows n, ?_, ?_, ?_, ?_, ?_, ?_, ?_, ?_, ?_, ?_⟩ <;>
    simp [Store.Serves.refl]

theorem OnlyCampaigns.of_store {s : State} {st : Store} (h : Store.Serves s.store st) : OnlyCampaigns s (s.setStore st) :=
  ⟨rfl, rfl, rfl, rfl, rfl, .refl _, rfl, rfl, rfl, rfl, rfl, rfl, rfl, rfl, rfl, h⟩

/-! ## The plan store's service -/

theorem Store.takeSnapshots_serves (st : Store) : Store.Serves st st.takeSnapshots :=
  ⟨rfl, rfl, rfl, rfl, rfl, rfl, rfl, rfl, .inl rfl⟩

theorem Store.autoSuspendErase_serves (st : Store) : Store.Serves st st.autoSuspendErase := by
  unfold Store.autoSuspendErase
  split
  · rename_i k n h
    split
    · rename_i hc
      exact ⟨rfl, rfl, rfl, rfl, rfl, rfl, rfl, rfl, .inr ⟨k, n, h, rfl, hc.2.1⟩⟩
    · exact .refl _
  · exact .refl _

theorem Store.serve_serves (st : Store) : Store.Serves st st.serve := by
  unfold Store.serve
  split
  · exact st.takeSnapshots_serves
  · exact st.autoSuspendErase_serves

theorem State.joinSnapshots_touch (s : State) (r : SnapshotRequest) : OnlyCampaigns s (s.joinSnapshots r) :=
  .of_store (Store.Serves.trans (b := { s.store with waiting := insertRequest r s.store.waiting })
    ⟨rfl, rfl, rfl, rfl, rfl, rfl, rfl, rfl, .inl rfl⟩ (Store.serve_serves _))

theorem State.withdrawSnapshot_touch (s : State) (k : Nat) : OnlyCampaigns s (s.withdrawSnapshot k) :=
  .of_store ⟨rfl, rfl, rfl, rfl, rfl, rfl, rfl, rfl, .inl rfl⟩

/-! ## The campaign controller's operations -/

theorem State.releaseAll_touch (s : State) (k : Nat) : OnlyCampaigns s (s.releaseAll k) :=
  .of_map_entries (fun _ => rfl)

theorem State.campaign_some {s : State} {k : Nat} {c : Campaign} (h : s.campaign k = some c) :
    c ∈ s.campaigns.table ∧ c.slot = k := findBy_some h

theorem State.endCampaign_touch (s : State) (k : Nat) (v : CampaignState) (r : EndReason) :
    OnlyCampaigns s (s.endCampaign k v r) := by
  unfold State.endCampaign
  split
  · exact .refl s
  · rename_i c hc
    split
    · dsimp only
      have h2 : OnlyCampaigns s ((s.updateCampaign k (fun d => d.ended v r s.clock.time)).releaseAll k) := by
        refine .trans ?_ (State.releaseAll_touch _ k)
        exact .of_updateCampaign (fun _ _ _ => rfl)
      split
      · exact (h2.trans (State.withdrawSnapshot_touch _ k)).trans (.of_notify _ _)
      · exact h2.trans (.of_notify _ _)
    · exact .refl s

theorem State.settleReceiver_touch (s : State) (k u : Nat) (f : Campaign → Campaign)
    (hf : ∀ c, (f c).hostFields = c.hostFields) : OnlyCampaigns s (s.settleReceiver k u f) := by
  refine .trans (t := s.updateEntry u (fun e => e.release k)) (.of_updateEntry (fun _ => rfl)) ?_
  exact .of_updateCampaign (fun c _ _ => hf c)

theorem State.completeIfSettled_touch (s : State) (k : Nat) (r : EndReason) : OnlyCampaigns s (s.completeIfSettled k r) := by
  unfold State.completeIfSettled
  split
  · split
    · exact s.endCampaign_touch _ _ _
    · exact .refl s
  · exact .refl s

theorem State.clearTried_touch (s : State) (k : Nat) : OnlyCampaigns s (s.clearTried k) := .of_map_entries (fun _ => rfl)

theorem State.runPasses_touch : ∀ (n k : Nat) (s : State), OnlyCampaigns s (State.runPasses n k s)
  | 0, _, s => .refl s
  | n + 1, k, s => by
    unfold State.runPasses
    split
    · exact .refl s
    · split
      · exact .refl s
      · split
        · split
          · refine .trans ?_ (State.runPasses_touch n k _)
            refine .trans (s.clearTried_touch k) ?_
            exact .of_updateCampaign (fun _ _ _ => rfl)
          · exact s.endCampaign_touch _ _ _
        · exact .refl s

theorem State.examinePass_touch (s : State) (k : Nat) : OnlyCampaigns s (s.examinePass k) := State.runPasses_touch 17 k s

theorem State.examineSilenced_touch (s : State) (l : List Nat) : OnlyCampaigns s (s.examineSilenced l) := by
  refine .foldl _ (fun t k => ?_) l s
  split
  · split
    · exact t.examinePass_touch k
    · exact .refl t
  · exact .refl t

theorem State.examineRound_touch (s : State) (k : Nat) : OnlyCampaigns s (s.examineRound k) := by
  unfold State.examineRound
  split
  · exact .refl s
  · split
    · split
      · split
        · exact s.endCampaign_touch _ _ _
        · exact .of_updateCampaign (fun _ _ _ => rfl)
      · exact .refl s
    · exact .refl s

theorem State.dropFrom_touch (s : State) (u k : Nat) : OnlyCampaigns s (s.dropFrom u k) := by
  unfold State.dropFrom
  refine .trans ?_ (State.examinePass_touch _ k)
  refine .trans ?_ (State.completeIfSettled_touch _ k _)
  exact s.settleReceiver_touch k u _ (fun _ => rfl)

theorem State.dropReceiver_touch (s : State) (u : Nat) : OnlyCampaigns s (s.dropReceiver u) := by
  unfold State.dropReceiver
  split
  · exact .refl s
  · exact .foldl _ (fun t k => t.dropFrom_touch u k) _ s

theorem State.openAccount_touch (s : State) (k : Nat) : OnlyCampaigns s (s.openAccount k) := by
  unfold State.openAccount
  split
  · exact .refl s
  · dsimp only
    split
    · refine .trans ?_ (.of_entries ?_)
      · exact .of_updateCampaign (fun _ _ _ => rfl)
      · refine map_forgetSlots (fun e => ?_) _
        split <;> rfl
    · exact .of_updateCampaign (fun _ _ _ => rfl)

theorem State.overtake_touch (s : State) (old new : Nat) : OnlyCampaigns s (s.overtake old new) := by
  unfold State.overtake
  dsimp only
  split
  · exact .refl s
  · refine .trans ?_ (State.examinePass_touch _ old)
    refine .trans ?_ (State.completeIfSettled_touch _ old _)
    refine .trans ?_ (.of_updateCampaign (fun _ _ _ => rfl))
    refine .of_map_entries (fun e => ?_)
    split <;> rfl

theorem State.supersedeOne_touch (s : State) (c : Campaign) (k : Nat) : OnlyCampaigns s (s.supersedeOne c k) := by
  unfold State.supersedeOne
  split
  · exact .refl s
  · split
    · split
      · exact s.overtake_touch _ _
      · exact .refl s
      · split
        · exact s.endCampaign_touch _ _ _
        · exact .refl s
    · exact .refl s

theorem State.supersede_touch (s : State) (k : Nat) : OnlyCampaigns s (s.supersede k) := by
  unfold State.supersede
  split
  · exact .refl s
  · split
    · exact .refl s
    · exact .foldl _ (fun t j => t.supersedeOne_touch _ j) _ s

theorem State.checkWork_touch (s : State) (k : Nat) : OnlyCampaigns s (s.checkWork k) := by
  unfold State.checkWork
  split
  · exact .refl s
  · split
    · exact s.endCampaign_touch _ _ _
    · split
      · exact s.endCampaign_touch _ _ _
      · exact .refl s

theorem State.enterRunning_touch (s : State) (k : Nat) : OnlyCampaigns s (s.enterRunning k) :=
  ((s.openAccount_touch k).trans (State.supersede_touch _ k)).trans (State.checkWork_touch _ k)

theorem State.activate_touch (s : State) (k : Nat) : OnlyCampaigns s (s.activate k) := by
  unfold State.activate
  split
  · exact .refl s
  · dsimp only
    split
    · refine .trans ?_ (State.joinSnapshots_touch _ _)
      refine .trans ?_ (.of_updateCampaign (fun _ _ _ => rfl))
      exact .of_updateCampaign (fun _ _ _ => rfl)
    · refine .trans ?_ (State.enterRunning_touch _ k)
      exact .of_updateCampaign (fun _ _ _ => rfl)

theorem State.takeDeadline_touch (s : State) (now k : Nat) : OnlyCampaigns s (s.takeDeadline now k) := by
  unfold State.takeDeadline
  split
  · exact .refl s
  · split
    · split
      · exact s.endCampaign_touch _ _ _
      · exact s.endCampaign_touch _ _ _
    · exact .refl s

theorem State.takeStart_touch (s : State) (now k : Nat) : OnlyCampaigns s (s.takeStart now k) := by
  unfold State.takeStart
  split
  · exact .refl s
  · split
    · exact s.activate_touch k
    · exact .refl s

theorem State.timeReached_touch (s : State) (now : Nat) : OnlyCampaigns s (s.timeReached now) :=
  (OnlyCampaigns.foldl _ (fun t k => t.takeDeadline_touch now k) allSlots s).trans
    (OnlyCampaigns.foldl _ (fun t k => t.takeStart_touch now k) allSlots _)

theorem OnlyCampaigns.slots {s t : State} (h : OnlyCampaigns s t) :
    t.campaigns.table.map Campaign.slot = s.campaigns.table.map Campaign.slot := by
  have := congrArg (List.map Prod.fst) h.table
  rw [List.map_map, List.map_map] at this
  exact this

theorem OnlyCampaigns.rising {s t : State} (h : OnlyCampaigns s t) (hu : InOrder Campaign.slot s.campaigns.table) :
    InOrder Campaign.slot t.campaigns.table :=
  InOrder.of_map (by rw [h.slots]; exact hu.map_lt)

end Sys2Proof.Machine
end

