-- ==== Sys2Proof/Laws/Roster.lean ====
section
/-! SUPPORT. What the roster unit's operations can do: reports, the threshold and the attention count touch the roster and
the notice queue alone, and no set of slots. -/

namespace Sys2Proof.Machine

theorem OnlyRoster.refl (s : State) : OnlyRoster s s := ⟨rfl, rfl, rfl, rfl, rfl, rfl, rfl, .refl _, rfl, rfl, rfl⟩

theorem OnlyRoster.trans {s t u : State} (h : OnlyRoster s t) (g : OnlyRoster t u) : OnlyRoster s u :=
  ⟨g.pending.trans h.pending, g.free.trans h.free, g.pins.trans h.pins, g.campaigns.trans h.campaigns,
    g.line.trans h.line, g.clock.trans h.clock, g.store.trans h.store, h.link.trans g.link, g.segments.trans h.segments,
    g.locked.trans h.locked, g.noticesOn.trans h.noticesOn⟩

theorem OnlyRoster.of_setEntries (s : State) (l : List Entry) : OnlyRoster s (s.setEntries l) :=
  ⟨rfl, rfl, rfl, rfl, rfl, rfl, rfl, .refl _, rfl, rfl, rfl⟩

theorem OnlyRoster.of_updateEntry (s : State) (u : Nat) (f : Entry → Entry) : OnlyRoster s (s.updateEntry u f) :=
  ⟨rfl, rfl, rfl, rfl, rfl, rfl, rfl, .refl _, rfl, rfl, rfl⟩

theorem OnlyRoster.of_notify (s : State) (n : Notice) : OnlyRoster s (s.notify n) :=
  ⟨by simp, by simp, by simp, by simp, by simp, by simp, by simp, s.notify_grows n, by simp, by simp, by simp⟩

/-- The attention count after an update, with the entries as they stood (R24). -/
theorem State.updateAttention_roster (s : State) :
    s.updateAttention.roster = { s.roster with attention := (flagged s.roster.entries).length } := by
  unfold State.updateAttention
  dsimp only
  split
  · split <;> simp
  · rfl

theorem State.updateAttention_touch (s : State) : OnlyRoster s s.updateAttention := by
  unfold State.updateAttention
  dsimp only
  have h : OnlyRoster s (s.setRoster { s.roster with attention := (flagged s.roster.entries).length }) :=
    ⟨rfl, rfl, rfl, rfl, rfl, rfl, rfl, .refl _, rfl, rfl, rfl⟩
  split
  · split
    · exact h.trans (.of_notify _ _)
    · exact h
  · exact h

theorem State.contact_touch (s : State) (u : Nat) (ch : Phase) (x : Extra) : OnlyRoster s (s.contact u ch x) := by
  unfold State.contact
  split
  · exact .refl s
  · exact (OnlyRoster.of_updateEntry s _ _).trans (State.updateAttention_touch _)

theorem State.miss_touch (s : State) (u : Nat) (mark : Bool) : OnlyRoster s (s.miss u mark) := by
  unfold State.miss
  split
  · exact .refl s
  · exact (OnlyRoster.of_updateEntry s _ _).trans (State.updateAttention_touch _)

theorem State.setThreshold_touch (s : State) (n : Nat) : OnlyRoster s (s.setThreshold n) := by
  unfold State.setThreshold
  dsimp only
  have h : OnlyRoster s (s.setRoster { s.roster with threshold := n }) :=
    ⟨rfl, rfl, rfl, rfl, rfl, rfl, rfl, .refl _, rfl, rfl, rfl⟩
  split
  · exact (h.trans (.of_setEntries _ _)).trans (State.updateAttention_touch _)
  · exact h

/-! ## Sets of slots -/

/-- What the campaign controller owns in an entry, with the entry's key (R48). -/
def Entry.sets (e : Entry) : Nat × List Nat × List Nat := (e.unit, e.pending, e.tried)

theorem Entry.contacted_sets (e : Entry) (ch : Phase) (x : Extra) (now : Option Nat) : (e.contacted ch x now).sets = e.sets := by
  unfold Entry.contacted Entry.applyExtra Entry.learnPhase Entry.heard
  cases x <;> cases e.phase <;> rfl

theorem Entry.countMiss_sets (e : Entry) (n : Nat) : (e.countMiss n).sets = e.sets := by
  unfold Entry.countMiss; dsimp only; split <;> rfl

theorem Entry.markRouteFault_sets (e : Entry) (m : Bool) : (e.markRouteFault m).sets = e.sets := by
  unfold Entry.markRouteFault; split <;> rfl

theorem State.missed_sets (s : State) (e : Entry) (m : Bool) : (s.missed e m).sets = e.sets := by
  unfold State.missed
  split
  · rw [Entry.markRouteFault_sets, Entry.countMiss_sets]
  · dsimp only
    split
    · rw [Entry.markRouteFault_sets, Entry.countMiss_sets]; rfl
    · rw [Entry.markRouteFault_sets]; rfl

theorem Entry.underThreshold_sets (e : Entry) (n : Nat) : (e.underThreshold n).sets = e.sets := by
  unfold Entry.underThreshold; split <;> rfl

theorem map_sets {f : Entry → Entry} (hf : ∀ e, (f e).sets = e.sets) (l : List Entry) :
    (l.map f).map Entry.sets = l.map Entry.sets := by
  rw [List.map_map]; exact List.map_congr_left (fun e _ => hf e)

theorem updateBy_sets {f : Entry → Entry} (hf : ∀ e, (f e).sets = e.sets) (u : Nat) (l : List Entry) :
    (updateBy Entry.unit u f l).map Entry.sets = l.map Entry.sets := by
  refine map_sets (fun e => ?_) l
  split
  · exact hf e
  · rfl

@[simp] theorem State.updateAttention_entries (s : State) : s.updateAttention.roster.entries = s.roster.entries := by
  rw [State.updateAttention_roster]

theorem State.contact_sets (s : State) (u : Nat) (ch : Phase) (x : Extra) :
    (s.contact u ch x).roster.entries.map Entry.sets = s.roster.entries.map Entry.sets := by
  unfold State.contact
  split
  · rfl
  · rw [State.updateAttention_entries]
    exact updateBy_sets (fun e => e.contacted_sets ch x _) u _

theorem State.miss_sets (s : State) (u : Nat) (mark : Bool) :
    (s.miss u mark).roster.entries.map Entry.sets = s.roster.entries.map Entry.sets := by
  unfold State.miss
  split
  · rfl
  · rw [State.updateAttention_entries]
    exact updateBy_sets (fun e => s.missed_sets e mark) u _

theorem State.setThreshold_sets (s : State) (n : Nat) :
    (s.setThreshold n).roster.entries.map Entry.sets = s.roster.entries.map Entry.sets := by
  unfold State.setThreshold
  dsimp only
  split
  · rw [State.updateAttention_entries]
    exact map_sets (fun e => e.underThreshold_sets n) _
  · rfl

end Sys2Proof.Machine
end

