-- ==== Sys2Proof/Laws/Accounts.lean ====
section
/-! SUPPORT. The account of R47 and the set laws of R48 through the operations of the campaign controller: settling one
receiver, ending a campaign, ending passes, opening an account, supersession and drops. -/

namespace Sys2Proof.Machine

/-! ## Counting pending entries -/

theorem pendingAt_map {k : Nat} {f : Entry → Entry} {l : List Entry}
    (h : ∀ e ∈ l, (k ∈ (f e).pending ↔ k ∈ e.pending)) : pendingAt k (l.map f) = pendingAt k l := by
  unfold pendingAt
  rw [List.filter_map, List.length_map]
  congr 1
  apply List.filter_congr
  intro e he
  simp only [Function.comp, List.contains_eq_mem, decide_eq_decide]
  exact h e he

theorem pendingAt_zero {k : Nat} {l : List Entry} (h : ∀ e ∈ l, k ∉ e.pending) : pendingAt k l = 0 := by
  unfold pendingAt
  rw [List.length_eq_zero_iff, List.filter_eq_nil_iff]
  intro e he
  simpa using h e he

theorem pendingAt_eq_zero {k : Nat} {l : List Entry} (h : pendingAt k l = 0) : ∀ e ∈ l, k ∉ e.pending := by
  unfold pendingAt at h
  rw [List.length_eq_zero_iff, List.filter_eq_nil_iff] at h
  intro e he
  simpa using h e he

@[simp] theorem pendingAt_nil (k : Nat) : pendingAt k [] = 0 := rfl

theorem pendingAt_cons (k : Nat) (e : Entry) (l : List Entry) :
    pendingAt k (e :: l) = (if k ∈ e.pending then 1 else 0) + pendingAt k l := by
  unfold pendingAt
  by_cases h : k ∈ e.pending <;> simp [h]
  omega

/-- A change of the entries that takes one slot out of some pending sets lowers its count by the number taken. -/
theorem pendingAt_remove {k : Nat} {f : Entry → Entry} {p : Entry → Bool} {l : List Entry}
    (hp : ∀ e ∈ l, p e = true → k ∈ e.pending ∧ k ∉ (f e).pending)
    (hn : ∀ e ∈ l, p e = false → (k ∈ (f e).pending ↔ k ∈ e.pending)) :
    pendingAt k (l.map f) + (l.filter p).length = pendingAt k l := by
  induction l with
  | nil => rfl
  | cons e r ih =>
    have ih' := ih (fun x hx => hp x (List.mem_cons_of_mem _ hx)) (fun x hx => hn x (List.mem_cons_of_mem _ hx))
    rw [List.map_cons, pendingAt_cons, pendingAt_cons, List.filter_cons]
    cases hpe : p e
    · have h := hn e List.mem_cons_self hpe
      simp only [h, Bool.false_eq_true, if_false]
      omega
    · have h := hp e List.mem_cons_self hpe
      simp only [h.1, h.2, if_true, if_false, List.length_cons]
      omega

/-- A change that puts one slot into the pending sets of the entries chosen, where none held it, counts those. -/
theorem pendingAt_insert {k : Nat} {f : Entry → Entry} {p : Entry → Bool} {l : List Entry}
    (h : ∀ e ∈ l, (k ∈ (f e).pending ↔ p e = true)) : pendingAt k (l.map f) = (l.filter p).length := by
  induction l with
  | nil => rfl
  | cons e r ih =>
    rw [List.map_cons, pendingAt_cons, List.filter_cons, ih (fun x hx => h x (List.mem_cons_of_mem _ hx))]
    have he := h e List.mem_cons_self
    cases hpe : p e
    · simp [hpe] at he; simp [he]
    · simp [hpe] at he; simp [he]; omega

theorem filter_unit_length {u : Nat} {l : List Entry} (h : InOrder Entry.unit l) {e : Entry} (he : e ∈ l)
    (hu : e.unit = u) : (l.filter (fun x => x.unit == u)).length = 1 := by
  induction l with
  | nil => cases he
  | cons a r ih =>
    have ha := List.pairwise_cons.mp h
    rw [List.filter_cons]
    rcases List.mem_cons.mp he with rfl | he'
    · have : r.filter (fun x => x.unit == u) = [] := by
        rw [List.filter_eq_nil_iff]
        intro x hx
        have := ha.1 x hx
        simp only [beq_iff_eq]
        omega
      simp [hu, this]
    · have hne : a.unit ≠ u := by have := ha.1 e he'; omega
      simp only [beq_eq_false_iff_ne.mpr hne, Bool.false_eq_true, if_false]
      exact ih ha.2 he'

/-! ## What the account depends on -/

theorem map_units_of_sets {l m : List Entry} (h : l.map Entry.sets = m.map Entry.sets) :
    l.map Entry.unit = m.map Entry.unit := by
  have := congrArg (List.map Prod.fst) h
  rwa [List.map_map, List.map_map] at this

theorem exists_of_sets {l m : List Entry} (h : l.map Entry.sets = m.map Entry.sets) {e : Entry} (he : e ∈ l) :
    ∃ d ∈ m, d.sets = e.sets := by
  have : e.sets ∈ m.map Entry.sets := h ▸ List.mem_map.mpr ⟨e, he, rfl⟩
  obtain ⟨d, hd, hs⟩ := List.mem_map.mp this
  exact ⟨d, hd, hs⟩

theorem pendingAt_of_sets {l m : List Entry} (h : l.map Entry.sets = m.map Entry.sets) (k : Nat) :
    pendingAt k l = pendingAt k m := by
  induction l generalizing m with
  | nil => cases m with
    | nil => rfl
    | cons _ _ => cases h
  | cons a r ih =>
    cases m with
    | nil => cases h
    | cons b q =>
      rw [List.map_cons, List.map_cons] at h
      injection h with h1 h2
      have hp : a.pending = b.pending := congrArg (fun x => x.2.1) h1
      rw [pendingAt_cons, pendingAt_cons, ih h2, hp]

/-- The account sees entries through their sets alone. -/
theorem Accounts.of_sets {table : List Campaign} {l m : List Entry} (h : Accounts table m)
    (hs : l.map Entry.sets = m.map Entry.sets) : Accounts table l where
  units := InOrder.of_map (by rw [map_units_of_sets hs]; exact h.units.map_lt)
  slots := h.slots
  records := fun c hc =>
    let b := h.records c hc
    ⟨fun hl => by rw [b.outstanding hl, pendingAt_of_sets hs], b.targets, b.reasons, b.unopened, b.broadcast⟩
  entries := fun e he => by
    obtain ⟨d, hd, hsd⟩ := exists_of_sets hs he
    have hp : d.pending = e.pending := congrArg (fun x => x.2.1) hsd
    have ht : d.tried = e.tried := congrArg (fun x => x.2.2) hsd
    have b := h.entries d hd
    exact ⟨hp ▸ b.order, by rw [← hp, ← ht]; exact b.tried, by rw [← hp]; exact b.owed⟩

/-- A pending slot names a campaign of the table, the only one of its slot. -/
theorem Accounts.campaign_of_pending {table : List Campaign} {l : List Entry} (h : Accounts table l) {e : Entry}
    (he : e ∈ l) {k : Nat} (hk : k ∈ e.pending) :
    ∃ c, findBy Campaign.slot k table = some c ∧ c ∈ table ∧ c.slot = k ∧ c.state.active = true ∧ c.mode = .confirmed := by
  obtain ⟨c, hc, hs, ha, hm⟩ := (h.entries e he).owed k hk
  exact ⟨c, hs ▸ h.slots.findBy_of_mem hc, hc, hs, ha, hm⟩

/-- The general step: the entries are rewritten by `f` and the campaign of slot `k` by `g`, and only slot `k` changes in
any set. -/
theorem Accounts.rewrite {table : List Campaign} {l : List Entry} {k : Nat} {f : Entry → Entry} {g : Campaign → Campaign}
    (h : Accounts table l)
    (funit : ∀ e ∈ l, (f e).unit = e.unit)
    (forder : ∀ e ∈ l, (f e).pending.Pairwise (· < ·))
    (ftried : ∀ e ∈ l, ∀ j ∈ (f e).tried, j ∈ (f e).pending)
    (fother : ∀ e ∈ l, ∀ j, j ≠ k → (j ∈ (f e).pending ↔ j ∈ e.pending))
    (gslot : ∀ c ∈ table, c.slot = k → (g c).slot = k)
    (grecord : ∀ c ∈ table, c.slot = k → (g c).Balanced (l.map f))
    (gowed : ∀ e ∈ l, k ∈ (f e).pending → ∃ c ∈ table, c.slot = k ∧ (g c).state.active = true ∧ (g c).mode = .confirmed) :
    Accounts (updateBy Campaign.slot k g table) (l.map f) where
  units := InOrder.of_map (by
    have : (l.map f).map Entry.unit = l.map Entry.unit := by
      rw [List.map_map]; exact List.map_congr_left (fun e he => funit e he)
    rw [this]; exact h.units.map_lt)
  slots := updateBy_inOrder (fun c hc hs => gslot c hc hs) h.slots
  records := fun c hc => by
    rcases mem_updateBy.mp hc with ⟨a, ha, hs, rfl⟩ | ⟨ha, hs⟩
    · exact grecord a ha hs
    · have b := h.records c ha
      refine ⟨fun hl => ?_, b.targets, b.reasons, b.unopened, b.broadcast⟩
      rw [b.outstanding hl, pendingAt_map (fun e he => fother e he c.slot hs)]
  entries := fun e he => by
    obtain ⟨d, hd, rfl⟩ := List.mem_map.mp he
    refine ⟨forder d hd, ftried d hd, fun j hj => ?_⟩
    by_cases hjk : j = k
    · subst hjk
      obtain ⟨c, hc, hs, ha, hm⟩ := gowed d hd hj
      exact ⟨g c, mem_updateBy.mpr (.inl ⟨c, hc, hs, rfl⟩), gslot c hc hs, ha, hm⟩
    · have hj' := (fother d hd j hjk).mp hj
      obtain ⟨c, hc, hs, ha, hm⟩ := (h.entries d hd).owed j hj'
      exact ⟨c, mem_updateBy.mpr (.inr ⟨hc, by omega⟩), hs, ha, hm⟩

/-! ## Records -/

/-- A record whose account and host's fields are kept, and which stays in the same half of its life, stays balanced. -/
theorem Campaign.Balanced.of_same {l : List Entry} {c d : Campaign} (h : c.Balanced l) (hslot : d.slot = c.slot)
    (hmode : d.mode = c.mode) (hcounts : d.counts = c.counts) (hreason : d.byReason = c.byReason)
    (htargets : d.targets = c.targets) (hlive : d.state.live = true → c.state.live = true)
    (hopen : d.state = .waiting ∨ d.state = .preparing → c.state = .waiting ∨ c.state = .preparing) : d.Balanced l where
  outstanding := fun x => by rw [hcounts, hslot]; exact h.outstanding (hlive x)
  targets := fun x n hn => by rw [hcounts]; exact h.targets (hmode ▸ x) n (htargets ▸ hn)
  reasons := by rw [hcounts, hreason]; exact h.reasons
  unopened := fun x => by rw [hcounts, hreason, htargets]; exact h.unopened (hopen x)
  broadcast := fun x => by rw [hcounts]; exact h.broadcast (hmode ▸ x)

theorem active_live {v : CampaignState} (h : v.active = true) : v.live = true := by cases v <;> simp_all [CampaignState.active, CampaignState.live]

/-- A campaign's record alone is rewritten, its account kept and its activity with it. -/
theorem Accounts.update {table : List Campaign} {l : List Entry} {k : Nat} {g : Campaign → Campaign}
    (h : Accounts table l)
    (gslot : ∀ c ∈ table, c.slot = k → (g c).slot = k)
    (grecord : ∀ c ∈ table, c.slot = k → c.Balanced l → (g c).Balanced l)
    (gactive : ∀ c ∈ table, c.slot = k → c.state.active = true → c.mode = .confirmed →
      (g c).state.active = true ∧ (g c).mode = .confirmed) :
    Accounts (updateBy Campaign.slot k g table) l := by
  have := h.rewrite (k := k) (f := id) (g := g) (fun _ _ => rfl) (fun e he => (h.entries e he).order)
    (fun e he => (h.entries e he).tried) (fun _ _ _ _ => Iff.rfl) gslot
    (fun c hc hs => by rw [List.map_id]; exact grecord c hc hs (h.records c hc))
    (fun e he hk => by
      obtain ⟨c, hc, hs, ha, hm⟩ := (h.entries e he).owed k hk
      obtain ⟨h1, h2⟩ := gactive c hc hs ha hm
      exact ⟨c, hc, hs, h1, h2⟩)
  rwa [List.map_id] at this

/-! ## Settling one receiver -/

/-- A column of R47 rises by one, a refusal with its reason. -/
structure Column (f : Campaign → Campaign) : Prop where
  slot        : ∀ c, (f c).slot = c.slot
  state       : ∀ c, (f c).state = c.state
  mode        : ∀ c, (f c).mode = c.mode
  targets     : ∀ c, (f c).targets = c.targets
  outstanding : ∀ c, (f c).counts.outstanding = c.counts.outstanding
  sum         : ∀ c, (f c).counts.applied + (f c).counts.declined + (f c).counts.refused + (f c).counts.superseded
    + (f c).counts.dropped
    = c.counts.applied + c.counts.declined + c.counts.refused + c.counts.superseded + c.counts.dropped + 1
  reasons     : ∀ c, c.counts.refused = c.byReason.total → (f c).counts.refused = (f c).byReason.total

theorem addApplied_column : Column Campaign.addApplied :=
  ⟨fun _ => rfl, fun _ => rfl, fun _ => rfl, fun _ => rfl, fun _ => rfl,
    fun c => by simp only [Campaign.addApplied]; omega, fun _ h => h⟩

theorem addDeclined_column : Column Campaign.addDeclined :=
  ⟨fun _ => rfl, fun _ => rfl, fun _ => rfl, fun _ => rfl, fun _ => rfl,
    fun c => by simp only [Campaign.addDeclined]; omega, fun _ h => h⟩

theorem addDropped_column : Column Campaign.addDropped :=
  ⟨fun _ => rfl, fun _ => rfl, fun _ => rfl, fun _ => rfl, fun _ => rfl,
    fun c => by simp only [Campaign.addDropped]; omega, fun _ h => h⟩

theorem addRefused_column (r : Reason) : Column (Campaign.addRefused r) :=
  ⟨fun _ => rfl, fun _ => rfl, fun _ => rfl, fun _ => rfl, fun _ => rfl,
    fun c => by simp only [Campaign.addRefused]; omega,
    fun c h => by
      cases r <;> simp only [Campaign.addRefused, RefusedCounts.add, RefusedCounts.total] at * <;> omega⟩

theorem State.entry_some {s : State} {u : Nat} {e : Entry} (h : s.entry u = some e) : e ∈ s.roster.entries ∧ e.unit = u :=
  findBy_some h

/-- Settling a receiver at which the slot is pending keeps the account (R47). -/
theorem State.settleReceiver_balanced {s : State} (h : s.Balanced) {k u : Nat} {e : Entry} (he : s.entry u = some e)
    (hk : k ∈ e.pending) {f : Campaign → Campaign} (hf : Column f) : (s.settleReceiver k u f).Balanced := by
  have h : Accounts s.campaigns.table s.roster.entries := h
  have hm := State.entry_some he
  obtain ⟨c, -, hc, hs, ha, hmode⟩ := h.campaign_of_pending hm.1 hk
  show Accounts (updateBy Campaign.slot k _ s.campaigns.table)
    (s.roster.entries.map (fun e => if e.unit = u then e.release k else e))
  have hone : ∀ x ∈ s.roster.entries, x.unit = u → k ∈ x.pending := by
    intro x hx hu
    rw [h.units.eq_of_key hx hm.1 (hu.trans hm.2.symm)]; exact hk
  have hcount : pendingAt k (s.roster.entries.map (fun e => if e.unit = u then e.release k else e)) + 1
      = pendingAt k s.roster.entries := by
    rw [← filter_unit_length h.units hm.1 hm.2]
    refine pendingAt_remove (fun x hx hp => ?_) (fun x hx hp => ?_)
    · have hu : x.unit = u := by simpa using hp
      refine ⟨hone x hx hu, ?_⟩
      rw [if_pos hu]; simp [Entry.release]
    · have hu : x.unit ≠ u := by simpa using hp
      rw [if_neg hu]
  refine h.rewrite (fun x hx => ?_) (fun x hx => ?_) (fun x hx j hj => ?_) (fun x hx j hj => ?_)
    (fun d hd hds => ?_) (fun d hd hds => ?_) (fun x hx hkx => ?_)
  · split <;> rfl
  · split
    · exact removeNat_rising (h.entries x hx).order
    · exact (h.entries x hx).order
  · split at hj
    · rename_i hu
      rw [if_pos hu]
      have hj' := mem_removeNat.mp hj
      exact mem_removeNat.mpr ⟨(h.entries x hx).tried j hj'.1, hj'.2⟩
    · rename_i hu
      rw [if_neg hu]; exact (h.entries x hx).tried j hj
  · split
    · simp [Entry.release, hj]
    · exact Iff.rfl
  · exact (hf.slot d).trans hds
  · have b := h.records d hd
    have hdc : d = c := h.slots.eq_of_key hd hc (hds.trans hs.symm)
    subst hdc
    have hout := b.outstanding (active_live ha)
    rw [hds] at hout
    have hsum := hf.sum d
    have hfo := hf.outstanding d
    refine ⟨fun _ => ?_, fun _ n hn => ?_, hf.reasons d b.reasons, fun hx => ?_, fun hx => ?_⟩
    · show (f d).counts.outstanding - 1 = pendingAt (f d).slot _
      rw [hf.slot d, hds, hfo]; omega
    · have := b.targets hmode n ((hf.targets d).symm.trans hn)
      show n = (f d).counts.applied + (f d).counts.declined + (f d).counts.refused + (f d).counts.superseded
        + (f d).counts.dropped + ((f d).counts.outstanding - 1)
      omega
    · have hx' : d.state = .waiting ∨ d.state = .preparing := by rw [← hf.state d]; exact hx
      rcases hx' with hx' | hx' <;> rw [hx'] at ha <;> cases ha
    · have : d.mode = .broadcast := (hf.mode d).symm.trans hx
      rw [this] at hmode; cases hmode
  · refine ⟨c, hc, hs, ?_, ?_⟩
    · show (f c).state.active = true
      rw [hf.state c]; exact ha
    · show (f c).mode = .confirmed
      rw [hf.mode c]; exact hmode

/-! ## The end of a campaign -/

theorem State.notify_balanced {s : State} (h : s.Balanced) (n : Notice) : (s.notify n).Balanced := by
  show Accounts (s.notify n).campaigns.table (s.notify n).roster.entries
  rw [State.notify_campaigns, State.notify_roster]; exact h

theorem Entry.release_settled {table : List Campaign} {e : Entry} (h : e.Settled table) (k : Nat) :
    (e.release k).pending.Pairwise (· < ·) ∧ ∀ j ∈ (e.release k).tried, j ∈ (e.release k).pending := by
  refine ⟨removeNat_rising h.order, fun j hj => ?_⟩
  have hj' := mem_removeNat.mp hj
  exact mem_removeNat.mpr ⟨h.tried j hj'.1, hj'.2⟩

/-- A campaign's end in a terminal state keeps the account (R69). -/
theorem State.endCampaign_balanced {s : State} (h : s.Balanced) (k : Nat) {v : CampaignState} (hv : v.live = false)
    (r : EndReason) : (s.endCampaign k v r).Balanced := by
  have h : Accounts s.campaigns.table s.roster.entries := h
  unfold State.endCampaign
  split
  · exact h
  · split
    · dsimp only
      apply State.notify_balanced
      have key : Accounts (updateBy Campaign.slot k (fun d => d.ended v r s.clock.time) s.campaigns.table)
          (s.roster.entries.map (fun e => e.release k)) := by
        refine h.rewrite (fun _ _ => rfl) (fun e he => (Entry.release_settled (h.entries e he) k).1)
          (fun e he => (Entry.release_settled (h.entries e he) k).2) (fun e he j hj => ?_) (fun d _ hd => hd)
          (fun d hd hds => ?_) (fun e he hk => ?_)
        · simp [Entry.release, hj]
        · have b := h.records d hd
          refine ⟨fun hl => ?_, b.targets, b.reasons, fun hx => ?_, b.broadcast⟩
          · have : v.live = true := hl
            rw [hv] at this; cases this
          · have hx' : v = .waiting ∨ v = .preparing := hx
            rcases hx' with hx' | hx' <;> rw [hx'] at hv <;> cases hv
        · exact absurd hk (by simp [Entry.release])
      split
      · exact key
      · exact key
    · exact h

theorem State.completeIfSettled_balanced {s : State} (h : s.Balanced) (k : Nat) (r : EndReason) :
    (s.completeIfSettled k r).Balanced := by
  unfold State.completeIfSettled
  split
  · split
    · exact State.endCampaign_balanced h k rfl r
    · exact h
  · exact h

/-! ## The end of a pass and of a round -/

theorem State.clearTried_balanced {s : State} (h : s.Balanced) (k : Nat) : (s.clearTried k).Balanced := by
  have h : Accounts s.campaigns.table s.roster.entries := h
  show Accounts s.campaigns.table (s.roster.entries.map (fun e => { e with tried := removeNat k e.tried }))
  have := h.rewrite (k := k) (f := fun e => { e with tried := removeNat k e.tried }) (g := id) (fun _ _ => rfl)
    (fun e he => (h.entries e he).order)
    (fun e he j hj => (h.entries e he).tried j (mem_removeNat.mp hj).1) (fun _ _ _ _ => Iff.rfl) (fun _ _ hs => hs)
    (fun c hc hs => by
      have b := h.records c hc
      refine ⟨fun hl => ?_, b.targets, b.reasons, b.unopened, b.broadcast⟩
      have hp : pendingAt c.slot (s.roster.entries.map (fun e => { e with tried := removeNat k e.tried }))
          = pendingAt c.slot s.roster.entries := pendingAt_map (fun _ _ => Iff.rfl)
      exact (b.outstanding hl).trans hp.symm)
    (fun e he hk => (h.entries e he).owed k hk)
  have hid : updateBy Campaign.slot k id s.campaigns.table = s.campaigns.table := by
    unfold updateBy
    simp
  rwa [hid] at this

theorem State.updateCampaign_balanced {s : State} (h : s.Balanced) {k : Nat} {g : Campaign → Campaign}
    (gslot : ∀ c ∈ s.campaigns.table, c.slot = k → (g c).slot = k)
    (grecord : ∀ c ∈ s.campaigns.table, c.slot = k → c.Balanced s.roster.entries → (g c).Balanced s.roster.entries)
    (gactive : ∀ c ∈ s.campaigns.table, c.slot = k → c.state.active = true → c.mode = .confirmed →
      (g c).state.active = true ∧ (g c).mode = .confirmed) : (s.updateCampaign k g).Balanced :=
  Accounts.update h gslot grecord gactive

theorem State.runPasses_balanced : ∀ (n k : Nat) {s : State}, s.Balanced → (State.runPasses n k s).Balanced
  | 0, _, _, h => h
  | n + 1, k, s, h => by
    unfold State.runPasses
    split
    · exact h
    · split
      · exact h
      · split
        · split
          · refine State.runPasses_balanced n k (State.updateCampaign_balanced (State.clearTried_balanced h k)
              (fun _ _ hs => hs) (fun c _ _ b => ?_) (fun _ _ _ ha hm => ⟨ha, hm⟩))
            exact ⟨b.outstanding, b.targets, b.reasons, b.unopened, b.broadcast⟩
          · exact State.endCampaign_balanced h k rfl _
        · exact h

theorem State.examinePass_balanced {s : State} (h : s.Balanced) (k : Nat) : (s.examinePass k).Balanced :=
  State.runPasses_balanced 17 k h

/-- A fold of operations that keep the account keeps it. -/
theorem foldl_balanced {β : Type} (f : State → β → State) (step : ∀ {s : State} (b : β), s.Balanced → (f s b).Balanced) :
    ∀ (l : List β) {s : State}, s.Balanced → (l.foldl f s).Balanced
  | [], _, h => h
  | b :: rest, _, h => foldl_balanced f step rest (step b h)

theorem State.examineSilenced_balanced {s : State} (h : s.Balanced) (l : List Nat) : (s.examineSilenced l).Balanced := by
  refine foldl_balanced _ (fun k ht => ?_) l h
  split
  · split
    · exact State.examinePass_balanced ht k
    · exact ht
  · exact ht

/-- The campaign found in a slot is the only record of that slot. -/
theorem State.Balanced.record_of_slot {s : State} (h : s.Balanced) {k : Nat} {c d : Campaign} (hc : s.campaign k = some c)
    (hd : d ∈ s.campaigns.table) (hk : d.slot = k) : d = c :=
  InOrder.eq_of_key (h : Accounts _ _).slots hd (State.campaign_some hc).1 (hk.trans (State.campaign_some hc).2.symm)

theorem State.examineRound_balanced {s : State} (h : s.Balanced) (k : Nat) : (s.examineRound k).Balanced := by
  unfold State.examineRound
  split
  · exact h
  · rename_i c hc
    split
    · rename_i a b interval r hterms hrun
      split
      · rename_i hcond
        split
        · exact State.endCampaign_balanced h k rfl _
        · refine State.updateCampaign_balanced h (fun _ _ hs => hs) (fun d hd hds b => ?_) (fun d hd hds _ hm => ?_)
          · refine ⟨fun _ => b.outstanding ?_, b.targets, b.reasons, fun hx => ?_, b.broadcast⟩
            · rw [h.record_of_slot hc hd hds, hcond.1]; rfl
            · rcases hx with hx | hx <;> cases hx
          · rw [h.record_of_slot hc hd hds] at hm
            simp [Campaign.mode, hterms] at hm
      · exact h
    · exact h

/-! ## What drops leave pending -/

/-- Between two moments only slot `k` left sets: units are kept, nothing is added, and every other slot stays. -/
def Releases (k : Nat) (s t : State) : Prop :=
  ∃ f : Entry → Entry, t.roster.entries = s.roster.entries.map f ∧ (∀ e, (f e).unit = e.unit)
    ∧ (∀ e j, j ∈ (f e).pending → j ∈ e.pending) ∧ (∀ e j, j ≠ k → j ∈ e.pending → j ∈ (f e).pending)

theorem Releases.refl (k : Nat) (s : State) : Releases k s s := ⟨id, by simp, fun _ => rfl, fun _ _ h => h, fun _ _ _ h => h⟩

theorem Releases.of_entries {k : Nat} {s t : State} (h : t.roster.entries = s.roster.entries) : Releases k s t :=
  ⟨id, by simp [h], fun _ => rfl, fun _ _ h => h, fun _ _ _ h => h⟩

theorem Releases.trans {k : Nat} {s t u : State} (h : Releases k s t) (g : Releases k t u) : Releases k s u := by
  obtain ⟨f, f1, f2, f3, f4⟩ := h
  obtain ⟨m, m1, m2, m3, m4⟩ := g
  refine ⟨m ∘ f, by rw [m1, f1, List.map_map], fun e => (m2 _).trans (f2 e), fun e j hj => f3 e j (m3 _ j hj),
    fun e j hk hj => m4 _ j hk (f4 e j hk hj)⟩

theorem State.releaseAll_releases (s : State) (k : Nat) : Releases k s (s.releaseAll k) :=
  ⟨fun e => e.release k, rfl, fun _ => rfl, fun _ _ hj => (mem_removeNat.mp hj).1, fun _ _ hk hj => mem_removeNat.mpr ⟨hj, hk⟩⟩

theorem State.endCampaign_releases (s : State) (k : Nat) (v : CampaignState) (r : EndReason) :
    Releases k s (s.endCampaign k v r) := by
  unfold State.endCampaign
  split
  · exact .refl k s
  · split
    · dsimp only
      refine .trans (State.releaseAll_releases s k) (.of_entries ?_)
      rw [State.notify_roster]
      split <;> rfl
    · exact .refl k s

theorem State.completeIfSettled_releases (s : State) (k : Nat) (r : EndReason) : Releases k s (s.completeIfSettled k r) := by
  unfold State.completeIfSettled
  split
  · split
    · exact s.endCampaign_releases k _ _
    · exact .refl k s
  · exact .refl k s

theorem State.runPasses_releases : ∀ (n k : Nat) (s : State), Releases k s (State.runPasses n k s)
  | 0, k, s => .refl k s
  | n + 1, k, s => by
    unfold State.runPasses
    split
    · exact .refl k s
    · split
      · exact .refl k s
      · split
        · split
          · refine .trans ?_ (State.runPasses_releases n k _)
            exact ⟨fun e => { e with tried := removeNat k e.tried }, rfl, fun _ => rfl, fun _ _ h => h, fun _ _ _ h => h⟩
          · exact s.endCampaign_releases k _ _
        · exact .refl k s

theorem State.settleReceiver_releases (s : State) (k u : Nat) (f : Campaign → Campaign) :
    Releases k s (s.settleReceiver k u f) := by
  refine ⟨fun e => if e.unit = u then e.release k else e, rfl, fun e => ?_, fun e j hj => ?_, fun e j hk hj => ?_⟩ <;> dsimp only at *
  · split <;> rfl
  · split at hj
    · exact (mem_removeNat.mp hj).1
    · exact hj
  · split
    · exact mem_removeNat.mpr ⟨hj, hk⟩
    · exact hj

theorem State.dropFrom_releases (s : State) (u k : Nat) : Releases k s (s.dropFrom u k) :=
  ((s.settleReceiver_releases k u _).trans (State.completeIfSettled_releases _ k _)).trans
    (State.runPasses_releases 17 k _)

theorem findBy_map_unit {f : Entry → Entry} (hf : ∀ e, (f e).unit = e.unit) (u : Nat) (l : List Entry) :
    findBy Entry.unit u (l.map f) = (findBy Entry.unit u l).map f := by
  unfold findBy
  rw [List.find?_map]
  congr 1
  apply congrArg (fun p => List.find? p l)
  funext e
  simp [hf e]

/-- The entry of a unit after a release: what it keeps pending. -/
theorem Releases.entry {k : Nat} {s t : State} (h : Releases k s t) {u : Nat} {e : Entry} (he : s.entry u = some e) :
    ∃ d, t.entry u = some d ∧ (∀ j, j ∈ d.pending → j ∈ e.pending) ∧ (∀ j, j ≠ k → j ∈ e.pending → j ∈ d.pending) := by
  obtain ⟨f, f1, f2, f3, f4⟩ := h
  refine ⟨f e, ?_, f3 e, f4 e⟩
  unfold State.entry at he ⊢
  rw [f1, findBy_map_unit f2, he]
  rfl

/-- A receiver dropped from a campaign pending at it keeps the account; the slot leaves its pending set, and no other
does (R71). -/
theorem State.dropFrom_balanced {s : State} (h : s.Balanced) {u k : Nat} {e : Entry} (he : s.entry u = some e)
    (hk : k ∈ e.pending) : (s.dropFrom u k).Balanced ∧
    ∃ d, (s.dropFrom u k).entry u = some d ∧ k ∉ d.pending ∧ (∀ j, j ∈ d.pending → j ∈ e.pending)
      ∧ (∀ j, j ≠ k → j ∈ e.pending → j ∈ d.pending) := by
  have h1 := State.settleReceiver_balanced h he hk addDropped_column
  refine ⟨State.examinePass_balanced (State.completeIfSettled_balanced h1 k .settled) k, ?_⟩
  have hs : (s.settleReceiver k u Campaign.addDropped).entry u = some (e.release k) := by
    have hm := State.entry_some he
    unfold State.entry at he ⊢
    show findBy Entry.unit u (s.roster.entries.map (fun e => if e.unit = u then e.release k else e)) = _
    rw [findBy_map_unit (fun e => by split <;> rfl), he]
    simp [hm.2]
  have hr := (State.completeIfSettled_releases (s.settleReceiver k u Campaign.addDropped) k .settled).trans
    (State.runPasses_releases 17 k _)
  obtain ⟨d, hd, h3, h4⟩ := hr.entry hs
  refine ⟨d, hd, fun hx => ?_, fun j hj => (mem_removeNat.mp (h3 j hj)).1, fun j hjk hj => h4 j hjk (mem_removeNat.mpr ⟨hj, hjk⟩)⟩
  exact absurd (h3 k hx) (by simp [Entry.release])

/-- A receiver dropped from a list of campaigns pending at it, each once. -/
theorem State.dropAll_balanced : ∀ (l : List Nat) {s : State} {u : Nat} {e : Entry}, s.Balanced → s.entry u = some e →
    l.Nodup → (∀ k ∈ l, k ∈ e.pending) →
    (l.foldl (fun t k => t.dropFrom u k) s).Balanced ∧
    ∃ d, (l.foldl (fun t k => t.dropFrom u k) s).entry u = some d ∧ ∀ j, j ∈ d.pending → j ∈ e.pending ∧ j ∉ l
  | [], s, u, e, h, he, _, _ => ⟨h, e, he, fun j hj => ⟨hj, by simp⟩⟩
  | k :: rest, s, u, e, h, he, hn, hp => by
    obtain ⟨hb, d, hd, hk, h3, h4⟩ := State.dropFrom_balanced h he (hp k List.mem_cons_self)
    have hn' := List.nodup_cons.mp hn
    obtain ⟨hb', d', hd', h5⟩ := State.dropAll_balanced rest hb hd hn'.2 (fun j hj =>
      h4 j (fun x => hn'.1 (x ▸ hj)) (hp j (List.mem_cons_of_mem _ hj)))
    refine ⟨hb', d', hd', fun j hj => ?_⟩
    obtain ⟨h6, h7⟩ := h5 j hj
    refine ⟨h3 j h6, fun hx => ?_⟩
    rcases List.mem_cons.mp hx with rfl | hx
    · exact hk h6
    · exact h7 hx

theorem nodup_of_rising {l : List Nat} (h : l.Pairwise (· < ·)) : l.Nodup :=
  h.imp (fun hab => Nat.ne_of_lt hab)

/-- A dropped receiver keeps the account, and nothing is pending at it afterwards (R71). -/
theorem State.dropReceiver_balanced {s : State} (h : s.Balanced) (u : Nat) : (s.dropReceiver u).Balanced ∧
    ∀ d, (s.dropReceiver u).entry u = some d → d.pending = [] := by
  unfold State.dropReceiver
  split
  · rename_i hn
    exact ⟨h, fun d hd => absurd hd (by rw [hn]; simp)⟩
  · rename_i e he
    have hm := State.entry_some he
    obtain ⟨hb, d, hd, h1⟩ := State.dropAll_balanced e.pending h he
      (nodup_of_rising ((h : Accounts _ _).entries e hm.1).order) (fun _ hk => hk)
    refine ⟨hb, fun d' hd' => ?_⟩
    have hdd : d' = d := by rw [hd] at hd'; exact (Option.some.inj hd').symm
    subst hdd
    refine List.eq_nil_iff_forall_not_mem.mpr (fun j hj => ?_)
    exact (h1 j hj).2 (h1 j hj).1

/-! ## Activation -/

/-- Opening the account of a campaign that has not opened it yet (R56, R57). -/
theorem State.openAccount_balanced {s : State} (h : s.Balanced) {k : Nat} {c : Campaign} (hc : s.campaign k = some c)
    (hw : c.state = .waiting ∨ c.state = .preparing) : (s.openAccount k).Balanced := by
  have h : Accounts s.campaigns.table s.roster.entries := h
  have hm := State.campaign_some hc
  have hone : ∀ d ∈ s.campaigns.table, d.slot = k → d = c := fun d hd hk => h.slots.eq_of_key hd hm.1 (hk.trans hm.2.symm)
  have hb := h.records c hm.1
  obtain ⟨-, hcounts, hreasons⟩ := hb.unopened hw
  have hzero : pendingAt k s.roster.entries = 0 := by
    have := hb.outstanding (by rcases hw with hw | hw <;> rw [hw] <;> rfl)
    rw [hcounts, hm.2] at this
    exact this.symm
  have hnone := pendingAt_eq_zero hzero
  unfold State.openAccount
  rw [hc]
  dsimp only
  split
  · rename_i limit hterms
    show Accounts (updateBy Campaign.slot k _ s.campaigns.table) (s.roster.entries.map _)
    refine h.rewrite (fun e he => ?_) (fun e he => ?_) (fun e he j hj => ?_) (fun e he j hj => ?_) (fun d _ hd => hd)
      (fun d hd hds => ?_) (fun e he hk => ?_)
    · split <;> rfl
    · split
      · exact insertNat_rising (h.entries e he).order
      · exact (h.entries e he).order
    · split at hj
      · rename_i hcond
        rw [if_pos hcond]
        exact mem_insertNat.mpr (.inr ((h.entries e he).tried j hj))
      · rename_i hcond
        rw [if_neg hcond]
        exact (h.entries e he).tried j hj
    · split
      · simp [hj]
      · exact Iff.rfl
    · rw [hone d hd hds]
      have hlen : (s.openMembers c.target).length
          = pendingAt k (s.roster.entries.map (fun e =>
            if c.target.names e && !s.barred e then { e with pending := insertNat k e.pending } else e)) := by
        rw [pendingAt_insert (p := fun e => c.target.names e && !s.barred e) (fun e he => ?_)]
        · unfold State.openMembers State.members
          rw [List.filter_filter]
          congr 1
          apply List.filter_congr
          intro e _
          exact Bool.and_comm _ _
        · by_cases hcond : (c.target.names e && !s.barred e) = true
          · rw [if_pos hcond]; simp [hcond]
          · rw [if_neg hcond]; simp [hnone e he]
            intro h1; simpa [h1] using hcond
      refine ⟨fun _ => ?_, fun _ n hn => ?_, ?_, fun hx => ?_, fun hx => ?_⟩
      · show (s.openMembers c.target).length = pendingAt c.slot _
        rw [hlen, hm.2]
      · have : n = (s.openMembers c.target).length := (Option.some.inj hn).symm
        show n = c.counts.applied + c.counts.declined + c.counts.refused + c.counts.superseded + c.counts.dropped
          + (s.openMembers c.target).length
        rw [hcounts]; simp [this]
      · show c.counts.refused = c.byReason.total
        rw [hcounts, hreasons]; rfl
      · rcases hx with hx | hx <;> cases hx
      · simp [Campaign.mode, hterms] at hx
    · refine ⟨c, hm.1, hm.2, rfl, ?_⟩
      simp [Campaign.mode, hterms]
  · rename_i a b interval hterms
    show Accounts (updateBy Campaign.slot k _ s.campaigns.table) s.roster.entries
    refine h.update (fun d _ hd => hd) (fun d hd hds b => ?_) (fun d hd hds _ hmode => ?_)
    · rw [hone d hd hds] at b ⊢
      refine ⟨fun _ => ?_, fun hx => ?_, b.reasons, fun hx => ?_, fun _ => ?_⟩
      · show c.counts.outstanding = _
        exact b.outstanding (by rcases hw with hw | hw <;> rw [hw] <;> rfl)
      · simp [Campaign.mode, hterms] at hx
      · rcases hx with hx | hx <;> cases hx
      · show c.counts.outstanding = 0
        rw [hcounts]
    · rw [hone d hd hds] at hmode
      simp [Campaign.mode, hterms] at hmode

/-- Giving up shared receivers to a newer campaign (R58). -/
theorem State.overtake_balanced {s : State} (h : s.Balanced) (old new : Nat) : (s.overtake old new).Balanced := by
  unfold State.overtake
  dsimp only
  split
  · exact h
  · rename_i hne
    have h : Accounts s.campaigns.table s.roster.entries := h
    refine State.examinePass_balanced (State.completeIfSettled_balanced ?_ old .overtaken) old
    obtain ⟨e0, he0⟩ := List.exists_mem_of_ne_nil _ hne
    obtain ⟨he0m, he0p⟩ := List.mem_filter.mp he0
    simp only [Bool.and_eq_true, List.contains_eq_mem, decide_eq_true_eq] at he0p
    obtain ⟨c, -, hc, hs, ha, hmode⟩ := h.campaign_of_pending he0m he0p.2
    show Accounts (updateBy Campaign.slot old _ s.campaigns.table) (s.roster.entries.map _)
    have hcount := pendingAt_remove (k := old) (l := s.roster.entries)
      (f := fun e => if e.pending.contains new && e.pending.contains old then e.release old else e)
      (p := fun e => e.pending.contains new && e.pending.contains old)
      (fun e he hp => ⟨by simp at hp; exact hp.2, by rw [if_pos hp]; simp [Entry.release]⟩)
      (fun e he hp => by rw [if_neg (by rw [hp]; exact Bool.false_ne_true)])
    refine h.rewrite (fun e he => ?_) (fun e he => ?_) (fun e he j hj => ?_) (fun e he j hj => ?_) (fun d _ hd => hd)
      (fun d hd hds => ?_) (fun e he hk => ⟨c, hc, hs, ha, hmode⟩)
    · split <;> rfl
    · split
      · exact removeNat_rising (h.entries e he).order
      · exact (h.entries e he).order
    · split at hj
      · rename_i hcond
        rw [if_pos hcond]
        exact (Entry.release_settled (h.entries e he) old).2 j hj
      · rename_i hcond
        rw [if_neg hcond]
        exact (h.entries e he).tried j hj
    · split
      · simp [Entry.release, hj]
      · exact Iff.rfl
    · have hdc : d = c := h.slots.eq_of_key hd hc (hds.trans hs.symm)
      subst hdc
      have b := h.records d hd
      have hout := b.outstanding (active_live ha)
      rw [hds] at hout
      refine ⟨fun _ => ?_, fun _ n hn => ?_, b.reasons, fun hx => ?_, fun hx => ?_⟩
      · show d.counts.outstanding - (s.roster.entries.filter (fun e => e.pending.contains new && e.pending.contains old)).length
          = pendingAt d.slot _
        rw [hds]; omega
      · have := b.targets hmode n hn
        show n = d.counts.applied + d.counts.declined + d.counts.refused + (d.counts.superseded
          + (s.roster.entries.filter (fun e => e.pending.contains new && e.pending.contains old)).length)
          + d.counts.dropped + (d.counts.outstanding
          - (s.roster.entries.filter (fun e => e.pending.contains new && e.pending.contains old)).length)
        omega
      · have hx' : d.state = .waiting ∨ d.state = .preparing := hx
        rcases hx' with hx' | hx' <;> rw [hx'] at ha <;> cases ha
      · have : d.mode = .broadcast := hx
        rw [this] at hmode; cases hmode

theorem State.supersede_balanced {s : State} (h : s.Balanced) (k : Nat) : (s.supersede k).Balanced := by
  unfold State.supersede
  split
  · exact h
  · split
    · exact h
    · refine foldl_balanced _ (fun j ht => ?_) _ h
      unfold State.supersedeOne
      split
      · exact ht
      · split
        · split
          · exact State.overtake_balanced ht _ _
          · exact ht
          · split
            · exact State.endCampaign_balanced ht _ rfl _
            · exact ht
        · exact ht

theorem State.checkWork_balanced {s : State} (h : s.Balanced) (k : Nat) : (s.checkWork k).Balanced := by
  unfold State.checkWork
  split
  · exact h
  · split
    · exact State.endCampaign_balanced h _ rfl _
    · split
      · exact State.endCampaign_balanced h _ rfl _
      · exact h

/-- Entry into RUNNING keeps the account (R55). -/
theorem State.enterRunning_balanced {s : State} (h : s.Balanced) {k : Nat} {c : Campaign} (hc : s.campaign k = some c)
    (hw : c.state = .waiting ∨ c.state = .preparing) : (s.enterRunning k).Balanced :=
  State.checkWork_balanced (State.supersede_balanced (State.openAccount_balanced h hc hw) k) k

theorem State.campaign_update {s : State} {k : Nat} {g : Campaign → Campaign} (hg : ∀ c, c.slot = k → (g c).slot = k) :
    (s.updateCampaign k g).campaign k = (s.campaign k).map g :=
  findBy_updateBy_same hg

/-- Activation of a WAITING campaign keeps the account (R53, R54). -/
theorem State.activate_balanced {s : State} (h : s.Balanced) {k : Nat} {c : Campaign} (hc : s.campaign k = some c)
    (hw : c.state = .waiting) : (s.activate k).Balanced := by
  unfold State.activate
  rw [hc]
  dsimp only
  have h1 : (s.updateCampaign k (fun d => { d with activatedAt := s.clock.time })).Balanced :=
    State.updateCampaign_balanced h (fun _ _ hs => hs)
      (fun _ _ _ b => ⟨b.outstanding, b.targets, b.reasons, b.unopened, b.broadcast⟩) (fun _ _ _ ha hm => ⟨ha, hm⟩)
  have hc1 := State.campaign_update (s := s) (k := k) (g := fun d => { d with activatedAt := s.clock.time }) (fun _ hs => hs)
  rw [hc] at hc1
  split
  · have h2 : ((s.updateCampaign k (fun d => { d with activatedAt := s.clock.time })).updateCampaign k
        (fun d => { d with state := .preparing })).Balanced := by
      refine State.updateCampaign_balanced h1 (fun _ _ hs => hs) (fun d hd hds b => ?_) (fun d hd hds ha _ => ?_)
      · have hdc := h1.record_of_slot hc1 hd hds
        have hdw : d.state = .waiting := by rw [hdc]; exact hw
        exact ⟨fun _ => b.outstanding (by rw [hdw]; rfl), b.targets, b.reasons, fun _ => b.unopened (.inl hdw), b.broadcast⟩
      · have hdc := h1.record_of_slot hc1 hd hds
        have hdw : d.state = .waiting := by rw [hdc]; exact hw
        rw [hdw] at ha; cases ha
    exact h2
  · exact State.enterRunning_balanced h1 hc1 (.inl hw)

/-- Taking a line time keeps the account (R73). -/
theorem State.timeReached_balanced {s : State} (h : s.Balanced) (now : Nat) : (s.timeReached now).Balanced := by
  refine foldl_balanced _ (fun k ht => ?_) _ (foldl_balanced _ (fun k ht => ?_) _ h)
  · unfold State.takeStart
    split
    · exact ht
    · rename_i c hc
      split
      · rename_i hcond
        exact State.activate_balanced ht hc hcond.1
      · exact ht
  · unfold State.takeDeadline
    split
    · exact ht
    · split
      · split
        · exact State.endCampaign_balanced ht _ rfl _
        · exact State.endCampaign_balanced ht _ rfl _
      · exact ht

end Sys2Proof.Machine
end

