-- ==== Sys2Proof/Laws/Slots.lean ====
section
/-! SUPPORT. What an operation of the campaign controller on one slot can do: every other slot keeps its campaign and its
places in the sets of the roster, and the operations that only end campaigns, passes or rounds move no count. -/

namespace Sys2Proof.Machine

/-! ## One slot -/

/-- Between two moments only slot `k` changed: every other slot keeps its campaign, and entries differ in their sets for
slot `k` alone, where nothing became pending. -/
structure OnlySlot (k : Nat) (s t : State) : Prop where
  others  : ∀ j, j ≠ k → t.campaign j = s.campaign j
  entries : ∃ f : Entry → Entry, t.roster.entries = s.roster.entries.map f ∧ ∀ e, (f e).forgetSlots = e.forgetSlots
    ∧ (∀ j, j ≠ k → (j ∈ (f e).pending ↔ j ∈ e.pending) ∧ (j ∈ (f e).tried ↔ j ∈ e.tried))
    ∧ (k ∈ (f e).pending → k ∈ e.pending)

/-- The campaign of slot `k` keeps its counts, its host's fields, its targets, its snapshot, its broadcast work except for
rounds, and everything once it is terminal. -/
structure Unsettled (k : Nat) (s t : State) : Prop where
  present : ∀ c, s.campaign k = some c → ∃ d, t.campaign k = some d ∧ d.counts = c.counts ∧ d.byReason = c.byReason
    ∧ d.hostFields = c.hostFields ∧ d.targets = c.targets ∧ d.snapshot = c.snapshot ∧ d.activatedAt = c.activatedAt
    ∧ (c.state.live = false → d = c) ∧ (c.state.active = false → d.state.active = false)
  absent : s.campaign k = none → t.campaign k = none

theorem OnlySlot.refl (k : Nat) (s : State) : OnlySlot k s s :=
  ⟨fun _ _ => rfl, id, by simp, fun _ => ⟨rfl, fun _ _ => ⟨Iff.rfl, Iff.rfl⟩, id⟩⟩

theorem OnlySlot.trans {k : Nat} {s t u : State} (h : OnlySlot k s t) (g : OnlySlot k t u) : OnlySlot k s u where
  others := fun j hj => (g.others j hj).trans (h.others j hj)
  entries := by
    obtain ⟨f, f1, f2⟩ := h.entries
    obtain ⟨m, m1, m2⟩ := g.entries
    refine ⟨m ∘ f, by rw [m1, f1, List.map_map], fun e => ⟨(m2 _).1.trans (f2 e).1, fun j hj => ?_, fun hk => ?_⟩⟩
    · exact ⟨((m2 _).2.1 j hj).1.trans ((f2 e).2.1 j hj).1, ((m2 _).2.1 j hj).2.trans ((f2 e).2.1 j hj).2⟩
    · exact (f2 e).2.2 ((m2 _).2.2 hk)

theorem Unsettled.refl (k : Nat) (s : State) : Unsettled k s s :=
  ⟨fun c hc => ⟨c, hc, rfl, rfl, rfl, rfl, rfl, rfl, fun _ => rfl, id⟩, id⟩

theorem Unsettled.trans {k : Nat} {s t u : State} (h : Unsettled k s t) (g : Unsettled k t u) : Unsettled k s u where
  absent := fun hn => g.absent (h.absent hn)
  present := fun c hc => by
    obtain ⟨d, hd, h1, h2, h3, h4, h5, h6, h7, h8⟩ := h.present c hc
    obtain ⟨e, he, g1, g2, g3, g4, g5, g6, g7, g8⟩ := g.present d hd
    refine ⟨e, he, g1.trans h1, g2.trans h2, g3.trans h3, g4.trans h4, g5.trans h5, g6.trans h6, fun hl => ?_,
      fun ha => g8 (h8 ha)⟩
    have hdc := h7 hl
    subst hdc
    exact g7 hl

/-- An operation that keeps the campaigns and the entries. -/
theorem OnlySlot.of_same {s t : State} (k : Nat) (hc : t.campaigns.table = s.campaigns.table)
    (he : t.roster.entries = s.roster.entries) : OnlySlot k s t :=
  ⟨fun j _ => by unfold State.campaign; rw [hc], id, by simp [he], fun _ => ⟨rfl, fun _ _ => ⟨Iff.rfl, Iff.rfl⟩, id⟩⟩

/-- A change of the record of slot `k`. -/
theorem OnlySlot.of_updateCampaign (s : State) (k : Nat) {f : Campaign → Campaign}
    (hf : ∀ c : Campaign, c.slot = k → (f c).slot = k) : OnlySlot k s (s.updateCampaign k f) :=
  ⟨fun _ hj => findBy_updateBy_other hf hj, id, (List.map_id _).symm,
    fun _ => ⟨rfl, fun _ _ => ⟨Iff.rfl, Iff.rfl⟩, id⟩⟩

theorem Entry.release_at (e : Entry) (k : Nat) : k ∉ (e.release k).pending ∧ k ∉ (e.release k).tried :=
  ⟨fun h => (mem_removeNat.mp h).2 rfl, fun h => (mem_removeNat.mp h).2 rfl⟩

theorem Entry.release_other (e : Entry) {j k : Nat} (hj : j ≠ k) :
    (j ∈ (e.release k).pending ↔ j ∈ e.pending) ∧ (j ∈ (e.release k).tried ↔ j ∈ e.tried) :=
  ⟨⟨fun h => (mem_removeNat.mp h).1, fun h => mem_removeNat.mpr ⟨h, hj⟩⟩,
    ⟨fun h => (mem_removeNat.mp h).1, fun h => mem_removeNat.mpr ⟨h, hj⟩⟩⟩

theorem State.releaseAll_only (s : State) (k : Nat) : OnlySlot k s (s.releaseAll k) :=
  ⟨fun _ _ => rfl, fun e => e.release k, rfl, fun e => ⟨rfl, fun _ hj => e.release_other hj,
    fun h => absurd h (e.release_at k).1⟩⟩

/-! ## The end of a campaign -/

/-- What the end of a live campaign does, and that it does nothing else (R69). -/
theorem State.endCampaign_live {s : State} {k : Nat} {c : Campaign} (hc : s.campaign k = some c)
    (hl : c.state.live = true) (v : CampaignState) (r : EndReason) :
    (s.endCampaign k v r).campaign k = some (c.ended v r s.clock.time)
      ∧ (s.endCampaign k v r).roster.entries = s.roster.entries.map (fun e => e.release k)
      ∧ ∀ j, j ≠ k → (s.endCampaign k v r).campaign j = s.campaign j := by
  have hf : ∀ d : Campaign, d.slot = k → (d.ended v r s.clock.time).slot = k := fun _ h => h
  have hcu := State.campaign_update (s := s) hf
  rw [hc] at hcu
  unfold State.endCampaign
  rw [hc]
  dsimp only
  rw [if_pos hl]
  refine ⟨?_, ?_, fun j hj => ?_⟩
  · unfold State.campaign at hcu ⊢
    rw [State.notify_campaigns]
    split <;> exact hcu
  · rw [State.notify_roster]
    split <;> rfl
  · have ho := (OnlySlot.of_updateCampaign s k hf).others j hj
    unfold State.campaign at ho ⊢
    rw [State.notify_campaigns]
    split <;> exact ho

/-- A slot without a live campaign has none that could end. -/
theorem State.endCampaign_dead {s : State} {k : Nat} (h : ∀ c, s.campaign k = some c → c.state.live = false)
    (v : CampaignState) (r : EndReason) : s.endCampaign k v r = s := by
  unfold State.endCampaign
  split
  · rfl
  · rename_i c hc
    rw [if_neg (by simp [h c hc])]

theorem State.endCampaign_only (s : State) (k : Nat) (v : CampaignState) (r : EndReason) :
    OnlySlot k s (s.endCampaign k v r) := by
  cases hc : s.campaign k with
  | none => rw [State.endCampaign_dead (fun c h => by rw [hc] at h; cases h)]; exact .refl k s
  | some c =>
    cases hl : c.state.live with
    | false =>
      rw [State.endCampaign_dead (fun d h => by rw [hc] at h; injection h with h; subst h; exact hl)]; exact .refl k s
    | true =>
      obtain ⟨-, h2, h3⟩ := State.endCampaign_live hc hl v r
      exact ⟨h3, fun e => e.release k, h2, fun e => ⟨rfl, fun _ hj => e.release_other hj,
        fun h => absurd h (e.release_at k).1⟩⟩

theorem State.endCampaign_unsettled (s : State) (k : Nat) {v : CampaignState} (hv : v.active = false) (r : EndReason) :
    Unsettled k s (s.endCampaign k v r) := by
  cases hc : s.campaign k with
  | none => rw [State.endCampaign_dead (fun c h => by rw [hc] at h; cases h)]; exact .refl k s
  | some c =>
    cases hl : c.state.live with
    | false =>
      rw [State.endCampaign_dead (fun d h => by rw [hc] at h; injection h with h; subst h; exact hl)]; exact .refl k s
    | true =>
      obtain ⟨h1, -, -⟩ := State.endCampaign_live hc hl v r
      refine ⟨fun d hd => ?_, fun hn => by rw [hc] at hn; cases hn⟩
      rw [hc] at hd
      injection hd with hd
      subst hd
      exact ⟨_, h1, rfl, rfl, rfl, rfl, rfl, rfl, (fun h => by rw [hl] at h; cases h), fun _ => hv⟩

theorem State.completeIfSettled_only (s : State) (k : Nat) (r : EndReason) : OnlySlot k s (s.completeIfSettled k r) := by
  unfold State.completeIfSettled
  split
  · split
    · exact s.endCampaign_only k _ _
    · exact .refl k s
  · exact .refl k s

theorem State.completeIfSettled_unsettled (s : State) (k : Nat) (r : EndReason) :
    Unsettled k s (s.completeIfSettled k r) := by
  unfold State.completeIfSettled
  split
  · split
    · exact s.endCampaign_unsettled k rfl _
    · exact .refl k s
  · exact .refl k s

/-! ## Passes and rounds -/

theorem State.clearTried_only (s : State) (k : Nat) : OnlySlot k s (s.clearTried k) :=
  ⟨fun _ _ => rfl, fun e => { e with tried := removeNat k e.tried }, rfl, fun e => ⟨rfl, fun _ hj =>
    ⟨Iff.rfl, (e.release_other hj).2⟩, id⟩⟩

theorem State.runPasses_only : ∀ (n k : Nat) (s : State), OnlySlot k s (State.runPasses n k s)
  | 0, k, s => .refl k s
  | n + 1, k, s => by
    unfold State.runPasses
    split
    · exact .refl k s
    · split
      · exact .refl k s
      · split
        · split
          · refine .trans ?_ (State.runPasses_only n k _)
            exact (s.clearTried_only k).trans (OnlySlot.of_updateCampaign _ k (fun _ h => h))
          · exact s.endCampaign_only k _ _
        · exact .refl k s

theorem State.runPasses_unsettled : ∀ (n k : Nat) (s : State), Unsettled k s (State.runPasses n k s)
  | 0, k, s => .refl k s
  | n + 1, k, s => by
    unfold State.runPasses
    split
    · exact .refl k s
    · rename_i c hc
      split
      · exact .refl k s
      · split
        · rename_i hp
          split
          · refine .trans ?_ (State.runPasses_unsettled n k _)
            have hf : ∀ d : Campaign, d.slot = k → ({ d with pass := some (c.pass.getD 1 + 1) } : Campaign).slot = k :=
              fun _ h => h
            have hu := State.campaign_update (s := s.clearTried k) hf
            refine ⟨fun d hd => ?_, fun hn => by rw [hc] at hn; cases hn⟩
            have hd' : (s.clearTried k).campaign k = some d := hd
            rw [hd'] at hu
            have hdc : d = c := by rw [hc] at hd; exact (Option.some.inj hd).symm
            subst hdc
            have hr : d.state = .running := by
              unfold State.passEnded at hp
              simp only [Bool.and_eq_true, decide_eq_true_iff] at hp
              exact hp.1.1.1
            exact ⟨_, hu, rfl, rfl, rfl, rfl, rfl, rfl, (fun h => by rw [hr] at h; cases h),
              (fun h => by rw [hr] at h; cases h)⟩
          · exact s.endCampaign_unsettled k rfl _
        · exact .refl k s

theorem State.examinePass_only (s : State) (k : Nat) : OnlySlot k s (s.examinePass k) := State.runPasses_only 17 k s

theorem State.examinePass_unsettled (s : State) (k : Nat) : Unsettled k s (s.examinePass k) :=
  State.runPasses_unsettled 17 k s

theorem State.examineRound_only (s : State) (k : Nat) : OnlySlot k s (s.examineRound k) := by
  unfold State.examineRound
  split
  · exact .refl k s
  · split
    · split
      · split
        · exact s.endCampaign_only k _ _
        · exact OnlySlot.of_updateCampaign s k (fun _ h => h)
      · exact .refl k s
    · exact .refl k s

/-! ## Drops and supersession -/

theorem State.settleReceiver_only (s : State) (k u : Nat) {f : Campaign → Campaign} (hf : ∀ c, (f c).slot = c.slot) :
    OnlySlot k s (s.settleReceiver k u f) := by
  refine .trans (t := s.updateEntry u (fun e => e.release k)) ?_ (OnlySlot.of_updateCampaign _ k (fun c h => (hf c).trans h))
  refine ⟨fun _ _ => rfl, fun e => if e.unit = u then e.release k else e, rfl, fun e => ?_⟩
  dsimp only
  split
  · exact ⟨rfl, fun _ hj => e.release_other hj, fun h => absurd h (e.release_at k).1⟩
  · exact ⟨rfl, fun _ _ => ⟨Iff.rfl, Iff.rfl⟩, id⟩

theorem State.dropFrom_only (s : State) (u k : Nat) : OnlySlot k s (s.dropFrom u k) := by
  unfold State.dropFrom
  refine .trans ?_ (State.examinePass_only _ k)
  refine .trans ?_ (State.completeIfSettled_only _ k _)
  exact s.settleReceiver_only k u (fun _ => rfl)

/-- Receivers given up by slot `k`, the record of slot `k` rewritten. -/
theorem OnlySlot.of_giveUp (s : State) (k : Nat) (p : Entry → Bool) {f : Campaign → Campaign}
    (hf : ∀ c : Campaign, c.slot = k → (f c).slot = k) :
    OnlySlot k s ((s.setEntries (s.roster.entries.map (fun e => if p e then e.release k else e))).updateCampaign k f) := by
  refine .trans ?_ (OnlySlot.of_updateCampaign _ k hf)
  refine ⟨fun _ _ => rfl, fun e => if p e then e.release k else e, rfl, fun e => ?_⟩
  dsimp only
  split
  · exact ⟨rfl, fun _ hj => e.release_other hj, fun h => absurd h (e.release_at k).1⟩
  · exact ⟨rfl, fun _ _ => ⟨Iff.rfl, Iff.rfl⟩, id⟩

theorem State.overtake_only (s : State) (old new : Nat) : OnlySlot old s (s.overtake old new) := by
  unfold State.overtake
  dsimp only
  split
  · exact .refl old s
  · refine .trans ?_ (State.examinePass_only _ old)
    refine .trans ?_ (State.completeIfSettled_only _ old _)
    exact OnlySlot.of_giveUp s old _ (fun _ h => h)

/-- Supersession of one older campaign changes that campaign's slot alone. -/
theorem State.supersedeOne_only (s : State) (new : Campaign) (k : Nat) : OnlySlot k s (s.supersedeOne new k) := by
  unfold State.supersedeOne
  split
  · exact .refl k s
  · rename_i c hc
    have hk : c.slot = k := (State.campaign_some hc).2
    split
    · split
      · rw [hk]; exact s.overtake_only k new.slot
      · exact .refl k s
      · split
        · exact s.endCampaign_only k _ _
        · exact .refl k s
    · exact .refl k s

/-- What holds of an entry after an operation on one slot. -/
theorem OnlySlot.entry {k : Nat} {s t : State} (h : OnlySlot k s t) {e : Entry} (he : e ∈ t.roster.entries) :
    ∃ d ∈ s.roster.entries, e.forgetSlots = d.forgetSlots
      ∧ (∀ j, j ≠ k → (j ∈ e.pending ↔ j ∈ d.pending) ∧ (j ∈ e.tried ↔ j ∈ d.tried)) ∧ (k ∈ e.pending → k ∈ d.pending) := by
  obtain ⟨f, f1, f2⟩ := h.entries
  rw [f1, List.mem_map] at he
  obtain ⟨d, hd, rfl⟩ := he
  exact ⟨d, hd, f2 d⟩

end Sys2Proof.Machine
end

