-- ==== Sys2Proof/Laws/Endings.lean ====
section
/-! SUPPORT. The ends of campaigns (R69, R72) through the campaign controller's operations: which slots an operation can end,
in which order, that it hands over their notices and no others, and that it leaves the plan store as it was. -/

namespace Sys2Proof.Machine

/-! ## The notices -/

theorem Link.handed_append (a : Link) (l m : List Notice) : a.handed (l ++ m) = (a.handed l).handed m := List.foldl_append

theorem State.notify_link (s : State) (n : Notice) : (s.notify n).link = s.link.handed [n] := by
  unfold State.notify Link.handed
  by_cases h : s.link.notices.length < 32
  · rw [if_pos (by exact h)]; simp [h]
  · rw [if_neg (by exact h)]; simp [h]

/-! ## Passages that end campaigns -/

theorem State.Concludes.refl (s : State) : s.Concludes s [] where
  notices := rfl
  exact := fun d => by
    refine ⟨fun h => (List.not_mem_nil h).elim, ?_⟩
    rintro ⟨h1, h2, c, h3, h4⟩
    rw [h1] at h3
    injection h3 with h3
    subst h3
    rw [h2] at h4; cases h4
  once := List.nodup_nil
  frozen := fun _ _ h _ => h
  taken := fun _ => rfl

theorem State.Concludes.trans {s t u : State} {l m : List Campaign} (h : s.Concludes t l) (g : t.Concludes u m) :
    s.Concludes u (l ++ m) where
  notices := by rw [g.notices, h.notices, List.map_append, Link.handed_append]
  exact := fun d => by
    rw [List.mem_append]
    constructor
    · rintro (hd | hd)
      · obtain ⟨h1, h2, h3⟩ := (h.exact d).mp hd
        exact ⟨g.frozen _ d h1 h2, h2, h3⟩
      · obtain ⟨h1, h2, c, h3, h4⟩ := (g.exact d).mp hd
        have hs := h.taken d.slot
        rw [h3] at hs
        obtain ⟨b, hb⟩ := Option.isSome_iff_exists.mp hs.symm
        refine ⟨h1, h2, b, hb, ?_⟩
        by_contra hl
        have := h.frozen _ b hb (by simpa using hl)
        rw [h3] at this
        injection this with this
        subst this
        exact hl h4
    · rintro ⟨h1, h2, c, h3, h4⟩
      have hs := h.taken d.slot
      rw [h3] at hs
      obtain ⟨b, hb⟩ := Option.isSome_iff_exists.mp hs
      cases hl : b.state.live with
      | true => exact .inr ((g.exact d).mpr ⟨h1, h2, b, hb, hl⟩)
      | false =>
        have := g.frozen _ b hb hl
        rw [h1] at this
        injection this with this
        subst this
        exact .inl ((h.exact d).mpr ⟨hb, hl, c, h3, h4⟩)
  once := by
    rw [List.map_append, List.nodup_append]
    refine ⟨h.once, g.once, fun a ha b hb he => ?_⟩
    subst he
    obtain ⟨d, hd, rfl⟩ := List.mem_map.mp ha
    obtain ⟨e, he, hk⟩ := List.mem_map.mp hb
    obtain ⟨h1, h2, -⟩ := (h.exact d).mp hd
    obtain ⟨-, -, c, h3, h4⟩ := (g.exact e).mp he
    rw [hk, h1] at h3
    injection h3 with h3
    subst h3
    rw [h2] at h4; cases h4
  frozen := fun k c hc hl => g.frozen k c (h.frozen k c hc hl) hl
  taken := fun k => (g.taken k).trans (h.taken k)

/-- No campaign ended: no notice was handed over, and every record is the same, or live before and after. -/
theorem State.Concludes.of_live {s t : State} (hl : t.link = s.link) (hn : ∀ k, s.campaign k = none → t.campaign k = none)
    (hk : ∀ k c, s.campaign k = some c → ∃ d, t.campaign k = some d ∧ (d = c ∨ (c.state.live = true ∧ d.state.live = true))) :
    s.Concludes t [] where
  notices := hl
  exact := fun d => by
    refine ⟨fun h => (List.not_mem_nil h).elim, ?_⟩
    rintro ⟨h1, h2, c, h3, h4⟩
    obtain ⟨e, he, h5⟩ := hk _ c h3
    rw [h1] at he
    injection he with he
    subst he
    rcases h5 with h5 | ⟨-, h5⟩
    · rw [h5, h4] at h2; cases h2
    · rw [h2] at h5; cases h5
  once := List.nodup_nil
  frozen := fun k c hc hd => by
    obtain ⟨e, he, h5⟩ := hk _ c hc
    rcases h5 with h5 | ⟨h5, -⟩
    · rw [he, h5]
    · rw [hd] at h5; cases h5
  taken := fun k => by
    cases hc : s.campaign k with
    | none => rw [hn k hc]
    | some c => obtain ⟨e, he, -⟩ := hk _ c hc; rw [he]; rfl

/-- A live campaign ends (R69). -/
theorem State.endCampaign_concludes {s : State} {k : Nat} {c : Campaign} (hc : s.campaign k = some c) (hl : c.state.live = true)
    {v : CampaignState} (hv : v.live = false) (r : EndReason) :
    s.Concludes (s.endCampaign k v r) [c.ended v r s.clock.time] := by
  obtain ⟨h1, -, h3⟩ := State.endCampaign_live hc hl v r
  have hk : (c.ended v r s.clock.time).slot = k := (State.campaign_some hc).2
  refine ⟨?_, fun d => ?_, List.nodup_singleton _, fun j e he hd => ?_, fun j => ?_⟩
  · unfold State.endCampaign
    rw [hc]
    dsimp only
    rw [if_pos hl, State.notify_link]
    split <;> rfl
  · rw [List.mem_singleton]
    constructor
    · rintro rfl
      exact ⟨hk.symm ▸ h1, hv, c, hk.symm ▸ hc, hl⟩
    · rintro ⟨g1, g2, e, g3, g4⟩
      by_cases hj : d.slot = k
      · rw [hj, h1] at g1
        exact (Option.some.inj g1).symm
      · rw [h3 _ hj, g3] at g1
        injection g1 with g1
        subst g1
        rw [g2] at g4; cases g4
  · by_cases hj : j = k
    · subst hj
      rw [hc] at he
      injection he with he
      subst he
      rw [hl] at hd; cases hd
    · rw [h3 j hj]; exact he
  · by_cases hj : j = k
    · subst hj; rw [h1, hc]; rfl
    · rw [h3 j hj]

/-- Between two moments the campaigns that ended hold slots of a list, in its order, and ended for reasons of a kind. -/
def Ending (why : EndReason → Prop) (slots : List Nat) (s t : State) : Prop :=
  ∃ l, s.Concludes t l ∧ (l.map Campaign.slot).Sublist slots ∧ ∀ d ∈ l, ∃ r, d.reason = some r ∧ why r

/-- The same, none by its deadline. -/
abbrev Ends (slots : List Nat) (s t : State) : Prop := Ending (· ≠ .deadline) slots s t

section
variable {why : EndReason → Prop}

theorem Ending.of_none {s t : State} (h : s.Concludes t []) (slots : List Nat) : Ending why slots s t :=
  ⟨[], h, List.nil_sublist _, fun _ h => (List.not_mem_nil h).elim⟩

theorem Ending.refl (slots : List Nat) (s : State) : Ending why slots s s := .of_none (.refl s) slots

theorem Ending.trans {a b : List Nat} {s t u : State} (h : Ending why a s t) (g : Ending why b t u) :
    Ending why (a ++ b) s u := by
  obtain ⟨l, h1, h2, h3⟩ := h
  obtain ⟨m, g1, g2, g3⟩ := g
  refine ⟨l ++ m, h1.trans g1, by rw [List.map_append]; exact h2.append g2, fun d hd => ?_⟩
  rcases List.mem_append.mp hd with hd | hd
  · exact h3 d hd
  · exact g3 d hd

theorem Ending.mono {a b : List Nat} {s t : State} (h : Ending why a s t) (hab : a.Sublist b) : Ending why b s t := by
  obtain ⟨l, h1, h2, h3⟩ := h
  exact ⟨l, h1, h2.trans hab, h3⟩

theorem Ending.then_none {a : List Nat} {s t u : State} (h : Ending why a s t) (g : t.Concludes u []) : Ending why a s u := by
  have := h.trans (Ending.of_none g [])
  rwa [List.append_nil] at this

theorem Ending.after_none {a : List Nat} {s t u : State} (h : s.Concludes t []) (g : Ending why a t u) : Ending why a s u :=
  (Ending.of_none h []).trans g

/-- A slot ends at most once. -/
theorem Ending.same {k : Nat} {s t u : State} (h : Ending why [k] s t) (g : Ending why [k] t u) : Ending why [k] s u := by
  obtain ⟨l, h1, h2, h3⟩ := h.trans g
  refine ⟨l, h1, ?_, h3⟩
  have hn := h1.once
  match hm : l.map Campaign.slot with
  | [] => exact List.nil_sublist _
  | [a] =>
    rw [hm] at h2
    have : a ∈ [k] ++ [k] := h2.subset List.mem_cons_self
    simp only [List.cons_append, List.nil_append, List.mem_cons, List.not_mem_nil, or_false, or_self] at this
    rw [this]
  | a :: b :: m =>
    rw [hm] at h2 hn
    have ha : a ∈ [k] ++ [k] := h2.subset List.mem_cons_self
    have hb : b ∈ [k] ++ [k] := h2.subset (List.mem_cons_of_mem _ List.mem_cons_self)
    simp only [List.cons_append, List.nil_append, List.mem_cons, List.not_mem_nil, or_false, or_self] at ha hb
    exact absurd (by rw [ha, hb]; exact List.mem_cons_self) (List.nodup_cons.mp hn).1

/-- A fold of operations that each can end their own slot ends slots in the order of its list. -/
theorem Ending.foldl {f : State → Nat → State} (hf : ∀ s k, Ending why [k] s (f s k)) :
    ∀ (l : List Nat) (s : State), Ending why l s (l.foldl f s)
  | [], s => .refl [] s
  | k :: l, s => (hf s k).trans (Ending.foldl hf l (f s k))

end

theorem Ending.ended {why : EndReason → Prop} {slots : List Nat} {s t : State} (h : Ending why slots s t) :
    ∃ ended, s.Concludes t ended := let ⟨l, h1, _⟩ := h; ⟨l, h1⟩

/-- In a rising list the ends come in ascending slot order. -/
theorem Ending.rising {why : EndReason → Prop} {slots : List Nat} {s t : State} (h : Ending why slots s t)
    (hr : slots.Pairwise (· < ·)) : ∃ ended, s.Concludes t ended ∧ ended.Pairwise (fun a b => a.slot < b.slot) :=
  let ⟨l, h1, h2, _⟩ := h
  ⟨l, h1, List.pairwise_map.mp (hr.sublist h2)⟩

/-! ## Campaigns that go on -/

theorem State.Concludes.of_same {s t : State} (hl : t.link = s.link) (hc : t.campaigns = s.campaigns) : s.Concludes t [] :=
  .of_live hl (fun k h => by unfold State.campaign at h ⊢; rw [hc]; exact h)
    (fun k c h => ⟨c, by unfold State.campaign at h ⊢; rw [hc]; exact h, .inl rfl⟩)

/-- A live campaign's record is rewritten, and it stays live. -/
theorem State.updateCampaign_concludes {s : State} {k : Nat} {f : Campaign → Campaign}
    (hs : ∀ c : Campaign, c.slot = k → (f c).slot = k)
    (hf : ∀ c, s.campaign k = some c → c.state.live = true ∧ (f c).state.live = true) :
    s.Concludes (s.updateCampaign k f) [] := by
  have hu := State.campaign_update (s := s) hs
  have ho := (OnlySlot.of_updateCampaign s k hs).others
  refine .of_live rfl (fun j h => ?_) (fun j c h => ?_)
  · by_cases hj : j = k
    · subst hj; rw [hu, h]; rfl
    · rw [ho j hj]; exact h
  · by_cases hj : j = k
    · subst hj; exact ⟨f c, by rw [hu, h]; rfl, .inr (hf c h)⟩
    · exact ⟨c, by rw [ho j hj]; exact h, .inl rfl⟩

/-- The entries are rewritten with the record of a live campaign, which stays live. -/
theorem State.rewritten_concludes {s : State} {k : Nat} {f : Campaign → Campaign} (l : List Entry)
    (hs : ∀ c : Campaign, c.slot = k → (f c).slot = k)
    (hf : ∀ c, s.campaign k = some c → c.state.live = true ∧ (f c).state.live = true) :
    s.Concludes ((s.setEntries l).updateCampaign k f) [] :=
  State.Concludes.trans (l := []) (.of_same (t := s.setEntries l) rfl rfl) (State.updateCampaign_concludes hs hf)

/-- The plan store may change after it. -/
theorem State.Concludes.setStore {s t : State} {l : List Campaign} (h : s.Concludes t l) (st : Store) :
    s.Concludes (t.setStore st) l := by
  have := h.trans (State.Concludes.of_same (t := t.setStore st) rfl rfl)
  rwa [List.append_nil] at this

/-- The entries may change after it. -/
theorem State.Concludes.setEntries {s t : State} {l : List Campaign} (h : s.Concludes t l) (m : List Entry) :
    s.Concludes (t.setEntries m) l := by
  have := h.trans (State.Concludes.of_same (t := t.setEntries m) rfl rfl)
  rwa [List.append_nil] at this

theorem State.endCampaign_ending {why : EndReason → Prop} (s : State) (k : Nat) {v : CampaignState} (hv : v.live = false)
    {r : EndReason} (hr : why r) : Ending why [k] s (s.endCampaign k v r) := by
  cases hc : s.campaign k with
  | none =>
    rw [State.endCampaign_dead (fun c h => by rw [hc] at h; cases h)]
    exact .refl _ s
  | some c =>
    cases hl : c.state.live with
    | false =>
      rw [State.endCampaign_dead (fun d h => by rw [hc] at h; injection h with h; subst h; exact hl)]
      exact .refl _ s
    | true =>
      refine ⟨_, State.endCampaign_concludes hc hl hv r, ?_, fun d hd => ?_⟩
      · rw [List.map_singleton, show (c.ended v r s.clock.time).slot = k from (State.campaign_some hc).2]
      · rw [List.mem_singleton.mp hd]
        exact ⟨r, rfl, hr⟩

theorem State.completeIfSettled_ends (s : State) (k : Nat) {r : EndReason} (hr : r ≠ .deadline) :
    Ends [k] s (s.completeIfSettled k r) := by
  unfold State.completeIfSettled
  split
  · split
    · exact s.endCampaign_ending k rfl hr
    · exact .refl _ s
  · exact .refl _ s

theorem State.runPasses_ends : ∀ (n k : Nat) (s : State), Ends [k] s (State.runPasses n k s)
  | 0, _, s => .refl _ s
  | n + 1, k, s => by
    unfold State.runPasses
    split
    · exact .refl _ s
    · rename_i c hc
      split
      · exact .refl _ s
      · split
        · rename_i he
          have hr : c.state.live = true := by
            unfold State.passEnded at he
            simp only [Bool.and_eq_true, decide_eq_true_iff] at he
            rw [he.1.1.1]; rfl
          split
          · refine .after_none (t := (s.clearTried k).updateCampaign k (fun d => { d with pass := some (c.pass.getD 1 + 1) }))
              ?_ (State.runPasses_ends n k _)
            refine State.Concludes.trans (l := []) (.of_same (t := s.clearTried k) rfl rfl)
              (State.updateCampaign_concludes (by exact fun _ h => h) fun d hd => ?_)
            have hd : s.campaign k = some d := hd
            rw [hc] at hd
            injection hd with hd
            subst hd
            exact ⟨hr, hr⟩
          · exact s.endCampaign_ending k rfl (by decide)
        · exact .refl _ s

theorem State.examinePass_ends (s : State) (k : Nat) : Ends [k] s (s.examinePass k) := State.runPasses_ends 17 k s

theorem State.examineSilenced_ends (s : State) (l : List Nat) : Ends l s (s.examineSilenced l) := by
  refine Ending.foldl (fun t k => ?_) l s
  split
  · split
    · exact t.examinePass_ends k
    · exact .refl _ t
  · exact .refl _ t

theorem State.examineRound_ends (s : State) (k : Nat) : Ends [k] s (s.examineRound k) := by
  unfold State.examineRound
  split
  · exact .refl _ s
  · rename_i c hc
    split
    · split
      · rename_i h
        split
        · exact s.endCampaign_ending k rfl (by decide)
        · refine .of_none (State.updateCampaign_concludes (by exact fun _ h => h) fun d hd => ?_) _
          rw [hc] at hd
          injection hd with hd
          subst hd
          exact ⟨by rw [h.1]; rfl, rfl⟩
      · exact .refl _ s
    · exact .refl _ s

/-- A live campaign settles a receiver. -/
theorem State.settleReceiver_concludes {s : State} {k : Nat} (hl : ∀ c, s.campaign k = some c → c.state.live = true) (u : Nat)
    {f : Campaign → Campaign} (hf : ∀ c, (f c).slot = c.slot ∧ (f c).state = c.state) :
    s.Concludes (s.settleReceiver k u f) [] := by
  refine State.Concludes.trans (l := []) (.of_same (t := s.updateEntry u (fun e => e.release k)) rfl rfl)
    (State.updateCampaign_concludes (fun c h => (hf c).1.trans h) fun c hc => ?_)
  have := hl c hc
  exact ⟨this, by show (f c).state.live = true; rw [(hf c).2]; exact this⟩

theorem State.dropFrom_ends {s : State} {k : Nat} (hl : ∀ c, s.campaign k = some c → c.state.live = true) (u : Nat) :
    Ends [k] s (s.dropFrom u k) :=
  .same (.after_none (s.settleReceiver_concludes hl u (f := Campaign.addDropped) fun _ => ⟨rfl, rfl⟩)
    (State.completeIfSettled_ends _ k (by decide))) (State.examinePass_ends _ k)

/-- A receiver dropped from live campaigns ends them in the order of their slots. -/
theorem State.dropAll_ends (u : Nat) : ∀ (l : List Nat) {s : State}, l.Nodup →
    (∀ k ∈ l, ∀ c, s.campaign k = some c → c.state.live = true) → Ends l s (l.foldl (fun t k => t.dropFrom u k) s)
  | [], s, _, _ => .refl [] s
  | k :: l, s, hn, h => by
    obtain ⟨hk, hn⟩ := List.nodup_cons.mp hn
    refine Ending.trans (a := [k]) (State.dropFrom_ends (h k List.mem_cons_self) u) (State.dropAll_ends u l hn fun j hj c hc => ?_)
    rw [(s.dropFrom_only u k).others j (fun he => hk (he ▸ hj))] at hc
    exact h j (List.mem_cons_of_mem _ hj) c hc

/-- A pending set names campaigns in RUNNING or HELD alone. -/
theorem State.Balanced.pending_active {s : State} (h : s.Balanced) {e : Entry} (he : e ∈ s.roster.entries) {k : Nat}
    (hk : k ∈ e.pending) {c : Campaign} (hc : s.campaign k = some c) : c.state.active = true := by
  obtain ⟨d, hd, -, -, ha, -⟩ := Accounts.campaign_of_pending h he hk
  have hd : s.campaign k = some d := hd
  rw [hc] at hd
  injection hd with hd
  subst hd
  exact ha

/-- A receiver is dropped: the campaigns that end do so in ascending slot order (R71, R72). -/
theorem State.dropReceiver_ends {s : State} (h : s.Balanced) {u : Nat} {e : Entry} (he : s.entry u = some e) :
    Ends e.pending s (s.dropReceiver u) := by
  unfold State.dropReceiver
  rw [he]
  have hm := (State.entry_some he).1
  exact State.dropAll_ends u _ (nodup_of_rising (h.entries e hm).order) fun k hk c hc =>
    active_live (h.pending_active hm hk hc)

theorem State.dropReceiver_concludes {s : State} (h : s.Balanced) (u : Nat) : ∃ ended, s.Concludes (s.dropReceiver u) ended := by
  cases he : s.entry u with
  | none =>
    refine ⟨[], ?_⟩
    unfold State.dropReceiver
    rw [he]
    exact .refl s
  | some e => exact (State.dropReceiver_ends h he).ended

/-- Receivers dropped one after another end campaigns, each with its notice. -/
theorem State.dropReceivers_concludes : ∀ (l : List Entry) {s : State}, s.Balanced →
    ∃ ended, s.Concludes (l.foldl (fun t e => t.dropReceiver e.unit) s) ended
  | [], s, _ => ⟨[], .refl s⟩
  | e :: l, s, h => by
    obtain ⟨m, hm⟩ := s.dropReceiver_concludes h e.unit
    obtain ⟨n, hn⟩ := State.dropReceivers_concludes l (s.dropReceiver_balanced h e.unit).1
    exact ⟨m ++ n, hm.trans hn⟩

/-! ## Activation -/

theorem State.overtake_ends {s : State} {old : Nat} (hl : ∀ c, s.campaign old = some c → c.state.live = true) (new : Nat) :
    Ends [old] s (s.overtake old new) := by
  unfold State.overtake
  dsimp only
  split
  · exact .refl _ s
  · refine .same (.after_none ?_ (State.completeIfSettled_ends _ old (by decide))) (State.examinePass_ends _ old)
    exact State.rewritten_concludes _ (fun _ h => h) fun c hc => ⟨hl c hc, hl c hc⟩

theorem State.supersedeOne_ends (s : State) (new : Campaign) (k : Nat) : Ends [k] s (s.supersedeOne new k) := by
  unfold State.supersedeOne
  split
  · exact .refl _ s
  · rename_i c hc
    split
    · rename_i h
      split
      · rw [(State.campaign_some hc).2]
        refine State.overtake_ends (fun d hd => ?_) _
        rw [hc] at hd
        injection hd with hd
        subst hd
        exact active_live h.2.1
      · exact .refl _ s
      · split
        · exact s.endCampaign_ending k rfl (by decide)
        · exact .refl _ s
    · exact .refl _ s

theorem State.supersede_ends (s : State) (k : Nat) : Ends allSlots s (s.supersede k) := by
  unfold State.supersede
  split
  · exact .refl _ s
  · split
    · exact .refl _ s
    · exact Ending.foldl (fun t j => t.supersedeOne_ends _ j) allSlots s

theorem State.checkWork_ends (s : State) (k : Nat) : Ends [k] s (s.checkWork k) := by
  unfold State.checkWork
  split
  · exact .refl _ s
  · split
    · exact s.endCampaign_ending k rfl (by decide)
    · split
      · exact s.endCampaign_ending k rfl (by decide)
      · exact .refl _ s

theorem State.openAccount_concludes {s : State} {k : Nat} (hl : ∀ c, s.campaign k = some c → c.state.live = true) :
    s.Concludes (s.openAccount k) [] := by
  unfold State.openAccount
  split
  · exact .refl s
  · dsimp only
    split
    · refine State.Concludes.setEntries ?_ _
      exact State.updateCampaign_concludes (by exact fun _ h => h) fun d hd => ⟨hl d hd, rfl⟩
    · exact State.updateCampaign_concludes (by exact fun _ h => h) fun d hd => ⟨hl d hd, rfl⟩

/-- Entry into RUNNING ends superseded campaigns in ascending slot order, and then perhaps its own (R55, R72). -/
theorem State.enterRunning_ends {s : State} {k : Nat} (hl : ∀ c, s.campaign k = some c → c.state.live = true) :
    Ends (allSlots ++ [k]) s (s.enterRunning k) :=
  .trans (.after_none (State.openAccount_concludes hl) (State.supersede_ends _ k)) (State.checkWork_ends _ k)

theorem allSlots_rising : allSlots.Pairwise (· < ·) := List.pairwise_lt_range

/-- Supersession by a campaign leaves its own slot alone. -/
theorem State.supersede_self {s : State} {k : Nat} {c : Campaign} (hc : s.campaign k = some c) :
    (s.supersede k).campaign k = some c := by
  have hk := (State.campaign_some hc).2
  have key : ∀ (l : List Nat) (t : State), t.campaign k = some c →
      (l.foldl (fun t j => t.supersedeOne c j) t).campaign k = some c := by
    intro l
    induction l with
    | nil => exact fun _ h => h
    | cons j l ih =>
      intro t ht
      refine ih _ ?_
      by_cases hj : k = j
      · subst hj
        show (t.supersedeOne c k).campaign k = _
        unfold State.supersedeOne
        rw [ht]
        dsimp only
        rw [if_neg (fun h => Nat.lt_irrefl _ h.1)]
        exact ht
      · exact ((t.supersedeOne_only c j).others k hj).trans ht
  unfold State.supersede
  rw [hc]
  dsimp only
  split
  · exact hc
  · exact key _ _ hc

theorem State.openAccount_present {s : State} {k : Nat} {c : Campaign} (hc : s.campaign k = some c) :
    ∃ d, (s.openAccount k).campaign k = some d ∧ d.state = .running := by
  unfold State.openAccount
  rw [hc]
  dsimp only
  split
  · refine ⟨_, (State.campaign_update (s := s) (k := k) (g := fun d => { d with
        state := .running, targets := some (s.openMembers c.target).length, pass := some 1
        counts := { d.counts with barred := (s.barredMembers c.target).length
                                  outstanding := (s.openMembers c.target).length } }) (fun _ h => h)).trans (by rw [hc]; rfl), rfl⟩
  · rename_i base _ interval _
    refine ⟨_, (State.campaign_update (s := s) (k := k) (g := fun d => { d with
        state := .running, targets := some (s.openMembers c.target).length
        counts := { d.counts with barred := (s.barredMembers c.target).length }
        run := some ⟨s.targetPhases c.target, loadRemaining (s.targetPhases c.target) base, .const 0,
          interval.map (fun _ => 0)⟩ }) (fun _ h => h)).trans (by rw [hc]; rfl), rfl⟩

/-- Entry into RUNNING brings the ends of an activation. -/
theorem State.enterRunning_activationEnds {s : State} {k : Nat} {c : Campaign} (hc : s.campaign k = some c)
    (hl : c.state.live = true) : s.ActivationEnds (s.enterRunning k) k := by
  obtain ⟨c1, h1, h2⟩ := State.openAccount_present hc
  have ho : s.Concludes (s.openAccount k) [] := State.openAccount_concludes fun d hd => by
    rw [hc] at hd; injection hd with hd; subst hd; exact hl
  obtain ⟨l, g1, g2, g3⟩ := State.supersede_ends (s.openAccount k) k
  obtain ⟨m, e1, e2, e3⟩ := State.checkWork_ends ((s.openAccount k).supersede k) k
  refine ⟨l, m, (ho.trans g1).trans e1, List.pairwise_map.mp (allSlots_rising.sublist g2), fun d hd hk => ?_, fun d hd => ?_⟩
  · obtain ⟨x1, x2, -⟩ := (g1.exact d).mp hd
    rw [hk, State.supersede_self h1] at x1
    injection x1 with x1
    rw [← x1, h2] at x2; cases x2
  · have := e2.subset (List.mem_map_of_mem (f := Campaign.slot) hd)
    exact List.mem_singleton.mp this

theorem State.ActivationEnds.after_none {s t u : State} {k : Nat} (h : s.Concludes t []) (g : t.ActivationEnds u k) :
    s.ActivationEnds u k :=
  let ⟨older, own, h1, h2⟩ := g
  ⟨older, own, h.trans h1, h2⟩

/-- A campaign not yet terminal activates. -/
theorem State.activate_ends {s : State} {k : Nat} (hl : ∀ c, s.campaign k = some c → c.state.live = true) :
    Ends (allSlots ++ [k]) s (s.activate k) := by
  unfold State.activate
  split
  · exact .refl _ s
  · rename_i c hc
    have hu := State.campaign_update (s := s) (k := k) (g := fun d => { d with activatedAt := s.clock.time }) (fun _ h => h)
    have h1 : s.Concludes (s.updateCampaign k (fun d => { d with activatedAt := s.clock.time })) [] :=
      State.updateCampaign_concludes (by exact fun _ h => h) fun d hd => ⟨hl d hd, hl d hd⟩
    have h2 : ∀ d, (s.updateCampaign k (fun d => { d with activatedAt := s.clock.time })).campaign k = some d →
        d.state.live = true := fun d hd => by
      rw [hu, hc] at hd
      injection hd with hd
      subst hd
      exact hl c hc
    dsimp only
    split
    · refine .of_none (State.Concludes.setStore ?_ _) _
      exact h1.trans (State.updateCampaign_concludes (by exact fun _ h => h) fun d hd => ⟨h2 d hd, rfl⟩)
    · exact .after_none h1 (State.enterRunning_ends h2)

theorem State.takeDelivery_ends (s : State) (d : Delivery) : Ends (allSlots ++ [d.slot]) s (s.takeDelivery d) := by
  unfold State.takeDelivery
  split
  · exact .refl _ s
  · rename_i c hc
    split
    · rename_i h
      have hl : ∀ e, (s.withdrawSnapshot d.slot).campaign d.slot = some e → e.state.live = true := fun e he => by
        have he : s.campaign d.slot = some e := he
        rw [hc] at he; injection he with he; subst he; rw [h.1]; rfl
      have h1 : s.Concludes ((s.withdrawSnapshot d.slot).updateCampaign d.slot (fun c => { c with snapshot := some d.plan })) [] :=
        State.Concludes.trans (l := []) (.of_same (t := s.withdrawSnapshot d.slot) rfl rfl)
          (State.updateCampaign_concludes (by exact fun _ h => h) fun e he => ⟨hl e he, hl e he⟩)
      refine .after_none h1 (State.enterRunning_ends fun e he => ?_)
      have hu := State.campaign_update (s := s.withdrawSnapshot d.slot) (k := d.slot)
        (g := fun c => { c with snapshot := some d.plan }) (fun _ h => h)
      rw [hu, show (s.withdrawSnapshot d.slot).campaign d.slot = some c from hc] at he
      injection he with he
      subst he
      show c.state.live = true
      rw [h.1]; rfl
    · exact .refl _ s

/-! ## Times -/

theorem State.takeDeadline_ending (s : State) (now k : Nat) : Ending (· = .deadline) [k] s (s.takeDeadline now k) := by
  unfold State.takeDeadline
  split
  · exact .refl _ s
  · split
    · split
      · exact s.endCampaign_ending k rfl rfl
      · exact s.endCampaign_ending k rfl rfl
    · exact .refl _ s

theorem State.takeStart_ends (s : State) (now k : Nat) : Ends (allSlots ++ [k]) s (s.takeStart now k) := by
  unfold State.takeStart
  split
  · exact .refl _ s
  · rename_i c hc
    split
    · rename_i h
      refine State.activate_ends fun d hd => ?_
      rw [hc] at hd; injection hd with hd; subst hd; rw [h.1]; rfl
    · exact .refl _ s

/-- A clock step ends campaigns by deadline first, and then those that its activations bring (R72, R73). -/
theorem State.timeReached_deadlinesFirst (s : State) (now : Nat) : ∃ first, s.DeadlinesFirst (s.timeReached now) first
    ∧ s.Concludes (allSlots.foldl (fun t k => t.takeDeadline now k) s) first := by
  obtain ⟨l, h1, h2, h3⟩ := Ending.foldl (fun t k => t.takeDeadline_ending now k) allSlots s
  have hs : ∀ (l : List Nat) (t : State), ∃ slots, Ends slots t (l.foldl (fun t k => t.takeStart now k) t) := by
    intro l
    induction l with
    | nil => exact fun t => ⟨[], .refl _ t⟩
    | cons k l ih =>
      intro t
      obtain ⟨m, hm⟩ := ih (t.takeStart now k)
      exact ⟨_, (t.takeStart_ends now k).trans hm⟩
  obtain ⟨_, m, g1, -, g3⟩ := hs allSlots (allSlots.foldl (fun t k => t.takeDeadline now k) s)
  refine ⟨l, ⟨m, h1.trans g1, List.pairwise_map.mp (allSlots_rising.sublist h2), fun d hd => ?_, fun d hd hx => ?_⟩, h1⟩
  · obtain ⟨r, hr, rfl⟩ := h3 d hd
    exact hr
  · obtain ⟨r, hr, hn⟩ := g3 d hd
    rw [hr] at hx
    injection hx with hx
    exact hn hx

/-! ## What the channels hand back -/

theorem State.account_ends (s : State) (w : Work) (dest : Nat) (v : Verdict) : Ends [w.slot] s (s.account w dest v) := by
  unfold State.account
  split
  · rename_i h
    have hl : ∀ c, s.campaign w.slot = some c → c.state.live = true := fun c hc => by
      unfold State.credits at h
      rw [hc] at h
      simp only [Bool.and_eq_true] at h
      exact active_live h.1.2
    refine .after_none ?_ (State.completeIfSettled_ends _ w.slot (by decide))
    cases v <;> simp only [State.credit]
    case applied => exact s.settleReceiver_concludes hl dest fun _ => ⟨rfl, rfl⟩
    case report => exact s.settleReceiver_concludes hl dest fun _ => ⟨rfl, rfl⟩
    case alreadyNewer => exact s.settleReceiver_concludes hl dest fun _ => ⟨rfl, rfl⟩
    case refused => exact s.settleReceiver_concludes hl dest fun _ => ⟨rfl, rfl⟩
    all_goals exact .of_same rfl rfl
  · exact .refl _ s

theorem State.examineOwn_ends (s : State) (w : Work) : Ends [w.slot] s (s.examineOwn w) := by
  unfold State.examineOwn
  split
  · split
    · exact s.examinePass_ends w.slot
    · exact .refl _ s
  · exact .refl _ s

theorem State.countTransmission_ends (s : State) (ch : Phase) (k seq : Nat) : Ends [k] s (s.countTransmission ch k seq) := by
  unfold State.countTransmission
  split
  · exact .refl _ s
  · rename_i c hc
    split
    · rename_i h
      refine .after_none (State.updateCampaign_concludes (by exact fun _ h => h) fun d hd => ?_) (State.examineRound_ends _ k)
      rw [hc] at hd
      injection hd with hd
      subst hd
      exact ⟨active_live h.2, active_live h.2⟩
    · exact .refl _ s

/-! ## The plan store -/

/-- The end of a campaign that is not PREPARING leaves the plan store as it was. -/
theorem State.endCampaign_store {s : State} {k : Nat} (h : ∀ c, s.campaign k = some c → c.state ≠ .preparing)
    (v : CampaignState) (r : EndReason) : (s.endCampaign k v r).store = s.store := by
  unfold State.endCampaign
  split
  · rfl
  · rename_i c hc
    split
    · dsimp only
      rw [if_neg (h c hc), State.notify_store]; rfl
    · rfl

theorem State.completeIfSettled_store (s : State) (k : Nat) (r : EndReason) : (s.completeIfSettled k r).store = s.store := by
  unfold State.completeIfSettled
  split
  · rename_i c hc
    split
    · rename_i h
      refine State.endCampaign_store (fun d hd hp => ?_) _ _
      rw [hc] at hd; injection hd with hd; subst hd
      rw [hp] at h; cases h.1
    · rfl
  · rfl

theorem State.runPasses_store : ∀ (n k : Nat) (s : State), (State.runPasses n k s).store = s.store
  | 0, _, _ => rfl
  | n + 1, k, s => by
    unfold State.runPasses
    split
    · rfl
    · rename_i c hc
      split
      · rfl
      · split
        · rename_i he
          split
          · exact State.runPasses_store n k _
          · refine State.endCampaign_store (fun d hd hp => ?_) _ _
            rw [hc] at hd; injection hd with hd; subst hd
            unfold State.passEnded at he
            simp only [Bool.and_eq_true, decide_eq_true_iff] at he
            rw [he.1.1.1] at hp; cases hp
        · rfl

theorem State.examinePass_store (s : State) (k : Nat) : (s.examinePass k).store = s.store := State.runPasses_store 17 k s

/-- A fold of operations that leave the plan store as it was. -/
theorem foldl_store {β : Type} {f : State → β → State} (hf : ∀ s b, (f s b).store = s.store) (l : List β) (s : State) :
    (l.foldl f s).store = s.store :=
  foldl_keeps (R := fun s t => t.store = s.store) (fun _ => rfl) (fun h g => g.trans h) f hf l s

theorem State.examineSilenced_store (s : State) (l : List Nat) : (s.examineSilenced l).store = s.store :=
  foldl_store (fun t k => by
    split
    · split
      · exact t.examinePass_store k
      · rfl
    · rfl) l s

theorem State.examineOwn_store (s : State) (w : Work) : (s.examineOwn w).store = s.store := by
  unfold State.examineOwn
  split
  · split
    · exact s.examinePass_store w.slot
    · rfl
  · rfl

theorem State.examineRound_store (s : State) (k : Nat) : (s.examineRound k).store = s.store := by
  unfold State.examineRound
  split
  · rfl
  · rename_i c hc
    split
    · split
      · rename_i h
        split
        · refine State.endCampaign_store (fun d hd hp => ?_) _ _
          rw [hc] at hd; injection hd with hd; subst hd
          rw [h.1] at hp; cases hp
        · rfl
      · rfl
    · rfl

theorem State.dropFrom_store (s : State) (u k : Nat) : (s.dropFrom u k).store = s.store :=
  (State.examinePass_store _ k).trans (State.completeIfSettled_store _ k _)

theorem State.dropReceiver_store (s : State) (u : Nat) : (s.dropReceiver u).store = s.store := by
  unfold State.dropReceiver
  split
  · rfl
  · exact foldl_store (fun t k => t.dropFrom_store u k) _ s

theorem State.dropBarred_store (s : State) : s.dropBarred.store = s.store :=
  foldl_store (f := fun (t : State) (e : Entry) => t.dropReceiver e.unit) (fun t e => t.dropReceiver_store e.unit) _ s

theorem State.overtake_store (s : State) (old new : Nat) : (s.overtake old new).store = s.store := by
  unfold State.overtake
  dsimp only
  split
  · rfl
  · exact (State.examinePass_store _ old).trans (State.completeIfSettled_store _ old _)

theorem State.supersedeOne_store (s : State) (new : Campaign) (k : Nat) : (s.supersedeOne new k).store = s.store := by
  unfold State.supersedeOne
  split
  · rfl
  · rename_i c hc
    split
    · rename_i h
      split
      · exact s.overtake_store _ _
      · rfl
      · split
        · refine State.endCampaign_store (fun d hd hp => ?_) _ _
          rw [hc] at hd; injection hd with hd; subst hd
          rw [hp] at h; cases h.2.1
        · rfl
    · rfl

theorem State.supersede_store (s : State) (k : Nat) : (s.supersede k).store = s.store := by
  unfold State.supersede
  split
  · rfl
  · split
    · rfl
    · exact foldl_store (fun t j => t.supersedeOne_store _ j) _ s

theorem State.openAccount_store (s : State) (k : Nat) : (s.openAccount k).store = s.store := by
  unfold State.openAccount
  split
  · rfl
  · dsimp only
    split <;> rfl

/-- Entry into RUNNING leaves the plan store as it was. -/
theorem State.enterRunning_store (s : State) (k : Nat) : (s.enterRunning k).store = s.store := by
  cases hc : s.campaign k with
  | none =>
    have h1 : s.openAccount k = s := by unfold State.openAccount; rw [hc]
    have h2 : s.supersede k = s := by unfold State.supersede; rw [hc]
    unfold State.enterRunning
    rw [h1, h2]
    unfold State.checkWork
    rw [hc]
  | some c =>
    obtain ⟨d, hd, hr⟩ := State.openAccount_present hc
    have hp : ∀ e, ((s.openAccount k).supersede k).campaign k = some e → e.state ≠ .preparing := fun e he hx => by
      rw [State.supersede_self hd] at he
      injection he with he
      subst he
      rw [hr] at hx; cases hx
    refine Eq.trans ?_ ((State.supersede_store _ k).trans (s.openAccount_store k))
    show (((s.openAccount k).supersede k).checkWork k).store = _
    unfold State.checkWork
    split
    · rfl
    · split
      · exact State.endCampaign_store hp _ _
      · split
        · exact State.endCampaign_store hp _ _
        · rfl

theorem State.account_store (s : State) (w : Work) (dest : Nat) (v : Verdict) : (s.account w dest v).store = s.store := by
  unfold State.account
  split
  · refine (State.completeIfSettled_store _ _ _).trans ?_
    cases v <;> rfl
  · rfl

theorem State.countTransmission_store (s : State) (ch : Phase) (k seq : Nat) :
    (s.countTransmission ch k seq).store = s.store := by
  unfold State.countTransmission
  split
  · rfl
  · split
    · exact State.examineRound_store _ k
    · rfl

/-! ## The sets of the receivers -/

theorem State.SetsKept.refl (s : State) (may : Nat → Nat → Prop) : s.SetsKept s may :=
  fun _ d e _ hd he _ => by
    rw [hd] at he
    injection he with he
    subst he
    exact ⟨Iff.rfl, Iff.rfl⟩

theorem State.SetsKept.mono {s t : State} {a b : Nat → Nat → Prop} (h : s.SetsKept t a) (hab : ∀ u k, a u k → b u k) :
    s.SetsKept t b := fun u d e k hd he hn => h u d e k hd he fun hx => hn (hab u k hx)

theorem OnlyCampaigns.entry {s t : State} (h : OnlyCampaigns s t) {u : Nat} {d : Entry} (hd : s.entry u = some d) :
    ∃ e, t.entry u = some e := by
  have h1 : (s.entry u).map Entry.forgetSlots = (t.entry u).map Entry.forgetSlots := by
    unfold State.entry
    rw [← findBy_map_unit (f := Entry.forgetSlots) (fun _ => rfl), ← findBy_map_unit (f := Entry.forgetSlots) (fun _ => rfl),
      h.entries]
  cases he : t.entry u with
  | some e => exact ⟨e, rfl⟩
  | none => rw [hd, he] at h1; cases h1

theorem State.SetsKept.trans {s t r : State} {may : Nat → Nat → Prop} (h : s.SetsKept t may) (g : t.SetsKept r may)
    (ht : OnlyCampaigns s t) : s.SetsKept r may := fun u d e k hd he hn => by
  obtain ⟨m, hm⟩ := ht.entry hd
  have h1 := h u d m k hd hm hn
  have h2 := g u m e k hm he hn
  exact ⟨h2.1.trans h1.1, h2.2.trans h1.2⟩

/-- An operation on one slot leaves every other slot's sets. -/
theorem OnlySlot.setsKept {k : Nat} {s t : State} (h : OnlySlot k s t) : s.SetsKept t (fun _ j => j = k) :=
  fun u d e j hd he hj => by
    obtain ⟨f, f1, f2⟩ := h.entries
    have : t.entry u = some (f d) := by
      unfold State.entry at hd ⊢
      rw [f1, findBy_map_unit (f := f) (fun e =>
        (congrArg Entry.unit (f2 e).1 : (f e).forgetSlots.unit = e.forgetSlots.unit)), hd]
      rfl
    rw [this] at he
    injection he with he
    subst he
    exact (f2 d).2.1 j hj

theorem State.settleReceiver_setsKept (s : State) (k u : Nat) (f : Campaign → Campaign) :
    s.SetsKept (s.settleReceiver k u f) (fun v j => v = u ∧ j = k) := fun v d e j hd he hn => by
  have : (s.settleReceiver k u f).entry v = some (if d.unit = u then d.release k else d) := by
    unfold State.entry at hd ⊢
    show findBy Entry.unit v (s.roster.entries.map (fun e => if e.unit = u then e.release k else e)) = _
    rw [findBy_map_unit (fun e => by split <;> rfl), hd]
    rfl
  rw [this] at he
  injection he with he
  subst he
  split
  · rename_i hu
    exact d.release_other fun hj => hn ⟨(State.entry_some hd).2.symm.trans hu, hj⟩
  · exact ⟨Iff.rfl, Iff.rfl⟩

/-- A campaign complete at 0 outstanding had no receiver left to release (R47, R48). -/
theorem State.completeIfSettled_setsKept {s : State} (h : s.Balanced) (k : Nat) (r : EndReason) :
    s.SetsKept (s.completeIfSettled k r) (fun _ _ => False) := by
  unfold State.completeIfSettled
  split
  · rename_i c hc
    split
    · rename_i ho
      intro u d e j hd he _
      have hb : Accounts s.campaigns.table s.roster.entries := h
      obtain ⟨_, h2, _⟩ := State.endCampaign_live hc (active_live ho.1) .complete r
      have : (s.endCampaign k .complete r).entry u = some (d.release k) := by
        unfold State.entry at hd ⊢
        rw [h2, findBy_map_unit (f := fun e => e.release k) (fun _ => rfl), hd]
        rfl
      rw [this] at he
      injection he with he
      subst he
      have hm := (State.entry_some hd).1
      have hz : pendingAt k s.roster.entries = 0 := by
        have := (hb.records c (State.campaign_some hc).1).outstanding (active_live ho.1)
        rw [(State.campaign_some hc).2, ho.2] at this
        exact this.symm
      have hk := pendingAt_eq_zero hz d hm
      by_cases hj : j = k
      · subst hj
        exact ⟨⟨fun x => absurd x (d.release_at j).1, fun x => absurd x hk⟩,
          ⟨fun x => absurd x (d.release_at j).2, fun x => absurd ((hb.entries d hm).tried j x) hk⟩⟩
      · exact d.release_other hj
    · exact .refl s _
  · exact .refl s _

/-- A receiver dropped leaves every set at the slots that were not pending at it. -/
theorem State.dropReceiver_setsKept {s : State} {u : Nat} {e : Entry} (he : s.entry u = some e) :
    s.SetsKept (s.dropReceiver u) (fun _ k => k ∈ e.pending) := by
  unfold State.dropReceiver
  rw [he]
  dsimp only
  generalize hl : e.pending = l
  have : ∀ (m : List Nat), (∀ k ∈ m, k ∈ l) → ∀ s : State, s.SetsKept (m.foldl (fun t k => t.dropFrom u k) s) (fun _ k => k ∈ l) := by
    intro m
    induction m with
    | nil => exact fun _ s => .refl s _
    | cons k m ih =>
      intro hm s
      exact ((s.dropFrom_only u k).setsKept.mono fun _ j hj => hj ▸ hm k List.mem_cons_self).trans
        (ih (fun j hj => hm j (List.mem_cons_of_mem _ hj)) _) (s.dropFrom_touch u k)
  exact this l (fun _ h => h) s

end Sys2Proof.Machine
end

