-- ==== Sys2Proof/Laws/Passes.lean ====
section
/-! SUPPORT. The examination of a pass: what it makes of its campaign (R94, R96, R97), that it reads and changes one slot
alone, and what a series of examinations does. -/

namespace Sys2Proof.Machine

/-! ## One examination -/

theorem Campaign.owes_iff (c : Campaign) (e : Entry) : c.owes e = true ↔ c.Owed e := by
  unfold Campaign.owes Campaign.Owed
  simp only [Bool.and_eq_true, Bool.or_eq_true, List.contains_iff_mem, Bool.not_eq_true', beq_iff_eq, decide_eq_true_iff,
    ← Bool.not_eq_true, and_assoc]

theorem State.passEnded_iff (s : State) (c : Campaign) : s.passEnded c = true ↔ c.state = .running ∧ c.mode = .confirmed
    ∧ (∀ e ∈ s.roster.entries, ¬ c.Owed e) ∧ s.inFlight c = false := by
  unfold State.passEnded
  simp only [Bool.and_eq_true, decide_eq_true_iff, Bool.not_eq_true', List.any_eq_false, ← Campaign.owes_iff, and_assoc]

theorem Campaign.mode_confirmed {c : Campaign} {limit : Nat} (h : c.terms = .confirmed limit) : c.mode = .confirmed := by
  unfold Campaign.mode; rw [h]

theorem Campaign.mode_broadcast {c : Campaign} {a b : Nat} {i : Option Nat} (h : c.terms = .broadcast a b i) :
    c.mode = .broadcast := by
  unfold Campaign.mode; rw [h]

/-- One turn of the examination on a confirmed campaign. -/
theorem State.runPasses_confirmed {s : State} {k limit : Nat} {c : Campaign} (hc : s.campaign k = some c)
    (ht : c.terms = .confirmed limit) (n : Nat) : State.runPasses (n + 1) k s =
      if s.passEnded c then
        if c.pass.getD 1 < limit then
          State.runPasses n k ((s.clearTried k).updateCampaign k (fun d => { d with pass := some (c.pass.getD 1 + 1) }))
        else s.endCampaign k .exhausted .passLimit
      else s := by
  conv => lhs; unfold State.runPasses
  rw [hc]
  simp only [ht]

/-- A pass that has not ended goes on. -/
theorem State.examinePass_open {s : State} {k : Nat}
    (h : ∀ c, s.campaign k = some c → s.passEnded c = false) : s.examinePass k = s := by
  unfold State.examinePass State.runPasses
  split
  · rfl
  · rename_i c hc
    split
    · rfl
    · rw [if_neg (by simp [h c hc])]

/-- The state in which a campaign has begun its next pass. -/
def State.nextPass (s : State) (k p : Nat) : State :=
  (s.clearTried k).updateCampaign k (fun d => { d with pass := some (p + 1) })

theorem State.nextPass_campaign {s : State} {k : Nat} {c : Campaign} (hc : s.campaign k = some c) (p : Nat) :
    (s.nextPass k p).campaign k = some { c with pass := some (p + 1) } := by
  have h := State.campaign_update (s := s.clearTried k) (k := k) (g := fun d => { d with pass := some (p + 1) })
    (fun _ h => h)
  have hc' : (s.clearTried k).campaign k = some c := hc
  rw [hc'] at h
  exact h

theorem State.nextPass_entries (s : State) (k p : Nat) : (s.nextPass k p).roster.entries
    = s.roster.entries.map (fun e => { e with tried := removeNat k e.tried }) := rfl

/-- No receiver that was not SILENT and none that is: a next pass past the first owes nobody. -/
theorem State.nextPass_owes {s : State} {k p : Nat} {c : Campaign} (hs : c.slot = k) (hp : 1 ≤ p) :
    (∀ e ∈ (s.nextPass k p).roster.entries, ¬ ({ c with pass := some (p + 1) } : Campaign).Owed e)
      ↔ ∀ e ∈ s.roster.entries, k ∈ e.pending → e.state = .silent := by
  subst hs
  rw [State.nextPass_entries]
  simp only [List.forall_mem_map, Campaign.Owed, Option.some.injEq]
  refine forall₂_congr fun e _ => ?_
  constructor
  · intro h hm
    by_contra hx
    exact h ⟨hm, fun ht => (mem_removeNat.mp ht).2 rfl, .inr hx⟩
  · rintro h ⟨h1, -, h2 | h2⟩
    · omega
    · exact h2 (h h1)

/-- The examination runs through passes that owe nobody to the last (R96, R97). -/
theorem State.runPasses_last : ∀ (n : Nat) {s : State} {k limit p : Nat} {c : Campaign}, s.campaign k = some c →
    c.terms = .confirmed limit → c.pass = some p → s.passEnded c = true → 1 ≤ p → p ≤ limit → limit - p < n →
    (p = limit ∨ ∀ e ∈ s.roster.entries, k ∈ e.pending → e.state = .silent) →
    (State.runPasses n k s).campaign k = some { c with
        pass := some limit, state := .exhausted, reason := some .passLimit, endedAt := s.clock.time, intervalTimer := none }
      ∧ ∀ e ∈ (State.runPasses n k s).roster.entries, k ∉ e.pending ∧ k ∉ e.tried
  | 0, _, _, _, _, _, _, _, _, _, _, _, h, _ => by omega
  | n + 1, s, k, limit, p, c, hc, ht, hp, he, h1, hl, hn, hor => by
    rw [State.runPasses_confirmed hc ht, if_pos he, hp, Option.getD_some]
    obtain ⟨hr, hm, -, hf⟩ := (s.passEnded_iff c).mp he
    by_cases hlt : p < limit
    · rw [if_pos hlt]
      have hsil : ∀ e ∈ s.roster.entries, k ∈ e.pending → e.state = .silent := by
        rcases hor with h | h
        · omega
        · exact h
      have hk := (State.campaign_some hc).2
      have hq : (s.nextPass k p).passEnded { c with pass := some (p + 1) } = true :=
        (State.passEnded_iff _ _).mpr ⟨hr, hm, (State.nextPass_owes hk h1).mpr hsil, hf⟩
      have := State.runPasses_last n (State.nextPass_campaign hc p) ht rfl hq (by omega) (by omega) (by omega)
        (.inr (fun e hm => by
          rw [State.nextPass_entries, List.mem_map] at hm
          obtain ⟨d, hd, rfl⟩ := hm
          exact hsil d hd))
      exact this
    · rw [if_neg hlt]
      have hpl : p = limit := by omega
      obtain ⟨g1, g2, -⟩ := State.endCampaign_live hc (by rw [hr]; rfl) .exhausted .passLimit
      refine ⟨?_, fun e hm => ?_⟩
      · rw [g1]
        show some ({ c with
          state := .exhausted, reason := some .passLimit, endedAt := s.clock.time, intervalTimer := none } : Campaign) = _
        rw [← hpl, ← hp]
      · rw [g2, List.mem_map] at hm
        obtain ⟨d, -, rfl⟩ := hm
        exact d.release_at k

/-- A pass that ended with a receiver left to try gives way to the next alone (R96). -/
theorem State.examinePass_next {s : State} {k limit p : Nat} {c : Campaign} (hc : s.campaign k = some c)
    (ht : c.terms = .confirmed limit) (hp : c.pass = some p) (he : s.passEnded c = true) (h1 : 1 ≤ p) (hlt : p < limit)
    (hx : ∃ e ∈ s.roster.entries, k ∈ e.pending ∧ e.state ≠ .silent) : s.examinePass k = s.nextPass k p := by
  unfold State.examinePass
  rw [State.runPasses_confirmed hc ht, if_pos he, hp, Option.getD_some, if_pos hlt]
  have hk := (State.campaign_some hc).2
  have hq : (s.nextPass k p).passEnded { c with pass := some (p + 1) } = false := by
    rw [Bool.eq_false_iff]
    intro h
    obtain ⟨e, hm, h3, h4⟩ := hx
    exact h4 ((State.nextPass_owes hk h1).mp ((State.passEnded_iff _ _).mp h).2.2.1 e hm h3)
  show State.runPasses 16 k (s.nextPass k p) = s.nextPass k p
  rw [State.runPasses_confirmed (State.nextPass_campaign hc p) ht, if_neg (by simp [hq])]

/-- What the examination of a pass makes of its campaign (R94, R96, R97). -/
theorem State.examinePass_taken {s : State} {k : Nat} {c : Campaign} (hc : s.campaign k = some c) :
    ∃ d, (s.examinePass k).campaign k = some d ∧ s.PassTaken (s.examinePass k) c d := by
  obtain ⟨d, hd, -⟩ := (s.examinePass_unsettled k).present c hc
  have hk := (State.campaign_some hc).2
  refine ⟨d, hd, fun h => ?_, fun limit p ht hp hr hf ho h1 hlt hx => ?_,
    fun limit p ht hp hr hf ho h1 hle h16 hor => ?_⟩
  · have : s.examinePass k = s := by
      refine State.examinePass_open fun c' hc' => ?_
      rw [hc] at hc'
      injection hc' with hc'
      subst hc'
      rw [Bool.eq_false_iff]
      intro he
      obtain ⟨h1, h2, h3, h4⟩ := (s.passEnded_iff c).mp he
      rcases h with h | h | h | ⟨e, hm, h⟩
      · rw [h] at h2; cases h2
      · exact h h1
      · rw [h] at h4; cases h4
      · exact h3 e hm h
    rw [this, hc] at hd
    exact (Option.some.inj hd).symm
  · have he := (s.passEnded_iff c).mpr ⟨hr, Campaign.mode_confirmed ht, ho, hf⟩
    have := State.examinePass_next hc ht hp he h1 hlt (hk ▸ hx)
    rw [this] at hd ⊢
    rw [State.nextPass_campaign hc p] at hd
    refine ⟨(Option.some.inj hd).symm, fun e hm => ?_⟩
    rw [State.nextPass_entries, List.mem_map] at hm
    obtain ⟨a, -, rfl⟩ := hm
    exact fun hx => (mem_removeNat.mp hx).2 hk
  · have he := (s.passEnded_iff c).mpr ⟨hr, Campaign.mode_confirmed ht, ho, hf⟩
    obtain ⟨g1, g2⟩ := State.runPasses_last 17 hc ht hp he h1 hle (by omega) (by rw [hk] at hor; exact hor)
    have g1 : (s.examinePass k).campaign k = _ := g1
    rw [hd] at g1
    exact ⟨Option.some.inj g1, fun e hm => by rw [hk]; exact g2 e hm⟩

/-! ## Two states that agree at a slot -/

/-- Two entries that agree but for other slots than `k`. -/
def Entry.AgreeAt (k : Nat) (a b : Entry) : Prop :=
  b.forgetSlots = a.forgetSlots ∧ (k ∈ b.pending ↔ k ∈ a.pending) ∧ (k ∈ b.tried ↔ k ∈ a.tried)

/-- Two states that agree on everything an examination of slot `k` reads. -/
structure AgreeAt (k : Nat) (s t : State) : Prop where
  campaign : t.campaign k = s.campaign k
  line     : t.line = s.line
  time     : t.clock.time = s.clock.time
  entries  : List.Forall₂ (Entry.AgreeAt k) s.roster.entries t.roster.entries

theorem Entry.AgreeAt.refl (k : Nat) (a : Entry) : Entry.AgreeAt k a a := ⟨rfl, Iff.rfl, Iff.rfl⟩

theorem Entry.AgreeAt.trans {k : Nat} {a b c : Entry} (h : Entry.AgreeAt k a b) (g : Entry.AgreeAt k b c) :
    Entry.AgreeAt k a c := ⟨g.1.trans h.1, g.2.1.trans h.2.1, g.2.2.trans h.2.2⟩

theorem Entry.AgreeAt.state {k : Nat} {a b : Entry} (h : Entry.AgreeAt k a b) : b.state = a.state :=
  (congrArg Entry.state h.1 : b.forgetSlots.state = a.forgetSlots.state)

theorem Entry.AgreeAt.unit {k : Nat} {a b : Entry} (h : Entry.AgreeAt k a b) : b.unit = a.unit :=
  (congrArg Entry.unit h.1 : b.forgetSlots.unit = a.forgetSlots.unit)

theorem Entry.AgreeAt.owed {k : Nat} {a b : Entry} (h : Entry.AgreeAt k a b) {c : Campaign} (hc : c.slot = k) :
    c.Owed b ↔ c.Owed a := by
  unfold Campaign.Owed
  rw [hc, h.2.1, h.2.2, h.state]

theorem AgreeAt.refl (k : Nat) (s : State) : AgreeAt k s s :=
  ⟨rfl, rfl, rfl, List.forall₂_same.mpr fun a _ => .refl k a⟩

theorem forall₂_trans {α : Type} {P Q R : α → α → Prop} {l m n : List α} (h : List.Forall₂ P l m) (g : List.Forall₂ Q m n)
    (hr : ∀ a b c, P a b → Q b c → R a c) : List.Forall₂ R l n := by
  induction h generalizing n with
  | nil => cases g; exact .nil
  | cons h _ ih => cases g with | cons g gs => exact .cons (hr _ _ _ h g) (ih gs)

theorem AgreeAt.trans {k : Nat} {s t u : State} (h : AgreeAt k s t) (g : AgreeAt k t u) : AgreeAt k s u :=
  ⟨g.campaign.trans h.campaign, g.line.trans h.line, g.time.trans h.time,
    forall₂_trans h.entries g.entries fun _ _ _ => Entry.AgreeAt.trans⟩

/-- An operation on another slot that only the campaign controller took part in. -/
theorem OnlySlot.agreeAt {j k : Nat} {s t : State} (h : OnlySlot j s t) (ho : OnlyCampaigns s t) (hk : k ≠ j) :
    AgreeAt k s t := by
  refine ⟨h.others k hk, ho.line, by rw [ho.clock], ?_⟩
  obtain ⟨f, f1, f2⟩ := h.entries
  rw [f1, List.forall₂_map_right_iff]
  exact List.forall₂_same.mpr fun e _ => ⟨(f2 e).1, ((f2 e).2.1 k hk).1, ((f2 e).2.1 k hk).2⟩

theorem forall₂_map_both {α β : Type} {R : α → α → Prop} {Q : β → β → Prop} {f : α → β} {l m : List α}
    (h : List.Forall₂ R l m) (hf : ∀ a b, R a b → Q (f a) (f b)) : List.Forall₂ Q (l.map f) (m.map f) := by
  induction h with
  | nil => exact .nil
  | cons h _ ih => exact .cons (hf _ _ h) ih

theorem forall₂_forall {α : Type} {R : α → α → Prop} {l m : List α} (h : List.Forall₂ R l m) {p q : α → Prop}
    (hp : ∀ a b, R a b → (p a ↔ q b)) : (∀ a ∈ l, p a) ↔ ∀ b ∈ m, q b := by
  induction h with
  | nil => simp
  | cons h _ ih => simp only [List.forall_mem_cons, hp _ _ h, ih]

theorem forall₂_exists {α : Type} {R : α → α → Prop} {l m : List α} (h : List.Forall₂ R l m) {p q : α → Prop}
    (hp : ∀ a b, R a b → (p a ↔ q b)) : (∃ a ∈ l, p a) ↔ ∃ b ∈ m, q b := by
  induction h with
  | nil => simp
  | cons h _ ih => simp only [List.exists_mem_cons_iff, hp _ _ h, ih]

theorem AgreeAt.release {k : Nat} {a b : Entry} (h : Entry.AgreeAt k a b) :
    Entry.AgreeAt k (a.release k) (b.release k) :=
  ⟨h.1, iff_of_false (b.release_at k).1 (a.release_at k).1, iff_of_false (b.release_at k).2 (a.release_at k).2⟩

theorem AgreeAt.inFlight {k : Nat} {s t : State} (h : AgreeAt k s t) (c : Campaign) : t.inFlight c = s.inFlight c := by
  unfold State.inFlight State.works
  rw [h.line]

theorem AgreeAt.passEnded {k : Nat} {s t : State} (h : AgreeAt k s t) {c : Campaign} (hc : c.slot = k) :
    t.passEnded c = s.passEnded c := by
  rw [Bool.eq_iff_iff, State.passEnded_iff, State.passEnded_iff, h.inFlight,
    forall₂_forall h.entries (p := fun e => ¬ c.Owed e) (q := fun e => ¬ c.Owed e)
      (fun a b hab => not_congr (hab.owed hc).symm)]

theorem AgreeAt.endCampaign {k : Nat} {s t : State} (h : AgreeAt k s t) (v : CampaignState) (r : EndReason) :
    AgreeAt k (s.endCampaign k v r) (t.endCampaign k v r) := by
  have o1 := State.endCampaign_touch s k v r
  have o2 := State.endCampaign_touch t k v r
  refine ⟨?_, by rw [o1.line, o2.line, h.line], by rw [o1.clock, o2.clock, h.time], ?_⟩
  all_goals
    cases hc : s.campaign k with
    | none =>
      rw [State.endCampaign_dead (s := s) (fun c hx => by rw [hc] at hx; cases hx),
        State.endCampaign_dead (s := t) (fun c hx => by rw [h.campaign, hc] at hx; cases hx)]
      first | exact h.campaign | exact h.entries
    | some c =>
      have hc' := h.campaign.trans hc
      cases hl : c.state.live with
      | false =>
        rw [State.endCampaign_dead (s := s) (fun d hx => by rw [hc] at hx; injection hx with hx; subst hx; exact hl),
          State.endCampaign_dead (s := t) (fun d hx => by rw [hc'] at hx; injection hx with hx; subst hx; exact hl)]
        first | exact h.campaign | exact h.entries
      | true =>
        obtain ⟨g1, g2, -⟩ := State.endCampaign_live hc hl v r
        obtain ⟨g3, g4, -⟩ := State.endCampaign_live hc' hl v r
        first
          | rw [g1, g3, h.time]
          | rw [g2, g4]; exact forall₂_map_both h.entries fun _ _ => AgreeAt.release

theorem AgreeAt.nextPass {k : Nat} {s t : State} (h : AgreeAt k s t) (p : Nat) : AgreeAt k (s.nextPass k p) (t.nextPass k p) := by
  refine ⟨?_, h.line, h.time, ?_⟩
  · cases hc : s.campaign k with
    | none =>
      have g := fun (x : State) => State.campaign_update (s := x.clearTried k) (k := k)
        (g := fun d => { d with pass := some (p + 1) }) (fun _ h => h)
      have e1 : (t.clearTried k).campaign k = none := h.campaign.trans hc
      have e2 : (s.clearTried k).campaign k = none := hc
      exact ((g t).trans (by rw [e1])).trans ((g s).trans (by rw [e2])).symm
    | some c => rw [State.nextPass_campaign hc, State.nextPass_campaign (h.campaign.trans hc)]
  · rw [State.nextPass_entries, State.nextPass_entries]
    exact forall₂_map_both h.entries fun a b hab => ⟨hab.1, hab.2.1,
      iff_of_false (fun hx => (mem_removeNat.mp hx).2 rfl) (fun hx => (mem_removeNat.mp hx).2 rfl)⟩

/-- An examination of slot `k` does the same to two states that agree at `k`. -/
theorem AgreeAt.runPasses : ∀ (n : Nat) {k : Nat} {s t : State}, AgreeAt k s t →
    AgreeAt k (State.runPasses n k s) (State.runPasses n k t)
  | 0, _, _, _, h => h
  | n + 1, k, s, t, h => by
    unfold State.runPasses
    rw [h.campaign]
    split
    · exact h
    · rename_i c hc
      split
      · exact h
      · rw [h.passEnded (State.campaign_some hc).2]
        split
        · split
          · exact AgreeAt.runPasses n (h.nextPass _)
          · exact h.endCampaign _ _
        · exact h

theorem AgreeAt.examinePass {k : Nat} {s t : State} (h : AgreeAt k s t) : AgreeAt k (s.examinePass k) (t.examinePass k) :=
  h.runPasses 17

/-- Where two states agree at a slot, the pass of its campaign is taken alike. -/
theorem AgreeAt.passTaken {k : Nat} {s t a b : State} (h : AgreeAt k s t) (g : AgreeAt k a b) {c d : Campaign}
    (hc : c.slot = k) (hp : t.PassTaken a c d) : s.PassTaken b c d := by
  have ho := forall₂_exists h.entries (p := c.Owed) (q := c.Owed) (fun _ _ x => (x.owed hc).symm)
  have hn := forall₂_forall h.entries (p := fun e => ¬ c.Owed e) (q := fun e => ¬ c.Owed e)
    (fun a b hab => not_congr (hab.owed hc).symm)
  have hx := forall₂_exists h.entries (p := fun e => c.slot ∈ e.pending ∧ e.state ≠ .silent)
    (q := fun e => c.slot ∈ e.pending ∧ e.state ≠ .silent) (fun _ _ x => by rw [hc, x.2.1, x.state])
  have hs := forall₂_forall h.entries (p := fun e => c.slot ∈ e.pending → e.state = .silent)
    (q := fun e => c.slot ∈ e.pending → e.state = .silent) (fun _ _ x => by rw [hc, x.2.1, x.state])
  have ht := forall₂_forall g.entries (p := fun e => c.slot ∉ e.tried) (q := fun e => c.slot ∉ e.tried)
    (fun _ _ x => by rw [hc, x.2.2])
  have hb := forall₂_forall g.entries (p := fun e => c.slot ∉ e.pending ∧ c.slot ∉ e.tried)
    (q := fun e => c.slot ∉ e.pending ∧ c.slot ∉ e.tried) (fun _ _ x => by rw [hc, x.2.1, x.2.2])
  refine ⟨fun h1 => hp.goesOn ?_, fun limit p h1 h2 h3 h4 h5 h6 h7 h8 => ?_,
    fun limit p h1 h2 h3 h4 h5 h6 h7 h8 h9 => ?_⟩
  · rw [h.inFlight, ← ho]; exact h1
  · obtain ⟨g1, g2⟩ := hp.next limit p h1 h2 h3 ((h.inFlight c).trans h4) (hn.mp h5) h6 h7 (hx.mp h8)
    exact ⟨g1, ht.mp g2⟩
  · obtain ⟨g1, g2⟩ := hp.last limit p h1 h2 h3 ((h.inFlight c).trans h4) (hn.mp h5) h6 h7 h8
      (h9.imp id (fun x => hs.mp x))
    exact ⟨by rw [g1, h.time], hb.mp g2⟩

/-! ## A series of examinations -/

/-- A number of examinations of one slot. -/
def State.examineTimes (k : Nat) : Nat → State → State
  | 0, s => s
  | n + 1, s => (State.examineTimes k n s).examinePass k

theorem State.examineTimes_only (k : Nat) : ∀ n s, OnlySlot k s (State.examineTimes k n s)
  | 0, s => .refl k s
  | n + 1, s => (State.examineTimes_only k n s).trans (State.examinePass_only _ k)

theorem State.examineTimes_unsettled (k : Nat) : ∀ n s, Unsettled k s (State.examineTimes k n s)
  | 0, s => .refl k s
  | n + 1, s => (State.examineTimes_unsettled k n s).trans (State.examinePass_unsettled _ k)

theorem State.examineTimes_touch (k : Nat) : ∀ n s, OnlyCampaigns s (State.examineTimes k n s)
  | 0, s => .refl s
  | n + 1, s => (State.examineTimes_touch k n s).trans (State.examinePass_touch _ k)

/-- Where one examination leaves no ended pass, more change nothing. -/
theorem State.examineTimes_settled {k : Nat} {s : State}
    (h : ∀ c, (s.examinePass k).campaign k = some c → (s.examinePass k).passEnded c = false) :
    ∀ n, State.examineTimes k (n + 1) s = s.examinePass k
  | 0 => rfl
  | n + 1 => by
    show (State.examineTimes k (n + 1) s).examinePass k = _
    rw [State.examineTimes_settled h n]
    exact State.examinePass_open h

/-- Examined once or more, a campaign has had its pass taken. -/
theorem State.examineTimes_taken {s : State} {k : Nat} {c : Campaign} (hc : s.campaign k = some c) (n : Nat) :
    ∃ d, (State.examineTimes k (n + 1) s).campaign k = some d ∧ s.PassTaken (State.examineTimes k (n + 1) s) c d := by
  obtain ⟨d, hd, hp⟩ := State.examinePass_taken hc
  obtain ⟨m, hm, -⟩ := (State.examineTimes_unsettled k (n + 1) s).present c hc
  refine ⟨m, hm, fun h => ?_, fun limit p h1 h2 h3 h4 h5 h6 h7 h8 => ?_,
    fun limit p h1 h2 h3 h4 h5 h6 h7 h8 h9 => ?_⟩
  · have e := hp.goesOn h
    subst e
    have ho : ∀ c, (s.examinePass k).campaign k = some c → s.passEnded c = false := by
      intro c' hc'
      rw [hd] at hc'
      injection hc' with hc'
      subst hc'
      rw [Bool.eq_false_iff]
      intro he
      obtain ⟨g1, g2, g3, g4⟩ := (s.passEnded_iff _).mp he
      rcases h with h | h | h | ⟨e, hm, h⟩
      · rw [h] at g2; cases g2
      · exact h g1
      · rw [h] at g4; cases g4
      · exact g3 e hm h
    have hs : s.examinePass k = s := State.examinePass_open fun c' hc' => ho c' (by rw [hc] at hc'; rw [hd]; exact hc')
    rw [State.examineTimes_settled (by rw [hs] at ho ⊢; exact ho), hd] at hm
    exact (Option.some.inj hm).symm
  · obtain ⟨g1, g2⟩ := hp.next limit p h1 h2 h3 h4 h5 h6 h7 h8
    have hk := (State.campaign_some hc).2
    have he := State.examinePass_next hc h1 h2 ((s.passEnded_iff c).mpr ⟨h3, Campaign.mode_confirmed h1, h5, h4⟩) h6 h7
      (hk ▸ h8)
    have hs : ∀ c', (s.examinePass k).campaign k = some c' → (s.examinePass k).passEnded c' = false := by
      rw [he]
      intro c' hc'
      rw [State.nextPass_campaign hc] at hc'
      injection hc' with hc'
      subst hc'
      rw [Bool.eq_false_iff]
      intro hx
      obtain ⟨e, hm, h9, h10⟩ := h8
      exact h10 ((State.nextPass_owes hk h6).mp ((State.passEnded_iff _ _).mp hx).2.2.1 e hm (hk ▸ h9))
    rw [State.examineTimes_settled hs] at hm ⊢
    rw [hd] at hm
    exact ⟨(Option.some.inj hm).symm.trans g1, g2⟩
  · obtain ⟨g1, g2⟩ := hp.last limit p h1 h2 h3 h4 h5 h6 h7 h8 h9
    have hs : ∀ c', (s.examinePass k).campaign k = some c' → (s.examinePass k).passEnded c' = false := by
      intro c' hc'
      rw [hd] at hc'
      injection hc' with hc'
      subst hc'
      rw [Bool.eq_false_iff]
      intro hx
      have := ((State.passEnded_iff _ _).mp hx).1
      rw [g1] at this
      cases this
    rw [State.examineTimes_settled hs] at hm ⊢
    rw [hd] at hm
    exact ⟨(Option.some.inj hm).symm.trans g1, g2⟩

/-- A slot leaves a pending set by an examination only where its RUNNING campaign becomes EXHAUSTED. -/
theorem State.runPasses_lost : ∀ (n k : Nat) (s : State),
    (∃ a b, s.campaign k = some a ∧ (State.runPasses n k s).campaign k = some b ∧ a.state = .running
      ∧ b.state = .exhausted)
    ∨ List.Forall₂ (fun e d => k ∈ e.pending → k ∈ d.pending) s.roster.entries (State.runPasses n k s).roster.entries
  | 0, k, s => .inr (List.forall₂_same.mpr fun _ _ => id)
  | n + 1, k, s => by
    unfold State.runPasses
    split
    · exact .inr (List.forall₂_same.mpr fun _ _ => id)
    · rename_i c hc
      split
      · exact .inr (List.forall₂_same.mpr fun _ _ => id)
      · split
        · rename_i he
          have hr := ((s.passEnded_iff c).mp he).1
          split
          · rcases State.runPasses_lost n k (s.nextPass k (c.pass.getD 1)) with ⟨a, b, h1, h2, h3, h4⟩ | h
            · exact .inl ⟨c, b, hc, h2, hr, h4⟩
            · rw [State.nextPass_entries, List.forall₂_map_left_iff] at h
              exact .inr h
          · exact .inl ⟨c, _, hc, (State.endCampaign_live hc (by rw [hr]; rfl) _ _).1, hr, rfl⟩
        · exact .inr (List.forall₂_same.mpr fun _ _ => id)

/-- Tried and pending sets only shrink in an examination. -/
theorem State.runPasses_shrinks : ∀ (n k : Nat) (s : State), List.Forall₂
    (fun e d => (k ∈ d.tried → k ∈ e.tried) ∧ (k ∈ d.pending → k ∈ e.pending)) s.roster.entries
      (State.runPasses n k s).roster.entries
  | 0, k, s => List.forall₂_same.mpr fun _ _ => ⟨id, id⟩
  | n + 1, k, s => by
    unfold State.runPasses
    split
    · exact List.forall₂_same.mpr fun _ _ => ⟨id, id⟩
    · rename_i c hc
      split
      · exact List.forall₂_same.mpr fun _ _ => ⟨id, id⟩
      · split
        · rename_i he
          have hr := ((s.passEnded_iff c).mp he).1
          split
          · have := State.runPasses_shrinks n k (s.nextPass k (c.pass.getD 1))
            rw [State.nextPass_entries, List.forall₂_map_left_iff] at this
            exact this.imp fun a b h => ⟨fun hx => (mem_removeNat.mp (h.1 hx)).1, h.2⟩
          · rw [(State.endCampaign_live hc (by rw [hr]; rfl) _ _).2.1, List.forall₂_map_right_iff]
            exact List.forall₂_same.mpr fun e _ => ⟨fun h => absurd h (e.release_at k).2, fun h => absurd h (e.release_at k).1⟩
        · exact List.forall₂_same.mpr fun _ _ => ⟨id, id⟩

theorem State.examineTimes_shrinks (k : Nat) : ∀ n s, List.Forall₂
    (fun e d => (k ∈ d.tried → k ∈ e.tried) ∧ (k ∈ d.pending → k ∈ e.pending)) s.roster.entries
      (State.examineTimes k n s).roster.entries
  | 0, _ => List.forall₂_same.mpr fun _ _ => ⟨id, id⟩
  | n + 1, s => forall₂_trans (State.examineTimes_shrinks k n s) (State.runPasses_shrinks 17 k _)
      fun _ _ _ h g => ⟨fun x => h.1 (g.1 x), fun x => h.2 (g.2 x)⟩

theorem State.examineTimes_lost (k : Nat) : ∀ n s,
    (∃ a b, s.campaign k = some a ∧ (State.examineTimes k n s).campaign k = some b ∧ a.state = .running
      ∧ b.state = .exhausted)
    ∨ (List.Forall₂ (fun e d => k ∈ e.pending → k ∈ d.pending) s.roster.entries (State.examineTimes k n s).roster.entries
      ∧ ∀ b, (State.examineTimes k n s).campaign k = some b → b.state = .running →
        ∃ a, s.campaign k = some a ∧ a.state = .running)
  | 0, s => .inr ⟨List.forall₂_same.mpr fun _ _ => id, fun b hb hr => ⟨b, hb, hr⟩⟩
  | n + 1, s => by
    rcases State.examineTimes_lost k n s with ⟨a, b, h1, h2, h3, h4⟩ | ⟨h, hr⟩
    · obtain ⟨d, hd, -, -, -, -, -, -, h7, -⟩ := (State.examinePass_unsettled (State.examineTimes k n s) k).present b h2
      have := h7 (by rw [h4]; rfl)
      subst this
      exact .inl ⟨a, d, h1, hd, h3, h4⟩
    · rcases State.runPasses_lost 17 k (State.examineTimes k n s) with ⟨a, b, h1, h2, h3, h4⟩ | g
      · obtain ⟨c, hc, hcr⟩ := hr a h1 h3
        exact .inl ⟨c, b, hc, h2, hcr, h4⟩
      · refine .inr ⟨forall₂_trans h g fun _ _ _ x y z => y (x z), fun b hb hbr => ?_⟩
        cases hx : (State.examineTimes k n s).campaign k with
        | none =>
          have := (State.examinePass_unsettled (State.examineTimes k n s) k).absent hx
          rw [show (State.examineTimes k (n + 1) s).campaign k = _ from this] at hb
          cases hb
        | some a =>
          obtain ⟨d, hd, -, -, -, -, -, -, h7, h8⟩ :=
            (State.examinePass_unsettled (State.examineTimes k n s) k).present a hx
          have hdb : d = b := Option.some.inj (hd.symm.trans hb)
          subst hdb
          have : a.state = .running := by
            by_contra hne
            have ho : (State.examineTimes k n s).examinePass k = State.examineTimes k n s :=
              State.examinePass_open fun c hc => by
                rw [hx] at hc
                injection hc with hc
                subst hc
                rw [Bool.eq_false_iff]
                exact fun he => hne ((State.passEnded_iff _ _).mp he).1
            rw [ho, hx] at hd
            injection hd with hd
            subst hd
            exact hne hbr
          exact hr a hx this

/-! ## The examinations that follow reports -/

/-- The state agrees at every slot with a number of examinations of that slot. -/
def Examined (s t : State) : Prop := ∀ k, ∃ n, AgreeAt k (State.examineTimes k n s) t

/-- An examination adds one to its slot's number. -/
theorem Examined.examine {s t : State} {j k n : Nat} (h : AgreeAt j (State.examineTimes j n s) t) :
    AgreeAt j (State.examineTimes j (if j = k then n + 1 else n) s) (t.examinePass k) := by
  split
  · rename_i hj
    subst hj
    exact h.examinePass
  · rename_i hj
    exact h.trans ((State.examinePass_only t k).agreeAt (State.examinePass_touch t k) hj)

/-- After the examinations of the silenced, every slot has been examined a number of times, at least once where it is among
them and its campaign was past its first pass. -/
theorem State.examineSilenced_at (l : List Nat) : ∀ {s t : State} {j n : Nat}, AgreeAt j (State.examineTimes j n s) t →
    ∃ m, n ≤ m ∧ AgreeAt j (State.examineTimes j m s) (t.examineSilenced l)
      ∧ (j ∈ l → ∀ c, s.campaign j = some c → 1 < c.pass.getD 1 → 1 ≤ m) := by
  induction l with
  | nil => exact fun h => ⟨_, Nat.le_refl _, h, fun hj => by cases hj⟩
  | cons k l ih =>
    intro s t j n h
    have hstep : ∃ m, n ≤ m ∧ AgreeAt j (State.examineTimes j m s) (t.examineSilenced [k])
        ∧ (j = k → ∀ c, s.campaign j = some c → 1 < c.pass.getD 1 → 1 ≤ m) := by
      show ∃ m, n ≤ m ∧ AgreeAt j (State.examineTimes j m s) (match t.campaign k with
        | some c => if 1 < c.pass.getD 1 then t.examinePass k else t
        | none => t) ∧ _
      split
      · rename_i c hc
        split
        · have := Examined.examine (k := k) h
          split at this
          · exact ⟨n + 1, by omega, this, fun _ _ _ _ => by omega⟩
          · rename_i hj
            exact ⟨n, Nat.le_refl _, this, fun x => absurd x hj⟩
        · rename_i hp
          refine ⟨n, Nat.le_refl _, h, fun hj a ha hpa => ?_⟩
          subst hj
          by_contra hn
          have : n = 0 := by omega
          subst this
          have := h.campaign.symm.trans hc
          have ha' : (State.examineTimes j 0 s).campaign j = some a := ha
          rw [ha'] at this
          injection this with this
          subst this
          exact hp hpa
      · rename_i hc
        refine ⟨n, Nat.le_refl _, h, fun hj a ha hpa => ?_⟩
        subst hj
        by_contra hn
        have : n = 0 := by omega
        subst this
        have := h.campaign.symm.trans hc
        have ha' : (State.examineTimes j 0 s).campaign j = some a := ha
        rw [ha'] at this
        cases this
    obtain ⟨m, hm, h1, h2⟩ := hstep
    obtain ⟨m', hm', h3, h4⟩ := ih h1
    refine ⟨m', by omega, h3, fun hj c hc hp => ?_⟩
    rcases List.mem_cons.mp hj with hj | hj
    · have := h2 hj c hc hp
      omega
    · exact h4 hj c hc hp

theorem forall₂_findBy {α : Type} {R : α → α → Prop} {key : α → Nat} {l m : List α} (h : List.Forall₂ R l m)
    (hk : ∀ a b, R a b → key b = key a) (k : Nat) :
    (findBy key k l = none ∧ findBy key k m = none) ∨ ∃ a b, findBy key k l = some a ∧ findBy key k m = some b ∧ R a b := by
  unfold findBy
  induction h with
  | nil => exact .inl ⟨rfl, rfl⟩
  | @cons a b l m h _ ih =>
    simp only [List.find?_cons, hk a b h]
    cases key a == k with
    | true => exact .inr ⟨a, b, rfl, rfl, h⟩
    | false => exact ih

/-- A series of examinations is what `PassesExamined` says. -/
theorem Examined.passes {s t : State} (ho : OnlyCampaigns s t) (hs : t.store = s.store) (hc : ∃ ended, s.Concludes t ended)
    {must : Campaign → Prop}
    (h : ∀ k, ∃ n, AgreeAt k (State.examineTimes k n s) t ∧ ∀ c, s.campaign k = some c → must c → 1 ≤ n) :
    s.PassesExamined t must where
  only := ho
  store := hs
  ended := hc
  records := fun k c hc => by
    obtain ⟨n, h1, h2⟩ := h k
    cases n with
    | zero =>
      exact ⟨c, h1.campaign.trans hc, .inl rfl, fun hm => absurd (h2 c hc hm) (by omega)⟩
    | succ n =>
      obtain ⟨d, hd, hp⟩ := State.examineTimes_taken hc n
      have := (AgreeAt.refl k s).passTaken h1 (State.campaign_some hc).2 hp
      exact ⟨d, h1.campaign.trans hd, .inr this, fun _ => this⟩
  sets := fun u e d he hd => by
    have key : ∀ k, (k ∈ d.tried → k ∈ e.tried) ∧ (k ∈ d.pending → k ∈ e.pending) ∧ (k ∈ e.pending → k ∉ d.pending →
        ∃ a b, s.campaign k = some a ∧ t.campaign k = some b ∧ a.state = .running ∧ b.state = .exhausted) := by
      intro k
      obtain ⟨n, h1, -⟩ := h k
      have f1 := State.examineTimes_shrinks k n s
      obtain ⟨f, f2, f3⟩ := (State.examineTimes_only k n s).entries
      have hu : ∀ x, (f x).unit = x.unit := fun x =>
        (congrArg Entry.unit (f3 x).1 : (f x).forgetSlots.unit = x.forgetSlots.unit)
      have he' : (State.examineTimes k n s).entry u = some (f e) := by
        unfold State.entry at he ⊢
        rw [f2, findBy_map_unit hu, he]; rfl
      have h2 : Entry.AgreeAt k (f e) d := by
        rcases forall₂_findBy (key := Entry.unit) h1.entries (fun _ _ x => x.unit) u with ⟨g1, -⟩ | ⟨a, b, g1, g2, g3⟩
        · have he' : findBy Entry.unit u _ = _ := he'
          rw [g1] at he'; cases he'
        · have e1 := Option.some.inj (g1.symm.trans he')
          have e2 := Option.some.inj (g2.symm.trans hd)
          subst e1 e2
          exact g3
      have hmem := (State.entry_some he).1
      rw [f2, List.forall₂_map_right_iff] at f1
      have f1 := List.forall₂_same.mp f1 e hmem
      refine ⟨fun x => f1.1 (h2.2.2.mp x), fun x => f1.2 (h2.2.1.mp x), fun hp hn => ?_⟩
      rcases State.examineTimes_lost k n s with ⟨a, b, g1, g2, g3, g4⟩ | ⟨g, -⟩
      · exact ⟨a, b, g1, h1.campaign.trans g2, g3, g4⟩
      · rw [f2, List.forall₂_map_right_iff] at g
        exact absurd (h2.2.1.mpr (List.forall₂_same.mp g e hmem hp)) hn
    exact ⟨fun k => (key k).1, fun k => (key k).2.1, fun k => (key k).2.2⟩

end Sys2Proof.Machine
end

