-- ==== Sys2Proof/Laws/Activation.lean ====
section
/-! SUPPORT. Entry into RUNNING: the account that is opened, what becomes of the older campaigns of the class, and the check
for something to deliver (R55 to R60). -/

namespace Sys2Proof.Machine

/-! ## Slots that an operation leaves alone -/

/-- Between two moments the slots of `keep` kept their campaigns and their places in the sets of the roster, and every entry
kept its other fields. -/
structure Untouched (keep : Nat → Prop) (s t : State) : Prop where
  campaign : ∀ j, keep j → t.campaign j = s.campaign j
  line     : t.line = s.line
  time     : t.clock.time = s.clock.time
  entries  : ∃ f : Entry → Entry, t.roster.entries = s.roster.entries.map f ∧ ∀ e, (f e).forgetSlots = e.forgetSlots
    ∧ ∀ j, keep j → (j ∈ (f e).pending ↔ j ∈ e.pending) ∧ (j ∈ (f e).tried ↔ j ∈ e.tried)

theorem Untouched.refl (keep : Nat → Prop) (s : State) : Untouched keep s s :=
  ⟨fun _ _ => rfl, rfl, rfl, id, by simp, fun _ => ⟨rfl, fun _ _ => ⟨Iff.rfl, Iff.rfl⟩⟩⟩

theorem Untouched.trans {keep : Nat → Prop} {s t u : State} (h : Untouched keep s t) (g : Untouched keep t u) :
    Untouched keep s u where
  campaign := fun j hj => (g.campaign j hj).trans (h.campaign j hj)
  line := g.line.trans h.line
  time := g.time.trans h.time
  entries := by
    obtain ⟨f, f1, f2⟩ := h.entries
    obtain ⟨m, m1, m2⟩ := g.entries
    refine ⟨m ∘ f, by rw [m1, f1, List.map_map], fun e => ⟨(m2 _).1.trans (f2 e).1, fun j hj => ?_⟩⟩
    exact ⟨((m2 _).2 j hj).1.trans ((f2 e).2 j hj).1, ((m2 _).2 j hj).2.trans ((f2 e).2 j hj).2⟩

theorem Untouched.mono {keep less : Nat → Prop} {s t : State} (h : Untouched keep s t) (hk : ∀ j, less j → keep j) :
    Untouched less s t := by
  obtain ⟨f, f1, f2⟩ := h.entries
  exact ⟨fun j hj => h.campaign j (hk j hj), h.line, h.time, f, f1, fun e => ⟨(f2 e).1, fun j hj => (f2 e).2 j (hk j hj)⟩⟩

theorem OnlySlot.untouched {k : Nat} {s t : State} (h : OnlySlot k s t) (ho : OnlyCampaigns s t) :
    Untouched (· ≠ k) s t := by
  obtain ⟨f, f1, f2⟩ := h.entries
  exact ⟨h.others, ho.line, by rw [ho.clock], f, f1, fun e => ⟨(f2 e).1, (f2 e).2.1⟩⟩

/-! ## The account (R56, R57) -/

theorem State.reaches_openMembers (s : State) (c : Campaign) :
    s.openMembers c.target = s.roster.entries.filter (s.reaches c) := by
  unfold State.openMembers State.members
  rw [List.filter_filter]
  exact List.filter_congr fun e _ => Bool.and_comm _ _

theorem State.barredMembers_filter (s : State) (t : Target) :
    s.barredMembers t = s.roster.entries.filter (fun e => t.names e && s.barred e) := by
  unfold State.barredMembers State.members
  rw [List.filter_filter]
  exact List.filter_congr fun e _ => Bool.and_comm _ _

/-- An entry after the account of `c` was opened. -/
def State.owing (s : State) (c : Campaign) (e : Entry) : Entry :=
  if c.mode = .confirmed ∧ s.reaches c e = true then { e with pending := insertNat c.slot e.pending } else e

theorem State.owing_forget (s : State) (c : Campaign) (e : Entry) : (s.owing c e).forgetSlots = e.forgetSlots := by
  unfold State.owing; split <;> rfl

theorem State.owing_other (s : State) (c : Campaign) (e : Entry) {j : Nat} (hj : j ≠ c.slot) :
    (j ∈ (s.owing c e).pending ↔ j ∈ e.pending) ∧ (j ∈ (s.owing c e).tried ↔ j ∈ e.tried) := by
  unfold State.owing
  split
  · exact ⟨by simp [hj], Iff.rfl⟩
  · exact ⟨Iff.rfl, Iff.rfl⟩

theorem State.openAccount_opened {s : State} {k : Nat} {c : Campaign} (hc : s.campaign k = some c) :
    (s.openAccount k).campaign k = some (s.opened c)
      ∧ (s.openAccount k).roster.entries = s.roster.entries.map (s.owing c) := by
  have hk := (State.campaign_some hc).2
  unfold State.openAccount
  rw [hc]
  dsimp only
  rw [State.reaches_openMembers, State.barredMembers_filter]
  cases ht : c.terms with
  | confirmed limit =>
    have hm : c.mode = .confirmed := Campaign.mode_confirmed ht
    have h := State.campaign_update (s := s) (k := k) (g := fun d =>
        { d with
          state := .running
          targets := some (s.roster.entries.filter (s.reaches c)).length
          pass := some 1
          counts := { d.counts with
            barred := (s.roster.entries.filter (fun e => c.target.names e && s.barred e)).length
            outstanding := (s.roster.entries.filter (s.reaches c)).length } }) (fun _ h => h)
    rw [hc] at h
    refine ⟨?_, ?_⟩
    · refine Eq.trans h (congrArg some ?_)
      unfold State.opened
      split
      · rfl
      · rename_i hx; rw [ht] at hx; cases hx
    · refine List.map_congr_left fun e _ => ?_
      unfold State.owing State.reaches
      simp only [hm, true_and, hk]
  | broadcast base budget interval =>
    have hm : c.mode = .broadcast := Campaign.mode_broadcast ht
    have h := State.campaign_update (s := s) (k := k) (g := fun d =>
        { d with
          state := .running
          targets := some (s.roster.entries.filter (s.reaches c)).length
          counts := { d.counts with
            barred := (s.roster.entries.filter (fun e => c.target.names e && s.barred e)).length }
          run := some ⟨s.targetPhases c.target, loadRemaining (s.targetPhases c.target) base, .const 0,
            interval.map (fun _ => 0)⟩ }) (fun _ h => h)
    rw [hc] at h
    refine ⟨?_, ?_⟩
    · refine Eq.trans h (congrArg some ?_)
      unfold State.opened
      split
      · rename_i hx; rw [ht] at hx; cases hx
      · rename_i hx
        rw [ht] at hx
        injection hx with h1 h2 h3
        subst h1 h2 h3
        rfl
    · have : s.owing c = id := by
        funext e
        unfold State.owing
        rw [if_neg (by rintro ⟨h, -⟩; rw [hm] at h; cases h)]; rfl
      rw [this, List.map_id]; rfl

theorem State.opened_fields (s : State) (c : Campaign) : (s.opened c).hostFields = c.hostFields
    ∧ (s.opened c).state = .running ∧ (s.opened c).mode = c.mode := by
  unfold State.opened
  split
  · exact ⟨rfl, rfl, rfl⟩
  · exact ⟨rfl, rfl, rfl⟩

theorem State.openAccount_untouched {s : State} {k : Nat} {c : Campaign} (hc : s.campaign k = some c) :
    Untouched (· ≠ k) s (s.openAccount k) := by
  have hk := (State.campaign_some hc).2
  have ho := State.openAccount_touch s k
  refine ⟨fun j hj => ?_, ho.line, by rw [ho.clock], s.owing c, (State.openAccount_opened hc).2,
    fun e => ⟨s.owing_forget c e, fun j hj => s.owing_other c e (hk ▸ hj)⟩⟩
  unfold State.openAccount
  rw [hc]
  dsimp only
  split
  · exact findBy_updateBy_other (fun _ h => h) hj
  · exact findBy_updateBy_other (fun _ h => h) hj

/-! ## A pass taken on part of a roster -/

/-- A pass taken on a roster some receivers of which were given up is one taken without them. -/
theorem Campaign.PassTaken.of_map {l m aft : List Entry} {F : Entry → Entry} {p : Entry → Bool} {c d : Campaign}
    {flying : Bool} {now : Option Nat} (hm : m = l.map F)
    (hF : ∀ e ∈ l, (F e).state = e.state
      ∧ (p e = true → (c.slot ∈ (F e).pending ↔ c.slot ∈ e.pending) ∧ (c.slot ∈ (F e).tried ↔ c.slot ∈ e.tried))
      ∧ (p e = false → c.slot ∉ (F e).pending))
    (h : Campaign.PassTaken m flying now aft c d) : Campaign.PassTaken (l.filter p) flying now aft c d := by
  subst hm
  have h1 : ∀ e ∈ l, c.Owed (F e) ↔ p e = true ∧ c.Owed e := by
    intro e he
    obtain ⟨f1, f2, f3⟩ := hF e he
    unfold Campaign.Owed
    rw [f1]
    cases hp : p e with
    | true => rw [(f2 hp).1, (f2 hp).2]; simp
    | false => exact iff_of_false (fun x => f3 hp x.1) (fun x => by cases x.1)
  have h2 : ∀ e ∈ l, c.slot ∈ (F e).pending ↔ p e = true ∧ c.slot ∈ e.pending := by
    intro e he
    obtain ⟨-, f2, f3⟩ := hF e he
    cases hp : p e with
    | true => rw [(f2 hp).1]; simp
    | false => exact iff_of_false (f3 hp) (fun x => by cases x.1)
  have no : (∀ e ∈ l.filter p, ¬ c.Owed e) → ∀ e ∈ l.map F, ¬ c.Owed e := by
    intro hn e he
    obtain ⟨x, hx, rfl⟩ := List.mem_map.mp he
    exact fun ho => hn x (List.mem_filter.mpr ⟨hx, ((h1 x hx).mp ho).1⟩) ((h1 x hx).mp ho).2
  refine ⟨fun hg => h.goesOn ?_, fun limit q a1 a2 a3 a4 a5 a6 a7 a8 => h.next limit q a1 a2 a3 a4 (no a5) a6 a7 ?_,
    fun limit q a1 a2 a3 a4 a5 a6 a7 a8 a9 => h.last limit q a1 a2 a3 a4 (no a5) a6 a7 a8 ?_⟩
  · refine hg.imp id (Or.imp id (Or.imp id ?_))
    rintro ⟨e, he, ho⟩
    obtain ⟨he, hp⟩ := List.mem_filter.mp he
    exact ⟨F e, List.mem_map.mpr ⟨e, he, rfl⟩, (h1 e he).mpr ⟨hp, ho⟩⟩
  · obtain ⟨e, he, hp, hs⟩ := a8
    obtain ⟨he, hpe⟩ := List.mem_filter.mp he
    exact ⟨F e, List.mem_map.mpr ⟨e, he, rfl⟩, (h2 e he).mpr ⟨hpe, hp⟩, by rw [(hF e he).1]; exact hs⟩
  · refine a9.imp id fun hs e he => ?_
    obtain ⟨x, hx, rfl⟩ := List.mem_map.mp he
    intro hp
    obtain ⟨g1, g2⟩ := (h2 x hx).mp hp
    rw [(hF x hx).1]
    exact hs x (List.mem_filter.mpr ⟨hx, g1⟩) g2

/-- What was taken of a pass is read from any later roster that keeps the slot. -/
theorem Campaign.PassTaken.later {l m : List Entry} {F : Entry → Entry} {l0 : List Entry} {c d : Campaign} {flying : Bool}
    {now : Option Nat} (hm : m = l.map F)
    (hF : ∀ e, (c.slot ∈ (F e).pending ↔ c.slot ∈ e.pending) ∧ (c.slot ∈ (F e).tried ↔ c.slot ∈ e.tried))
    (h : Campaign.PassTaken l0 flying now l c d) : Campaign.PassTaken l0 flying now m c d := by
  subst hm
  refine ⟨h.goesOn, fun limit q a1 a2 a3 a4 a5 a6 a7 a8 => ?_, fun limit q a1 a2 a3 a4 a5 a6 a7 a8 a9 => ?_⟩
  · obtain ⟨g1, g2⟩ := h.next limit q a1 a2 a3 a4 a5 a6 a7 a8
    refine ⟨g1, fun e he => ?_⟩
    obtain ⟨x, hx, rfl⟩ := List.mem_map.mp he
    rw [(hF x).2]; exact g2 x hx
  · obtain ⟨g1, g2⟩ := h.last limit q a1 a2 a3 a4 a5 a6 a7 a8 a9
    refine ⟨g1, fun e he => ?_⟩
    obtain ⟨x, hx, rfl⟩ := List.mem_map.mp he
    rw [(hF x).1, (hF x).2]; exact g2 x hx

/-! ## Supersession (R58, R59) -/

/-- Where an entry of an examined roster comes from. -/
theorem State.examinePass_entry {s : State} {k : Nat} {e : Entry} (he : e ∈ (s.examinePass k).roster.entries) :
    ∃ d ∈ s.roster.entries, e.forgetSlots = d.forgetSlots ∧ (k ∈ e.pending → k ∈ d.pending) ∧ (k ∈ e.tried → k ∈ d.tried) := by
  obtain ⟨f, f1, f2⟩ := (s.examinePass_only k).entries
  have h := State.runPasses_shrinks 17 k s
  rw [show State.runPasses 17 k s = s.examinePass k from rfl, f1, List.forall₂_map_right_iff] at h
  rw [f1, List.mem_map] at he
  obtain ⟨d, hd, rfl⟩ := he
  have := List.forall₂_same.mp h d hd
  exact ⟨d, hd, (f2 d).1, this.2, this.1⟩

/-- Where an entry comes from after a campaign may have been completed. -/
theorem State.completeIfSettled_entry {s : State} {k : Nat} {r : EndReason} {e : Entry}
    (he : e ∈ (s.completeIfSettled k r).roster.entries) :
    ∃ d ∈ s.roster.entries, e.forgetSlots = d.forgetSlots ∧ (k ∈ e.pending → k ∈ d.pending) ∧ (k ∈ e.tried → k ∈ d.tried) := by
  unfold State.completeIfSettled at he
  split at he
  · rename_i c hc
    split at he
    · rename_i h
      rw [(State.endCampaign_live hc (active_live h.1) _ _).2.1, List.mem_map] at he
      obtain ⟨d, hd, rfl⟩ := he
      exact ⟨d, hd, rfl, fun x => absurd x (d.release_at k).1, fun x => absurd x (d.release_at k).2⟩
    · exact ⟨e, he, rfl, id, id⟩
  · exact ⟨e, he, rfl, id, id⟩

/-- Supersession examines the campaign's own slot without effect. -/
theorem State.supersedeOne_self {s : State} {c : Campaign} {k : Nat} (hc : s.campaign k = some c) :
    s.supersedeOne c k = s := by
  unfold State.supersedeOne
  rw [hc]
  dsimp only
  rw [if_neg (by rintro ⟨h, -⟩; omega)]

theorem State.supersedeOne_fold {c : Campaign} (l : List Nat) : ∀ {s : State}, s.campaign c.slot = some c →
    Untouched (fun j => j = c.slot ∨ j ∉ l) s (l.foldl (fun t k => t.supersedeOne c k) s) := by
  induction l with
  | nil => exact fun {s} _ => .refl _ s
  | cons a l ih =>
    intro s hc
    simp only [List.foldl_cons]
    by_cases ha : a = c.slot
    · have := State.supersedeOne_self (k := a) (ha ▸ hc)
      rw [this]
      exact (ih hc).mono fun j hj => hj.imp id (fun h x => h (List.mem_cons_of_mem _ x))
    · have h1 : Untouched (· ≠ a) s (s.supersedeOne c a) :=
        (State.supersedeOne_only s c a).untouched (State.supersedeOne_touch s c a)
      refine (h1.mono fun j hj => ?_).trans ((ih ?_).mono fun j hj => ?_)
      · rcases hj with rfl | hj
        · exact fun h => ha h.symm
        · exact fun h => hj (h ▸ List.mem_cons_self)
      · rw [h1.campaign _ (fun h => ha h.symm)]; exact hc
      · exact hj.imp id (fun h x => h (List.mem_cons_of_mem _ x))

/-- The state in which `old` has given up the receivers it shares with `new`. -/
def State.givenUp (s : State) (old new n : Nat) : State :=
  (s.setEntries (s.roster.entries.map
      (fun e => if e.pending.contains new && e.pending.contains old then e.release old else e))).updateCampaign old (fun d =>
    { d with counts := { d.counts with superseded := d.counts.superseded + n, outstanding := d.counts.outstanding - n } })

/-- What an older CONFIRMED campaign becomes that shares receivers with a newer one (R58, R94). -/
theorem State.overtake_shared {s : State} {k j : Nat} {old : Campaign} (hj : s.campaign j = some old)
    (ha : old.state.active = true)
    (hs : s.roster.entries.filter (fun e => e.pending.contains k && e.pending.contains j) ≠ []) :
    let n := (s.roster.entries.filter (fun e => e.pending.contains k && e.pending.contains j)).length
    let left : Campaign := { old with counts := { old.counts with
      superseded := old.counts.superseded + n, outstanding := old.counts.outstanding - n } }
    ∃ d, (s.overtake j k).campaign j = some d
      ∧ (left.counts.outstanding = 0 → d = left.ended .complete .overtaken s.clock.time)
      ∧ (left.counts.outstanding ≠ 0 → Campaign.PassTaken (s.givenUp j k n).roster.entries (s.inFlight old) s.clock.time
          (s.overtake j k).roster.entries left d) := by
  intro n left
  have hu : (s.givenUp j k n).campaign j = some left := by
    have := State.campaign_update (s := s.setEntries (s.roster.entries.map
      (fun e => if e.pending.contains k && e.pending.contains j then e.release j else e))) (k := j) (g := fun d =>
        { d with counts := { d.counts with superseded := d.counts.superseded + n, outstanding := d.counts.outstanding - n } })
      (fun _ h => h)
    have hj' : (s.setEntries (s.roster.entries.map
      (fun e => if e.pending.contains k && e.pending.contains j then e.release j else e))).campaign j = some old := hj
    rw [hj'] at this
    exact this
  have hov : s.overtake j k = ((s.givenUp j k n).completeIfSettled j .overtaken).examinePass j := by
    unfold State.overtake
    dsimp only
    rw [if_neg hs]
    rfl
  rw [hov]
  by_cases hz : left.counts.outstanding = 0
  · have hc : (s.givenUp j k n).completeIfSettled j .overtaken = (s.givenUp j k n).endCampaign j .complete .overtaken := by
      unfold State.completeIfSettled
      rw [hu]
      exact if_pos ⟨ha, hz⟩
    have he := (State.endCampaign_live hu (active_live ha) .complete .overtaken).1
    rw [hc, State.examinePass_open fun c hx => ?_]
    · exact ⟨_, he, fun _ => rfl, fun h => absurd hz h⟩
    · rw [he] at hx
      injection hx with hx
      subst hx
      rw [Bool.eq_false_iff]
      intro hp
      have := ((State.passEnded_iff _ _).mp hp).1
      cases this
  · have hc : (s.givenUp j k n).completeIfSettled j .overtaken = s.givenUp j k n := by
      unfold State.completeIfSettled
      rw [hu]
      exact if_neg fun h => hz h.2
    rw [hc]
    obtain ⟨d, h1, h2⟩ := State.examinePass_taken hu
    exact ⟨d, h1, fun h => absurd h hz, fun _ => h2⟩

/-- What became of one older campaign, when `new` was activated on the state `s` (R58, R59). -/
structure State.TakenOver (s t : State) (new : Campaign) (k : Nat) (old : Campaign) : Prop where
  others    : ¬ new.Supersedes old → t.campaign k = some old
  broadcast : new.Supersedes old → old.mode = .broadcast →
    (old.target = new.target → t.campaign k = some { old with
        state := .superseded, reason := some .newer, endedAt := s.clock.time, intervalTimer := none })
    ∧ (old.target ≠ new.target → t.campaign k = some old)
  untouched : new.Supersedes old → old.mode = .confirmed → new.mode = .broadcast ∨ s.shared new old = [] →
    t.campaign k = some old
  overtaken : new.Supersedes old → old.mode = .confirmed → new.mode = .confirmed → s.shared new old ≠ [] →
    let left : Campaign := { old with counts := { old.counts with
      superseded := old.counts.superseded + (s.shared new old).length
      outstanding := old.counts.outstanding - (s.shared new old).length } }
    ∃ d, t.campaign k = some d
      ∧ (left.counts.outstanding = 0 → d = { left with
          state := .complete, reason := some .overtaken, endedAt := s.clock.time, intervalTimer := none })
      ∧ (left.counts.outstanding ≠ 0 → Campaign.PassTaken
          (s.roster.entries.filter (fun e => !(s.reaches new e && e.pending.contains old.slot))) (s.inFlight old)
          s.clock.time t.roster.entries left d)
      ∧ ∀ e ∈ t.roster.entries, s.reaches new e = true → k ∉ e.pending ∧ k ∉ e.tried

theorem State.reaches_forget (s : State) (c : Campaign) {a b : Entry} (h : a.forgetSlots = b.forgetSlots) :
    s.reaches c a = s.reaches c b := by
  have hu : a.unit = b.unit := (congrArg Entry.unit h : a.forgetSlots.unit = b.forgetSlots.unit)
  have hg : a.groups = b.groups := (congrArg Entry.groups h : a.forgetSlots.groups = b.forgetSlots.groups)
  unfold State.reaches State.barred Target.names
  rw [hu, hg]

/-- The examination of one older campaign, in a state that still holds its record and its places. -/
theorem State.supersedeOne_takenOver {s m : State} {new : Campaign} {old : Campaign} {j : Nat} (hj : m.campaign j = some old)
    (hcls : new.order.body.superClass ≠ none) (hl : m.line = s.line)
    (ht : m.clock.time = s.clock.time) {F : Entry → Entry} (hm : m.roster.entries = s.roster.entries.map F)
    (hF : ∀ e ∈ s.roster.entries, (F e).forgetSlots = e.forgetSlots ∧ (j ∈ (F e).pending ↔ j ∈ e.pending)
      ∧ (j ∈ (F e).tried ↔ j ∈ e.tried)
      ∧ (new.slot ∈ (F e).pending ↔ new.mode = .confirmed ∧ s.reaches new e = true))
    (hs : ∀ e ∈ s.roster.entries, j ∈ e.tried → j ∈ e.pending) (c1 : Campaign) (h1 : c1.hostFields = new.hostFields) :
    s.TakenOver (m.supersedeOne c1 j) new j old := by
  have hold := (State.campaign_some hj).2
  simp only [Campaign.hostFields, Prod.mk.injEq] at h1
  obtain ⟨e1, e2, e3, e4, e5, -, -, -⟩ := h1
  have em : c1.mode = new.mode := by unfold Campaign.mode; rw [e5]
  have hshared : ∀ (hc : new.mode = .confirmed),
      m.roster.entries.filter (fun e => e.pending.contains new.slot && e.pending.contains j) = (s.shared new old).map F := by
    intro hc
    rw [hm, List.filter_map]
    unfold State.shared
    congr 1
    refine List.filter_congr fun e he => ?_
    obtain ⟨-, f2, -, f4⟩ := hF e he
    simp only [Function.comp, List.contains_eq_mem, f4, f2, hold, hc, true_and, Bool.decide_eq_true]
  have hin : m.inFlight old = s.inFlight old := by unfold State.inFlight State.works; rw [hl]
  have hcond : (old.seq < c1.seq ∧ old.state.active = true ∧ old.order.body.superClass = c1.order.body.superClass)
      ↔ new.Supersedes old := by
    rw [e2, e3]
    exact ⟨fun h => ⟨h.1, h.2.1, h.2.2, hcls⟩, fun h => ⟨h.1, h.2.1, h.2.2.1⟩⟩
  have hneg : ¬ new.Supersedes old → m.supersedeOne c1 j = m := by
    intro h
    unfold State.supersedeOne
    rw [hj]
    exact if_neg fun hx => h (hcond.mp hx)
  have hpos : new.Supersedes old → m.supersedeOne c1 j = match old.mode, new.mode with
      | .confirmed, .confirmed => m.overtake j new.slot
      | .confirmed, .broadcast => m
      | .broadcast, _ => if old.target = new.target then m.endCampaign j .superseded .newer else m := by
    intro h
    unfold State.supersedeOne
    rw [hj]
    dsimp only
    rw [if_pos (hcond.mpr h), e1, e4, em, hold]
    all_goals cases old.mode <;> cases new.mode <;> rfl
  refine ⟨fun h => ?_, fun h hb => ⟨fun htg => ?_, fun htg => ?_⟩, fun h hc hor => ?_, fun h hc hn hne' => ?_⟩
  · rw [hneg h]; exact hj
  · rw [hpos h, hb]
    dsimp only
    rw [if_pos htg, (State.endCampaign_live hj (active_live h.2.1) _ _).1, ht]
    rfl
  · rw [hpos h, hb]
    dsimp only
    rw [if_neg htg]; exact hj
  · rw [hpos h, hc]
    cases hmode : new.mode with
    | broadcast => exact hj
    | confirmed =>
      rcases hor with hb | hnil
      · rw [hmode] at hb; cases hb
      · have := hshared hmode
        rw [hnil, List.map_nil] at this
        dsimp only
        unfold State.overtake
        dsimp only
        rw [if_pos this]; exact hj
  · intro left
    rw [hpos h, hc, hn]
    dsimp only
    have hsh := hshared hn
    have hlen := congrArg List.length hsh
    rw [List.length_map] at hlen
    obtain ⟨d, d1, d2, d3⟩ := State.overtake_shared (k := new.slot) hj h.2.1 (by
      rw [hsh]; simpa using hne')
    rw [hlen, ht, hin] at d3
    rw [hlen, ht] at d2
    refine ⟨d, d1, d2, fun hz => ?_, ?_⟩
    · refine Campaign.PassTaken.of_map (F := fun e => if (F e).pending.contains new.slot && (F e).pending.contains j then
          (F e).release j else F e) ?_ (fun e he => ?_) (d3 hz)
      · show (m.roster.entries.map _) = _
        rw [hm, List.map_map]; rfl
      · obtain ⟨f1, f2, f3, f4⟩ := hF e he
        have hst : (F e).state = e.state := (congrArg Entry.state f1 : (F e).forgetSlots.state = e.forgetSlots.state)
        have hb : ((F e).pending.contains new.slot && (F e).pending.contains j)
            = (s.reaches new e && e.pending.contains j) := by
          simp only [List.contains_eq_mem, f4, f2, hn, true_and, Bool.decide_eq_true]
        have hslot : left.slot = j := hold
        rw [hb, hslot]
        cases hv : (s.reaches new e && e.pending.contains j) with
        | true =>
          refine ⟨hst, fun hh => by simp at hh, fun _ => ?_⟩
          simp only [if_true]
          exact ((F e).release_at j).1
        | false =>
          simp only [Bool.false_eq_true, if_false]
          exact ⟨hst, fun _ => ⟨f2, f3⟩, fun hh => by simp at hh⟩
    · intro e he hr
      have hov : m.overtake j new.slot
          = ((m.givenUp j new.slot (s.shared new old).length).completeIfSettled j .overtaken).examinePass j := by
        unfold State.overtake
        dsimp only
        rw [hlen, if_neg (by rw [hsh]; simpa using hne')]
        rfl
      rw [hov] at he
      obtain ⟨x, hx, x1, x2, x3⟩ := State.examinePass_entry he
      obtain ⟨y, hy, y1, y2, y3⟩ := State.completeIfSettled_entry hx
      have hy : y ∈ m.roster.entries.map _ := hy
      rw [hm, List.map_map, List.mem_map] at hy
      obtain ⟨z, hz, rfl⟩ := hy
      obtain ⟨f1, f2, f3, f4⟩ := hF z hz
      have hrz : s.reaches new z = true := by
        rw [← hr, s.reaches_forget new (x1.trans (y1.trans ?_))]
        simp only [Function.comp]
        split
        · exact f1
        · exact f1
      suffices h : j ∉ ((fun e => if e.pending.contains new.slot && e.pending.contains j then e.release j else e) (F z)).pending
          ∧ j ∉ ((fun e => if e.pending.contains new.slot && e.pending.contains j then e.release j else e) (F z)).tried from
        ⟨fun hh => h.1 (y2 (x2 hh)), fun hh => h.2 (y3 (x3 hh))⟩
      dsimp only
      split
      · exact (F z).release_at j
      · rename_i hno
        have hp : j ∉ z.pending := fun hh => hno (by
          simp only [List.contains_eq_mem, f4, f2, hn, hrz, hh, and_self, decide_true, Bool.and_self])
        exact ⟨fun hh => hp (f2.mp hh), fun hh => hp (hs z hz (f3.mp hh))⟩

/-- What became of an older campaign is read from any later state that leaves its slot alone. -/
theorem State.TakenOver.later {s t u : State} {new old : Campaign} {j : Nat} (hj : old.slot = j) {keep : Nat → Prop}
    (hu : Untouched keep t u) (hk : keep j) (h : s.TakenOver t new j old) : s.TakenOver u new j old := by
  have hc := hu.campaign j hk
  obtain ⟨f, f1, f2⟩ := hu.entries
  refine ⟨fun a => hc.trans (h.others a),
    fun a b => ⟨fun x => hc.trans ((h.broadcast a b).1 x), fun x => hc.trans ((h.broadcast a b).2 x)⟩,
    fun a b x => hc.trans (h.untouched a b x), fun a b x y => ?_⟩
  obtain ⟨d, d1, d2, d3, d4⟩ := h.overtaken a b x y
  refine ⟨d, hc.trans d1, d2, fun hz => (d3 hz).later f1 (fun e => ?_), fun e he hr => ?_⟩
  · show (old.slot ∈ _ ↔ old.slot ∈ _) ∧ (old.slot ∈ _ ↔ old.slot ∈ _)
    rw [hj]
    exact (f2 e).2 j hk
  · rw [f1, List.mem_map] at he
    obtain ⟨x, hx, rfl⟩ := he
    rw [((f2 x).2 j hk).1, ((f2 x).2 j hk).2]
    exact d4 x hx (by rw [← hr]; exact (s.reaches_forget new (f2 x).1).symm)

/-- Step 3 of activation, after the account was opened. -/
theorem State.supersede_takenOver {s a : State} {new c1 : Campaign} (h1 : c1.hostFields = new.hostFields)
    (ha : a.campaign new.slot = some c1) (hl : a.line = s.line) (ht : a.clock.time = s.clock.time) {F : Entry → Entry}
    (he : a.roster.entries = s.roster.entries.map F)
    (hF : ∀ e ∈ s.roster.entries, (F e).forgetSlots = e.forgetSlots
      ∧ (∀ j, j ≠ new.slot → (j ∈ (F e).pending ↔ j ∈ e.pending) ∧ (j ∈ (F e).tried ↔ j ∈ e.tried))
      ∧ (new.slot ∈ (F e).pending ↔ new.mode = .confirmed ∧ s.reaches new e = true))
    (hs : ∀ e ∈ s.roster.entries, ∀ j ∈ e.tried, j ∈ e.pending) {j : Nat} {old : Campaign} (hj : a.campaign j = some old)
    (hne : j ≠ new.slot) (h16 : j < 16) : s.TakenOver (a.supersede new.slot) new j old := by
  have hslot : c1.slot = new.slot := congrArg Prod.fst h1
  have hbody : c1.order.body = new.order.body := by
    simp only [Campaign.hostFields, Prod.mk.injEq] at h1
    rw [h1.2.2.1]
  unfold State.supersede
  rw [ha]
  dsimp only
  split
  · rename_i hn
    rw [hbody] at hn
    have hno : ¬ new.Supersedes old := fun h => h.2.2.2 hn
    exact ⟨fun _ => hj, fun h => absurd h hno, fun h => absurd h hno, fun h => absurd h hno⟩
  · rename_i x hx
    rw [hbody] at hx
    obtain ⟨l, m, hlm⟩ := List.append_of_mem (show j ∈ allSlots from List.mem_range.mpr h16)
    have hnd : allSlots.Nodup := List.nodup_range
    rw [hlm] at hnd ⊢
    have hjl : j ∉ l := fun h => (List.nodup_append.mp hnd).2.2 j h j List.mem_cons_self rfl
    have hjm : j ∉ m := (List.nodup_cons.mp (List.nodup_append.mp hnd).2.1).1
    rw [List.foldl_append, List.foldl_cons]
    have g1 := State.supersedeOne_fold l (s := a) (c := c1) (hslot ▸ ha)
    generalize List.foldl (fun t k => t.supersedeOne c1 k) a l = b at g1 ⊢
    have g2 : Untouched (· ≠ j) b (b.supersedeOne c1 j) :=
      (b.supersedeOne_only c1 j).untouched (b.supersedeOne_touch c1 j)
    have hb : (b.supersedeOne c1 j).campaign c1.slot = some c1 := by
      rw [g2.campaign _ (by rw [hslot]; exact fun h => hne h.symm), g1.campaign _ (.inl rfl), hslot]
      exact ha
    have g3 := State.supersedeOne_fold m hb
    refine State.TakenOver.later (State.campaign_some hj).2 g3 (.inr hjm) ?_
    obtain ⟨f, f1, f2⟩ := g1.entries
    refine State.supersedeOne_takenOver (F := f ∘ F) ((g1.campaign j (.inr hjl)).trans hj) (by rw [hx]; exact nofun)
      (g1.line.trans hl) (g1.time.trans ht) (by rw [f1, he, List.map_map]) (fun e hm => ?_) (fun e hm => hs e hm j) c1 h1
    obtain ⟨a1, a2, a3⟩ := hF e hm
    obtain ⟨b1, b2⟩ := f2 (F e)
    refine ⟨b1.trans a1, (b2 j (.inr hjl)).1.trans (a2 j hne).1, (b2 j (.inr hjl)).2.trans (a2 j hne).2, ?_⟩
    exact ((b2 new.slot (.inl hslot.symm)).1).trans a3

/-! ## Entry into RUNNING (R55 to R60) -/

theorem State.targetGone_iff (s : State) (t : Target) : s.targetGone t = true ↔ ∃ u, t = .unit u ∧ s.entry u = none := by
  unfold State.targetGone
  cases t with
  | unit u => simp
  | group g => simp
  | all => simp

theorem Untouched.entry {keep : Nat → Prop} {s t : State} (h : Untouched keep s t) (u : Nat) :
    t.entry u = none ↔ s.entry u = none := by
  obtain ⟨f, f1, f2⟩ := h.entries
  unfold State.entry
  rw [f1, findBy_map_unit (f := f)
    (fun e => (congrArg Entry.unit (f2 e).1 : (f e).forgetSlots.unit = e.forgetSlots.unit))]
  simp

/-- A campaign with its account open has nothing to deliver exactly when it reaches nobody, or no phase (R60). -/
theorem State.opened_nothing (s : State) (c : Campaign) : (s.opened c).nothingToDeliver = true ↔
    (c.mode = .confirmed ∧ ∀ e ∈ s.roster.entries, s.reaches c e = false)
      ∨ (c.mode = .broadcast ∧ ∀ ph, (s.targetPhases c.target).get ph = false) := by
  have hm := (s.opened_fields c).2.2
  unfold Campaign.nothingToDeliver
  rw [hm]
  cases ht : c.terms with
  | confirmed limit =>
    have hc : c.mode = .confirmed := Campaign.mode_confirmed ht
    have ho : (s.opened c).targets = some (s.roster.entries.filter (s.reaches c)).length := by
      unfold State.opened
      split <;> rfl
    rw [hc, ho]
    simp [List.filter_eq_nil_iff]
  | broadcast base budget interval =>
    have hc : c.mode = .broadcast := Campaign.mode_broadcast ht
    have ho : ∃ r, (s.opened c).run = some r ∧ r.phases = s.targetPhases c.target := by
      unfold State.opened
      split
      · rename_i hx; rw [ht] at hx; cases hx
      · exact ⟨_, rfl, rfl⟩
    obtain ⟨r, h1, h2⟩ := ho
    rw [hc, h1]
    simp only [Option.any_some, BroadcastRun.aimless, h2, Bool.not_eq_true', List.any_eq_false, PerPhase.mem_toList]
    simp

/-- What becomes of a campaign that enters RUNNING, and of the older ones of its class (R55 to R60). -/
theorem State.enterRunning_starts {s : State} {c : Campaign} (hc : s.campaign c.slot = some c)
    (hz : ∀ e ∈ s.roster.entries, c.slot ∉ e.pending) (hs : ∀ e ∈ s.roster.entries, ∀ j ∈ e.tried, j ∈ e.pending)
    (h16 : ∀ j d, s.campaign j = some d → j < 16) :
    ∃ d, (s.enterRunning c.slot).campaign c.slot = some d ∧ s.Starts (s.enterRunning c.slot) c d
      ∧ s.Superseded (s.enterRunning c.slot) c := by
  obtain ⟨o1, o2⟩ := State.openAccount_opened hc
  obtain ⟨p1, p2, p3⟩ := s.opened_fields c
  have u1 := State.openAccount_untouched hc
  have hF : ∀ e ∈ s.roster.entries, (s.owing c e).forgetSlots = e.forgetSlots
      ∧ (∀ j, j ≠ c.slot → (j ∈ (s.owing c e).pending ↔ j ∈ e.pending) ∧ (j ∈ (s.owing c e).tried ↔ j ∈ e.tried))
      ∧ (c.slot ∈ (s.owing c e).pending ↔ c.mode = .confirmed ∧ s.reaches c e = true) := by
    intro e he
    refine ⟨s.owing_forget c e, fun j hj => s.owing_other c e hj, ?_⟩
    unfold State.owing
    split
    · rename_i h; exact iff_of_true (mem_insertNat.mpr (.inl rfl)) h
    · rename_i h; exact iff_of_false (hz e he) h
  -- the state after supersession
  have hsup : Untouched (· = c.slot) (s.openAccount c.slot) ((s.openAccount c.slot).supersede c.slot) := by
    unfold State.supersede
    rw [o1]
    dsimp only
    split
    · exact .refl _ _
    · exact (State.supersedeOne_fold allSlots (s := s.openAccount c.slot) (c := s.opened c)
        (by rw [show (s.opened c).slot = c.slot from congrArg Prod.fst p1]; exact o1)).mono
          fun j hj => .inl (hj.trans (congrArg Prod.fst p1).symm)
  have hto : ∀ j old, s.campaign j = some old → j ≠ c.slot →
      s.TakenOver ((s.openAccount c.slot).supersede c.slot) c j old := fun j old hj hne =>
    State.supersede_takenOver p1 o1 u1.line u1.time o2 hF hs ((u1.campaign j hne).trans hj) hne (h16 j old hj)
  show ∃ d, (State.checkWork _ c.slot).campaign c.slot = some d ∧ s.Starts (State.checkWork _ c.slot) c d
    ∧ s.Superseded (State.checkWork _ c.slot) c
  have hbt : ((s.openAccount c.slot).supersede c.slot).clock.time = s.clock.time := hsup.time.trans u1.time
  have hbc : ((s.openAccount c.slot).supersede c.slot).campaign c.slot = some (s.opened c) :=
    (hsup.campaign _ rfl).trans o1
  have hbe : ∀ u, ((s.openAccount c.slot).supersede c.slot).entry u = none ↔ s.entry u = none :=
    fun u => (hsup.entry u).trans (u1.entry u)
  have hbp : ∀ e ∈ ((s.openAccount c.slot).supersede c.slot).roster.entries,
      c.slot ∈ e.pending ↔ c.mode = .confirmed ∧ s.reaches c e = true := by
    intro e he
    obtain ⟨f, f1, f2⟩ := hsup.entries
    rw [f1, o2, List.map_map, List.mem_map] at he
    obtain ⟨x, hx, rfl⟩ := he
    obtain ⟨a1, -, a3⟩ := hF x hx
    simp only [Function.comp]
    rw [((f2 _).2 _ rfl).1, a3, s.reaches_forget c ((f2 (s.owing c x)).1.trans a1)]
  generalize (s.openAccount c.slot).supersede c.slot = b at hbt hbc hbe hbp hto ⊢
  have hlive : (s.opened c).state.live = true := by rw [p2]; rfl
  have hgone : b.targetGone (s.opened c).target = true ↔ ∃ u, c.target = .unit u ∧ s.entry u = none := by
    rw [State.targetGone_iff]
    have : (s.opened c).target = c.target := by
      simp only [Campaign.hostFields, Prod.mk.injEq] at p1
      exact p1.2.2.2.1
    rw [this]
    exact exists_congr fun u => and_congr_right fun _ => hbe u
  have hfin : ∀ (v : CampaignState) (r : EndReason), Untouched (· ≠ c.slot) b (b.endCampaign c.slot v r) := fun v r =>
    (b.endCampaign_only c.slot v r).untouched (b.endCampaign_touch c.slot v r)
  have hnone : ∀ (v : CampaignState) (r : EndReason), ∀ e ∈ (b.endCampaign c.slot v r).roster.entries, c.slot ∉ e.pending := by
    intro v r e he
    rw [(State.endCampaign_live hbc hlive v r).2.1, List.mem_map] at he
    obtain ⟨x, -, rfl⟩ := he
    exact (x.release_at c.slot).1
  have hover : ∀ {t : State}, (∀ j old, s.campaign j = some old → j ≠ c.slot → s.TakenOver t c j old) → s.Superseded t c :=
    fun h => ⟨fun k old a b x => (h k old a b).others x, fun k old a b x y => (h k old a b).broadcast x y,
      fun k old a b x y z => (h k old a b).untouched x y z, fun k old a b x y z w => (h k old a b).overtaken x y z w⟩
  have hlater : ∀ (v : CampaignState) (r : EndReason), s.Superseded (b.endCampaign c.slot v r) c := fun v r =>
    hover fun j old hj hne => (hto j old hj hne).later (State.campaign_some hj).2 (hfin v r) hne
  unfold State.checkWork
  rw [hbc]
  dsimp only
  by_cases hg : b.targetGone (s.opened c).target = true
  · rw [if_pos hg]
    have hg' := hgone.mp hg
    refine ⟨_, (State.endCampaign_live hbc hlive _ _).1, ⟨fun _ => by rw [hbt]; rfl, fun h => ?_, fun h => ?_, fun e he => ?_⟩,
      hlater _ _⟩
    · obtain ⟨u, h1, h2⟩ := hg'; exact absurd h2 (h u h1)
    · obtain ⟨u, h1, h2⟩ := hg'; exact absurd h2 (h u h1)
    · exact iff_of_false (hnone _ _ e he) (by rintro ⟨h, -⟩; cases h)
  · rw [if_neg hg]
    have hg' := fun h => hg (hgone.mpr h)
    by_cases hn : (s.opened c).nothingToDeliver = true
    · rw [if_pos hn]
      have hn' := (s.opened_nothing c).mp hn
      refine ⟨_, (State.endCampaign_live hbc hlive _ _).1,
        ⟨fun h => absurd h hg', fun _ _ => by rw [hbt]; rfl, fun _ h => ?_, fun e he => ?_⟩, hlater _ _⟩
      · exfalso
        rcases h with ⟨h1, e, h2, h3⟩ | ⟨h1, ph, h2⟩ <;> rcases hn' with ⟨g1, g2⟩ | ⟨g1, g2⟩
        · rw [g2 e h2] at h3; cases h3
        · rw [h1] at g1; cases g1
        · rw [h1] at g1; cases g1
        · rw [g2 ph] at h2; cases h2
      · exact iff_of_false (hnone _ _ e he) (by rintro ⟨h, -⟩; cases h)
    · rw [if_neg hn]
      refine ⟨_, hbc, ⟨fun h => absurd h hg', fun _ h => absurd ((s.opened_nothing c).mpr h) hn, fun _ _ => rfl,
        fun e he => ?_⟩, hover hto⟩
      rw [hbp e he, p2]
      simp

end Sys2Proof.Machine
end

