-- ==== Sys2Proof/Laws/Codec.lean ====
section
/-! SUPPORT. Each piece of a line frame read back from its bytes: numbers, the check, the route, the effective time, the
points, a body, a fragment; and the search for a frame on the serial line. -/

namespace Sys2Proof.Machine

/-! ## The serial line -/

theorem dropWhile_before {before l : List RxChar} (hb : ∀ c ∈ before, isMarker c = false) :
    (before ++ l).dropWhile (fun c => !isMarker c) = l.dropWhile (fun c => !isMarker c) := by
  induction before with
  | nil => rfl
  | cons a r ih =>
    rw [List.cons_append, List.dropWhile_cons, if_pos (by simp [hb a (by simp)])]
    exact ih (fun c hc => hb c (by simp [hc]))

/-- Any two bounds above the number of characters find the same frame. -/
theorem nextFrame_fuel : ∀ (n m : Nat) (cs : List RxChar), cs.length < n → cs.length < m →
    nextFrame n cs = nextFrame m cs
  | 0, _, _, h, _ => by omega
  | _, 0, _, _, h => by omega
  | n + 1, m + 1, cs, hn, hm => by
    simp only [nextFrame]
    have hl : (cs.dropWhile (fun c => !isMarker c)).length ≤ cs.length := (List.dropWhile_sublist _).length_le
    split
    · rfl
    · rfl
    · rename_i mk len rest heq
      rw [heq] at hl
      simp only [List.length_cons] at hl
      have hd : ∀ k, (rest.drop k).length ≤ rest.length := fun k => by simp
      have h0 := nextFrame_fuel n m rest (by omega) (by omega)
      have h1 := fun k => nextFrame_fuel n m (rest.drop k) (by have := hd k; omega) (by have := hd k; omega)
      rw [h0]
      simp only [h1]

/-- Characters before the first start marker are set aside (R187). -/
theorem nextFrame_before {before : List RxChar} (hb : ∀ c ∈ before, isMarker c = false) (n : Nat) (l : List RxChar) :
    nextFrame (n + 1) (before ++ l) = nextFrame (n + 1) l := by
  unfold nextFrame; rw [dropWhile_before hb]

/-! ## The line frames -/

@[simp] theorem bytesOf_length (w n : Nat) : (bytesOf w n).length = w := by
  induction w with
  | zero => rfl
  | succ w ih => simp [bytesOf, ih]

theorem numberOf_foldl (l : List Byte) (k : Nat) : l.foldl (fun n b => n * 256 + b.toNat) k = k * 256 ^ l.length + numberOf l := by
  induction l generalizing k with
  | nil => simp [numberOf]
  | cons b r ih =>
    simp only [List.foldl_cons, numberOf, List.length_cons]
    rw [ih, ih (0 * 256 + b.toNat), Nat.pow_succ]
    simp only [Nat.zero_mul, Nat.zero_add, Nat.add_mul, Nat.mul_assoc, Nat.add_assoc]
    rw [Nat.mul_comm 256 (256 ^ r.length)]

theorem numberOf_cons (b : Byte) (r : List Byte) : numberOf (b :: r) = b.toNat * 256 ^ r.length + numberOf r := by
  show List.foldl _ _ _ = _
  rw [List.foldl_cons, numberOf_foldl]; simp

/-- A number of `w` bytes reads as itself. -/
theorem numberOf_bytesOf (w n : Nat) : numberOf (bytesOf w n) = n % 256 ^ w := by
  induction w with
  | zero => simp [bytesOf, numberOf, Nat.mod_one]
  | succ w ih =>
    rw [bytesOf, numberOf_cons, ih, bytesOf_length, Nat.pow_succ, Nat.mod_mul]
    have : (BitVec.ofNat 8 (n / 256 ^ w)).toNat = n / 256 ^ w % 256 := by simp
    rw [this, Nat.mul_comm, Nat.add_comm]

/-- A run of bytes is split off at its own length. -/
theorem split?_append (a b : List Byte) : split? a.length (a ++ b) = some (a, b) := by
  simp [split?]

/-- A number that fits its width is read off the front of what follows it. -/
theorem number?_bytesOf (w n : Nat) (h : n < 256 ^ w) (rest : List Byte) : number? w (bytesOf w n ++ rest) = some (n, rest) := by
  have := split?_append (bytesOf w n) rest
  rw [bytesOf_length] at this
  rw [number?, this]
  simp [numberOf_bytesOf, Nat.mod_eq_of_lt h]

/-- What a builder closes with its check, a reader opens (R141). -/
theorem checked?_withCheck (l : List Byte) : checked? (withCheck l) = some l := by
  have hlen : (withCheck l).length = l.length + 2 := by simp [withCheck]
  have ht : (withCheck l).take ((withCheck l).length - 2) = l := by rw [hlen]; simp [withCheck]
  have hd : (withCheck l).drop ((withCheck l).length - 2) = bytesOf 2 (checkOf l).toNat := by rw [hlen]; simp [withCheck]
  unfold checked?
  dsimp only
  rw [ht, hd, if_pos]
  refine ⟨by omega, ?_⟩
  rw [numberOf_bytesOf, Nat.mod_eq_of_lt]
  have := (checkOf l).isLt
  omega

theorem routeNumber_append (l : List Nat) (u : Nat) : routeNumber (l ++ [u]) = routeNumber l * 4096 + u := by
  simp [routeNumber]

theorem routeUnits_length : ∀ (r n : Nat), (routeUnits r n).length = r
  | 0, _ => rfl
  | r + 1, n => by simp [routeUnits, routeUnits_length r]

/-- The units of a route come back from its number, which fits 12 bits a unit. -/
theorem routeUnits_routeNumber (l : List Nat) (h : ∀ u ∈ l, u ≤ 4095) : routeUnits l.length (routeNumber l) = l ∧ routeNumber l < 4096 ^ l.length := by
  have : ∀ m : List Nat, (∀ u ∈ m, u ≤ 4095) → routeUnits m.length (routeNumber m.reverse) = m.reverse ∧ routeNumber m.reverse < 4096 ^ m.length := by
    intro m
    induction m with
    | nil => intro _; exact ⟨rfl, by simp [routeNumber]⟩
    | cons a r ih =>
      intro hm
      have ha := hm a (by simp)
      obtain ⟨h1, h2⟩ := ih (fun u hu => hm u (by simp [hu]))
      rw [List.reverse_cons, routeNumber_append, List.length_cons, routeUnits]
      have e1 : (routeNumber r.reverse * 4096 + a) / 4096 = routeNumber r.reverse := by omega
      have e2 : (routeNumber r.reverse * 4096 + a) % 4096 = a := by omega
      rw [e1, e2, h1]
      refine ⟨rfl, ?_⟩
      rw [Nat.pow_succ]; omega
  have := this l.reverse (by simpa using h)
  simpa using this

/-- The bytes of a route are read off as its number with its padding. -/
theorem number?_routeBytes (l : List Nat) (h : ∀ u ∈ l, u ≤ 4095) (hl : l.length ≤ 3) (rest : List Byte) :
    number? (routeLength l.length) (routeBytes l ++ rest) = some (routeNumber l * 2 ^ routePad l.length, rest) := by
  unfold routeBytes
  apply number?_bytesOf
  have := (routeUnits_routeNumber l h).2
  have : l.length = 0 ∨ l.length = 1 ∨ l.length = 2 ∨ l.length = 3 := by omega
  rcases this with h | h | h | h <;> simp only [h] at * <;> simp [routeLength, routePad] at * <;> omega

/-- An effective time that fits comes back with its flags byte. -/
theorem effective?_effectiveBytes (e : Option Nat) (h : timeFits e = true) : effective? (flagsByte e) (effectiveBytes e) = some e := by
  cases e with
  | none => rfl
  | some t =>
    simp [timeFits] at h
    have : (bytesOf 4 t).length = 4 := by simp
    show (if (0x80#8).msb = true then (if (bytesOf 4 t).length = 4 then some (some (numberOf (bytesOf 4 t))) else none) else _) = _
    rw [if_pos (by decide), if_pos this, numberOf_bytesOf, Nat.mod_eq_of_lt (by omega)]

/-- Switch points come back from their bytes, and the rest with them. -/
theorem points?_pointBytes (ps : List Point) (h : ∀ p ∈ ps, p.minute ≤ 1439 ∧ 1 ≤ p.band ∧ p.band ≤ 8) (rest : List Byte) :
    points? ps.length (ps.flatMap pointBytes ++ rest) = some (ps, rest) := by
  induction ps with
  | nil => rfl
  | cons p r ih =>
    have hp := h p (by simp)
    have ih := ih (fun q hq => h q (by simp [hq]))
    simp only [List.length_cons, points?, List.flatMap_cons, List.append_assoc, pointBytes]
    rw [number?_bytesOf _ _ (by omega)]
    dsimp only
    rw [ih]
    dsimp only
    have e1 : (p.minute * 32 + (p.band - 1)) / 32 = p.minute := by omega
    have e2 : (p.minute * 32 + (p.band - 1)) % 8 + 1 = p.band := by omega
    rw [e1, e2, if_pos hp.1]

/-- A number below 256 is the value of its byte. -/
theorem byte_toNat {n : Nat} (h : n < 256) : (BitVec.ofNat 8 n).toNat = n := by simp; omega

theorem bytesOf_two (n : Nat) : bytesOf 2 n = [BitVec.ofNat 8 (n / 256), BitVec.ofNat 8 n] := by simp [bytesOf]

theorem numberOf_two (n : Nat) (h : n < 65536) : numberOf [BitVec.ofNat 8 (n / 256), BitVec.ofNat 8 n] = n := by
  rw [← bytesOf_two, numberOf_bytesOf, Nat.mod_eq_of_lt (by omega)]

/-- A body within its ranges comes back under its class and fragment index. -/
theorem body?_bytes (b : FrameBody) (index : Nat) (h : b.sendable index = true) : body? b.classCode index b.bytes = some b := by
  cases b with
  | bandSet band e =>
    simp only [FrameBody.sendable, Bool.and_eq_true, decide_eq_true_eq] at h
    simp only [FrameBody.classCode, FrameBody.bytes, body?, bandSet?]
    rw [effective?_effectiveBytes e h.2, byte_toNat (by omega)]
    simp [h.1]
  | loadSwitch relay action duration e =>
    simp only [FrameBody.sendable, Bool.and_eq_true, decide_eq_true_eq] at h
    obtain ⟨⟨⟨h1, h2⟩, h3⟩, h4⟩ := h
    simp only [FrameBody.classCode, FrameBody.bytes, body?, bytesOf_two, List.cons_append, List.nil_append, loadSwitch?]
    have ha : actionCode action ≤ 1 := by cases action <;> simp [actionCode]
    rw [effective?_effectiveBytes e h4, byte_toNat (by omega), numberOf_two _ (by omega)]
    have e1 : (relay * 16 + actionCode action) % 16 = actionCode action := by omega
    have e2 : (relay * 16 + actionCode action) / 16 = relay := by omega
    rw [e1, e2]
    have : action? (actionCode action) = some action := by cases action <;> rfl
    rw [this]
    simp [h1, h2, h3]
  | planLoad identity version total points e =>
    simp only [FrameBody.sendable, Bool.and_eq_true, decide_eq_true_eq] at h
    obtain ⟨⟨⟨⟨⟨⟨⟨⟨h1, h2⟩, h3⟩, h4⟩, h5⟩, h6⟩, h7⟩, h8⟩, h9⟩ := h
    simp only [FrameBody.classCode, FrameBody.bytes, body?, bytesOf_two, List.cons_append, List.nil_append, planLoad?]
    rw [byte_toNat (by omega : version < 256), byte_toNat (by omega : total < 256), numberOf_two _ (by omega), ← h6, points?_pointBytes]
    · dsimp only
      rw [effective?_effectiveBytes e h9]
      simp [h1, h4, h5, h7]
    · intro p hp
      have := List.all_eq_true.mp h8 p hp
      simp only [Point.valid, Bool.and_eq_true, decide_eq_true_eq] at this
      exact ⟨this.1.1, this.1.2, this.2⟩
  | clockSync t =>
    simp only [FrameBody.sendable, decide_eq_true_eq] at h
    show (if (bytesOf 4 t).length = 4 then some (FrameBody.clockSync (numberOf (bytesOf 4 t))) else none) = _
    rw [if_pos (by simp), numberOf_bytesOf, Nat.mod_eq_of_lt (by omega)]
  | statusPoll => rfl

theorem FrameBody.classCode_range (b : FrameBody) : 1 ≤ b.classCode ∧ b.classCode ≤ 5 := by cases b <;> simp [FrameBody.classCode]

/-- A class byte and its body come back. -/
theorem fragment?_bytes (b : FrameBody) (index count : Nat) (h : b.sendable index = true) (h1 : 1 ≤ index) (h2 : index ≤ count) (h3 : count ≤ 3) :
    fragment? (classByte b index count :: b.bytes) = some (index, count, b) := by
  have := FrameBody.classCode_range b
  have hc : (classByte b index count).toNat = b.classCode * 16 + index * 4 + count := byte_toNat (by omega)
  have e1 : (b.classCode * 16 + index * 4 + count) / 4 % 4 = index := by omega
  have e2 : (b.classCode * 16 + index * 4 + count) % 4 = count := by omega
  have e3 : (b.classCode * 16 + index * 4 + count) / 16 = b.classCode := by omega
  simp only [fragment?, hc, e1, e2, e3, body?_bytes b index h]
  simp [h1, h2]

end Sys2Proof.Machine
end

