-- ==== Sys2Proof/Laws/Link.lean ====
section
/-! SUPPORT. The transmitter's choice, taking a request, and the one form that every request's answer has. -/

namespace Sys2Proof.Machine

/-! ## The transmitter (R189) -/

@[simp] theorem State.transmit_link (s : State) : s.transmit.link = s.link.transmitted := rfl

theorem Link.transmitted_busy {l : Link} {o : Outgoing} (h : l.tx = some o) : l.transmitted = l := by
  unfold Link.transmitted; rw [h]

@[simp] theorem Link.transmitted_rate (l : Link) : l.transmitted.rate = l.rate := by
  unfold Link.transmitted; split <;> (try rfl); split <;> (try rfl); split <;> rfl

@[simp] theorem Link.transmitted_rx (l : Link) : l.transmitted.rx = l.rx := by
  unfold Link.transmitted; split <;> (try rfl); split <;> (try rfl); split <;> rfl

@[simp] theorem Link.transmitted_inbound (l : Link) : l.transmitted.inbound = l.inbound := by
  unfold Link.transmitted; split <;> (try rfl); split <;> (try rfl); split <;> rfl

@[simp] theorem Link.transmitted_lost (l : Link) : l.transmitted.lost = l.lost := by
  unfold Link.transmitted; split <;> (try rfl); split <;> (try rfl); split <;> rfl

/-- After a choice nothing waits at a free transmitter (R189). -/
theorem Link.transmitted_flowing (l : Link) (h : l.transmitted.tx = none) :
    l.transmitted.reply = none ∧ l.transmitted.notices = [] := by
  unfold Link.transmitted at h ⊢
  split
  · rename_i o ho; rw [ho] at h; simp at h; rw [ho] at h; cases h
  · rename_i hn
    rw [hn] at h
    split
    · rename_i r hr; rw [hr] at h; cases h
    · rename_i hr
      rw [hr] at h
      split
      · rename_i hq; exact ⟨hr, hq⟩
      · rename_i n rest hq; rw [hq] at h; cases h

theorem Link.transmitted_notices_le (l : Link) : l.transmitted.notices.length ≤ l.notices.length := by
  unfold Link.transmitted
  split
  · exact Nat.le_refl _
  · split
    · exact Nat.le_refl _
    · split
      · exact Nat.le_refl _
      · rename_i n rest hq; simp [hq]

@[simp] theorem finish_eq (s : State) (t : State) : finish s = .next t ↔ s.transmit = t := by
  unfold finish
  constructor
  · intro h; injection h
  · intro h; rw [h]

/-! ## Requests (R188) -/

theorem State.mayTake_iff (s : State) (h : Header) (r : Request) : s.mayTake h r = true ↔ s.CanTake h r := by
  unfold State.mayTake State.CanTake
  rw [Bool.and_eq_true]
  constructor
  · rintro ⟨h1, h2⟩
    refine ⟨by simpa using h1, ?_⟩
    split at h2
    · rename_i hq; exact .inl hq
    · rename_i head rest hq
      exact .inr ⟨rest, by rw [hq, of_decide_eq_true h2]⟩
  · rintro ⟨h1, h2⟩
    refine ⟨by simp [h1], ?_⟩
    rcases h2 with h2 | ⟨rest, h2⟩
    · rw [h2]
    · rw [h2]; simp

/-- What a command that takes a request does when the request can be taken. -/
theorem takeRequest_taken {s : State} {h : Header} {r : Request} (ht : s.CanTake h r) (serve : State → Served) :
    takeRequest h r serve s = .next ((serveFormed h serve s.popInbound).state.replied h r
      (serveFormed h serve s.popInbound).code (serveFormed h serve s.popInbound).body) := by
  unfold takeRequest
  rw [if_pos ((s.mayTake_iff h r).mpr ht)]
  rfl

/-- What it does when the request cannot be taken. -/
theorem takeRequest_not_taken {s : State} {h : Header} {r : Request} (ht : ¬ s.CanTake h r) (serve : State → Served) :
    takeRequest h r serve s = .next s := by
  unfold takeRequest
  rw [if_neg (fun x => ht ((s.mayTake_iff h r).mp x))]

theorem serveFormed_sound {h : Header} (hs : Passes h) (serve : State → Served) (s : State) :
    serveFormed h serve s = serve s := by
  unfold serveFormed
  rw [if_neg]
  rintro (h1 | h1)
  · exact hs.1 h1
  · rw [hs.2] at h1; cases h1

/-- The answer to a request that passes the link controller's own checks, from its owner's service. -/
theorem takeRequest_sound {s : State} {h : Header} {r : Request} (ht : s.CanTake h r) (hs : Passes h)
    (serve : State → Served) :
    takeRequest h r serve s = .next ((serve s.popInbound).state.replied h r (serve s.popInbound).code
      (serve s.popInbound).body) := by
  rw [takeRequest_taken ht, serveFormed_sound hs]

/-- Every command that takes a request of a known kind takes it by its owner's service. -/
theorem exec_request {c : Instr} {h : Header} {r : Request} (hc : requestOf c = some ⟨h, r⟩)
    (hk : ∀ k, r ≠ .unknown k) (s : State) : exec c s = takeRequest h r (serveOf r) s := by
  cases c <;> simp only [requestOf, Option.some.injEq, Inbound.mk.injEq, reduceCtorEq] at hc <;>
    obtain ⟨rfl, rfl⟩ := hc <;> first | rfl | exact absurd rfl (hk _)

/-- A refused request leaves its owner's state and gives no body. -/
theorem firstRefusal_none {l : List (Bool × ResultCode)} : firstRefusal l = none ↔ ∀ p ∈ l, p.1 = true := by
  induction l with
  | nil => simp [firstRefusal]
  | cons a rest ih =>
    unfold firstRefusal
    cases ha : a.1 <;> simp [ha, ih]

end Sys2Proof.Machine
end

