-- ==== Sys2Proof/Laws/Exec.lean ====
section
/-! SUPPORT. What every command's answer looks like, and how a property of states passes through it: through a request by
its owner's service, through an event by the event's own change. -/

namespace Sys2Proof.Machine

/-- A property that no change of the link controller touches. -/
def LinkFree (P : State → Prop) : Prop := ∀ (s : State) (l : Link), P s → P (s.setLink l)

theorem LinkFree.transmit {P : State → Prop} (hl : LinkFree P) {s : State} (h : P s) : P s.transmit := hl s _ h

theorem LinkFree.notify {P : State → Prop} (hl : LinkFree P) {s : State} (h : P s) (n : Notice) : P (s.notify n) := by
  unfold State.notify
  split
  · exact hl s _ h
  · exact hl s _ h

theorem LinkFree.finish {P : State → Prop} (hl : LinkFree P) {s t : State} (h : P s) (ht : finish s = .next t) : P t := by
  unfold Machine.finish at ht
  injection ht with ht
  exact ht ▸ hl.transmit h

theorem LinkFree.popInbound {P : State → Prop} (hl : LinkFree P) {s : State} (h : P s) : P s.popInbound := hl s _ h

theorem LinkFree.replied {P : State → Prop} (hl : LinkFree P) {s : State} (h : P s) (hd : Header) (r : Request)
    (code : ResultCode) (body : ReplyBody) : P (s.replied hd r code body) := hl.transmit (hl s _ h)

theorem LinkFree.takeRequest {P : State → Prop} (hl : LinkFree P) {serve : State → Served}
    (hs : ∀ s, P s → P (serve s).state) {hd : Header} {r : Request} {s t : State} (h : P s)
    (ht : takeRequest hd r serve s = .next t) : P t := by
  by_cases hc : s.CanTake hd r
  · rw [takeRequest_taken hc] at ht
    injection ht with ht
    subst ht
    refine hl.replied ?_ hd r _ _
    unfold serveFormed
    split
    · exact hl.popInbound h
    · exact hs _ (hl.popInbound h)
  · rw [takeRequest_not_taken hc] at ht
    injection ht with ht
    exact ht ▸ h

theorem LinkFree.unknownKind {P : State → Prop} (hl : LinkFree P) {hd : Header} {k : Byte} {s t : State} (h : P s)
    (ht : execUnknownKind hd k s = .next t) : P t := by
  unfold execUnknownKind at ht
  dsimp only at ht
  split at ht
  · refine hl.finish ?_ ht
    exact hl _ _ (hl.popInbound h)
  · injection ht with ht
    exact ht ▸ h

theorem takeRequest_answers (hd : Header) (r : Request) (serve : State → Served) (s : State) :
    ∃ t, takeRequest hd r serve s = .next t := by
  unfold takeRequest
  split <;> exact ⟨_, rfl⟩

/-- A property kept by the service of every request is kept by every command that takes a request. -/
theorem LinkFree.request {P : State → Prop} (hl : LinkFree P) (hs : ∀ r s, P s → P (serveOf r s).state) {c : Instr}
    {i : Inbound} (hc : requestOf c = some i) {s t : State} (h : P s) (ht : exec c s = .next t) : P t := by
  obtain ⟨hd, r⟩ := i
  by_cases hk : ∃ k, r = .unknown k
  · obtain ⟨k, rfl⟩ := hk
    cases c <;> simp only [requestOf, Option.some.injEq, Inbound.mk.injEq, reduceCtorEq, and_false] at hc
    simp only [exec] at ht
    exact hl.unknownKind h ht
  · rw [exec_request hc (fun k hk' => hk ⟨k, hk'⟩) s] at ht
    exact hl.takeRequest (fun s hs' => hs r s hs') h ht

/-- A request that is taken with a sound header is its owner's service and the reply to it. -/
theorem exec_taken {c : Instr} {h : Header} {r : Request} {s : State} (hc : requestOf c = some ⟨h, r⟩) (ht : s.Takes h r) :
    exec c s = .next ((serveOf r s.popInbound).state.replied h r (serveOf r s.popInbound).code (serveOf r s.popInbound).body) := by
  by_cases hk : ∃ k, r = .unknown k
  · obtain ⟨k, rfl⟩ := hk
    cases c <;> simp only [requestOf, Option.some.injEq, Inbound.mk.injEq, reduceCtorEq, and_false] at hc
    obtain ⟨rfl, hc⟩ := hc
    injection hc with hc
    subst hc
    simp only [exec, execUnknownKind]
    rw [if_pos ((s.mayTake_iff _ _).mpr ht.1)]
    rfl
  · rw [exec_request hc (fun k hk' => hk ⟨k, hk'⟩) s, takeRequest_sound ht.1 ht.2]

/-- An owner that refuses a request leaves the state as it was and answers no body. -/
theorem serveOf_refused (r : Request) (s : State) (hc : (serveOf r s).code ≠ .ok) :
    (serveOf r s).state = s ∧ (serveOf r s).body = .none := by
  revert hc
  cases r <;> simp only [serveOf, serveStatus, serveIdentify, serveResetAll, serveResetCampaigns, serveParamSet,
    serveParamGet, serveClockSet, serveSequenceSeed, serveSubmit, serveCampaignQuery, serveCampaignList, serveHold,
    serveResume, serveCancel, serveRelease, serveRosterPut, serveRosterRemove, serveRosterGet, serveRosterScan,
    serveRosterFlags, serveSegmentSet, serveSegmentGet, serveSegmentLock, serveLineMask, serveLineStatus, servePlanStage,
    servePlanClear, servePlanCommit, servePlanRead, serveSectorErase, serveEraseSuspend, serveEraseResume, serveStoreArm,
    serveStoreDisarm, serveStoreProtect, serveStoreStatus, serveSiteWrite, serveSiteLock, serveSiteRead] <;>
    (try unfold State.putReceiver) <;> repeat' split
  all_goals first
    | exact fun h => absurd rfl h
    | exact fun _ => ⟨rfl, rfl⟩

end Sys2Proof.Machine
end

