-- ==== Sys2Proof/Laws/Events.lean ====
section
/-! SUPPORT. How a property of states passes through the events and through a step, stated once: a property that the
shared operations keep is kept by every event but power-on and the store's own, and a property that every command keeps is
kept by a step. -/

namespace Sys2Proof.Machine

/-- A property that the acts of the events keep: changes of the link, the line, the clock and the pins, and what the
campaign controller makes of a line time, an outcome, a transmission-ended report and an expired interval. -/
structure EventActs (P : State → Prop) : Prop where
  link    : LinkFree P
  line    : ∀ s l, P s → P (s.setLine l)
  clock   : ∀ s c, P s → P (s.setClock c)
  pins    : ∀ s p, P s → P (s.setPins p)
  reached : ∀ {s} now, P s → P (s.timeReached now)
  outcome : ∀ {s} ch w v, P s → P (s.takeOutcome ch w v)
  counted : ∀ {s} ch k seq, P s → P (s.countTransmission ch k seq)
  rested  : ∀ {s} {k c}, s.campaign k = some c → c.state = .resting → ∀ f : Campaign → Option BroadcastRun, P s →
    P (s.updateCampaign k (fun d => { d with state := .running, run := f d, intervalTimer := none }))

/-- A property that the shared operations of the events keep: changes of the link, the line, the clock and the pins, the
campaign controller's acts, and the roster unit's reports. -/
structure EventFree (P : State → Prop) : Prop where
  link    : LinkFree P
  line    : ∀ s l, P s → P (s.setLine l)
  clock   : ∀ s c, P s → P (s.setClock c)
  pins    : ∀ s p, P s → P (s.setPins p)
  touch   : ∀ {s t}, OnlyCampaigns s t → P s → P t
  contact : ∀ {s} u c x, P s → P (s.contact u c x)
  miss    : ∀ {s} u m, P s → P (s.miss u m)

/-- The events of the plan store. -/
def storeEvents : List Instr :=
  [.programComplete, .eraseComplete, .suspensionTaken, .resumeGuardExpired, .siteWriteComplete, .siteLockComplete,
    .snapshotDelivery]

variable {P : State → Prop}

theorem EventActs.lineNotice (F : EventActs P) {s : State} (h : P s) (ph : Phase) (c : LineChange) : P (s.lineNotice ph c) := by
  unfold State.lineNotice
  exact F.link.notify h _

theorem EventActs.channelLost (F : EventActs P) {s : State} (h : P s) (ph : Phase) : P (s.channelLost ph) := by
  unfold State.channelLost
  split
  · apply F.lineNotice; exact F.line _ _ (F.line _ _ h)
  · apply F.lineNotice; exact F.line _ _ h

theorem EventActs.channelReturned (F : EventActs P) {s : State} (h : P s) (ph : Phase) : P (s.channelReturned ph) := by
  unfold State.channelReturned
  split <;> first | exact h | exact F.line _ _ h

theorem EventActs.jamSet (F : EventActs P) {s : State} (h : P s) (ph : Phase) w : P (s.jamSet ph w) := by
  unfold State.jamSet
  split
  · exact h
  · apply F.lineNotice; exact F.line _ _ h

theorem EventActs.jamClear (F : EventActs P) {s : State} (h : P s) (ph : Phase) : P (s.jamClear ph) := by
  unfold State.jamClear
  split
  · apply F.lineNotice; exact F.line _ _ h
  · exact h

theorem EventActs.hearSignal (F : EventActs P) {s : State} (h : P s) (ph : Phase) : P (s.hearSignal ph) := by
  unfold State.hearSignal
  split <;> first | exact h | exact F.line _ _ h

theorem EventActs.endUnit (F : EventActs P) {s : State} (h : P s) (ph : Phase) w v a : P (s.endUnit ph w v a) := 
  F.line _ _ (F.line _ _ h)

theorem EventActs.sent (F : EventActs P) {s : State} (h : P s) (ph : Phase) w : P (s.sent ph w) := by
  unfold State.sent
  split
  · exact F.line _ _ h
  · split
    · exact F.line _ _ h
    · exact F.line _ _ (F.line _ _ h)

theorem EventActs.answered (F : EventActs P) {s : State} (h : P s) (ph : Phase) w e : P (s.answered ph w e) := by
  unfold State.answered
  split
  · exact h
  · exact F.line _ _ h
  · exact F.line _ _ (F.line _ _ h)

theorem EventActs.enqueue (F : EventActs P) {s : State} (h : P s) i : P (s.enqueue i) := by
  unfold State.enqueue
  split
  · exact F.link _ _ h
  · exact h

theorem EventActs.retime (F : EventActs P) {s : State} (h : P s) a b c : P (s.retime a b c) := by
  unfold State.retime
  dsimp only
  split
  · exact F.clock _ _ h
  · exact F.link.notify (F.clock _ _ h) _

theorem EventFree.learn (F : EventFree P) {s : State} (h : P s) (ch : Phase) (seq dest : Nat) (route : List Nat) (v : Verdict) :
    P (s.learn ch seq dest route v) := by
  cases v <;> simp only [State.learn] <;> first
    | exact h
    | exact F.contact _ _ _ h
    | exact F.miss _ _ h
    | skip
  refine F.miss _ _ ?_
  unfold State.relayContact
  split
  · exact F.contact _ _ _ h
  · exact h

theorem EventFree.account (F : EventFree P) {s : State} (h : P s) (w : Work) (dest : Nat) (v : Verdict) :
    P (s.account w dest v) := by
  unfold State.account
  split
  · refine F.touch (State.completeIfSettled_touch _ _ _) ?_
    cases v <;> simp only [State.credit] <;> first
      | exact h
      | exact F.touch (State.settleReceiver_touch _ _ _ _ (fun _ => rfl)) h
      | (refine F.touch (OnlyCampaigns.of_updateEntry ?_) h; exact fun _ => rfl)
  · exact h

theorem EventFree.takeOutcome (F : EventFree P) {s : State} (h : P s) (ch : Phase) (w : Work) (v : Verdict) :
    P (s.takeOutcome ch w v) := by
  unfold State.takeOutcome
  split
  · exact h
  · dsimp only
    rename_i dest route _
    refine F.touch (State.examineSilenced_touch _ _) ?_
    have := F.learn (F.account h w dest v) ch w.seq dest route v
    unfold State.examineOwn
    split
    · split
      · exact F.touch (State.examinePass_touch _ _) this
      · exact this
    · exact this

theorem EventFree.countTransmission (F : EventFree P) {s : State} (h : P s) (ch : Phase) (k seq : Nat) :
    P (s.countTransmission ch k seq) := by
  unfold State.countTransmission
  split
  · exact h
  · split
    · refine F.touch (State.examineRound_touch _ k) ?_
      refine F.touch (OnlyCampaigns.of_updateCampaign ?_) h
      exact fun _ _ _ => rfl
    · exact h

theorem EventFree.takeDelivery (F : EventFree P) {s : State} (h : P s) (d : Delivery) : P (s.takeDelivery d) := by
  unfold State.takeDelivery
  split
  · exact h
  · split
    · refine F.touch (State.enterRunning_touch _ _) ?_
      refine F.touch (OnlyCampaigns.of_updateCampaign ?_) (F.touch (State.withdrawSnapshot_touch s d.slot) h)
      exact fun _ _ _ => rfl
    · exact h

theorem EventFree.acts (F : EventFree P) : EventActs P where
  link := F.link
  line := F.line
  clock := F.clock
  pins := F.pins
  reached := fun now h => F.touch (State.timeReached_touch _ now) h
  outcome := fun ch w v h => F.takeOutcome h ch w v
  counted := fun ch k seq h => F.countTransmission h ch k seq
  rested := fun _ _ _ h => F.touch (OnlyCampaigns.of_updateCampaign (fun _ _ _ => rfl)) h

/-- An event keeps the property when power-on and the store's own events do. -/
theorem EventActs.event (F : EventActs P) (on : ∀ pins s t, P s → execPowerOn pins s = .next t → P t)
    (own : ∀ c ∈ storeEvents, ∀ s t, P s → exec c s = .next t → P t) {c : Instr} (hq : requestOf c = none) {s t : State}
    (h : P s) (ht : exec c s = .next t) : P t := by
  have B := F.link
  by_cases hc : c ∈ storeEvents
  · exact own c hc s t h ht
  cases c <;> simp only [requestOf, reduceCtorEq] at hq <;> first | exact absurd (by decide) hc | skip
  all_goals simp only [exec] at ht
  · exact on _ _ _ h ht
  · simp only [execFrameComplete] at ht
    split at ht
    · apply B.finish ?_ ht; apply F.enqueue; exact B _ _ h
    · apply B.finish ?_ ht; exact B _ _ h
  · apply B.finish ?_ ht; exact B _ _ h
  · apply B.finish ?_ ht; exact B _ _ h
  · simp only [execSecondComplete] at ht
    split at ht
    · apply B.finish ?_ ht;  exact F.clock _ _ h
    · split at ht
      · apply B.finish ?_ ht; apply F.reached; exact F.clock _ _ (F.clock _ _ h)
      · apply B.finish ?_ ht;  exact F.clock _ _ h
  · simp only [execMainsLost] at ht
    split at ht
    · apply B.finish ?_ ht; apply F.retime; apply F.channelLost; exact F.pins _ _ h
    · exact Host.Outcome.next.inj ht ▸ h
  · simp only [execMainsReturned] at ht
    split at ht
    · exact Host.Outcome.next.inj ht ▸ h
    · apply B.finish ?_ ht; apply F.retime; apply F.channelReturned; exact F.pins _ _ h
  · simp only [execSettleExpired] at ht
    split at ht
    · apply B.finish ?_ ht; apply F.lineNotice; exact F.line _ _ h
    all_goals exact Host.Outcome.next.inj ht ▸ h
  · simp only [execGrant] at ht
    split at ht
    · apply B.finish ?_ ht;  exact F.line _ _ (F.line _ _ h)
    · exact Host.Outcome.next.inj ht ▸ h
  · apply B.finish ?_ ht; apply F.hearSignal; exact h
  · simp only [execQuietIntervalHeard] at ht
    split at ht
    · apply B.finish ?_ ht; apply F.line; exact F.jamClear h _
    all_goals exact Host.Outcome.next.inj ht ▸ h
  · simp only [execAccessLimitExpired] at ht
    split at ht
    · apply B.finish ?_ ht; apply F.jamSet; exact F.endUnit h _ _ _ _
    all_goals exact Host.Outcome.next.inj ht ▸ h
  · simp only [execSendingEnd] at ht
    split at ht
    · apply B.finish ?_ ht; apply F.sent; exact h
    all_goals exact Host.Outcome.next.inj ht ▸ h
  · simp only [execInboundLineFrame] at ht
    split at ht
    · split at ht
      · apply B.finish ?_ ht; apply F.answered; exact h
      · exact B.finish h ht
    · apply B.finish ?_ ht; apply F.hearSignal; exact h
    all_goals exact B.finish h ht
  · simp only [execReplyWindowExpired] at ht
    split at ht
    · split at ht
      · apply B.finish ?_ ht; exact F.endUnit h _ _ _ _
      · exact Host.Outcome.next.inj ht ▸ h
    all_goals exact Host.Outcome.next.inj ht ▸ h
  · simp only [execTailExpired] at ht
    split at ht
    · split at ht
      · exact Host.Outcome.next.inj ht ▸ h
      · apply B.finish ?_ ht; exact F.line _ _ (F.line _ _ h)
    all_goals exact Host.Outcome.next.inj ht ▸ h
  · simp only [execOutcomeTaken] at ht
    split at ht
    · apply B.finish ?_ ht; apply F.outcome; exact F.line _ _ h
    all_goals exact Host.Outcome.next.inj ht ▸ h
  · simp only [execTransmissionEndedTaken] at ht
    split at ht
    · apply B.finish ?_ ht; apply F.counted; exact F.line _ _ h
    all_goals exact Host.Outcome.next.inj ht ▸ h
  · simp only [execTailEndedTaken] at ht
    split at ht
    · apply B.finish ?_ ht; exact F.line _ _ h
    all_goals exact Host.Outcome.next.inj ht ▸ h
  · simp only [execIntervalExpired] at ht
    split at ht
    · exact Host.Outcome.next.inj ht ▸ h
    · rename_i c hc
      split at ht
      · rename_i hr _ _
        exact B.finish (F.rested hc hr _ h) ht
      · exact Host.Outcome.next.inj ht ▸ h

/-- A property that every command keeps, and the passing of a millisecond, is kept by a step. -/
theorem step_keeps (he : ∀ {c s t}, P s → exec c s = .next t → P t) (hp : ∀ s l, P s → P (s.setPending l))
    (hf : ∀ s n, P s → P (s.setFree n)) (hm : ∀ s, P s → P s.passMillisecond) {s t : State} (h : P s)
    (ht : step s = .next t) : P t := by
  unfold step at ht
  split at ht
  · exact he (hp _ _ h) ht
  · injection ht with ht; subst ht
    unfold State.idle
    split
    · exact hm _ h
    · exact hp _ _ h
    · exact hf _ _ (hp _ _ h)

end Sys2Proof.Machine
end

