-- ==== Sys2Proof/Laws/Kept.lean ====
section
/-! SUPPORT. The account of R47 and R48 through the service of each request and through each event that moves it. -/

namespace Sys2Proof.Machine

theorem balanced_linkFree : LinkFree State.Balanced := fun _ _ h => h

/-- Tables and entries alone matter. -/
theorem State.Balanced.of_same {s t : State} (h : s.Balanced) (hc : t.campaigns.table = s.campaigns.table)
    (he : t.roster.entries = s.roster.entries) : t.Balanced := by
  show Accounts t.campaigns.table t.roster.entries
  rw [hc, he]; exact h

theorem State.updateAttention_balanced {s : State} (h : s.Balanced) : s.updateAttention.Balanced :=
  h.of_same (by rw [(State.updateAttention_touch s).campaigns]) (by simp)

theorem State.contact_balanced {s : State} (h : s.Balanced) (u : Nat) (ch : Phase) (x : Extra) : (s.contact u ch x).Balanced := by
  show Accounts _ _
  rw [(State.contact_touch s u ch x).campaigns]
  exact Accounts.of_sets h (State.contact_sets s u ch x)

theorem State.miss_balanced {s : State} (h : s.Balanced) (u : Nat) (m : Bool) : (s.miss u m).Balanced := by
  show Accounts _ _
  rw [(State.miss_touch s u m).campaigns]
  exact Accounts.of_sets h (State.miss_sets s u m)

theorem State.setThreshold_balanced {s : State} (h : s.Balanced) (n : Nat) : (s.setThreshold n).Balanced := by
  show Accounts _ _
  rw [(State.setThreshold_touch s n).campaigns]
  exact Accounts.of_sets h (State.setThreshold_sets s n)

/-! ## Roster requests -/

/-- An entry put in with the sets its unit had, or none for a new unit, leaves every pending count. -/
theorem pendingAt_putBy {l : List Entry} (hu : InOrder Entry.unit l) {e : Entry} (k : Nat)
    (he : match findBy Entry.unit e.unit l with
      | some d => e.pending = d.pending ∧ e.tried = d.tried
      | none => e.pending = [] ∧ e.tried = []) : pendingAt k (putBy Entry.unit e l) = pendingAt k l := by
  induction l with
  | nil =>
    simp only [findBy, List.find?_nil] at he
    simp [putBy, pendingAt_cons, he.1]
  | cons a r ih =>
    have ha := List.pairwise_cons.mp hu
    unfold putBy
    split
    · rename_i hlt
      have hnone : findBy Entry.unit e.unit (a :: r) = none := by
        rw [findBy_none]
        intro x hx
        rcases List.mem_cons.mp hx with rfl | hx
        · omega
        · have := ha.1 x hx; omega
      rw [hnone] at he
      rw [pendingAt_cons _ e, he.1]; simp
    · split
      · rename_i heq
        have hsome : findBy Entry.unit e.unit (a :: r) = some a := by simp [findBy, heq]
        rw [hsome] at he
        rw [pendingAt_cons, pendingAt_cons, he.1]
      · rename_i hne
        have hfind : findBy Entry.unit e.unit (a :: r) = findBy Entry.unit e.unit r := by
          have : ¬ a.unit = e.unit := fun x => hne x.symm
          simp [findBy, this]
        rw [hfind] at he
        rw [pendingAt_cons, pendingAt_cons, ih ha.2 he]

/-- An entry put in keeps the account when it brings the sets its unit had, or none for a new unit. -/
theorem Accounts.put {table : List Campaign} {l : List Entry} (h : Accounts table l) {e : Entry}
    (he : match findBy Entry.unit e.unit l with
      | some d => e.pending = d.pending ∧ e.tried = d.tried
      | none => e.pending = [] ∧ e.tried = []) : Accounts table (putBy Entry.unit e l) where
  units := putBy_inOrder h.units
  slots := h.slots
  records := fun c hc => by
    have b := h.records c hc
    exact ⟨fun hl => (b.outstanding hl).trans (pendingAt_putBy h.units _ he).symm, b.targets, b.reasons, b.unopened, b.broadcast⟩
  entries := fun d hd => by
    rcases (mem_putBy h.units).mp hd with rfl | ⟨hd, -⟩
    · split at he
      · rename_i a ha
        have hm := findBy_some ha
        have b := h.entries a hm.1
        exact ⟨he.1 ▸ b.order, by rw [he.1, he.2]; exact b.tried, by rw [he.1]; exact b.owed⟩
      · exact ⟨by rw [he.1]; exact List.Pairwise.nil, by rw [he.2]; simp, by rw [he.1]; simp⟩
    · exact h.entries d hd

theorem serveRosterPut_balanced (q : RosterPutReq) {s : State} (h : s.Balanced) : (serveRosterPut q s).state.Balanced := by
  unfold serveRosterPut
  split
  · rename_i role phase _ _ _
    unfold State.putReceiver
    dsimp only [accept]
    apply State.updateAttention_balanced
    refine Accounts.put h ?_
    unfold State.entry
    cases hf : findBy Entry.unit q.unit s.roster.entries with
    | none => simp [freshEntry, hf]
    | some d =>
      have hd := (findBy_some hf).2
      by_cases hq : d.serial = q.serial
      · simp [hq, Entry.updated, hd, hf]
      · simp [hq, Entry.replaced, freshEntry, hf]
  · exact h
  · exact h

/-- An entry with nothing pending leaves the account as it was. -/
theorem Accounts.remove {table : List Campaign} {l : List Entry} (h : Accounts table l) {u : Nat}
    (hu : ∀ e ∈ l, e.unit = u → e.pending = []) : Accounts table (removeBy Entry.unit u l) where
  units := removeBy_inOrder h.units
  slots := h.slots
  records := fun c hc => by
    have b := h.records c hc
    refine ⟨fun hl => ?_, b.targets, b.reasons, b.unopened, b.broadcast⟩
    rw [b.outstanding hl]
    unfold pendingAt removeBy
    rw [List.filter_filter]
    congr 1
    apply List.filter_congr
    intro e he
    by_cases hx : e.unit = u
    · simp [hu e he hx, hx]
    · simp [hx]
  entries := fun e he => h.entries e (mem_removeBy.mp he).1

theorem serveRosterRemove_balanced (u : Nat) {s : State} (h : s.Balanced) : (serveRosterRemove u s).state.Balanced := by
  unfold serveRosterRemove
  split
  · exact h
  · dsimp only [accept]
    apply State.updateAttention_balanced
    obtain ⟨hb, hp⟩ := State.dropReceiver_balanced h u
    refine Accounts.remove hb (fun e he heu => hp e ?_)
    have := (hb : Accounts _ _).units.findBy_of_mem he
    rwa [heu] at this

theorem serveRosterFlags_balanced (q : RosterFlagsReq) {s : State} (h : s.Balanced) : (serveRosterFlags q s).state.Balanced := by
  unfold serveRosterFlags
  split
  · split
    · exact h
    · dsimp only [accept]
      apply State.updateAttention_balanced
      refine Accounts.of_sets h (updateBy_sets ?_ _ _)
      exact fun _ => rfl
  · exact h

theorem serveSegmentSet_balanced (q : SegmentSetReq) {s : State} (h : s.Balanced) : (serveSegmentSet q s).state.Balanced := by
  unfold serveSegmentSet
  split
  · exact h
  · split
    · exact h
    · dsimp only [accept]
      unfold State.dropBarred
      refine foldl_balanced _ (fun e ht => (State.dropReceiver_balanced ht e.unit).1) _ ?_
      exact h

/-! ## Campaign requests -/

theorem State.freeSlot_none {s : State} {k : Nat} (h : s.freeSlot = some k) : k < 16 ∧ s.campaign k = none := by
  unfold State.freeSlot at h
  have h1 := List.mem_of_find?_eq_some h
  have h2 := List.find?_some h
  exact ⟨by simpa [allSlots, Config.campaignSlots] using h1, by simpa using h2⟩

theorem State.acceptCampaign_balanced {s : State} (h : s.Balanced) {c : Campaign} (hn : s.campaign c.slot = none)
    (hw : c.state = .waiting) (ht : c.targets = none) (hcounts : c.counts = ⟨0, 0, 0, 0, 0, 0, 0⟩)
    (hr : c.byReason = ⟨0, 0, 0, 0⟩) (now : Bool) : (s.acceptCampaign c now).Balanced := by
  have h : Accounts s.campaigns.table s.roster.entries := h
  have hno := findBy_none.mp hn
  have hbal : (s.setCampaigns
      { s.campaigns with table := putBy Campaign.slot c s.campaigns.table, counter := some (c.seq + 1) }).Balanced := by
    refine ⟨h.units, putBy_inOrder h.slots, fun d hd => ?_, fun e he => ?_⟩
    · rcases (mem_putBy h.slots).mp hd with rfl | ⟨hd, -⟩
      · refine ⟨fun _ => ?_, fun _ n hx => ?_, by rw [hcounts, hr]; rfl, fun _ => ⟨ht, hcounts, hr⟩, fun _ => by rw [hcounts]⟩
        · rw [hcounts]
          refine (pendingAt_zero (fun e he hk => ?_)).symm
          obtain ⟨a, ha, hs, _⟩ := (h.entries e he).owed _ hk
          exact hno a ha hs
        · rw [ht] at hx; cases hx
      · exact h.records d hd
    · have b := h.entries e he
      refine ⟨b.order, b.tried, fun k hk => ?_⟩
      obtain ⟨a, ha, hs, h1, h2⟩ := b.owed k hk
      exact ⟨a, (mem_putBy h.slots).mpr (.inr ⟨ha, hno a ha⟩), hs, h1, h2⟩
  unfold State.acceptCampaign
  dsimp only
  split
  · refine State.activate_balanced hbal (c := c) ?_ hw
    exact findBy_putBy_same h.slots
  · exact hbal

theorem serveSubmit_balanced (q : SubmitReq) {s : State} (h : s.Balanced) : (serveSubmit q s).state.Balanced := by
  unfold serveSubmit
  split
  · exact h
  · split
    · rename_i hslot
      exact State.acceptCampaign_balanced h (State.freeSlot_none hslot).2 rfl rfl rfl rfl _
    · exact h

theorem State.named_ok {s : State} {q : SlotRef} {c : Campaign} (h : s.named q = .ok c) :
    q.slot < 16 ∧ s.campaign q.slot = some c ∧ (q.seq = none ∨ q.seq = some c.seq) := by
  unfold State.named at h
  split at h
  · cases h
  · rename_i hlt
    simp only [Config.campaignSlots, Nat.not_le] at hlt
    split at h
    · cases h
    · rename_i d hd
      split at h
      · rename_i hq
        cases h
        exact ⟨hlt, hd, .inl hq⟩
      · rename_i n hq
        split at h
        · rename_i hn
          cases h
          exact ⟨hlt, hd, .inr (by rw [hq, hn])⟩
        · cases h

/-- A change between RUNNING and HELD keeps the account. -/
theorem State.setCampaignState_balanced {s : State} (h : s.Balanced) {k : Nat} {c : Campaign} (hc : s.campaign k = some c)
    {v : CampaignState} (hv : v.active = true) (hw : c.state.active = true) : (s.setCampaignState k v).Balanced := by
  refine State.updateCampaign_balanced h (fun _ _ hs => hs) (fun d hd hds b => ?_) (fun d hd hds _ hm => ⟨hv, hm⟩)
  have hdc := h.record_of_slot hc hd hds
  refine ⟨fun _ => b.outstanding ?_, b.targets, b.reasons, fun hx => ?_, b.broadcast⟩
  · rw [hdc]; exact active_live hw
  · have hx' : v = .waiting ∨ v = .preparing := hx
    rcases hx' with hx' | hx' <;> rw [hx'] at hv <;> cases hv

theorem serveHold_balanced (q : SlotRef) {s : State} (h : s.Balanced) : (serveHold q s).state.Balanced := by
  unfold serveHold
  split
  · exact h
  · rename_i c hc
    split
    · rename_i hr
      exact State.setCampaignState_balanced h (State.named_ok hc).2.1 rfl (by rw [hr]; rfl)
    · exact h

theorem serveResume_balanced (q : SlotRef) {s : State} (h : s.Balanced) : (serveResume q s).state.Balanced := by
  unfold serveResume
  split
  · exact h
  · rename_i c hc
    split
    · rename_i hr
      exact State.examineRound_balanced (State.examinePass_balanced
        (State.setCampaignState_balanced h (State.named_ok hc).2.1 rfl (by rw [hr]; rfl)) _) _
    · exact h

theorem serveCancel_balanced (q : SlotRef) {s : State} (h : s.Balanced) : (serveCancel q s).state.Balanced := by
  unfold serveCancel
  split
  · exact h
  · split
    · exact State.endCampaign_balanced h _ rfl _
    · exact h

theorem serveRelease_balanced (q : SlotRef) {s : State} (h : s.Balanced) : (serveRelease q s).state.Balanced := by
  unfold serveRelease
  split
  · exact h
  · rename_i c hc
    split
    · exact h
    · rename_i hl
      have h : Accounts s.campaigns.table s.roster.entries := h
      have hcs := State.campaign_some (State.named_ok hc).2.1
      refine ⟨h.units, removeBy_inOrder h.slots, fun d hd => h.records d (mem_removeBy.mp hd).1, fun e he => ?_⟩
      have b := h.entries e he
      refine ⟨b.order, b.tried, fun k hk => ?_⟩
      obtain ⟨a, ha, hs, h1, h2⟩ := b.owed k hk
      refine ⟨a, mem_removeBy.mpr ⟨ha, fun hx => ?_⟩, hs, h1, h2⟩
      have : a = c := h.slots.eq_of_key ha hcs.1 (hx.trans hcs.2.symm)
      rw [this] at h1
      exact hl (active_live h1)

/-! ## Parameters, resets and the clock -/

theorem State.retime_balanced {s : State} (h : s.Balanced) (r : Option Phase) (p : Source) (c : SourceCause) :
    (s.retime r p c).Balanced := by
  unfold State.retime
  dsimp only
  split
  · exact h
  · exact h.of_same (by simp) (by simp)

theorem State.applyParam_balanced {s : State} (h : s.Balanced) (r : ParamRef) (v : ParamValue) :
    (s.applyParam r v).Balanced := by
  unfold State.applyParam
  split
  all_goals first
    | exact h
    | exact State.examineSilenced_balanced (State.setThreshold_balanced h _) _
    | exact State.retime_balanced h _ _ _

theorem serveParamSet_balanced (q : ParamSetReq) {s : State} (h : s.Balanced) : (serveParamSet q s).state.Balanced := by
  unfold serveParamSet
  split
  · exact h
  · split
    · dsimp only [accept]
      split
      · exact h
      · exact State.applyParam_balanced h _ _
    · exact h

theorem accounts_empty (l : List Entry) (hu : InOrder Entry.unit l) (hp : ∀ e ∈ l, e.pending = [] ∧ e.tried = []) :
    Accounts [] l where
  units := hu
  slots := List.Pairwise.nil
  records := fun _ hc => by cases hc
  entries := fun e he => ⟨by rw [(hp e he).1]; exact List.Pairwise.nil, by rw [(hp e he).2]; simp, by rw [(hp e he).1]; simp⟩

theorem serveResetAll_balanced (s : State) : (serveResetAll s).state.Balanced := by
  show Accounts [] s.roster.resetAll.entries
  unfold Roster.resetAll
  split
  · exact accounts_empty [] List.Pairwise.nil (by simp)
  · exact accounts_empty [] List.Pairwise.nil (by simp)

theorem serveResetCampaigns_balanced {s : State} (h : s.Balanced) : (serveResetCampaigns s).state.Balanced := by
  have h : Accounts s.campaigns.table s.roster.entries := h
  refine accounts_empty (s.roster.entries.map Entry.forgetSlots) (InOrder.of_map ?_) (fun e he => ?_)
  · rw [List.map_map]; exact h.units.map_lt
  · obtain ⟨d, -, rfl⟩ := List.mem_map.mp he
    exact ⟨rfl, rfl⟩

theorem serveClockSet_balanced (n : Nat) {s : State} (h : s.Balanced) : (serveClockSet n s).state.Balanced := by
  unfold serveClockSet
  split
  · exact h
  · dsimp only
    split
    · dsimp only [accept]
      refine State.timeReached_balanced ?_ n
      exact h.of_same rfl rfl
    · exact h

/-! ## Every request -/

/-- The service of every request keeps the account. -/
theorem serveOf_balanced (r : Request) (s : State) (h : s.Balanced) : (serveOf r s).state.Balanced := by
  cases r <;> simp only [serveOf] <;> first
    | exact h
    | exact serveResetAll_balanced s
    | exact serveResetCampaigns_balanced h
    | exact serveParamSet_balanced _ h
    | exact serveClockSet_balanced _ h
    | exact serveSubmit_balanced _ h
    | exact serveHold_balanced _ h
    | exact serveResume_balanced _ h
    | exact serveCancel_balanced _ h
    | exact serveRelease_balanced _ h
    | exact serveRosterPut_balanced _ h
    | exact serveRosterRemove_balanced _ h
    | exact serveRosterFlags_balanced _ h
    | exact serveSegmentSet_balanced _ h
    | skip
  · rename_i q; cases q with
    | all => exact h
    | one n c => simp only [serveParamGet]; split <;> exact h
  · rename_i v; simp only [serveSequenceSeed]; split
    · exact h
    · exact h
  · simp only [serveCampaignQuery]; split <;> exact h
  · simp only [serveRosterGet]; repeat' split
    all_goals exact h
  · simp only [serveRosterScan]; repeat' split
    all_goals exact h
  · simp only [serveLineMask]; split <;> exact h
  · simp only [servePlanStage]; split <;> exact h
  · simp only [servePlanCommit]; split <;> exact h
  · simp only [servePlanRead]; repeat' split
    all_goals exact h
  · simp only [serveSectorErase]; split <;> exact h
  · simp only [serveEraseSuspend]; repeat' split
    all_goals exact h
  · simp only [serveEraseResume]; repeat' split
    all_goals exact h
  · simp only [serveStoreProtect]; split
    · exact h
    · dsimp only [accept]
      unfold State.abandonErase
      split
      · exact h
      · split
        · exact h.of_same (by simp [State.storeNotice]) (by simp [State.storeNotice])
        · exact h
  · simp only [serveSiteWrite]; split <;> exact h
  · simp only [serveSiteLock]; split <;> exact h

/-! ## Events -/

theorem State.takeDelivery_balanced {s : State} (h : s.Balanced) (d : Delivery) : (s.takeDelivery d).Balanced := by
  unfold State.takeDelivery
  split
  · exact h
  · rename_i c hc
    split
    · rename_i hcond
      have h1 : ((s.withdrawSnapshot d.slot).updateCampaign d.slot (fun c => { c with snapshot := some d.plan })).Balanced :=
        State.updateCampaign_balanced (s := s.withdrawSnapshot d.slot) h (fun _ _ hs => hs)
          (fun _ _ _ b => ⟨b.outstanding, b.targets, b.reasons, b.unopened, b.broadcast⟩) (fun _ _ _ ha hm => ⟨ha, hm⟩)
      have hc0 : (s.withdrawSnapshot d.slot).campaign d.slot = some c := hc
      have hc1 := State.campaign_update (s := s.withdrawSnapshot d.slot) (k := d.slot)
        (g := fun c => { c with snapshot := some d.plan }) (fun _ hs => hs)
      rw [hc0] at hc1
      exact State.enterRunning_balanced h1 hc1 (.inr hcond.1)
    · exact h

theorem State.credits_iff {s : State} {w : Work} {dest : Nat} (h : s.credits w dest = true) :
    ∃ c e, s.campaign w.slot = some c ∧ c.seq = w.seq ∧ c.state.active = true ∧ s.entry dest = some e ∧ w.slot ∈ e.pending := by
  unfold State.credits at h
  rw [Bool.and_eq_true] at h
  obtain ⟨h1, h2⟩ := h
  split at h1
  · rename_i c hc
    split at h2
    · rename_i e he
      simp only [Bool.and_eq_true, decide_eq_true_eq] at h1
      exact ⟨c, e, hc, h1.1, h1.2, he, by simpa using h2⟩
    · cases h2
  · cases h1

/-- A tried mark at an entry where the slot is pending keeps the account (R90). -/
theorem State.markTried_balanced {s : State} (h : s.Balanced) {k u : Nat} {e : Entry} (he : s.entry u = some e)
    (hk : k ∈ e.pending) : (s.updateEntry u (fun e => e.markTried k)).Balanced := by
  have h : Accounts s.campaigns.table s.roster.entries := h
  have hm := State.entry_some he
  have := h.rewrite (k := k) (f := fun x => if x.unit = u then x.markTried k else x) (g := id)
    (fun x _ => by split <;> rfl)
    (fun x hx => by
      split
      · exact (h.entries x hx).order
      · exact (h.entries x hx).order)
    (fun x hx j hj => by
      split at hj
      · rename_i hu
        rw [if_pos hu]
        rcases mem_insertNat.mp hj with rfl | hj
        · rw [h.units.eq_of_key hx hm.1 (hu.trans hm.2.symm)]; exact hk
        · exact (h.entries x hx).tried j hj
      · rename_i hu
        rw [if_neg hu]; exact (h.entries x hx).tried j hj)
    (fun x _ j _ => by split <;> exact Iff.rfl) (fun _ _ hs => hs)
    (fun c hc _ => by
      have b := h.records c hc
      refine ⟨fun hl => (b.outstanding hl).trans ?_, b.targets, b.reasons, b.unopened, b.broadcast⟩
      refine (pendingAt_map (fun x _ => ?_)).symm
      split <;> exact Iff.rfl)
    (fun x hx hkx => by
      split at hkx
      · exact (h.entries x hx).owed k hkx
      · exact (h.entries x hx).owed k hkx)
  have hid : updateBy Campaign.slot k id s.campaigns.table = s.campaigns.table := by
    unfold updateBy; simp
  rw [hid] at this
  exact this

theorem State.account_balanced {s : State} (h : s.Balanced) (w : Work) (dest : Nat) (v : Verdict) :
    (s.account w dest v).Balanced := by
  unfold State.account
  split
  · rename_i hcr
    obtain ⟨c, e, -, -, -, he, hk⟩ := State.credits_iff hcr
    refine State.completeIfSettled_balanced ?_ _ _
    cases v <;> simp only [State.credit] <;> first
      | exact h
      | exact State.settleReceiver_balanced h he hk addApplied_column
      | exact State.settleReceiver_balanced h he hk addDeclined_column
      | exact State.settleReceiver_balanced h he hk (addRefused_column _)
      | exact State.markTried_balanced h he hk
  · exact h

theorem State.relayContact_balanced {s : State} (h : s.Balanced) (ch : Phase) (route : List Nat) (k : Nat) :
    (s.relayContact ch route k).Balanced := by
  unfold State.relayContact
  split
  · exact State.contact_balanced h _ _ _
  · exact h

theorem State.learn_balanced {s : State} (h : s.Balanced) (ch : Phase) (seq dest : Nat) (route : List Nat) (v : Verdict) :
    (s.learn ch seq dest route v).Balanced := by
  cases v <;> simp only [State.learn] <;> first
    | exact h
    | exact State.contact_balanced h _ _ _
    | exact State.miss_balanced (State.relayContact_balanced h _ _ _) _ _
    | exact State.miss_balanced h _ _

theorem State.takeOutcome_balanced {s : State} (h : s.Balanced) (ch : Phase) (w : Work) (v : Verdict) :
    (s.takeOutcome ch w v).Balanced := by
  unfold State.takeOutcome
  split
  · exact h
  · dsimp only
    refine State.examineSilenced_balanced ?_ _
    rename_i dest route _
    have := State.learn_balanced (State.account_balanced h w dest v) ch w.seq dest route v
    unfold State.examineOwn
    split
    · split
      · exact State.examinePass_balanced this _
      · exact this
    · exact this

theorem State.countTransmission_balanced {s : State} (h : s.Balanced) (ch : Phase) (k seq : Nat) :
    (s.countTransmission ch k seq).Balanced := by
  unfold State.countTransmission
  split
  · exact h
  · split
    · refine State.examineRound_balanced ?_ k
      exact State.updateCampaign_balanced h (fun _ _ hs => hs)
        (fun _ _ _ b => ⟨b.outstanding, b.targets, b.reasons, b.unopened, b.broadcast⟩) (fun _ _ _ ha hm => ⟨ha, hm⟩)
    · exact h

end Sys2Proof.Machine
end

