-- ==== Sys2Proof/Laws/Sequences.lean ====
section
/-! SUPPORT. The law of the campaign table (R43, R44) through the shared operations, the service of each request and the
events. -/

namespace Sys2Proof.Machine

/-- The law of the campaign table, as a property of the block. -/
def State.Numbered (s : State) : Prop := s.campaigns.Sound

/-- The law speaks of slots, sequences and the counter alone. -/
theorem Campaigns.Sound.of_host {a b : Campaigns} (h : a.Sound) (ht : b.table.map Campaign.hostFields = a.table.map Campaign.hostFields)
    (hc : b.counter = a.counter) : b.Sound := by
  have hslot : b.table.map Campaign.slot = a.table.map Campaign.slot := by
    have := congrArg (List.map Prod.fst) ht
    rw [List.map_map, List.map_map] at this
    exact this
  have hseq : b.table.map Campaign.seq = a.table.map Campaign.seq := by
    have := congrArg (List.map (fun x => x.2.1)) ht
    rw [List.map_map, List.map_map] at this
    exact this
  refine ⟨InOrder.of_map (by rw [hslot]; exact h.order.map_lt), fun c hx => ?_, fun c hx => ?_, ?_⟩
  · have : c.slot ∈ a.table.map Campaign.slot := hslot ▸ List.mem_map.mpr ⟨c, hx, rfl⟩
    obtain ⟨d, hd, he⟩ := List.mem_map.mp this
    rw [← he]; exact h.slots d hd
  · have : c.seq ∈ a.table.map Campaign.seq := hseq ▸ List.mem_map.mpr ⟨c, hx, rfl⟩
    obtain ⟨d, hd, he⟩ := List.mem_map.mp this
    rw [← he, hc]; exact h.below d hd
  · have := h.distinct
    rw [← List.pairwise_map (f := Campaign.seq) (R := (· ≠ ·))] at this ⊢
    rw [hseq]; exact this

/-- The campaign controller's acts leave slots, sequences and the counter. -/
theorem State.Numbered.of_touch {s t : State} (h : s.Numbered) (o : OnlyCampaigns s t) : t.Numbered :=
  Campaigns.Sound.of_host h o.table o.counter

theorem State.Numbered.of_eq {s t : State} (h : s.Numbered) (o : t.campaigns = s.campaigns) : t.Numbered := by
  unfold State.Numbered
  rw [o]
  exact h

theorem State.Numbered.of_roster {s t : State} (h : s.Numbered) (o : OnlyRoster s t) : t.Numbered := h.of_eq o.campaigns

theorem numbered_linkFree : LinkFree State.Numbered := fun _ _ h => h

theorem State.retime_campaigns (s : State) (r : Option Phase) (p : Source) (c : SourceCause) :
    (s.retime r p c).campaigns = s.campaigns := by
  unfold State.retime; dsimp only; split
  · rfl
  · simp

theorem State.applyParam_numbered {s : State} (h : s.Numbered) (r : ParamRef) (v : ParamValue) : (s.applyParam r v).Numbered := by
  unfold State.applyParam
  split
  all_goals first
    | exact h
    | exact (h.of_roster (State.setThreshold_touch s _)).of_touch (State.examineSilenced_touch _ _)
    | exact h.of_eq (State.retime_campaigns _ _ _ _)
    | exact Campaigns.Sound.of_host h rfl rfl

/-- A campaign put into a free slot with a sequence above all others keeps the sequences distinct. -/
theorem putBy_distinct {c : Campaign} : ∀ {l : List Campaign}, (∀ d ∈ l, d.slot ≠ c.slot) → (∀ d ∈ l, d.seq < c.seq) →
    l.Pairwise (fun a b => a.seq ≠ b.seq) → (putBy Campaign.slot c l).Pairwise (fun a b => a.seq ≠ b.seq)
  | [], _, _, _ => by simp [putBy]
  | a :: l, hn, hb, hp => by
    obtain ⟨h1, h2⟩ := List.pairwise_cons.mp hp
    unfold putBy
    split
    · refine List.pairwise_cons.mpr ⟨fun d hd => ?_, hp⟩
      have := hb d hd
      omega
    · split
      · rename_i he
        exact absurd he.symm (hn a List.mem_cons_self)
      · refine List.pairwise_cons.mpr ⟨fun d hd => ?_, putBy_distinct (fun d hd => hn d (List.mem_cons_of_mem _ hd))
          (fun d hd => hb d (List.mem_cons_of_mem _ hd)) h2⟩
        rcases putBy_mem hd with rfl | hd
        · have := hb a List.mem_cons_self
          omega
        · exact h1 d hd

theorem State.acceptCampaign_numbered {s : State} (h : s.Numbered) {c : Campaign} (hn : s.campaign c.slot = none) (hk : c.slot < 16)
   (hc : s.campaigns.counter = some c.seq) (now : Bool) : (s.acceptCampaign c now).Numbered := by
  have hno := findBy_none.mp hn
  have h1 : State.Numbered (s.setCampaigns
      { s.campaigns with table := putBy Campaign.slot c s.campaigns.table, counter := some (c.seq + 1) }) := by
    refine ⟨putBy_inOrder h.order, fun d hd => ?_, fun d hd => ⟨_, rfl, ?_⟩, ?_⟩
    · rcases putBy_mem hd with rfl | hd
      · exact hk
      · exact h.slots d hd
    · rcases putBy_mem hd with rfl | hd
      · omega
      · obtain ⟨n, h1, h2⟩ := h.below d hd
        rw [hc] at h1; cases h1; omega
    · refine putBy_distinct hno (fun d hd => ?_) h.distinct
      obtain ⟨n, h1, h2⟩ := h.below d hd
      rw [hc] at h1; cases h1; exact h2
  unfold State.acceptCampaign
  dsimp only
  split
  · exact h1.of_touch (State.activate_touch _ _)
  · exact h1

/-- An empty table keeps the law. -/
theorem State.Numbered.empty {t : State} (h : t.campaigns.table = []) : t.Numbered := by
  refine ⟨?_, ?_, ?_, ?_⟩ <;> rw [h]
  · exact List.Pairwise.nil
  · simp
  · simp
  · simp

/-- What the owner of a request makes of it keeps the law of the table. -/
theorem serveOf_numbered (r : Request) (s : State) (h : s.Numbered) : (serveOf r s).state.Numbered := by
  cases r <;> simp only [serveOf] <;> first
    | exact h
    | exact State.Numbered.empty rfl
    | skip
  case paramSet q =>
    unfold serveParamSet
    split
    · exact h
    · split
      · dsimp only [accept]
        split
        · exact h
        · exact State.applyParam_numbered h _ _
      · exact h
  case paramGet q =>
    cases q with
    | all => exact h
    | one n c => simp only [serveParamGet]; split <;> exact h
  case clockSet n =>
    unfold serveClockSet
    split
    · exact h
    · dsimp only
      split
      · dsimp only [accept]; refine State.Numbered.of_touch ?_ (State.timeReached_touch _ _); exact h
      · exact h
  case sequenceSeed =>
    simp only [serveSequenceSeed]; split
    · exact h
    · rename_i hr
      apply State.Numbered.empty
      have := (firstRefusal_none.mp hr) (_, ResultCode.wrongState) (by simp; rfl)
      simpa [accept] using this
  case submit q =>
    unfold serveSubmit
    split
    · exact h
    · split
      · rename_i hcnt hslot
        exact State.acceptCampaign_numbered h (State.freeSlot_none hslot).2 (State.freeSlot_none hslot).1 (by assumption) _
      · exact h
  case campaignQuery => simp only [serveCampaignQuery]; split <;> exact h
  case hold =>
    unfold serveHold; split
    · exact h
    · split
      · refine State.Numbered.of_touch h ?_; exact OnlyCampaigns.of_updateCampaign (fun _ _ _ => rfl)
      · exact h
  case resume =>
    unfold serveResume; split
    · exact h
    · split
      · refine State.Numbered.of_touch h ?_
        refine .trans ?_ (State.examineRound_touch _ _)
        refine .trans ?_ (State.examinePass_touch _ _)
        exact OnlyCampaigns.of_updateCampaign (fun _ _ _ => rfl)
      · exact h
  case cancel =>
    unfold serveCancel; split
    · exact h
    · split
      · exact State.Numbered.of_touch h (State.endCampaign_touch _ _ _ _)
      · exact h
  case release =>
    unfold serveRelease; split
    · exact h
    · split
      · exact h
      · refine ⟨removeBy_inOrder h.order, fun d hd => h.slots d (mem_removeBy.mp hd).1, fun d hd => h.below d (mem_removeBy.mp hd).1, ?_⟩
        exact List.Pairwise.filter _ h.distinct
  case rosterPut =>
    unfold serveRosterPut
    split
    · unfold State.putReceiver
      dsimp only [accept]
      refine State.Numbered.of_roster ?_ (State.updateAttention_touch _); exact h
    · exact h
    · exact h
  case rosterRemove u =>
    unfold serveRosterRemove
    split
    · exact h
    · dsimp only [accept]
      refine State.Numbered.of_roster ?_ (State.updateAttention_touch _)
      have := State.Numbered.of_touch h (State.dropReceiver_touch s u)
      exact this
  case rosterFlags q =>
    unfold serveRosterFlags
    split
    · split
      · exact h
      · dsimp only [accept]
        refine State.Numbered.of_roster ?_ (State.updateAttention_touch _); exact h
    · exact h
  case segmentSet q =>
    unfold serveSegmentSet
    split
    · exact h
    · split
      · exact h
      · dsimp only [accept]
        unfold State.dropBarred
        refine State.Numbered.of_touch ?_ (OnlyCampaigns.foldl _ (fun t (e : Entry) => t.dropReceiver_touch e.unit) _ _)
        exact h
  all_goals
    simp only [serveRosterGet, serveRosterScan, serveLineMask, servePlanStage, servePlanCommit, servePlanRead, serveSectorErase, serveEraseSuspend,
     serveEraseResume, serveStoreProtect, serveSiteWrite, serveSiteLock]
    repeat' split
  all_goals try exact h
  all_goals
    dsimp only [accept]
    unfold State.abandonErase
    repeat' split
  all_goals first | exact h | exact h.of_eq (by simp [State.storeNotice])

theorem numbered_free : EventFree State.Numbered where
  link := numbered_linkFree
  line := fun _ _ h => h
  clock := fun _ _ h => h
  pins := fun _ _ h => h
  touch := fun o h => h.of_touch o
  contact := fun u c x h => h.of_roster (State.contact_touch _ u c x)
  miss := fun u m h => h.of_roster (State.miss_touch _ u m)

end Sys2Proof.Machine
end

