-- ==== Sys2Proof/Laws/Snapshots.lean ====
section
/-! SUPPORT. The law of the snapshots (R171, R176, R178) through the shared operations: what leaves the campaigns in WAITING
and PREPARING, their plan slots and the requests of the latter as they were; the two operations that add a request or take
all of them; and what a table in order says. -/

namespace Sys2Proof.Machine

/-- A plan slot that a PLAN LOAD may yet read: PROGRAMMED, in a sector neither erasing nor suspended (R171). -/
def Store.Guarded (st : Store) (p : Nat) : Prop :=
  (∃ plan, st.slots[p]? = some (.programmed plan)) ∧ (∀ phase n, st.active ≠ some (.erase (p / 4) phase n))
    ∧ ∀ e, st.suspended = some e → e.sector ≠ p / 4

/-- WAITING or PREPARING: not yet entered into RUNNING. -/
def Campaign.Unstarted (c : Campaign) : Prop := c.state = .waiting ∨ c.state = .preparing

/-- Between two moments no campaign became WAITING or PREPARING, every waiting request kept its campaign in PREPARING, no
request joined, no guarded plan slot was lost, and the deliveries kept their order. -/
structure Calm (s t : State) : Prop where
  back    : ∀ k d, t.campaign k = some d → d.Unstarted → ∃ c, s.campaign k = some c ∧ c.Unstarted ∧ c.order = d.order
  stay    : ∀ r ∈ t.store.waiting, ∀ c, s.campaign r.slot = some c → c.state = .preparing →
    ∃ d, t.campaign r.slot = some d ∧ d.state = .preparing ∧ d.seq = c.seq ∧ d.order = c.order
  waiting : t.store.waiting.Sublist s.store.waiting
  guarded : ∀ p, s.store.Guarded p → t.store.Guarded p
  handed  : s.store.deliveries.Pairwise (fun a b => a.seq ≤ b.seq) → t.store.deliveries.Pairwise (fun a b => a.seq ≤ b.seq)

theorem Calm.refl (s : State) : Calm s s :=
  ⟨fun _ d h hd => ⟨d, h, hd, rfl⟩, fun _ _ c h hc => ⟨c, h, hc, rfl, rfl⟩, .refl _, fun _ h => h, id⟩

theorem Calm.trans {s t u : State} (h : Calm s t) (g : Calm t u) : Calm s u where
  back := fun k e he hu => by
    obtain ⟨d, hd, h1, h2⟩ := g.back k e he hu
    obtain ⟨c, hc, h3, h4⟩ := h.back k d hd h1
    exact ⟨c, hc, h3, h4.trans h2⟩
  stay := fun r hr c hc hp => by
    obtain ⟨d, hd, h1, h2, h3⟩ := h.stay r (g.waiting.subset hr) c hc hp
    obtain ⟨e, he, g1, g2, g3⟩ := g.stay r hr d hd h1
    exact ⟨e, he, g1, g2.trans h2, g3.trans h3⟩
  waiting := g.waiting.trans h.waiting
  guarded := fun p hp => g.guarded p (h.guarded p hp)
  handed := fun hp => g.handed (h.handed hp)

/-- Campaigns and store as they were. -/
theorem Calm.of_same {s t : State} (hc : ∀ k, t.campaign k = s.campaign k) (hs : t.store = s.store) : Calm s t := by
  refine ⟨fun k d h hd => ⟨d, (hc k).symm.trans h, hd, rfl⟩, fun r _ c h hp => ⟨c, (hc r.slot).trans h, hp, rfl, rfl⟩, ?_, ?_, ?_⟩
  · rw [hs]
  · rw [hs]; exact fun _ h => h
  · rw [hs]; exact id

/-- Campaigns as they were, and a store that lost no guarded plan slot and took in no request. -/
theorem Calm.of_store {s : State} {st : Store} (hw : st.waiting.Sublist s.store.waiting)
    (hg : ∀ p, s.store.Guarded p → st.Guarded p)
    (hd : s.store.deliveries.Pairwise (fun a b => a.seq ≤ b.seq) → st.deliveries.Pairwise (fun a b => a.seq ≤ b.seq)) :
    Calm s (s.setStore st) :=
  ⟨fun _ d h hu => ⟨d, h, hu, rfl⟩, fun _ _ c h hp => ⟨c, h, hp, rfl, rfl⟩, hw, hg, hd⟩

/-- One campaign changed: it does not become unstarted, and if it was PREPARING it stays so or its requests left. -/
theorem Calm.of_slot {s t : State} {k : Nat} (ho : ∀ j, j ≠ k → t.campaign j = s.campaign j)
    (hn : s.campaign k = none → t.campaign k = none)
    (hk : ∀ c, s.campaign k = some c → ∃ d, t.campaign k = some d ∧ (d.Unstarted → c.Unstarted ∧ c.order = d.order)
      ∧ (c.state = .preparing → (∀ r ∈ t.store.waiting, r.slot ≠ k)
        ∨ (d.state = .preparing ∧ d.seq = c.seq ∧ d.order = c.order)))
    (hw : t.store.waiting.Sublist s.store.waiting) (hg : ∀ p, s.store.Guarded p → t.store.Guarded p)
    (hd : s.store.deliveries.Pairwise (fun a b => a.seq ≤ b.seq) → t.store.deliveries.Pairwise (fun a b => a.seq ≤ b.seq)) :
    Calm s t := by
  refine ⟨fun j d h hu => ?_, fun r hr c h hp => ?_, hw, hg, hd⟩
  · by_cases hj : j = k
    · subst hj
      cases hc : s.campaign j with
      | none => rw [hn hc] at h; cases h
      | some c =>
        obtain ⟨e, he, h1, -⟩ := hk c hc
        rw [h] at he
        injection he with he
        subst he
        exact ⟨c, rfl, (h1 hu).1, (h1 hu).2⟩
    · exact ⟨d, (ho j hj).symm.trans h, hu, rfl⟩
  · by_cases hj : r.slot = k
    · rw [hj] at h ⊢
      obtain ⟨d, hd, -, h2⟩ := hk c h
      rcases h2 hp with h2 | ⟨h2, h3, h4⟩
      · exact absurd hj (h2 r hr)
      · exact ⟨d, hd, h2, h3, h4⟩
    · exact ⟨c, (ho r.slot hj).trans h, hp, rfl, rfl⟩

/-- A campaign's record changed in fields that the law does not read. -/
theorem Calm.of_update (s : State) (k : Nat) {f : Campaign → Campaign}
    (hf : ∀ c, s.campaign k = some c → ((f c).Unstarted → c.Unstarted ∧ c.order = (f c).order)
      ∧ (c.state = .preparing → (∀ r ∈ s.store.waiting, r.slot ≠ k)
        ∨ ((f c).state = .preparing ∧ (f c).seq = c.seq ∧ (f c).order = c.order)))
    (hs : ∀ c : Campaign, c.slot = k → (f c).slot = k) : Calm s (s.updateCampaign k f) := by
  have hu := State.campaign_update (s := s) (k := k) (g := f) hs
  refine .of_slot (OnlySlot.of_updateCampaign s k hs).others (fun hn => by rw [hu, hn]; rfl) (fun c hc => ?_) (.refl _)
    (fun _ h => h) id
  exact ⟨f c, by rw [hu, hc]; rfl, (hf c hc).1, (hf c hc).2⟩

theorem Calm.notify (s : State) (n : Notice) : Calm s (s.notify n) := .of_same (fun _ => by simp [State.campaign]) (by simp)

theorem Calm.setEntries (s : State) (l : List Entry) : Calm s (s.setEntries l) := .of_same (fun _ => rfl) rfl

/-- A fold of calm steps. -/
theorem Calm.foldl {β : Type} (f : State → β → State) (step : ∀ s b, Calm s (f s b)) (l : List β) (s : State) :
    Calm s (l.foldl f s) :=
  foldl_keeps Calm.refl Calm.trans f step l s

/-! ## The campaign controller's operations -/

theorem State.endCampaign_calm (s : State) (k : Nat) {v : CampaignState} (hv : v.live = false) (r : EndReason) :
    Calm s (s.endCampaign k v r) := by
  cases hc : s.campaign k with
  | none =>
    rw [State.endCampaign_dead (fun c h => by rw [hc] at h; cases h)]
    exact .refl s
  | some c =>
    cases hl : c.state.live with
    | false =>
      rw [State.endCampaign_dead (fun d h => by rw [hc] at h; injection h with h; subst h; exact hl)]
      exact .refl s
    | true =>
      have hst : (s.endCampaign k v r).store
          = if c.state = .preparing then { s.store with waiting := s.store.waiting.filter (fun q => q.slot != k) }
            else s.store := by
        unfold State.endCampaign
        rw [hc]
        dsimp only
        rw [if_pos hl]
        split <;> simp only [State.notify_store] <;> rfl
      refine .of_slot (s.endCampaign_only k v r).others (fun hn => by rw [hc] at hn; cases hn) (fun d hd => ?_) ?_ ?_ ?_
      · rw [hc] at hd
        injection hd with hd
        subst hd
        refine ⟨_, (State.endCampaign_live hc hl v r).1, fun hu => ?_, fun hp => .inl fun q hq => ?_⟩
        · rcases hu with hu | hu <;> · rw [show v = _ from hu] at hv; cases hv
        · rw [hst, if_pos hp] at hq
          simpa using (List.mem_filter.mp hq).2
      · rw [hst]
        split
        · exact List.filter_sublist
        · exact .refl _
      · rw [hst]
        split <;> exact fun _ h => h
      · rw [hst]
        split <;> exact id

theorem State.completeIfSettled_calm (s : State) (k : Nat) (r : EndReason) : Calm s (s.completeIfSettled k r) := by
  unfold State.completeIfSettled
  split
  · split
    · exact s.endCampaign_calm k rfl r
    · exact .refl s
  · exact .refl s

theorem State.runPasses_calm : ∀ (n k : Nat) (s : State), Calm s (State.runPasses n k s)
  | 0, _, s => .refl s
  | n + 1, k, s => by
    unfold State.runPasses
    split
    · exact .refl s
    · rename_i c _
      split
      · exact .refl s
      · split
        · split
          · refine .trans ?_ (State.runPasses_calm n k _)
            refine .trans (t := s.clearTried k) (.of_same (fun _ => rfl) rfl) ?_
            exact .of_update _ k (f := fun d => { d with pass := some (c.pass.getD 1 + 1) })
              (fun d _ => ⟨fun h => ⟨h, rfl⟩, fun h => .inr ⟨h, rfl, rfl⟩⟩) (fun _ h => h)
          · exact s.endCampaign_calm k rfl _
        · exact .refl s

theorem State.examinePass_calm (s : State) (k : Nat) : Calm s (s.examinePass k) := State.runPasses_calm 17 k s

theorem State.examineSilenced_calm (s : State) (l : List Nat) : Calm s (s.examineSilenced l) := by
  refine .foldl _ (fun t k => ?_) l s
  split
  · split
    · exact t.examinePass_calm k
    · exact .refl t
  · exact .refl t

theorem State.examineRound_calm (s : State) (k : Nat) : Calm s (s.examineRound k) := by
  unfold State.examineRound
  split
  · exact .refl s
  · rename_i c hc
    split
    · split
      · rename_i h
        split
        · exact s.endCampaign_calm k rfl _
        · refine .of_update s k (fun d hd => ?_) (fun _ h => h)
          rw [hc] at hd
          injection hd with hd
          subst hd
          refine ⟨fun hu => ?_, fun hp => ?_⟩
          · rcases (hu : CampaignState.resting = .waiting ∨ CampaignState.resting = .preparing) with hu | hu <;> cases hu
          · exact absurd (h.1.symm.trans hp) (by decide)
      · exact .refl s
    · exact .refl s

theorem State.settleReceiver_calm (s : State) (k u : Nat) {f : Campaign → Campaign}
    (hf : ∀ c, (f c).slot = c.slot ∧ (f c).state = c.state ∧ (f c).seq = c.seq ∧ (f c).order = c.order) :
    Calm s (s.settleReceiver k u f) := by
  refine .trans (t := s.updateEntry u (fun e => e.release k)) (.of_same (fun _ => rfl) rfl) ?_
  refine .of_update _ k (f := fun c => { f c with counts := { (f c).counts with
    outstanding := (f c).counts.outstanding - 1 } }) (fun c _ => ⟨fun h => ⟨?_, (hf c).2.2.2.symm⟩,
      fun h => .inr ⟨(hf c).2.1.trans h, (hf c).2.2.1, (hf c).2.2.2⟩⟩) (fun c h => (hf c).1.trans h)
  exact h.imp (fun h => (hf c).2.1.symm.trans h) (fun h => (hf c).2.1.symm.trans h)

theorem State.dropFrom_calm (s : State) (u k : Nat) : Calm s (s.dropFrom u k) :=
  ((s.settleReceiver_calm k u (f := Campaign.addDropped) (fun _ => ⟨rfl, rfl, rfl, rfl⟩)).trans (State.completeIfSettled_calm _ k _)).trans
    (State.examinePass_calm _ k)

theorem State.dropReceiver_calm (s : State) (u : Nat) : Calm s (s.dropReceiver u) := by
  unfold State.dropReceiver
  split
  · exact .refl s
  · exact .foldl _ (fun t k => t.dropFrom_calm u k) _ s

theorem State.overtake_calm (s : State) (old new : Nat) : Calm s (s.overtake old new) := by
  unfold State.overtake
  dsimp only
  split
  · exact .refl s
  · refine .trans (.trans ?_ (State.completeIfSettled_calm _ old _)) (State.examinePass_calm _ old)
    exact (Calm.setEntries s _).trans (.of_update _ old (fun d _ => ⟨fun h => ⟨h, rfl⟩, fun h => .inr ⟨h, rfl, rfl⟩⟩)
      (fun _ h => h))

theorem State.supersedeOne_calm (s : State) (new : Campaign) (k : Nat) : Calm s (s.supersedeOne new k) := by
  unfold State.supersedeOne
  split
  · exact .refl s
  · split
    · split
      · exact s.overtake_calm _ _
      · exact .refl s
      · split
        · exact s.endCampaign_calm k rfl _
        · exact .refl s
    · exact .refl s

theorem State.supersede_calm (s : State) (k : Nat) : Calm s (s.supersede k) := by
  unfold State.supersede
  split
  · exact .refl s
  · split
    · exact .refl s
    · exact .foldl _ (fun t j => t.supersedeOne_calm _ j) _ s

theorem State.checkWork_calm (s : State) (k : Nat) : Calm s (s.checkWork k) := by
  unfold State.checkWork
  split
  · exact .refl s
  · split
    · exact s.endCampaign_calm k rfl _
    · split
      · exact s.endCampaign_calm k rfl _
      · exact .refl s

/-- A campaign with no waiting request opens its account. -/
theorem State.openAccount_calm (s : State) (k : Nat)
    (h : ∀ c, s.campaign k = some c → c.state = .preparing → ∀ r ∈ s.store.waiting, r.slot ≠ k) :
    Calm s (s.openAccount k) := by
  unfold State.openAccount
  split
  · exact .refl s
  · dsimp only
    split
    · refine .trans ?_ (Calm.setEntries _ _)
      refine .of_update s k (fun c hc => ⟨fun hu => ?_, fun hp => .inl (h c hc hp)⟩) (fun _ h => h)
      rcases (hu : CampaignState.running = .waiting ∨ CampaignState.running = .preparing) with hu | hu <;> cases hu
    · refine .of_update s k (fun c hc => ⟨fun hu => ?_, fun hp => .inl (h c hc hp)⟩) (fun _ h => h)
      rcases (hu : CampaignState.running = .waiting ∨ CampaignState.running = .preparing) with hu | hu <;> cases hu

theorem State.enterRunning_calm (s : State) (k : Nat)
    (h : ∀ c, s.campaign k = some c → c.state = .preparing → ∀ r ∈ s.store.waiting, r.slot ≠ k) :
    Calm s (s.enterRunning k) :=
  ((s.openAccount_calm k h).trans (State.supersede_calm _ k)).trans (State.checkWork_calm _ k)

/-- A delivery that meets its campaign takes the campaign's requests with it. -/
theorem State.takeDelivery_calm (s : State) (d : Delivery) : Calm s (s.takeDelivery d) := by
  unfold State.takeDelivery
  split
  · exact .refl s
  · rename_i c hc
    split
    · rename_i h
      refine .trans (t := s.withdrawSnapshot d.slot |>.updateCampaign d.slot (fun c => { c with snapshot := some d.plan })) ?_
        (State.enterRunning_calm _ d.slot fun _ _ _ r hr => by simpa using (List.mem_filter.mp hr).2)
      have hu := State.campaign_update (s := s.withdrawSnapshot d.slot) (k := d.slot)
        (g := fun c => { c with snapshot := some d.plan }) (fun _ h => h)
      refine .of_slot (k := d.slot) (fun j hj => ?_) (fun hn => by rw [hc] at hn; cases hn) (fun e he => ?_)
        List.filter_sublist (fun _ h => h) id
      · exact (OnlySlot.of_updateCampaign (s.withdrawSnapshot d.slot) d.slot
          (f := fun c => { c with snapshot := some d.plan }) (fun _ h => h)).others j hj
      · have he' : (s.withdrawSnapshot d.slot).campaign d.slot = some e := he
        rw [he'] at hu
        exact ⟨_, hu, fun hx => ⟨hx, rfl⟩, fun hp => .inr ⟨hp, rfl, rfl⟩⟩
    · exact .refl s

theorem State.takeDeadline_calm (s : State) (now k : Nat) : Calm s (s.takeDeadline now k) := by
  unfold State.takeDeadline
  split
  · exact .refl s
  · split
    · split
      · exact s.endCampaign_calm k rfl _
      · exact s.endCampaign_calm k rfl _
    · exact .refl s

theorem State.account_calm (s : State) (w : Work) (dest : Nat) (v : Verdict) : Calm s (s.account w dest v) := by
  unfold State.account
  split
  · refine .trans ?_ (State.completeIfSettled_calm _ _ _)
    cases v <;> simp only [State.credit]
    case applied => exact s.settleReceiver_calm _ _ (fun _ => ⟨rfl, rfl, rfl, rfl⟩)
    case report => exact s.settleReceiver_calm _ _ (fun _ => ⟨rfl, rfl, rfl, rfl⟩)
    case alreadyNewer => exact s.settleReceiver_calm _ _ (fun _ => ⟨rfl, rfl, rfl, rfl⟩)
    case refused => exact s.settleReceiver_calm _ _ (fun _ => ⟨rfl, rfl, rfl, rfl⟩)
    all_goals exact .of_same (fun _ => rfl) rfl
  · exact .refl s

theorem State.learn_calm (s : State) (ch : Phase) (seq dest : Nat) (route : List Nat) (v : Verdict) :
    Calm s (s.learn ch seq dest route v) := by
  have hc : ∀ (t : State) u x, Calm t (t.contact u ch x) := fun t u x =>
    .of_same (fun _ => by unfold State.campaign; rw [(State.contact_touch t u ch x).campaigns]) (State.contact_touch t u ch x).store
  have hm : ∀ (t : State) u m, Calm t (t.miss u m) := fun t u m =>
    .of_same (fun _ => by unfold State.campaign; rw [(State.miss_touch t u m).campaigns]) (State.miss_touch t u m).store
  cases v <;> simp only [State.learn]
  case applied => exact hc s _ _
  case report => exact hc s _ _
  case alreadyNewer => exact hc s _ _
  case refused => exact hc s _ _
  case noReply => exact hm s _ _
  case garbled => exact hm s _ _
  case hopFailed =>
    refine .trans ?_ (hm _ _ _)
    unfold State.relayContact
    split
    · exact hc s _ _
    · exact .refl s
  case interrupted => exact .refl s
  case deferred => exact .refl s

theorem State.takeOutcome_calm (s : State) (ch : Phase) (w : Work) (v : Verdict) : Calm s (s.takeOutcome ch w v) := by
  unfold State.takeOutcome
  split
  · exact .refl s
  · rename_i dest route _
    refine .trans (.trans (.trans (s.account_calm w dest v) (State.learn_calm _ ch w.seq dest route v)) ?_)
      (State.examineSilenced_calm _ _)
    unfold State.examineOwn
    split
    · split
      · exact State.examinePass_calm _ _
      · exact .refl _
    · exact .refl _

theorem State.countTransmission_calm (s : State) (ch : Phase) (k seq : Nat) : Calm s (s.countTransmission ch k seq) := by
  unfold State.countTransmission
  split
  · exact .refl s
  · split
    · refine .trans ?_ (State.examineRound_calm _ k)
      exact .of_update s k (fun c _ => ⟨fun h => ⟨h, rfl⟩, fun h => .inr ⟨h, rfl, rfl⟩⟩) (fun _ h => h)
    · exact .refl s

/-! ## The plan store's operations -/

theorem insertDelivery_rising {d : Delivery} : ∀ {l : List Delivery}, l.Pairwise (fun a b => a.seq ≤ b.seq) →
    (insertDelivery d l).Pairwise (fun a b => a.seq ≤ b.seq)
  | [], _ => List.pairwise_singleton _ _
  | e :: l, h => by
    have hm : ∀ x l, x ∈ insertDelivery d l → x = d ∨ x ∈ l := by
      intro x l
      induction l with
      | nil => simp [insertDelivery]
      | cons a l ih =>
        simp only [insertDelivery]
        split
        · simp
        · simp only [List.mem_cons]
          exact fun h => h.elim (fun h => .inr (.inl h)) fun h => (ih h).imp id .inr
    obtain ⟨h1, h2⟩ := List.pairwise_cons.mp h
    simp only [insertDelivery]
    split
    · refine List.pairwise_cons.mpr ⟨fun x hx => ?_, h⟩
      rcases List.mem_cons.mp hx with rfl | hx
      · omega
      · have := h1 x hx; omega
    · refine List.pairwise_cons.mpr ⟨fun x hx => ?_, insertDelivery_rising h2⟩
      rcases hm x l hx with rfl | hx
      · omega
      · exact h1 x hx

theorem Store.takeSnapshots_rising {st : Store} (h : st.deliveries.Pairwise (fun a b => a.seq ≤ b.seq)) :
    st.takeSnapshots.deliveries.Pairwise (fun a b => a.seq ≤ b.seq) := by
  show (st.waiting.foldl _ st.deliveries).Pairwise _
  generalize st.waiting = w
  revert h
  generalize st.deliveries = l
  induction w generalizing l with
  | nil => exact id
  | cons r w ih =>
    intro h
    refine ih _ ?_
    dsimp only
    split
    · exact insertDelivery_rising h
    · exact h

/-- What a store does for the waiting requests leaves the law alone. -/
theorem Calm.serve (s : State) : Calm s (s.setStore s.store.serve) := by
  unfold Store.serve
  split
  · exact .of_store List.filter_sublist (fun _ h => h) Store.takeSnapshots_rising
  · unfold Store.autoSuspendErase
    split
    · rename_i k n ha
      split
      · refine .of_store (.refl _) (fun p h => ⟨h.1, fun ph m hx => ?_, h.2.2⟩) id
        simp only [Option.some.injEq, Operation.erase.injEq] at hx
        exact h.2.1 .erasing n (by rw [ha, hx.1])
      · exact .refl s
    · exact .refl s

/-- Every field of the store that the law reads is as it was, but that an active erase may have ended or begun to suspend. -/
theorem Calm.of_active {s : State} {st : Store} (h1 : st.slots = s.store.slots) (h2 : st.suspended = s.store.suspended)
    (h3 : st.waiting = s.store.waiting) (h4 : st.deliveries = s.store.deliveries)
    (ha : ∀ k ph n, st.active = some (.erase k ph n) → ∃ ph n, s.store.active = some (.erase k ph n)) :
    Calm s (s.setStore st) := by
  refine .of_store (by rw [h3]) (fun p h => ⟨by rw [h1]; exact h.1, fun ph n hx => ?_, by rw [h2]; exact h.2.2⟩)
    (by rw [h4]; exact id)
  obtain ⟨ph', n', hx⟩ := ha _ _ _ hx
  exact h.2.1 ph' n' hx

/-! ## Requests that join (R176, R177) -/

theorem insertRequest_perm (r : SnapshotRequest) : ∀ l : List SnapshotRequest, (insertRequest r l).Perm (r :: l)
  | [] => .refl _
  | q :: l => by
    simp only [insertRequest]
    split
    · exact .refl _
    · exact ((insertRequest_perm r l).cons q).trans (.swap r q l)

theorem insertDelivery_perm (d : Delivery) : ∀ l : List Delivery, (insertDelivery d l).Perm (l ++ [d])
  | [] => .refl _
  | e :: l => by
    simp only [insertDelivery]
    split
    · exact (List.perm_append_comm (l₁ := [d]) (l₂ := e :: l))
    · exact (insertDelivery_perm d l).cons e

/-- The delivery of a request whose slot is PROGRAMMED. -/
def Store.delivery? (st : Store) (r : SnapshotRequest) : Option Delivery :=
  (st.planOf r.planSlot).map (fun plan => ⟨r.slot, r.seq, plan⟩)

theorem Store.handedOver_eq (st : Store) (l : List SnapshotRequest) :
    ({ st with waiting := l } : Store).handedOver = l.filterMap st.delivery? := rfl

theorem Store.takeSnapshots_perm (st : Store) : st.takeSnapshots.deliveries.Perm (st.deliveries ++ st.handedOver) := by
  show (st.waiting.foldl _ st.deliveries).Perm (st.deliveries ++ st.waiting.filterMap _)
  generalize st.waiting = w
  generalize st.deliveries = l
  induction w generalizing l with
  | nil => simp
  | cons r w ih =>
    simp only [List.foldl_cons, List.filterMap_cons]
    cases hp : st.planOf r.planSlot with
    | none => exact ih l
    | some plan =>
      refine (ih _).trans ?_
      have := (insertDelivery_perm ⟨r.slot, r.seq, plan⟩ l).append_right (w.filterMap st.delivery?)
      rw [List.append_assoc] at this
      exact this

theorem Store.planOf_none {st : Store} {p : Nat} (h : st.planOf p = none) (plan : Plan) :
    st.slots[p]? ≠ some (.programmed plan) := by
  intro hx
  unfold Store.planOf Store.slot at h
  rw [hx] at h
  cases h

theorem Store.planOf_eq_none {st : Store} {p : Nat} (h : ∀ plan, st.slots[p]? ≠ some (.programmed plan)) : st.planOf p = none := by
  unfold Store.planOf Store.slot
  split
  · rename_i plan hx; exact absurd hx (h plan)
  · rfl

theorem Store.Gathers.refl (a : Store) : Store.Gathers a a [] :=
  ⟨rfl, fun _ => rfl, fun _ h => absurd rfl h, fun _ => ⟨rfl, .refl _⟩, id, fun h => absurd rfl h, fun _ => rfl⟩

/-- What a request that joins does (R176, R177). -/
theorem Store.join_gathers (a : Store) (r : SnapshotRequest) :
    Store.Gathers a ({ a with waiting := insertRequest r a.waiting } : Store).serve [r] := by
  have hw := insertRequest_perm r a.waiting
  by_cases ha : a.active = none
  · have hs : ({ a with waiting := insertRequest r a.waiting } : Store).serve
        = ({ a with waiting := insertRequest r a.waiting } : Store).takeSnapshots := by
      unfold Store.serve; dsimp only; rw [ha]
    rw [hs]
    refine ⟨rfl, fun h => (by cases h), fun _ _ => ⟨?_, fun q hq => ?_⟩, fun h => absurd ha h, fun h => Store.takeSnapshots_rising h,
      fun _ k n hx => (by rw [ha] at hx; cases hx), fun _ => rfl⟩
    · exact (Store.takeSnapshots_perm _).trans (.append_left _ (hw.filterMap a.delivery?))
    · obtain ⟨h1, h2⟩ := List.mem_filter.mp hq
      exact ⟨hw.mem_iff.mp h1, Store.planOf_none (st := a) (Option.isNone_iff_eq_none.mp h2)⟩
  · have hne : insertRequest r a.waiting ≠ [] := fun hx => by rw [hx] at hw; exact absurd hw.length_eq (by simp)
    have hs : ({ a with waiting := insertRequest r a.waiting } : Store).serve
        = ({ a with waiting := insertRequest r a.waiting } : Store).autoSuspendErase := by
      unfold Store.serve
      dsimp only
      split
      · contradiction
      · rfl
    rw [hs]
    unfold Store.autoSuspendErase
    dsimp only
    split
    · rename_i k n hk
      split
      · rename_i h
        refine ⟨rfl, fun h => (by cases h), fun h => absurd h ha, fun _ => ⟨rfl, hw⟩, id, fun _ k' n' hx _ _ => ?_, fun hx => ?_⟩
        · rw [hk] at hx
          injection hx with hx
          injection hx with h1 h2 h3
          rw [h1, h3]
        · rcases hx with hx | hx | hx
          · exact absurd hk (hx k n)
          · rw [h.1] at hx; cases hx
          · exact absurd h.2.1 hx
      · rename_i h
        exact ⟨rfl, fun h => (by cases h), fun h => absurd h ha, fun _ => ⟨rfl, hw⟩, id,
          fun _ _ _ _ h1 h2 => absurd ⟨h1, h2, hne⟩ h, fun _ => rfl⟩
    · rename_i hn
      exact ⟨rfl, fun h => (by cases h), fun h => absurd h ha, fun _ => ⟨rfl, hw⟩, id, fun _ k n hx => absurd hx (hn k n),
        fun _ => rfl⟩

theorem Store.Gathers.busy {a b : Store} {l : List SnapshotRequest} (h : Store.Gathers a b l) (ha : a.active ≠ none) :
    b.active ≠ none := by
  cases l with
  | nil => rw [h.nothing rfl]; exact ha
  | cons r l =>
    by_cases hx : (∀ k n, a.active ≠ some (.erase k .erasing n)) ∨ a.autoSuspend = false ∨ a.guard ≠ none
    · rw [h.stays hx]; exact ha
    · push Not at hx
      obtain ⟨⟨k, n, h1⟩, h2, h3⟩ := hx
      rw [h.suspends (by simp) k n h1 (by simpa using h2) h3]
      simp

theorem Store.Gathers.trans {a b c : Store} {l m : List SnapshotRequest} (h : Store.Gathers a b l) (g : Store.Gathers b c m) :
    Store.Gathers a c (l ++ m) := by
  have hs : b.slots = a.slots := by rw [h.frame]
  have hg : b.guard = a.guard := by rw [h.frame]
  have hu : b.autoSuspend = a.autoSuspend := by rw [h.frame]
  have hd : b.delivery? = a.delivery? := by
    funext r; unfold Store.delivery? Store.planOf Store.slot; rw [hs]
  refine ⟨?_, fun hx => ?_, fun ha hx => ?_, fun ha => ?_, fun hr => g.rising (h.rising hr), fun hx k n h1 h2 h3 => ?_, fun hx => ?_⟩
  · have h1 := h.frame
    have g1 := g.frame
    cases a; cases b; cases c
    simp only [Store.mk.injEq] at h1 g1 ⊢
    simp_all
  · obtain ⟨h1, h2⟩ := List.append_eq_nil_iff.mp hx
    rw [g.nothing h2, h.nothing h1]
  · have hb : b.active = none := (h.stays (.inl (by simp [ha]))).trans ha
    by_cases hl : l = []
    · subst hl
      rw [h.nothing rfl] at g
      exact g.free ha (by simpa using hx)
    · obtain ⟨h1, h2⟩ := h.free ha hl
      rw [Store.handedOver_eq, List.filterMap_append] at h1
      by_cases hm : m = []
      · subst hm
        rw [g.nothing rfl, List.append_nil, Store.handedOver_eq, List.filterMap_append]
        exact ⟨h1, h2⟩
      · obtain ⟨g1, g2⟩ := g.free hb hm
        rw [Store.handedOver_eq, hd, List.filterMap_append] at g1
        have hn : b.waiting.filterMap a.delivery? = [] := by
          rw [List.filterMap_eq_nil_iff]
          intro r hr
          unfold Store.delivery?
          rw [Store.planOf_eq_none (h2 r hr).2]; rfl
        rw [hn, List.append_nil] at g1
        rw [Store.handedOver_eq, List.filterMap_append, List.filterMap_append]
        refine ⟨(g1.trans (h1.append_right _)).trans ?_, fun r hr => ?_⟩
        · simp only [List.append_assoc]
          exact (List.perm_append_comm.append_left _).append_left _
        · obtain ⟨h3, h4⟩ := g2 r hr
          rw [hs] at h4
          refine ⟨?_, h4⟩
          rcases List.mem_append.mp h3 with h3 | h3
          · simp [h3]
          · have := (h2 r h3).1
            rcases List.mem_append.mp this with h5 | h5 <;> simp [h5]
  · obtain ⟨h1, h2⟩ := h.waits ha
    obtain ⟨g1, g2⟩ := g.waits (h.busy ha)
    refine ⟨g1.trans h1, (g2.trans (h2.append_left m)).trans ?_⟩
    rw [← List.append_assoc]
    exact List.perm_append_comm.append_right _
  · by_cases hl : l = []
    · subst hl
      rw [h.nothing rfl] at g
      exact g.suspends (by simpa using hx) k n h1 h2 h3
    · have hb := h.suspends hl k n h1 h2 h3
      rw [g.stays (.inl fun k' n' he => by rw [hb] at he; cases he), hb]
  · rw [g.stays ?_, h.stays hx]
    rw [h.stays hx, hu, hg]
    exact hx

/-! ## From a calm passage to the law -/

/-- A calm passage keeps the law. -/
theorem State.Snapshots.calm {s t : State} (h : s.Snapshots) (hs : InOrder Campaign.slot s.campaigns.table)
    (ht : InOrder Campaign.slot t.campaigns.table) (g : Calm s t) : t.Snapshots where
  kept := fun d hd hu p hp => by
    obtain ⟨c, hc, h1, h2⟩ := g.back d.slot d (ht.findBy_of_mem hd) hu
    exact g.guarded p (h.kept c (State.campaign_some hc).1 h1 p (by rw [h2]; exact hp))
  rising := h.rising.sublist g.waiting
  asked := fun r hr => by
    obtain ⟨c, hc, h1, h2, h3, h4⟩ := h.asked r (g.waiting.subset hr)
    have hcs : s.campaign r.slot = some c := by rw [← h1]; exact hs.findBy_of_mem hc
    obtain ⟨d, hd, g1, g2, g3⟩ := g.stay r hr c hcs h3
    exact ⟨d, (State.campaign_some hd).1, (State.campaign_some hd).2, g2.trans h2, g1, by rw [g3]; exact h4⟩
  handed := g.handed h.handed

theorem mem_insertRequest {r x : SnapshotRequest} : ∀ {l : List SnapshotRequest}, x ∈ insertRequest r l ↔ x = r ∨ x ∈ l
  | [] => by simp [insertRequest]
  | q :: l => by
    simp only [insertRequest]
    split
    · simp
    · simp only [List.mem_cons, mem_insertRequest (l := l)]
      exact ⟨fun h => h.elim (fun h => .inr (.inl h)) fun h => h.imp id .inr,
        fun h => h.elim (fun h => .inr (.inl h)) fun h => h.imp id .inr⟩

theorem pairwise_ne {α : Type} {f : α → Nat} : ∀ {l : List α}, l.Pairwise (fun a b => f a ≠ f b) → ∀ {a b : α}, a ∈ l → b ∈ l →
    a ≠ b → f a ≠ f b
  | c :: l, h, a, b, ha, hb, hn => by
    obtain ⟨h1, h2⟩ := List.pairwise_cons.mp h
    rcases List.mem_cons.mp ha with rfl | ha' <;> rcases List.mem_cons.mp hb with rfl | hb'
    · exact absurd rfl hn
    · exact h1 b hb'
    · exact (h1 a ha').symm
    · exact pairwise_ne h2 ha' hb' hn

theorem insertRequest_rising {r : SnapshotRequest} : ∀ {l : List SnapshotRequest}, l.Pairwise (fun a b => a.seq < b.seq) →
    (∀ x ∈ l, x.seq ≠ r.seq) → (insertRequest r l).Pairwise (fun a b => a.seq < b.seq)
  | [], _, _ => List.pairwise_singleton _ _
  | q :: l, h, hn => by
    obtain ⟨h1, h2⟩ := List.pairwise_cons.mp h
    have hq := hn q List.mem_cons_self
    simp only [insertRequest]
    split
    · refine List.pairwise_cons.mpr ⟨fun x hx => ?_, h⟩
      rcases List.mem_cons.mp hx with rfl | hx
      · omega
      · have := h1 x hx; omega
    · refine List.pairwise_cons.mpr ⟨fun x hx => ?_, insertRequest_rising h2 fun x hx => hn x (List.mem_cons_of_mem _ hx)⟩
      rcases mem_insertRequest.mp hx with rfl | hx
      · omega
      · exact h1 x hx

/-- A PLAN LOAD that becomes PREPARING with its request (R54, R176), its sequence being no other request's. -/
theorem State.Snapshots.prepare {s : State} (h : s.Snapshots) (hs : InOrder Campaign.slot s.campaigns.table)
    (hd : s.campaigns.table.Pairwise (fun a b => a.seq ≠ b.seq)) {k p : Nat} {c : Campaign} (hc : s.campaign k = some c)
    (hw : c.state = .waiting) (hp : c.order.body = .planLoad p) :
    ((s.updateCampaign k (fun d => { d with state := .preparing })).joinSnapshots ⟨k, c.seq, p⟩).Snapshots := by
  have hk := (State.campaign_some hc).2
  have hm := (State.campaign_some hc).1
  have hu : InOrder Campaign.slot (s.updateCampaign k (fun d => { d with state := .preparing })).campaigns.table :=
    updateBy_inOrder (fun _ _ h => h) hs
  have hmem : ∀ d, d ∈ (s.updateCampaign k (fun d => { d with state := .preparing })).campaigns.table ↔
      ∃ e ∈ s.campaigns.table, d = if e.slot = k then { e with state := .preparing } else e := by
    intro d
    show d ∈ s.campaigns.table.map _ ↔ _
    rw [List.mem_map]
    exact ⟨fun ⟨e, he, hd⟩ => ⟨e, he, hd.symm⟩, fun ⟨e, he, hd⟩ => ⟨e, he, hd.symm⟩⟩
  refine State.Snapshots.calm (s := (s.updateCampaign k (fun d => { d with state := .preparing })).setStore
    { s.store with waiting := insertRequest ⟨k, c.seq, p⟩ s.store.waiting }) ⟨fun d hd hu q hq => ?_, ?_, fun r hr => ?_,
      h.handed⟩ hu hu (Calm.serve _)
  · obtain ⟨e, he, rfl⟩ := (hmem d).mp hd
    split at hq
    · rename_i hek
      have : e = c := hs.eq_of_key he hm (hek.trans hk.symm)
      subst this
      exact h.kept e he (.inl hw) q hq
    · rename_i hek
      rw [if_neg hek] at hu
      exact h.kept e he hu q hq
  · refine insertRequest_rising h.rising fun r hr => ?_
    obtain ⟨e, he, h1, h2, h3, -⟩ := h.asked r hr
    intro hx
    have hne : e ≠ c := fun hh => by rw [hh, hw] at h3; cases h3
    exact pairwise_ne hd he hm hne (h2.trans hx)
  · rcases mem_insertRequest.mp hr with rfl | hr
    · exact ⟨{ c with state := .preparing }, (hmem _).mpr ⟨c, hm, by rw [if_pos hk]⟩, hk, rfl, rfl, hp⟩
    · obtain ⟨e, he, h1, h2, h3, h4⟩ := h.asked r hr
      have hne : e.slot ≠ k := fun hh => by
        have : e = c := hs.eq_of_key he hm (hh.trans hk.symm)
        rw [this, hw] at h3; cases h3
      exact ⟨e, (hmem e).mpr ⟨e, he, by rw [if_neg hne]⟩, h1, h2, h3, h4⟩

end Sys2Proof.Machine
end

