-- ==== Sys2Proof/Laws/SnapshotsKept.lean ====
section
/-! SUPPORT. The law of the snapshots (R171, R176, R178), with the law of the table, through activation, the service of each
request, the plan store's events and a millisecond. -/

namespace Sys2Proof.Machine

/-- The law of the table and the law of the snapshots together: what every command keeps. -/
def State.Settled (s : State) : Prop := s.Numbered ∧ s.Snapshots

theorem State.Settled.calm {s t : State} (h : s.Settled) (n : t.Numbered) (g : Calm s t) : t.Settled :=
  ⟨n, h.2.calm h.1.order n.order g⟩

theorem State.Settled.touch {s t : State} (h : s.Settled) (o : OnlyCampaigns s t) (g : Calm s t) : t.Settled :=
  h.calm (h.1.of_touch o) g

/-- The laws speak of the campaigns and the plan store alone. -/
theorem State.Settled.of_eq {s t : State} (h : s.Settled) (hc : t.campaigns = s.campaigns) (hs : t.store = s.store) :
    t.Settled :=
  h.calm (h.1.of_eq hc) (.of_same (fun _ => by unfold State.campaign; rw [hc]) hs)

theorem settled_linkFree : LinkFree State.Settled := fun _ _ h => h.of_eq rfl rfl

/-- Neither a campaign nor a request: the law holds of nothing. -/
theorem State.Settled.empty {t : State} (h : t.campaigns.table = []) (hw : t.store.waiting = [])
    (hd : t.store.deliveries.Pairwise (fun a b => a.seq ≤ b.seq)) : t.Settled := by
  refine ⟨.empty h, fun c hc => ?_, ?_, fun r hr => ?_, hd⟩
  · rw [h] at hc; cases hc
  · rw [hw]; exact .nil
  · rw [hw] at hr; cases hr

/-! ## Activation and the line time -/

theorem State.activate_settled {s : State} (h : s.Settled) {k : Nat}
    (hw : ∀ c, s.campaign k = some c → c.state = .waiting) : (s.activate k).Settled := by
  have hn : (s.activate k).Numbered := h.1.of_touch (State.activate_touch s k)
  unfold State.activate at hn ⊢
  split
  · exact h
  · rename_i c hc
    simp only [hc] at hn
    have hcw := hw c hc
    have hu := State.campaign_update (s := s) (k := k) (g := fun d => { d with activatedAt := s.clock.time }) (fun _ h => h)
    rw [hc] at hu
    have h1 : (s.updateCampaign k (fun d => { d with activatedAt := s.clock.time })).Settled :=
      h.touch (OnlyCampaigns.of_updateCampaign (fun _ _ _ => rfl))
        (.of_update s k (fun d _ => ⟨fun x => ⟨x, rfl⟩, fun x => .inr ⟨x, rfl, rfl⟩⟩) (fun _ x => x))
    dsimp only
    split
    · rename_i p hp
      rw [hp] at hn
      refine ⟨hn, ?_⟩
      have hb : c.order.body = .planLoad p := by
        cases hx : c.order.body <;> rw [hx] at hp <;> simp only [OrderBody.planSlot, reduceCtorEq, Option.some.injEq] at hp
        rw [hp]
      exact h1.2.prepare h1.1.order h1.1.distinct (c := { c with activatedAt := s.clock.time }) hu hcw hb
    · rename_i hp
      rw [hp] at hn
      refine h1.calm hn (State.enterRunning_calm _ k fun d hd hp => ?_)
      rw [hu] at hd
      injection hd with hd
      subst hd
      rw [show c.state = .preparing from hp] at hcw
      cases hcw

theorem State.takeStart_settled {s : State} (h : s.Settled) (now k : Nat) : (s.takeStart now k).Settled := by
  unfold State.takeStart
  split
  · exact h
  · rename_i c hc
    split
    · rename_i hw
      exact State.activate_settled h fun d hd => by
        rw [hc] at hd
        injection hd with hd
        exact hd ▸ hw.1
    · exact h

theorem foldl_settled {β : Type} (f : State → β → State) (step : ∀ {s}, s.Settled → ∀ b, (f s b).Settled) :
    ∀ (l : List β) {s : State}, s.Settled → (l.foldl f s).Settled
  | [], _, h => h
  | b :: l, _, h => foldl_settled f step l (step h b)

theorem State.timeReached_settled {s : State} (h : s.Settled) (now : Nat) : (s.timeReached now).Settled :=
  foldl_settled _ (fun h k => State.takeStart_settled h now k) _
    (foldl_settled _ (fun {t} h k => h.touch (t.takeDeadline_touch now k) (t.takeDeadline_calm now k)) _ h)

/-! ## A new campaign -/

theorem State.acceptCampaign_settled {s : State} (h : s.Settled) {c : Campaign} (hn : s.campaign c.slot = none)
    (hk : c.slot < 16) (hc : s.campaigns.counter = some c.seq) (hw : c.state = .waiting)
    (hp : ∀ p, c.order.body = .planLoad p → s.store.Guarded p) (now : Bool) : (s.acceptCampaign c now).Settled := by
  have hno := findBy_none.mp hn
  have h1 : (s.acceptCampaign c false).Settled := by
    refine ⟨State.acceptCampaign_numbered h.1 hn hk hc false, fun d hd hu p hb => ?_, h.2.rising, fun r hr => ?_, h.2.handed⟩
    · rcases putBy_mem (key := Campaign.slot) hd with rfl | hd
      · exact hp p hb
      · exact h.2.kept d hd hu p hb
    · obtain ⟨d, hd, g⟩ := h.2.asked r hr
      exact ⟨d, (mem_putBy h.1.order).mpr (.inr ⟨hd, hno d hd⟩), g⟩
  cases now
  · exact h1
  · refine State.activate_settled h1 fun d hd => ?_
    have : (s.acceptCampaign c false).campaign c.slot = some c := findBy_putBy_same h.1.order
    rw [this] at hd
    injection hd with hd
    exact hd ▸ hw

theorem Store.guarded_of_checks {s : State} {o : OrderReq} {p : Nat} (ho : o = .planLoad p)
    (hp : s.planPresent o = true) (hq : s.planQuiet o = true) : s.store.Guarded p := by
  subst ho
  simp only [State.planPresent, Store.planOf, Store.slot] at hp
  simp only [State.planQuiet, Bool.and_eq_true, Bool.not_eq_true'] at hq
  refine ⟨?_, fun ph n ha => ?_, fun e he hx => ?_⟩
  · split at hp
    · rename_i plan hx; exact ⟨plan, hx⟩
    · cases hp
  · have := hq.1
    simp [Store.erasing, ha, sectorOf, Config.slotsPerSector] at this
  · have := hq.2
    simp [Store.sectorSuspended, he, sectorOf, Config.slotsPerSector, hx] at this

theorem serveSubmit_settled (q : SubmitReq) {s : State} (h : s.Settled) : (serveSubmit q s).state.Settled := by
  unfold serveSubmit
  split
  · exact h
  · rename_i hr
    split
    · rename_i order target terms priority seq slot ho _ _ _ hcnt hslot
      refine State.acceptCampaign_settled h (State.freeSlot_none hslot).2 (State.freeSlot_none hslot).1 hcnt rfl (fun p hb => ?_) _
      have hb : order.body = .planLoad p := hb
      have hq : q.order = .planLoad p := by
        unfold submitOrder? at ho
        split at ho
        · rename_i body mode hbody _
          split at ho
          · injection ho with ho
            subst ho
            simp only at hb
            subst hb
            unfold orderBody? at hbody
            repeat' split at hbody
            all_goals simp only [reduceCtorEq, Option.some.injEq, OrderBody.planLoad.injEq] at hbody
            subst hbody
            assumption
          · cases ho
        · cases ho
      have hall := firstRefusal_none.mp hr
      exact Store.guarded_of_checks hq (hall (s.planPresent q.order, .notFound) (by simp))
        (hall (s.planQuiet q.order, .storeBusy) (by simp))
    · exact h

/-! ## Requests -/

/-- A store whose active operation is an erase only where one was. -/
theorem Store.Guarded.of_same {a b : Store} {p : Nat} (h : a.Guarded p) (h1 : b.slots = a.slots)
    (h2 : b.suspended = a.suspended) (h3 : b.active = a.active) : b.Guarded p := by
  unfold Store.Guarded
  rw [h1, h2, h3]
  exact h

/-- A change of the plan store that leaves the slots, the operations and the lists. -/
theorem Calm.of_settings {s : State} {st : Store} (h1 : st.slots = s.store.slots) (h2 : st.suspended = s.store.suspended)
    (h3 : st.waiting = s.store.waiting) (h4 : st.deliveries = s.store.deliveries) (h5 : st.active = s.store.active) :
    Calm s (s.setStore st) :=
  .of_active h1 h2 h3 h4 (fun _ ph n h => ⟨ph, n, h5 ▸ h⟩)

/-- An accepted operation that is no erase. -/
theorem State.begin_calm (s : State) {o : Operation} (ho : ∀ k ph n, o ≠ .erase k ph n) : Calm s (s.begin o) :=
  .of_active rfl rfl rfl rfl (fun k ph n h => absurd (Option.some.inj h) (ho k ph n))

theorem Calm.updateAttention (s : State) : Calm s s.updateAttention :=
  .of_same (fun _ => by unfold State.campaign; rw [(State.updateAttention_touch s).campaigns]) (State.updateAttention_touch s).store

theorem Calm.retime (s : State) (r : Option Phase) (p : Source) (c : SourceCause) : Calm s (s.retime r p c) := by
  unfold State.retime
  dsimp only
  split
  · exact .of_same (fun _ => rfl) rfl
  · refine .trans ?_ (Calm.notify _ _)
    exact .of_same (fun _ => rfl) rfl

theorem State.applyAutoSuspend_calm (s : State) (on : Bool) : Calm s (s.applyAutoSuspend on) := by
  unfold State.applyAutoSuspend
  dsimp only
  split
  · unfold Store.autoSuspendErase
    split
    · rename_i k n ha
      split
      · refine .of_active rfl rfl rfl rfl fun j ph m hx => ?_
        simp only [Option.some.injEq, Operation.erase.injEq] at hx
        exact ⟨.erasing, n, by rw [← hx.1]; exact ha⟩
      · exact .of_settings rfl rfl rfl rfl rfl
    · exact .of_settings rfl rfl rfl rfl rfl
  · exact .of_settings rfl rfl rfl rfl rfl

theorem State.applyParam_calm (s : State) (r : ParamRef) (v : ParamValue) : Calm s (s.applyParam r v) := by
  unfold State.applyParam
  split
  all_goals first
    | exact .of_same (fun _ => rfl) rfl
    | exact Calm.retime _ _ _ _
    | exact State.applyAutoSuspend_calm _ _
    | skip
  unfold State.applyThreshold
  exact .trans (.of_same (fun _ => by unfold State.campaign; rw [(State.setThreshold_touch s _).campaigns])
    (State.setThreshold_touch s _).store) (State.examineSilenced_calm _ _)

theorem State.abandonErase_calm (s : State) (a b : Nat) : Calm s (s.abandonErase a b) := by
  unfold State.abandonErase
  split
  · exact .refl s
  · rename_i e he
    split
    · refine .trans ?_ (Calm.notify _ _)
      refine .of_store (.refl _) (fun p h => ⟨?_, h.2.1, by simp⟩) id
      obtain ⟨plan, hp⟩ := h.1
      refine ⟨plan, ?_⟩
      simp only [fillSector, List.getElem?_mapIdx, hp, Option.map_some, Option.some.injEq]
      rw [if_neg (fun hx => h.2.2 e he (by rw [← hx]; rfl))]
    · exact .refl s

theorem Store.resumeErase_calm (s : State) {e : SuspendedErase} (he : s.store.suspended = some e) :
    Calm s (s.setStore (s.store.resumeErase e)) := by
  refine .of_store (.refl _) (fun p h => ⟨h.1, fun ph n hx => ?_, by simp [Store.resumeErase]⟩) id
  simp only [Store.resumeErase, Option.some.injEq, Operation.erase.injEq] at hx
  exact h.2.2 e he hx.1

theorem State.setErase_calm (s : State) {k n : Nat} {ph : ErasePhase} (h : s.store.active = some (.erase k ph n))
    (v : ErasePhase) : Calm s (s.setErase k v n) := by
  refine .of_active rfl rfl rfl rfl fun j ph' m hx => ?_
  simp only [Option.some.injEq, Operation.erase.injEq] at hx
  exact ⟨ph, n, by rw [← hx.1]; exact h⟩

/-- Check 5 of R171 keeps every plan slot that a PLAN LOAD may yet read. -/
theorem serveSectorErase_settled (k : Nat) {s : State} (h : s.Settled) : (serveSectorErase k s).state.Settled := by
  unfold serveSectorErase
  split
  · exact h
  · rename_i hr
    have hall := firstRefusal_none.mp hr
    have hu := hall (!s.campaigns.table.any (fun c => c.usesSector k), .inUse) (by simp)
    refine ⟨h.1, fun c hc hs p hp => ?_, h.2.rising, h.2.asked, h.2.handed⟩
    obtain ⟨h1, -, h3⟩ := h.2.kept c hc hs p hp
    refine ⟨h1, fun ph n hx => ?_, h3⟩
    simp only [Bool.not_eq_true', List.any_eq_false] at hu
    have hx : some (Operation.erase k .erasing 0) = some (.erase (p / 4) ph n) := hx
    simp only [Option.some.injEq, Operation.erase.injEq] at hx
    refine hu c hc ?_
    simp only [Campaign.usesSector, hp, OrderBody.planSlot, hx.1, sectorOf, Config.slotsPerSector, hs, decide_true,
      beq_self_eq_true, Bool.and_self]

theorem serveClockSet_settled (n : Nat) {s : State} (h : s.Settled) : (serveClockSet n s).state.Settled := by
  have h1 : (s.setClock { s.clock with time := some n, part := 0 }).Settled := h.of_eq rfl rfl
  have h2 := State.timeReached_settled h1 n
  unfold serveClockSet
  split
  · exact h
  · dsimp only
    split
    · dsimp only [accept]
      exact h2
    · exact h1

/-- What the owner of a request makes of it keeps both laws. -/
theorem serveOf_settled (r : Request) (s : State) (h : s.Settled) : (serveOf r s).state.Settled := by
  have n := serveOf_numbered r s h.1
  suffices Calm s (serveOf r s).state ∨ (serveOf r s).state.Settled from this.elim (h.calm n) id
  clear n
  cases r <;> simp only [serveOf] <;> first
    | exact .inr h
    | skip
  case resetAll => exact .inr (.empty rfl rfl .nil)
  case resetCampaigns => exact .inr (.empty rfl rfl .nil)
  case paramSet q =>
    unfold serveParamSet
    split
    · exact .inr h
    · split
      · dsimp only [accept]
        split
        · exact .inr h
        · exact .inl (State.applyParam_calm _ _ _)
      · exact .inr h
  case paramGet q =>
    cases q with
    | all => exact .inr h
    | one n c => simp only [serveParamGet]; split <;> exact .inr h
  case clockSet n => exact .inr (serveClockSet_settled n h)
  case sequenceSeed =>
    simp only [serveSequenceSeed]
    split
    · exact .inr h
    · exact .inl (.of_same (t := s.setCampaigns { s.campaigns with counter := some _ }) (fun _ => rfl) rfl)
  case submit q => exact .inr (serveSubmit_settled q h)
  case campaignQuery => simp only [serveCampaignQuery]; split <;> exact .inr h
  case hold q =>
    unfold serveHold
    split
    · exact .inr h
    · rename_i c hc
      split
      · rename_i hr
        refine .inl (.of_update s q.slot (f := fun d => { d with state := .held }) (fun d hd => ?_) (fun _ x => x))
        rw [(State.named_ok hc).2.1] at hd
        injection hd with hd
        subst hd
        refine ⟨fun hu => ?_, fun hp => ?_⟩
        · rcases (hu : CampaignState.held = .waiting ∨ CampaignState.held = .preparing) with hu | hu <;> cases hu
        · exact absurd (hr.symm.trans hp) (by decide)
      · exact .inr h
  case resume q =>
    unfold serveResume
    split
    · exact .inr h
    · rename_i c hc
      split
      · rename_i hr
        refine .inl (.trans (.trans (.of_update s q.slot (f := fun d => { d with state := .running }) (fun d hd => ?_)
          (fun _ x => x)) (State.examinePass_calm _ _)) (State.examineRound_calm _ _))
        rw [(State.named_ok hc).2.1] at hd
        injection hd with hd
        subst hd
        refine ⟨fun hu => ?_, fun hp => ?_⟩
        · rcases (hu : CampaignState.running = .waiting ∨ CampaignState.running = .preparing) with hu | hu <;> cases hu
        · exact absurd (hr.symm.trans hp) (by decide)
      · exact .inr h
  case cancel =>
    unfold serveCancel
    split
    · exact .inr h
    · split
      · exact .inl (State.endCampaign_calm _ _ rfl _)
      · exact .inr h
  case release q =>
    unfold serveRelease
    split
    · exact .inr h
    · rename_i c hc
      split
      · exact .inr h
      · rename_i hl
        have hcs := State.campaign_some (State.named_ok hc).2.1
        refine .inr ⟨?_, fun d hd => h.2.kept d (mem_removeBy.mp hd).1, h.2.rising, fun r hr => ?_, h.2.handed⟩
        · have := serveOf_numbered (.release q) s h.1
          simp only [serveOf, serveRelease, hc] at this
          rwa [if_neg hl] at this
        · obtain ⟨d, hd, h1, h2, h3, h4⟩ := h.2.asked r hr
          refine ⟨d, mem_removeBy.mpr ⟨hd, fun hx => hl ?_⟩, h1, h2, h3, h4⟩
          have : d = c := h.1.order.eq_of_key hd hcs.1 (hx.trans hcs.2.symm)
          rw [← this, h3]
          rfl
  case rosterPut =>
    unfold serveRosterPut
    split
    · unfold State.putReceiver
      dsimp only [accept]
      exact .inl ((Calm.setEntries s _).trans (Calm.updateAttention _))
    · exact .inr h
    · exact .inr h
  case rosterRemove u =>
    unfold serveRosterRemove
    split
    · exact .inr h
    · dsimp only [accept]
      exact .inl (((s.dropReceiver_calm u).trans (Calm.setEntries _ _)).trans (Calm.updateAttention _))
  case rosterFlags q =>
    unfold serveRosterFlags
    split
    · split
      · exact .inr h
      · dsimp only [accept]
        exact .inl (Calm.trans (.of_same (fun _ => rfl) rfl : Calm s (s.updateEntry q.unit _)) (Calm.updateAttention _))
    · exact .inr h
  case segmentSet q =>
    unfold serveSegmentSet
    split
    · exact .inr h
    · split
      · exact .inr h
      · dsimp only [accept]
        unfold State.dropBarred
        refine .inl (Calm.trans ?_ (.foldl _ (fun t (e : Entry) => t.dropReceiver_calm e.unit) _ _))
        exact .of_same (fun _ => rfl) rfl
  case sectorErase k => exact .inr (serveSectorErase_settled k h)
  case planStage =>
    unfold servePlanStage
    split
    · exact .inl (.of_settings rfl rfl rfl rfl rfl)
    · exact .inr h
  case planClear => exact .inl (.of_settings rfl rfl rfl rfl rfl)
  case planCommit =>
    unfold servePlanCommit
    split
    · exact .inr h
    · exact .inl (State.begin_calm _ (by simp))
    · exact .inr h
  case eraseSuspend =>
    unfold serveEraseSuspend
    split
    · rename_i ha
      split
      · exact .inr h
      · exact .inl (State.setErase_calm _ ha _)
    · rename_i ha
      exact .inl (State.setErase_calm _ ha _)
    all_goals exact .inr h
  case eraseResume =>
    unfold serveEraseResume
    split
    · exact .inr h
    · rename_i e he
      split
      · exact .inr h
      · split
        · exact .inr h
        · exact .inl (Store.resumeErase_calm s he)
  case storeArm => exact .inl (.of_settings rfl rfl rfl rfl rfl)
  case storeDisarm => exact .inl (.of_settings rfl rfl rfl rfl rfl)
  case storeProtect value =>
    unfold serveStoreProtect
    split
    · exact .inr h
    · have h1 : Calm s (s.setStore { s.store with boundary := value }) := .of_settings rfl rfl rfl rfl rfl
      exact .inl (h1.trans (State.abandonErase_calm _ _ _))
  case siteWrite =>
    unfold serveSiteWrite
    split
    · exact .inr h
    · exact .inl (State.begin_calm _ (by simp))
  case siteLock =>
    unfold serveSiteLock
    split
    · exact .inr h
    · exact .inl (State.begin_calm _ (by simp))
  case status => exact .inr (h.of_eq rfl rfl)
  case segmentLock => exact .inr (h.of_eq rfl rfl)
  case rosterGet =>
    unfold serveRosterGet
    repeat' split
    all_goals exact .inr h
  case rosterScan =>
    unfold serveRosterScan
    repeat' split
    all_goals exact .inr h
  case lineMask =>
    unfold serveLineMask
    repeat' split
    all_goals first | exact .inr h | exact .inr (h.of_eq rfl rfl)
  case planRead =>
    unfold servePlanRead
    repeat' split
    all_goals exact .inr h

/-! ## Events -/

theorem settled_acts : EventActs State.Settled where
  link := settled_linkFree
  line := fun _ _ h => h.of_eq rfl rfl
  clock := fun _ _ h => h.of_eq rfl rfl
  pins := fun _ _ h => h.of_eq rfl rfl
  reached := fun now h => State.timeReached_settled h now
  outcome := fun {s} ch w v h => h.calm (numbered_free.takeOutcome h.1 ch w v) (s.takeOutcome_calm ch w v)
  counted := fun {s} ch k seq h => h.calm (numbered_free.countTransmission h.1 ch k seq) (s.countTransmission_calm ch k seq)
  rested := fun {s k c} hc hr f h => by
    refine h.touch (OnlyCampaigns.of_updateCampaign (fun _ _ _ => rfl)) (.of_update s k (fun d hd => ?_) (fun _ x => x))
    rw [hc] at hd
    injection hd with hd
    subst hd
    refine ⟨fun hu => ?_, fun hp => ?_⟩
    · rcases (hu : CampaignState.running = .waiting ∨ CampaignState.running = .preparing) with hu | hu <;> cases hu
    · exact absurd (hr.symm.trans hp) (by decide)

/-- An ended operation, whose store lost no guarded slot. -/
theorem State.completeOperation_calm (s : State) {st : Store} (e : StoreEvent) (hw : st.waiting = s.store.waiting)
    (hd : st.deliveries = s.store.deliveries) (hs : st.suspended = s.store.suspended)
    (hg : ∀ p plan, s.store.Guarded p → s.store.slots[p]? = some (.programmed plan) →
      ∃ plan, st.slots[p]? = some (.programmed plan)) : Calm s (s.completeOperation st e) := by
  unfold State.completeOperation
  dsimp only
  refine .trans ?_ (Calm.serve _)
  refine .trans ?_ (Calm.notify _ _)
  refine .of_store (by simp [hw]) (fun p h => ⟨?_, fun _ _ => Option.some_ne_none _ ∘ Eq.symm, by rw [show ({ st with active := none } : Store).suspended = st.suspended from rfl, hs]; exact h.2.2⟩)
    (by rw [show ({ st with active := none } : Store).deliveries = st.deliveries from rfl, hd]; exact id)
  obtain ⟨plan, hp⟩ := h.1
  exact hg p plan h hp

theorem State.suspendForHost_calm (s : State) {k n : Nat} {ph : ErasePhase} (h : s.store.active = some (.erase k ph n)) :
    Calm s (s.suspendForHost k n) := by
  unfold State.suspendForHost
  dsimp only
  refine .trans ?_ (.of_store List.filter_sublist (fun _ g => g) Store.takeSnapshots_rising)
  refine .trans ?_ (Calm.notify _ _)
  refine .of_store (.refl _) (fun p g => ⟨g.1, fun _ _ => Option.some_ne_none _ ∘ Eq.symm, fun e he hx => ?_⟩) id
  injection he with he
  subst he
  exact g.2.1 ph n (by rw [h, ← hx])

theorem State.suspendForSnapshot_calm (s : State) {k n : Nat} {ph : ErasePhase} (h : s.store.active = some (.erase k ph n)) :
    Calm s (s.suspendForSnapshot k n) := by
  refine .of_store List.filter_sublist (fun p g => ⟨g.1, fun ph' m hx => ?_, fun e he => by cases he⟩)
    (fun hd => Store.takeSnapshots_rising (st := { s.store with active := none, suspended := some ⟨k, n, .snapshot⟩ }) hd)
  simp only [Store.resumeErase, Option.some.injEq, Operation.erase.injEq] at hx
  exact g.2.1 ph n (by rw [h, hx.1])

theorem storeEvents_settled : ∀ c ∈ storeEvents, ∀ s t : State, s.Settled → exec c s = .next t → t.Settled := by
  intro c hc s t h ht
  have B := settled_linkFree
  have same : ∀ {u : State}, finish u = .next t → u.campaigns = s.campaigns → Calm s u → t.Settled :=
    fun ht hu g => B.finish (h.calm (h.1.of_eq hu) g) ht
  simp only [storeEvents, List.mem_cons, List.not_mem_nil, or_false] at hc
  rcases hc with rfl | rfl | rfl | rfl | rfl | rfl | rfl <;> simp only [exec] at ht
  · simp only [execProgramComplete] at ht
    split at ht
    · rename_i q plan ho
      refine same ht (by simp [State.completeOperation, State.storeNotice]) (State.completeOperation_calm s _ rfl rfl rfl
        fun p plan' _ hp => ?_)
      rw [List.getElem?_set]
      split
      · rename_i hqp
        subst hqp
        have hlt : q < s.store.slots.length := (List.getElem?_eq_some_iff.mp hp).1
        rw [if_pos hlt]
        exact ⟨_, rfl⟩
      · exact ⟨_, hp⟩
    all_goals exact Host.Outcome.next.inj ht ▸ h
  · simp only [execEraseComplete] at ht
    split at ht
    · rename_i k ph n ho
      refine same ht (by simp [State.completeOperation, State.storeNotice]) (State.completeOperation_calm s _ rfl rfl rfl
        fun p plan g hp => ⟨plan, ?_⟩)
      simp only [fillSector, List.getElem?_mapIdx, hp, Option.map_some, Option.some.injEq]
      rw [if_neg (fun hx => g.2.1 ph n (by rw [ho, ← hx]; rfl))]
    all_goals exact Host.Outcome.next.inj ht ▸ h
  · simp only [execSuspensionTaken] at ht
    split at ht
    · rename_i ho
      exact same ht (by simp [State.suspendForHost, State.storeNotice]) (State.suspendForHost_calm s ho)
    · rename_i ho
      exact same ht rfl (State.suspendForSnapshot_calm s ho)
    all_goals exact Host.Outcome.next.inj ht ▸ h
  · simp only [execResumeGuardExpired] at ht
    split at ht
    · refine same ht rfl ?_
      unfold Store.autoSuspendErase
      split
      · rename_i k n ha
        split
        · refine .of_active rfl rfl rfl rfl fun j ph m hx => ?_
          simp only [Option.some.injEq, Operation.erase.injEq] at hx
          exact ⟨.erasing, n, by rw [← hx.1]; exact ha⟩
        · exact .of_settings rfl rfl rfl rfl rfl
      · exact .of_settings rfl rfl rfl rfl rfl
    · exact Host.Outcome.next.inj ht ▸ h
  · simp only [execSiteWriteComplete] at ht
    split at ht
    · exact same ht (by simp [State.completeOperation, State.storeNotice]) (State.completeOperation_calm s _ rfl rfl rfl
        fun _ plan _ hp => ⟨plan, hp⟩)
    all_goals exact Host.Outcome.next.inj ht ▸ h
  · simp only [execSiteLockComplete] at ht
    split at ht
    · exact same ht (by simp [State.completeOperation, State.storeNotice]) (State.completeOperation_calm s _ rfl rfl rfl
        fun _ plan _ hp => ⟨plan, hp⟩)
    all_goals exact Host.Outcome.next.inj ht ▸ h
  · simp only [execSnapshotDelivery] at ht
    split at ht
    · exact Host.Outcome.next.inj ht ▸ h
    · rename_i d rest hd
      have h1 : (s.setStore { s.store with deliveries := rest }).Settled :=
        ⟨h.1, h.2.kept, h.2.rising, h.2.asked, by
          have := h.2.handed
          rw [hd] at this
          exact (List.pairwise_cons.mp this).2⟩
      exact B.finish (h1.calm (numbered_free.takeDelivery h1.1 d) (State.takeDelivery_calm _ d)) ht

/-- A millisecond moves timers and the run time of an erase. -/
theorem State.passMillisecond_settled {s : State} (h : s.Settled) : s.passMillisecond.Settled := by
  have hn : s.passMillisecond.Numbered := Campaigns.Sound.of_host h.1 (by
    show (s.campaigns.table.map Campaign.tick).map Campaign.hostFields = _
    rw [List.map_map]
    rfl) rfl
  refine ⟨hn, fun c hc hu p hp => ?_, h.2.rising, fun r hr => ?_, h.2.handed⟩
  · obtain ⟨d, hd, rfl⟩ := List.mem_map.mp (show c ∈ s.campaigns.table.map Campaign.tick from hc)
    obtain ⟨h1, h2, h3⟩ := h.2.kept d hd hu p hp
    refine ⟨h1, fun ph n hx => ?_, h3⟩
    obtain ⟨o, ho, he⟩ := Option.map_eq_some_iff.mp (show s.store.active.map Operation.tick = _ from hx)
    cases o <;> simp only [Operation.tick, reduceCtorEq, Operation.erase.injEq] at he
    exact h2 _ _ (by rw [ho, he.1])
  · obtain ⟨d, hd, g⟩ := h.2.asked r hr
    exact ⟨d.tick, List.mem_map.mpr ⟨d, hd, rfl⟩, g⟩

theorem execPowerOn_settled (p : Pins) (s : State) {t : State} (ht : execPowerOn p s = .next t) : t.Settled := by
  injection ht with ht
  subst ht
  exact .empty rfl rfl .nil

end Sys2Proof.Machine
end

