-- ==== Sys2Proof/Machine/Receiver.lean ====
section
/-! DEFINITION. A receiver or relay on the line, "not part of the T40" (chapter 2): a second machine that meets the
dispatcher in line frames only and is no part of State (log 21). Rules R29 to R31, R33, R36 to R41, R113, R114, R143 to
R147. -/

namespace Sys2Proof.Machine

/-- What the installer gives a receiver: network, unit, groups, whether it relays broadcasts, the bands it offers, its
relays, the points it can hold, and the hop wait in milliseconds (R144). -/
structure Installation where
  network   : Nat
  unit      : Nat
  groups    : List Nat
  repeats   : Bool
  bands     : Nat
  hasRelay1 : Bool
  hasRelay2 : Bool
  maxPoints : Nat
  hopWait   : Nat
  deriving DecidableEq, Repr

/-- The five memory classes (R38). -/
inductive MemoryClass where
  | band | load1 | load2 | plan | clock
  deriving DecidableEq, Repr

/-- One value for each memory class. -/
structure PerMemory (α : Type) where
  band  : α
  load1 : α
  load2 : α
  plan  : α
  clock : α
  deriving DecidableEq, Repr

/-- The value of one memory class. -/
def PerMemory.get {α : Type} (m : PerMemory α) : MemoryClass → α
  | .band => m.band
  | .load1 => m.load1
  | .load2 => m.load2
  | .plan => m.plan
  | .clock => m.clock

/-- Another value for one memory class. -/
def PerMemory.set {α : Type} (m : PerMemory α) (c : MemoryClass) (v : α) : PerMemory α :=
  match c with
  | .band => { m with band := v }
  | .load1 => { m with load1 := v }
  | .load2 => { m with load2 := v }
  | .plan => { m with plan := v }
  | .clock => { m with clock := v }

/-- The same value for every memory class. -/
def PerMemory.const {α : Type} (v : α) : PerMemory α := ⟨v, v, v, v, v⟩

/-- A complete order as a receiver holds it. -/
inductive HeldOrder where
  | bandSet (band : Nat)
  | loadSwitch (relay : Nat) (action : Switch) (duration : Nat)
  | planLoad (plan : Plan)
  | clockSync (time : Nat)
  | statusPoll
  deriving DecidableEq, Repr

/-- An order waiting for its effective time, which the clock has not reached (R36). -/
structure WaitingOrder where
  seq       : Nat
  order     : HeldOrder
  effective : Nat
  deriving DecidableEq, Repr

/-- The last load order applied on a relay: its sequence, action, duration, the seconds left of it, counted from its first
application, and whether its reversion is still pending (R30, R31). -/
structure LoadWindow where
  seq      : Nat
  action   : Switch
  duration : Nat
  left     : Nat
  pending  : Bool
  deriving DecidableEq, Repr

/-- A relay of the receiver: its state, and the last load order applied on it. -/
structure RelayOutput where
  on     : Bool
  window : Option LoadWindow
  deriving DecidableEq, Repr

/-- A partial plan (R33). -/
structure Assembly where
  seq  : Nat
  last : Nat
  plan : Plan
  deriving DecidableEq, Repr

/-- The flood mark: a sequence, and the hop budget last taken for each fragment index (R114). -/
structure FloodMark where
  seq     : Nat
  budgets : List (Nat × Nat)
  deriving DecidableEq, Repr

/-- A forwarding record; its wait runs while it exists, and `left` is the milliseconds left of it (R144). -/
structure Forwarding where
  seq      : Nat
  dest     : Nat
  index    : Nat
  route    : List Nat
  position : Nat
  left     : Nat
  deriving DecidableEq, Repr

/-- A frame that waits for a quiet line: an ORDER to forward (R144), a BROADCAST to repeat (R113) or a REPLY to repeat inward
(R146), each with its bytes as heard, or a REPLY of the receiver's own (R145, R147). -/
inductive Queued where
  | forwarded (f : OrderFrame) (heard : List Byte)
  | repeated (f : BroadcastFrame) (heard : List Byte)
  | returned (heard : List Byte)
  | own (f : ReplyFrame)
  deriving DecidableEq, Repr

/-- The state of a receiver. A clock of `none` is unset; `outbox` holds the frames that wait for a quiet line, each sent
once, the first in first (MODEL'S CHOICE, log 34: no rule gives their order). -/
structure Receiver where
  site      : Installation
  stored    : PerMemory (Option Nat)
  band      : Nat
  relay1    : RelayOutput
  relay2    : RelayOutput
  plan      : Option Plan
  clock     : Option Nat
  waiting   : PerMemory (Option WaitingOrder)
  assembly  : Option Assembly
  flood     : Option FloodMark
  forward   : Option Forwarding
  outbox    : List Queued
  deriving DecidableEq, Repr

/-- A factory-new receiver: band 1 in force and nothing stored (R29, R38). That its relays stand OFF and its clock is unset
is MODEL'S CHOICE (log 21): the manual gives these two after a loss of power only (R40). -/
def Receiver.factory (site : Installation) : Receiver :=
  ⟨site, .const none, 1, ⟨false, none⟩, ⟨false, none⟩, none, none, .const none, none, none, none, []⟩

/-- A relay through a loss of power of some seconds: it stands OFF and a pending reversion is lost (R40), while the duration
of the last order goes on counting from its first application (R31; MODEL'S CHOICE, log 37: no rule says that the count
outlives the power). -/
def RelayOutput.powerCycled (o : RelayOutput) (seconds : Nat) : RelayOutput :=
  ⟨false, o.window.map (fun w => { w with left := w.left - seconds, pending := false })⟩

/-- A loss of the receiver's own power, and its return after some seconds (R40, R114, R144). That the frames still waiting for
a quiet line are dropped with the power, a relay's repeat among them, is MODEL'S CHOICE (log 34): no rule names them. -/
def Receiver.powerCycled (r : Receiver) (seconds : Nat) : Receiver :=
  { r with
    band := if r.plan.isSome then r.band else 1
    relay1 := r.relay1.powerCycled seconds
    relay2 := r.relay2.powerCycled seconds
    clock := none
    waiting := .const none
    assembly := none
    flood := none
    forward := none
    outbox := [] }

/-! ## Orders (R29 to R31, R36 to R39) -/

/-- The receiver memory class of an order (R29, R30, R32, R34); STATUS POLL has none (R35). -/
def HeldOrder.memoryClass : HeldOrder → Option MemoryClass
  | .bandSet _ => some .band
  | .loadSwitch relay _ _ => if relay = 1 then some .load1 else some .load2
  | .planLoad _ => some .plan
  | .clockSync _ => some .clock
  | .statusPoll => none

/-- The receiver has the relay of a number. -/
def Installation.hasRelay (i : Installation) (relay : Nat) : Bool := if relay = 1 then i.hasRelay1 else i.hasRelay2

/-- A plan fits the receiver (R33). -/
def Installation.fitsPlan (i : Installation) (p : Plan) : Bool :=
  p.points.all (fun q => decide (q.band ≤ i.bands)) && decide (p.points.length ≤ i.maxPoints)

/-- The class's own refusal of an order that does not fit (R37 step 4, R39). -/
def Installation.refusal (i : Installation) : HeldOrder → Option Reason
  | .bandSet b => if b ≤ i.bands then none else some .bandUnsupported
  | .loadSwitch relay _ _ => if i.hasRelay relay then none else some .relayAbsent
  | .planLoad p => if i.fitsPlan p then none else some .planRejected
  | .clockSync _ => none
  | .statusPoll => none

/-- ON is true. -/
def switchState : Switch → Bool
  | .on => true
  | .off => false

/-- A load order taking effect on a relay for the first time: the relay takes the action, an earlier reversion is
cancelled, and a duration above 0 starts a reversion (R30). -/
def startLoad (seq : Nat) (action : Switch) (duration : Nat) : RelayOutput :=
  ⟨switchState action, some ⟨seq, action, duration, duration * 60, decide (0 < duration)⟩⟩

/-- A load order applied again brings the relay to the state that the order commands by then and restarts nothing: with a
duration of 0 and within its duration the action, and after it the reverted state (R31). Its reversion, when a loss of power
took it (R40), is due again at its first moment (MODEL'S CHOICE, log 37): R31 lets no copy stretch the window. -/
def applyLoad (o : RelayOutput) (seq : Nat) (action : Switch) (duration : Nat) : RelayOutput :=
  match o.window with
  | some w =>
    if w.seq = seq then
      if w.duration = 0 then { o with on := switchState w.action }
      else if 0 < w.left then ⟨switchState w.action, some { w with pending := true }⟩
      else { o with on := !switchState w.action }
    else startLoad seq action duration
  | none => startLoad seq action duration

/-- The minute of day of a time (R33). -/
def minuteOfDay (t : Nat) : Nat := t / 60 % 1440

/-- The band of the point whose minute of day the clock has just reached (R33). MODEL'S CHOICE (log 21): a clock set into the
minute of a point reaches it, and one carried forward past the minute of a point does not: R33 says "reaches" alone. -/
def Receiver.switchPoint (r : Receiver) (old : Option Nat) (now : Nat) : Receiver :=
  match r.plan with
  | none => r
  | some p =>
    if old.map (fun t => t / 60) = some (now / 60) then r
    else
      match p.points.find? (fun q => q.minute == minuteOfDay now) with
      | some q => { r with band := q.band }
      | none => r

/-- An accepted order takes effect (R29, R30, R33, R34). -/
def Receiver.takeEffect (r : Receiver) (seq : Nat) (o : HeldOrder) : Receiver :=
  match o with
  | .bandSet b => { r with band := b }
  | .loadSwitch relay action duration =>
    if relay = 1 then { r with relay1 := applyLoad r.relay1 seq action duration }
    else { r with relay2 := applyLoad r.relay2 seq action duration }
  | .planLoad p => { r with plan := some p }
  | .clockSync _ => r
  | .statusPoll => r

/-- The waiting order of a class takes effect when the clock has reached its time (R36). -/
def Receiver.releaseWaiting (r : Receiver) (now : Nat) (c : MemoryClass) : Receiver :=
  match r.waiting.get c with
  | some w =>
    if w.effective ≤ now then { r with waiting := r.waiting.set c none }.takeEffect w.seq w.order else r
  | none => r

/-- The clock comes to a time: waiting orders reached take effect, then the plan's switch point (R33, R36). -/
def Receiver.clockAt (r : Receiver) (now : Nat) : Receiver :=
  ([MemoryClass.band, .load1, .load2, .plan].foldl (fun (a : Receiver) c => a.releaseWaiting now c)
    { r with clock := some now }).switchPoint r.clock now

/-- Acceptance (R37 step 5): the sequence is stored, an order of the class that waits is discarded, and the order takes
effect now or waits (R36). -/
def Receiver.accept (r : Receiver) (c : MemoryClass) (seq : Nat) (o : HeldOrder) (effective : Option Nat) : Receiver :=
  let kept := { r with stored := r.stored.set c (some seq), waiting := r.waiting.set c none }
  match o with
  | .clockSync t => kept.clockAt t
  | .bandSet _ | .loadSwitch _ _ _ | .planLoad _ | .statusPoll =>
    match effective, r.clock with
    | some e, some now =>
      if e ≤ now then kept.takeEffect seq o else { kept with waiting := kept.waiting.set c (some ⟨seq, o, e⟩) }
    | _, _ => kept.takeEffect seq o

/-- The reported state of a relay (R30). -/
def reportedRelay (present : Bool) (o : RelayOutput) : RelayState :=
  if present then (if o.on then .on else .off) else .absent

/-- The report of a STATUS POLL (R35); identity 0 is no plan, and the time counts only with the clock set (R140). That the
version is sent as 0 without a plan and the time as 0 with the clock unset is MODEL'S CHOICE (log 21): R140 only calls
them not meaningful. -/
def Receiver.report (r : Receiver) : ReportFields where
  band := r.band
  relay1 := reportedRelay r.site.hasRelay1 r.relay1
  relay2 := reportedRelay r.site.hasRelay2 r.relay2
  clockSet := r.clock.isSome
  planIdentity := match r.plan with | some p => p.identity | none => 0
  planVersion := match r.plan with | some p => p.version | none => 0
  time := r.clock.getD 0

/-- The order's sequence is below the stored one of its class (R37 step 2, R38). -/
def Receiver.outdated (r : Receiver) (c : MemoryClass) (seq : Nat) : Bool :=
  match r.stored.get c with
  | some v => decide (seq < v)
  | none => false

/-- The decision on a complete order (R37). -/
def Receiver.decideOrder (r : Receiver) (seq : Nat) (o : HeldOrder) (effective : Option Nat) : Receiver × LineAnswer :=
  match o.memoryClass with
  | none => (r, .report r.report)
  | some c =>
    if r.outdated c seq then (r, .alreadyNewer)
    else if effective.isSome ∧ r.clock = none then (r, .refused .noTime)
    else
      match r.site.refusal o with
      | some reason => (r, .refused reason)
      | none => (r.accept c seq o effective, .applied)

/-! ## Fragments (R33) -/

/-- The assembly after a fragment, when it begins or continues one: by its sequence and its index (R33). R139 lets a receiver
check the other fields of a later fragment and gives a difference no effect: MODEL'S CHOICE (log 38), a fragment that differs
joins all the same, the plan keeps the identity and version of fragment 1, and the order takes the effective time of the last
fragment. -/
def Receiver.assembled (r : Receiver) (seq index identity version : Nat) (points : List Point) : Option Assembly :=
  if index = 1 then some ⟨seq, 1, ⟨identity, version, points⟩⟩
  else
    match r.assembly with
    | some a =>
      if a.seq = seq ∧ index = a.last + 1 then
        some ⟨seq, index, { a.plan with points := a.plan.points ++ points }⟩
      else none
    | none => none

/-- A frame's order is taken: decided when complete, with its answer (R33, R37, R145). Only a PLAN LOAD is assembled; that a
frame of another class is a complete order whatever its fragment index and count is MODEL'S CHOICE (log 42). -/
def Receiver.takeBody (r : Receiver) (seq index count : Nat) (b : FrameBody) : Receiver × Option LineAnswer :=
  match b with
  | .bandSet band e => let (t, a) := r.decideOrder seq (.bandSet band) e; (t, some a)
  | .loadSwitch relay action duration e =>
    let (t, a) := r.decideOrder seq (.loadSwitch relay action duration) e; (t, some a)
  | .clockSync time => let (t, a) := r.decideOrder seq (.clockSync time) none; (t, some a)
  | .statusPoll => (r, some (.report r.report))
  | .planLoad identity version _ points e =>
    match r.assembled seq index identity version points with
    | none => (r, none)
    | some a =>
      if index < count then ({ r with assembly := some a }, some (.fragmentOk index))
      else
        let (t, answer) := { r with assembly := none }.decideOrder seq (.planLoad a.plan) e
        (t, some answer)

/-! ## Frames on the line (R41, R113, R114, R142 to R147) -/

/-- One more frame waits for a quiet line. -/
def Receiver.post (r : Receiver) (q : Queued) : Receiver := { r with outbox := r.outbox ++ [q] }

/-- A REPLY of this receiver. -/
def Receiver.replyFrame (r : Receiver) (seq : Nat) (a : LineAnswer) : Queued :=
  .own ⟨r.site.network, r.site.unit, seq, a⟩

/-- An ORDER frame of the network is heard: the next relay forwards it, the destination decides and answers (R143,
R144, R145). -/
def Receiver.hearOrder (r : Receiver) (f : OrderFrame) (heard : List Byte) : Receiver :=
  if f.hop < f.route.length then
    if f.route[f.hop]? = some r.site.unit then r.post (.forwarded f heard) else r
  else if f.hop = f.route.length ∧ f.dest = r.site.unit then
    match r.takeBody f.seq f.index f.count f.body with
    | (t, some a) => t.post (r.replyFrame f.seq a)
    | (t, none) => t
  else r

/-- The frame is a copy of a flood already taken (R114). -/
def FloodMark.isCopy (m : FloodMark) (f : BroadcastFrame) : Bool :=
  decide (m.seq = f.seq) && (match m.budgets.find? (fun p => p.1 == f.index) with
    | some p => decide (f.budget < p.2)
    | none => false)

/-- The flood mark after a frame is taken (R114). -/
def markFlood (m : Option FloodMark) (f : BroadcastFrame) : FloodMark :=
  match m with
  | some m =>
    if m.seq = f.seq then ⟨m.seq, (f.index, f.budget) :: m.budgets.filter (fun p => p.1 != f.index)⟩
    else ⟨f.seq, [(f.index, f.budget)]⟩
  | none => ⟨f.seq, [(f.index, f.budget)]⟩

/-- A BROADCAST frame of the network is heard: a copy is ignored; any other is taken, decided silently when its group is
0 or the receiver's, and repeated by a relay while its hop budget lasts (R41, R113, R114). -/
def Receiver.hearBroadcast (r : Receiver) (f : BroadcastFrame) (heard : List Byte) : Receiver :=
  if r.flood.any (fun m => m.isCopy f) then r
  else
    let marked := { r with flood := some (markFlood r.flood f) }
    let decided := if f.group = 0 ∨ f.group ∈ r.site.groups then (marked.takeBody f.seq f.index f.count f.body).1 else marked
    if r.site.repeats = true ∧ 0 < f.budget then decided.post (.repeated f heard) else decided

/-- The reply answers the forwarding record (R146). -/
def Forwarding.matches (w : Forwarding) (f : ReplyFrame) : Bool :=
  decide (f.seq = w.seq) && (decide (f.source = w.dest) || (match f.answer with
    | .hopFailed k => decide (w.position < k) && decide (w.route[k - 1]? = some f.source)
    | .applied | .alreadyNewer | .refused _ | .report _ | .fragmentOk _ => false))

/-- A REPLY frame of the network is heard: a relay whose wait runs repeats the one that answers its record, and its record
ends (R146), when the frame is taken (MODEL'S CHOICE, log 34: R146 names the repeat and the end together). -/
def Receiver.hearReply (r : Receiver) (f : ReplyFrame) (heard : List Byte) : Receiver :=
  match r.forward with
  | some w => if w.matches f then { r with forward := none }.post (.returned heard) else r
  | none => r

/-- The network number of a frame. -/
def LineFrame.network : LineFrame → Nat
  | .order f => f.network
  | .broadcast f => f.network
  | .reply f => f.network

/-- Bytes are heard: a receiver takes into account only well-formed frames of its network (R142). -/
def Receiver.hear (r : Receiver) (bytes : List Byte) : Receiver :=
  match readFrame bytes with
  | none => r
  | some f =>
    if f.network = r.site.network then
      match f with
      | .order o => r.hearOrder o bytes
      | .broadcast b => r.hearBroadcast b bytes
      | .reply p => r.hearReply p bytes
    else r

/-- The bytes of a frame before its check. -/
def payloadOf (heard : List Byte) : List Byte := heard.take (heard.length - 2)

/-- A byte with another value in its lowest two bits: the place of the hop index and of the hop budget (section 7.1). -/
def setLowBits (n : Nat) (b : Byte) : Byte := BitVec.ofNat 8 (b.toNat / 4 * 4 + n % 4)

/-- An ORDER as heard with another hop index, and the check recomputed (R141, R144). -/
def forwardedBytes (hop : Nat) (heard : List Byte) : List Byte :=
  withCheck ((payloadOf heard).modify 3 (setLowBits hop))

/-- The bytes before the check with another carried time, the last four of a CLOCK SYNC (R113, R139). -/
def retimed (time : Nat) (payload : List Byte) : List Byte := payload.take (payload.length - 4) ++ bytesOf 4 time

/-- A BROADCAST as heard with its hop budget one lower and, for CLOCK SYNC, the relay's own clock, or the time as heard while
that is unset; the check recomputed (R113, R141). -/
def repeatedBytes (clock : Option Nat) (f : BroadcastFrame) (heard : List Byte) : List Byte :=
  let lowered := (payloadOf heard).modify 2 (setLowBits (f.budget - 1))
  withCheck (match f.body with
    | .clockSync t => retimed (clock.getD t) lowered
    | .bandSet _ _ | .loadSwitch _ _ _ _ | .planLoad _ _ _ _ _ | .statusPoll => lowered)

/-- A waiting frame as it goes out: a REPLY repeated inward unchanged, check included (R141, R146). -/
def Queued.bytes (clock : Option Nat) : Queued → List Byte
  | .forwarded f heard => forwardedBytes (f.hop + 1) heard
  | .repeated f heard => repeatedBytes clock f heard
  | .returned heard => heard
  | .own f => f.bytes

/-- What the receiver begins to send after a quiet line: the first waiting frame (R113, R144 to R147). -/
def Receiver.sendingBytes (r : Receiver) : Option (List Byte) := r.outbox.head?.map (Queued.bytes r.clock)

/-- The hops between a relay at a position and the destination, times the hop wait (R144). -/
def Receiver.waitFor (r : Receiver) (route : List Nat) (position : Nat) : Nat :=
  (route.length - position + 1) * r.site.hopWait

/-- The sending of the first waiting frame has ended: a forwarded ORDER sets up its record, with its wait at its full length
(R144). -/
def Receiver.sendingEnded (r : Receiver) : Receiver :=
  match r.outbox with
  | .forwarded f _ :: rest =>
    { r with
      outbox := rest
      forward := some ⟨f.seq, f.dest, f.index, f.route, f.hop + 1, r.waitFor f.route (f.hop + 1)⟩ }
  | .repeated _ _ :: rest => { r with outbox := rest }
  | .returned _ :: rest => { r with outbox := rest }
  | .own _ :: rest => { r with outbox := rest }
  | [] => r

/-! ## Time -/

/-- A relay one second later: at the end of its duration a reversion still pending sets it to the opposite of the action
(R30). -/
def RelayOutput.second (o : RelayOutput) : RelayOutput :=
  match o.window with
  | some w =>
    if w.left = 1 ∧ w.pending = true then ⟨!switchState w.action, some { w with left := 0, pending := false }⟩
    else { o with window := some { w with left := w.left - 1 } }
  | none => o

/-- One millisecond passes at the receiver: the wait of its forwarding record runs, and at its end the relay originates
HOP_FAILED and the record ends (R144, R147). -/
def Receiver.millisecond (r : Receiver) : Receiver :=
  match r.forward with
  | none => r
  | some w =>
    if w.left ≤ 1 then { r with forward := none }.post (r.replyFrame w.seq (.hopFailed w.position))
    else { r with forward := some { w with left := w.left - 1 } }

/-- One second passes at the receiver (R30, R33, R36). -/
def Receiver.second (r : Receiver) : Receiver :=
  let ran := { r with relay1 := r.relay1.second, relay2 := r.relay2.second }
  match r.clock with
  | some t => ran.clockAt (t + 1)
  | none => ran

end Sys2Proof.Machine
end

