-- ==== Sys2Proof/WellFormed.lean ====
section
/-! DEFINITION. Which commands the outside can send at all. A field's RANGE is no matter of this file: a request with
a value out of range is well formed here and is answered MALFORMED by its owner (R188). -/

namespace Sys2Proof

/-- A number that some field of a request can hold: no field of the manual is wider than 32 bits. -/
def fits32 (n : Nat) : Bool := decide (n < 2 ^ 32)

/-- An optional number that a field can hold. -/
def optFits32 (o : Option Nat) : Bool := o.all fits32

/-- A list that a body of at most 240 bytes can hold, at one byte or more a member (R186). -/
def bodyList {α : Type} (l : List α) : Bool := decide (l.length ≤ 240)

/-- The numbers of an order fit their fields. -/
def OrderReq.wellFormed : OrderReq → Bool
  | .bandSet b => fits32 b
  | .loadSwitch r _ d => fits32 r && fits32 d
  | .planLoad p => fits32 p
  | .clockSync => true
  | .statusPoll => true
  | .other => true

/-- The numbers of a target fit their fields. -/
def TargetReq.wellFormed : TargetReq → Bool
  | .unit u => fits32 u
  | .group g => fits32 g
  | .all => true
  | .other => true

/-- The numbers of a SUBMIT fit their fields. -/
def SubmitReq.wellFormed (q : SubmitReq) : Bool :=
  q.order.wellFormed && q.target.wellFormed && optFits32 q.effective && optFits32 q.priority && optFits32 q.start
    && optFits32 q.deadline && optFits32 q.passLimit && optFits32 q.repeatsBase && optFits32 q.hopBudget
    && optFits32 q.interval

/-- The numbers of a slot reference fit their fields. -/
def SlotRef.wellFormed (q : SlotRef) : Bool := fits32 q.slot && optFits32 q.seq

/-- A request that a frame can spell. -/
def Request.wellFormed : Request → Bool
  | .unknown _ => true
  | .status => true
  | .identify => true
  | .resetAll => true
  | .resetCampaigns => true
  | .paramSet q => (match q.value with | .number n => fits32 n | _ => true)
  | .paramGet _ => true
  | .clockSet t => fits32 t
  | .sequenceSeed v => fits32 v
  | .submit q => q.wellFormed
  | .campaignQuery q => q.wellFormed
  | .campaignList => true
  | .hold q => q.wellFormed
  | .resume q => q.wellFormed
  | .cancel q => q.wellFormed
  | .release q => q.wellFormed
  | .rosterPut q => fits32 q.unit && bodyList q.groups && q.groups.all fits32 && bodyList q.route && q.route.all fits32
  | .rosterRemove u => fits32 u
  | .rosterGet u => fits32 u
  | .rosterScan q => fits32 q.start
  | .rosterFlags q => fits32 q.unit
  | .segmentSet q => fits32 q.index && fits32 q.first && fits32 q.last
  | .segmentGet => true
  | .segmentLock => true
  | .lineMask _ => true
  | .lineStatus => true
  | .planStage q => fits32 q.start && bodyList q.points && q.points.all (fun p => fits32 p.minute && fits32 p.band)
      && optFits32 q.identity && optFits32 q.version
  | .planClear => true
  | .planCommit p => fits32 p
  | .planRead p => fits32 p
  | .sectorErase k => fits32 k
  | .eraseSuspend => true
  | .eraseResume => true
  | .storeArm => true
  | .storeDisarm => true
  | .storeProtect v => fits32 v
  | .storeStatus => true
  | .siteWrite q => optFits32 q.network && optFits32 q.floor
  | .siteLock => true
  | .siteRead => true

/-- The reading of a received frame: a kind that names a request spells that request, never the form `unknown`. -/
def spelledWellFormed : Option Request → Bool
  | none => true
  | some (.unknown _) => false
  | some r => r.wellFormed

/-- A command that the outside can send: its request is one a frame can spell, the frame heard on a line is no longer
than a byte count the wire could carry (33 bytes is the longest frame of R137; up to 255 are let through as damage), and
a slot number is one of the sixteen. -/
def Instr.wellFormed : Instr → Bool
  | .powerOn _ => true
  | .frameComplete chars _ spelled => decide (chars.length ≤ 246) && spelledWellFormed spelled
  | .interByteTimeout => true
  | .transmissionEnd => true
  | .unknownKind _ k => (Request.unknown k).wellFormed
  | .status _ => Request.status.wellFormed
  | .identify _ => Request.identify.wellFormed
  | .resetAll _ => Request.resetAll.wellFormed
  | .resetCampaigns _ => Request.resetCampaigns.wellFormed
  | .paramSet _ q => (Request.paramSet q).wellFormed
  | .paramGet _ q => (Request.paramGet q).wellFormed
  | .clockSet _ t => (Request.clockSet t).wellFormed
  | .sequenceSeed _ v => (Request.sequenceSeed v).wellFormed
  | .submit _ q => (Request.submit q).wellFormed
  | .campaignQuery _ q => (Request.campaignQuery q).wellFormed
  | .campaignList _ => Request.campaignList.wellFormed
  | .hold _ q => (Request.hold q).wellFormed
  | .resume _ q => (Request.resume q).wellFormed
  | .cancel _ q => (Request.cancel q).wellFormed
  | .release _ q => (Request.release q).wellFormed
  | .rosterPut _ q => (Request.rosterPut q).wellFormed
  | .rosterRemove _ u => (Request.rosterRemove u).wellFormed
  | .rosterGet _ u => (Request.rosterGet u).wellFormed
  | .rosterScan _ q => (Request.rosterScan q).wellFormed
  | .rosterFlags _ q => (Request.rosterFlags q).wellFormed
  | .segmentSet _ q => (Request.segmentSet q).wellFormed
  | .segmentGet _ => Request.segmentGet.wellFormed
  | .segmentLock _ => Request.segmentLock.wellFormed
  | .lineMask _ q => (Request.lineMask q).wellFormed
  | .lineStatus _ => Request.lineStatus.wellFormed
  | .planStage _ q => (Request.planStage q).wellFormed
  | .planClear _ => Request.planClear.wellFormed
  | .planCommit _ p => (Request.planCommit p).wellFormed
  | .planRead _ p => (Request.planRead p).wellFormed
  | .sectorErase _ k => (Request.sectorErase k).wellFormed
  | .eraseSuspend _ => Request.eraseSuspend.wellFormed
  | .eraseResume _ => Request.eraseResume.wellFormed
  | .storeArm _ => Request.storeArm.wellFormed
  | .storeDisarm _ => Request.storeDisarm.wellFormed
  | .storeProtect _ v => (Request.storeProtect v).wellFormed
  | .storeStatus _ => Request.storeStatus.wellFormed
  | .siteWrite _ q => (Request.siteWrite q).wellFormed
  | .siteLock _ => Request.siteLock.wellFormed
  | .siteRead _ => Request.siteRead.wellFormed
  | .programComplete => true
  | .eraseComplete => true
  | .suspensionTaken => true
  | .resumeGuardExpired => true
  | .siteWriteComplete => true
  | .siteLockComplete => true
  | .snapshotDelivery => true
  | .secondComplete => true
  | .mainsLost _ => true
  | .mainsReturned _ => true
  | .settleExpired _ => true
  | .grant _ => true
  | .signalHeard _ => true
  | .quietIntervalHeard _ => true
  | .accessLimitExpired _ => true
  | .sendingEnd _ => true
  | .inboundLineFrame _ bytes => decide (bytes.length ≤ 255)
  | .replyWindowExpired _ => true
  | .tailExpired _ => true
  | .outcomeTaken _ => true
  | .transmissionEndedTaken _ => true
  | .tailEndedTaken _ => true
  | .intervalExpired slot => decide (slot < 16)

end Sys2Proof
end

