-- ==== Sys2Proof/Tests/Slice0.lean ====
section
/-! SUPPORT. Tests: ill-formed commands that WellFormed refuses, bytes written out from the manual, one step on a small
state for the commands, and for every statement with premises a state that meets them. -/

namespace Sys2Proof.Tests

open Sys2Proof Sys2Proof.Machine

/-! ## Ill-formed commands -/

/-- A sound header. -/
def hd : Header := ⟨1, true⟩

/-- A BAND SET of band 3 to all receivers, confirmed, with a deadline. -/
def order3 : SubmitReq :=
  ⟨.bandSet 3, none, .all, some .confirmed, some 0, none, some 2000, none, none, none, none⟩

theorem test_wellFormed_submit : (Instr.submit hd order3).wellFormed = true := by decide +kernel

theorem test_illFormed_wide_numbers :
    (Instr.submit hd { order3 with order := .bandSet 4294967296 }).wellFormed = false
    ∧ (Instr.submit hd { order3 with order := .loadSwitch 1 none 4294967296 }).wellFormed = false
    ∧ (Instr.submit hd { order3 with order := .planLoad 4294967296 }).wellFormed = false
    ∧ (Instr.submit hd { order3 with target := .unit 4294967296 }).wellFormed = false
    ∧ (Instr.submit hd { order3 with target := .group 4294967296 }).wellFormed = false
    ∧ (Instr.submit hd { order3 with effective := some 4294967296 }).wellFormed = false
    ∧ (Instr.submit hd { order3 with deadline := some 4294967296 }).wellFormed = false
    ∧ (Instr.submit hd { order3 with interval := some 4294967296 }).wellFormed = false
    ∧ (Instr.clockSet hd 4294967296).wellFormed = false
    ∧ (Instr.sequenceSeed hd 4294967296).wellFormed = false
    ∧ (Instr.hold hd ⟨4294967296, none⟩).wellFormed = false
    ∧ (Instr.release hd ⟨0, some 4294967296⟩).wellFormed = false
    ∧ (Instr.paramSet hd ⟨none, none, .number 4294967296⟩).wellFormed = false
    ∧ (Instr.siteWrite hd ⟨some 4294967296, none, none⟩).wellFormed = false := by decide +kernel

theorem test_illFormed_roster_and_store :
    (Instr.rosterPut hd ⟨4294967296, 0, none, none, [], []⟩).wellFormed = false
    ∧ (Instr.rosterPut hd ⟨1, 0, none, none, List.replicate 241 1, []⟩).wellFormed = false
    ∧ (Instr.rosterPut hd ⟨1, 0, none, none, [], [4294967296]⟩).wellFormed = false
    ∧ (Instr.rosterRemove hd 4294967296).wellFormed = false
    ∧ (Instr.rosterGet hd 4294967296).wellFormed = false
    ∧ (Instr.rosterScan hd ⟨4294967296, none⟩).wellFormed = false
    ∧ (Instr.rosterFlags hd ⟨4294967296, none, none⟩).wellFormed = false
    ∧ (Instr.segmentSet hd ⟨0, 1, 4294967296, none, none, none⟩).wellFormed = false
    ∧ (Instr.planStage hd ⟨0, [⟨4294967296, 1⟩], none, none⟩).wellFormed = false
    ∧ (Instr.planStage hd ⟨0, List.replicate 241 ⟨0, 1⟩, none, none⟩).wellFormed = false
    ∧ (Instr.planCommit hd 4294967296).wellFormed = false
    ∧ (Instr.planRead hd 4294967296).wellFormed = false
    ∧ (Instr.sectorErase hd 4294967296).wellFormed = false
    ∧ (Instr.storeProtect hd 4294967296).wellFormed = false := by decide +kernel

theorem test_illFormed_frames_and_slots :
    (Instr.frameComplete (List.replicate 247 ⟨0, false⟩) true none).wellFormed = false
    ∧ (Instr.frameComplete [] true (some (.unknown 7))).wellFormed = false
    ∧ (Instr.frameComplete [] true (some (.clockSet 4294967296))).wellFormed = false
    ∧ (Instr.inboundLineFrame .l1 (List.replicate 256 0)).wellFormed = false
    ∧ (Instr.intervalExpired 16).wellFormed = false := by decide +kernel

/-! ## Bytes -/

/-- The code of R141 over the nine digits. -/
theorem test_check_of_digits :
    checkOf [0x31, 0x32, 0x33, 0x34, 0x35, 0x36, 0x37, 0x38, 0x39] = 0x29B1 := by decide +kernel

/-- An ORDER frame written out from section 7.1: kind 1 and network 12, destination 2, one relay, hop index 0, the relay's
12 bits and 4 of padding, the sequence, class 1 with fragment 1 of 1, and band 3 without an effective time. -/
theorem test_order_frame_bytes :
    (OrderFrame.bytes ⟨12, 2, [1], 0, 7, 1, 1, .bandSet 3 none⟩).take 13
      = [0x10, 0x0C, 0x00, 0x24, 0x00, 0x10, 0x00, 0x00, 0x00, 0x07, 0x15, 0x00, 0x03] := by decide +kernel

/-- The longest ORDER frame has 33 bytes, the longest BROADCAST frame 27 (R137). -/
theorem test_longest_frames :
    (OrderFrame.bytes ⟨1, 2, [3, 4, 5], 0, 7, 1, 1, .planLoad 1 1 4 [⟨0, 1⟩, ⟨1, 2⟩, ⟨2, 3⟩, ⟨3, 4⟩] (some 9)⟩).length = 33
    ∧ (BroadcastFrame.bytes ⟨1, 0, 0, 7, 1, 1, .planLoad 1 1 4 [⟨0, 1⟩, ⟨1, 2⟩, ⟨2, 3⟩, ⟨3, 4⟩] (some 9)⟩).length = 27 := by
  decide +kernel

/-- A REPLY frame of unit 2 to sequence 7 with answer APPLIED, on network 12. -/
def appliedReply : List Byte := ReplyFrame.bytes ⟨12, 2, 7, .applied⟩

theorem test_reply_frame_is_read : readFrame appliedReply = some (.reply ⟨12, 2, 7, .applied⟩) := by decide +kernel

theorem test_damaged_frame_is_not_read : readFrame (appliedReply.set 3 0xFF) = none := by decide +kernel

/-! ## A small block -/

/-- A relay on L1. -/
def relay1 : Entry := ⟨1, 11, .relay, some .l1, [], [], .active, 0, .l1, noFlags, some 900, none, none, [], []⟩

/-- A terminal behind the relay, owed by the campaign in slot 0. -/
def term2 : Entry := ⟨2, 22, .terminal, some .l1, [5], [1], .active, 1, .l1, noFlags, some 900, none, none, [0], []⟩

/-- A new terminal whose phase is not known. -/
def term3 : Entry := ⟨3, 33, .terminal, none, [5], [], .new, 0, .l1, noFlags, none, none, none, [], []⟩

/-- A CONFIRMED campaign for unit 2, in its first pass. -/
def camp0 : Campaign :=
  ⟨0, 7, ⟨.bandSet 3, none⟩, .unit 2, .confirmed 5, 1, none, some 5000, .running, none, some 1, none, none, some 1,
    ⟨0, 0, 0, 0, 0, 0, 1⟩, ⟨0, 0, 0, 0⟩, some 950, none, none⟩

/-- A standing CLOCK SYNC broadcast to all, with one transmission left on every phase. -/
def camp1 : Campaign :=
  ⟨1, 8, ⟨.clockSync, none⟩, .all, .broadcast 0 1 (some 60), 2, none, none, .running, none, none,
    some ⟨⟨true, true, true⟩, ⟨1, 1, 1⟩, ⟨0, 0, 0⟩, some 0⟩, none, some 3, ⟨0, 0, 0, 0, 0, 0, 0⟩, ⟨0, 0, 0, 0⟩, some 950, none, none⟩

/-- A plan of two points. -/
def plan0 : Plan := ⟨100, 1, [⟨0, 1⟩, ⟨720, 2⟩]⟩

/-- A block at work: three receivers, two campaigns, line time 1,000, a plan in slot 0. -/
def yard : State where
  pending := []
  free := 0
  pins := ⟨⟨true, true, true⟩, false, false⟩
  link := ⟨.b9600, [], [], none, [], false, none⟩
  roster := ⟨[relay1, term2, term3], clearedMap, false, 0, 4, true⟩
  campaigns := ⟨[camp0, camp1], some 9, 5⟩
  line := .initial ⟨.idle, .idle, .idle⟩
  clock := ⟨some 1000, 0, some .l1, .mains, .mains, .hz50⟩
  store := .initial (factorySlots.set 0 (.programmed plan0)) ⟨⟨some 12, some 77, some 2⟩, false⟩

/-- The first slot's campaign in another state. -/
def yardWith (st : CampaignState) : State := yard.setTable [{ camp0 with state := st }, camp1]

/-- The unit of work that a grant on L1 gives for the campaign in slot 0. -/
def work0 : Work := ⟨0, 7, ⟨.bandSet 3, none⟩, none, 1, 1, 12, .l1, .exchange 2 [1]⟩

/-- The transmission of the campaign in slot 1 on L1. -/
def work1 : Work := ⟨1, 8, ⟨.clockSync, none⟩, none, 1, 1, 12, .l1, .broadcast 0 1⟩

/-- The campaign of slot 0 as it was before it entered RUNNING, with another order and a start time. -/
def fresh (v : CampaignState) (b : OrderBody) (start : Option Nat) : Campaign :=
  ⟨0, 7, ⟨b, none⟩, .unit 2, .confirmed 5, 1, start, some 5000, v, none, none, none, none, none,
    ⟨0, 0, 0, 0, 0, 0, 0⟩, ⟨0, 0, 0, 0⟩, none, none, none⟩

/-- The small block with that campaign in its slot 0, and nothing owed to the terminal yet. -/
def yardBefore (v : CampaignState) (b : OrderBody) (start : Option Nat) : State :=
  (yard.setTable [fresh v b start, camp1]).setEntries [relay1, { term2 with pending := [] }, term3]

/-- A PLAN LOAD waits for its snapshot, in a block with another store. -/
def loadingWith (f : Store → Store) : State :=
  let s := yardBefore .preparing (.planLoad 0) none
  s.setStore (f { s.store with waiting := [⟨0, 7, 0⟩] })

/-- The block with L1 in another activity. -/
def lineIn (a : Activity) : State := yard.setActivity .l1 a

/-- The block with another store. -/
def storeWith (f : Store → Store) : State := yard.setStore (f yard.store)

/-- What a step's next state satisfies. -/
def after (r : Result) (p : State → Bool) : Bool :=
  match r with
  | .next t => p t
  | .fault _ => false
  | .refused _ => false

/-- The result code of the reply being sent or waiting. -/
def codeOf (s : State) : Option ResultCode :=
  match s.link.tx with
  | some (.reply r) => some r.code
  | _ => s.link.reply.map Reply.code

/-- The state of the campaign in a slot. -/
def stateAt (k : Nat) (s : State) : Option CampaignState := (s.campaign k).map Campaign.state

/-! ## One step on the small block -/

theorem test_step_takes_the_front : after (step (yard.setPending [.hold hd ⟨0, none⟩, .storeArm hd])) (fun t =>
    decide (t.pending = [.storeArm hd]) && decide (stateAt 0 t = some .held)) = true := by decide +kernel

theorem test_empty_queue_grants : after (step (yard.setChannel .l2 ⟨.offline, false, false, .fixed, 15⟩ |>.setChannel .l3
    ⟨.offline, false, false, .fixed, 15⟩)) (fun t => decide (t.pending = [.grant .l1])) = true := by decide +kernel

theorem test_frame_brings_a_request : after (exec (.frameComplete (frameChars 5 1 []) true (some .status)) yard) (fun t =>
    decide (t.link.inbound = [⟨⟨1, true⟩, .status⟩]) && decide (t.link.rx = [])) = true := by decide +kernel

theorem test_search_goes_on_after_a_discard :
    after (exec (.frameComplete ([⟨Config.startMarker, false⟩, ⟨0, true⟩] ++ frameChars 5 1 []) true (some .status)) yard) (fun t =>
      decide (t.link.inbound = [⟨⟨1, true⟩, .status⟩]) && decide (t.link.rx = [])) = true := by decide +kernel

theorem test_timeout_drops_a_partial_frame :
    after (exec .interByteTimeout (yard.setLink { yard.link with rx := [⟨0xA5, false⟩] })) (fun t => decide (t.link.rx = []))
      = true := by decide +kernel

theorem test_transmission_end_sends_the_next_notice :
    after (exec .transmissionEnd (yard.setLink { yard.link with
        tx := some (.notice (.attention 1 2)), notices := [.attention 2 2] })) (fun t =>
      decide (t.link.tx = some (.notice (.attention 2 2))) && decide (t.link.notices = [])) = true := by decide +kernel

theorem test_codes_of_bad_requests :
    after (exec (.unknownKind ⟨0, false⟩ 99) yard) (fun t => decide (codeOf t = some .unknownKind)) = true
    ∧ after (exec (.status ⟨0, true⟩) yard) (fun t => decide (codeOf t = some .malformed)) = true
    ∧ after (exec (.hold hd ⟨16, none⟩) yard) (fun t => decide (codeOf t = some .malformed)) = true
    ∧ after (exec (.hold hd ⟨2, none⟩) yard) (fun t => decide (codeOf t = some .notFound)) = true
    ∧ after (exec (.hold hd ⟨0, some 6⟩) yard) (fun t => decide (codeOf t = some .notFound)) = true := by decide +kernel

theorem test_submit_activates : after (exec (.submit hd order3) yard) (fun t =>
    decide (stateAt 2 t = some .running) && decide (t.campaigns.counter = some 10)
      && decide ((t.roster.entries.map Entry.pending) = [[2], [2], [2]])
      && decide ((t.campaign 0).map Campaign.reason = some (some .overtaken))) = true := by decide +kernel

theorem test_submit_codes :
    after (exec (.submit hd { order3 with deadline := some 1000 }) yard) (fun t => decide (codeOf t = some .malformed)) = true
    ∧ after (exec (.submit hd { order3 with target := .unit 9 }) yard) (fun t => decide (codeOf t = some .notFound)) = true
    ∧ after (exec (.submit hd order3) (yard.setClock { yard.clock with time := none }))
        (fun t => decide (codeOf t = some .clockUnset)) = true := by decide +kernel

theorem test_plan_load_takes_its_snapshot :
    after (exec (.submit hd { order3 with order := .planLoad 0 }) yard) (fun t =>
      decide (stateAt 2 t = some .preparing) && decide (t.store.deliveries = [⟨2, 9, plan0⟩])) = true
    ∧ after (exec .snapshotDelivery ((yard.setTable [camp0, camp1,
          { camp0 with slot := 2, seq := 9, order := ⟨.planLoad 0, none⟩, state := .preparing, targets := none, pass := none
                       counts := ⟨0, 0, 0, 0, 0, 0, 0⟩ }]).setStore { yard.store with deliveries := [⟨2, 9, plan0⟩] }))
        (fun t => decide (stateAt 2 t = some .running) && decide ((t.campaign 2).map Campaign.snapshot = some (some plan0)))
      = true := by decide +kernel

theorem test_host_ends_and_frees :
    after (exec (.cancel hd ⟨0, some 7⟩) yard) (fun t => decide (stateAt 0 t = some .cancelled)
      && decide (t.link.notices.length = 1) && decide ((t.entry 2).map Entry.pending = some [])) = true
    ∧ after (exec (.release hd ⟨0, none⟩) (yardWith .cancelled)) (fun t => decide (stateAt 0 t = none)) = true
    ∧ after (exec (.release hd ⟨0, none⟩) yard) (fun t => decide (codeOf t = some .wrongState)) = true
    ∧ after (exec (.resume hd ⟨0, none⟩) (yardWith .held)) (fun t => decide (stateAt 0 t = some .running)) = true := by decide +kernel

theorem test_roster_requests :
    after (exec (.rosterPut hd ⟨4, 44, some .terminal, some none, [9, 2], [1]⟩) yard) (fun t =>
      decide ((t.entry 4).map Entry.groups = some [2, 9]) && decide (codeOf t = some .ok)) = true
    ∧ after (exec (.rosterPut hd ⟨5, 44, some .terminal, some none, [], [5]⟩) yard) (fun t =>
        decide (codeOf t = some .malformed)) = true
    ∧ after (exec (.rosterRemove hd 1) yard) (fun t => decide (codeOf t = some .inUse)) = true
    ∧ after (exec (.rosterRemove hd 2) yard) (fun t => decide (t.entry 2 = none) && decide (stateAt 0 t = some .complete)) = true
    ∧ after (exec (.rosterFlags hd ⟨3, some { noFlags with refused := true }, some { noFlags with refused := true }⟩) yard)
        (fun t => decide (t.roster.attention = 1) && decide (t.link.notices = [.attention 1 3])) = true := by decide +kernel

theorem test_segment_requests :
    after (exec (.segmentSet hd ⟨0, 2, 2, some none, some true, some true⟩) yard) (fun t =>
      decide (stateAt 0 t = some .complete) && decide ((t.campaign 0).map (fun c => c.counts.dropped) = some 1)) = true
    ∧ after (exec (.segmentLock hd) yard) (fun t => t.roster.locked) = true
    ∧ after (exec (.segmentSet hd ⟨8, 2, 1, none, none, none⟩) (yard.setRoster { yard.roster with locked := true })) (fun t =>
        decide (codeOf t = some .locked)) = true := by decide +kernel

theorem test_line_mask : after (exec (.lineMask hd ⟨some .all, some true⟩) yard) (fun t =>
    (t.channel .l1).masked && (t.channel .l2).masked && (t.channel .l3).masked) = true := by decide +kernel

theorem test_grant_serves_the_priority : after (exec (.grant .l1) yard) (fun t =>
    decide ((t.channel .l1).activity = .sensing work0 40 3000) && decide ((t.channel .l1).pointer = 0)) = true := by decide +kernel

theorem test_sensing_to_sending : after (exec (.quietIntervalHeard .l1) (lineIn (.sensing work0 0 100))) (fun t =>
    decide ((t.channel .l1).activity = .sending work0 (OrderFrame.bytes ⟨12, 2, [1], 0, 7, 1, 1, .bandSet 3 none⟩))) = true := by
  decide +kernel

theorem test_access_limit_jams : after (exec (.accessLimitExpired .l1) (lineIn (.sensing work0 5 0))) (fun t =>
    (t.channel .l1).jam && decide (t.reports .l1 = [.outcome work0 .deferred])
      && decide (t.link.tx = some (.notice (.lineChange .l1 (.jammed 0 7) (some 1000))))) = true := by decide +kernel

theorem test_sending_ends_in_a_window :
    after (exec (.sendingEnd .l1) (lineIn (.sending work0 []))) (fun t =>
      decide ((t.channel .l1).activity = .awaiting work0 750)) = true
    ∧ after (exec (.sendingEnd .l1) (lineIn (.sending work1 []))) (fun t =>
      decide ((t.channel .l1).activity = .awaiting work1 450) && decide (t.reports .l1 = [.transmissionEnded 1 8])) = true := by
  decide +kernel

theorem test_reply_ends_the_exchange :
    after (exec (.inboundLineFrame .l1 appliedReply) (lineIn (.awaiting work0 100))) (fun t =>
      decide (t.reports .l1 = [.outcome work0 .applied]) && decide ((t.channel .l1).activity = .idle)) = true
    ∧ after (exec (.inboundLineFrame .l1 [1, 2, 3]) (lineIn (.awaiting work0 100))) (fun t =>
      decide (t.reports .l1 = [.outcome work0 .garbled])) = true
    ∧ after (exec (.inboundLineFrame .l1 (ReplyFrame.bytes ⟨12, 1, 7, .hopFailed 1⟩)) (lineIn (.awaiting work0 100))) (fun t =>
      decide (t.reports .l1 = [.outcome work0 (.hopFailed 1)])) = true := by decide +kernel

theorem test_windows_expire :
    after (exec (.replyWindowExpired .l1) (lineIn (.awaiting work0 0))) (fun t =>
      decide (t.reports .l1 = [.outcome work0 .noReply])) = true
    ∧ after (exec (.tailExpired .l1) (lineIn (.awaiting work1 0))) (fun t =>
      decide (t.reports .l1 = [.tailEnded 1 8])) = true := by decide +kernel

theorem test_outcome_settles : after (exec (.outcomeTaken .l1) (yard.setReports .l1 [.outcome work0 .applied])) (fun t =>
    decide (stateAt 0 t = some .complete) && decide ((t.campaign 0).map (fun c => c.counts.applied) = some 1)
      && decide ((t.entry 2).map Entry.lastConfirmed = some (some 7)) && decide ((t.entry 2).map Entry.misses = some 0)) = true := by
  decide +kernel

theorem test_outcome_fails : after (exec (.outcomeTaken .l1) (yard.setReports .l1 [.outcome work0 .noReply])) (fun t =>
    decide (stateAt 0 t = some .running) && decide ((t.campaign 0).map Campaign.pass = some (some 2))
      && decide ((t.entry 2).map Entry.tried = some []) && decide ((t.entry 2).map Entry.misses = some 2)) = true := by decide +kernel

theorem test_transmission_counts : after (exec (.transmissionEndedTaken .l1)
    (yard.setReports .l1 [.transmissionEnded 1 8])) (fun t =>
      decide ((t.campaign 1).bind Campaign.run = some ⟨⟨true, true, true⟩, ⟨0, 1, 1⟩, ⟨1, 0, 0⟩, some 0⟩)
        && decide (t.reports .l1 = [])) = true := by decide +kernel

theorem test_interval_reloads : after (exec (.intervalExpired 1)
    (yard.setTable [camp0, { camp1 with state := .resting, intervalTimer := some 0 }])) (fun t =>
      decide (stateAt 1 t = some .running)) = true := by decide +kernel

theorem test_time_passes :
    after (exec .secondComplete yard) (fun t => decide (t.clock.time = some 1001)) = true
    ∧ after (exec (.clockSet hd 5000) yard) (fun t => decide (stateAt 0 t = some .expired)) = true
    ∧ after (exec (.clockSet hd 4294967296) yard) (fun t => decide (codeOf t = some .malformed)) = true := by decide +kernel

theorem test_mains :
    after (exec (.mainsLost .l1) (lineIn (.sending work0 []))) (fun t => decide ((t.channel .l1).activity = .offline)
      && decide (t.reports .l1 = [.outcome work0 .interrupted]) && decide (t.clock.reference = some .l2)
      && decide (t.clock.source = .mains)) = true
    ∧ after (exec (.mainsReturned .l1) State.reset) (fun t => decide ((t.channel .l1).activity = .settling 5000)
      && decide (t.clock.source = .mains) && decide (t.clock.reference = some .l1)) = true
    ∧ after (exec (.settleExpired .l1) (lineIn (.settling 0))) (fun t => decide ((t.channel .l1).activity = .idle)) = true := by
  decide +kernel

theorem test_store_writes :
    after (exec (.planCommit hd 1) (storeWith (fun st => { st with arm := true, boundary := 0 }))) (fun t =>
      decide (codeOf t = some .malformed)) = true
    ∧ after (exec (.planCommit hd 0) yard) (fun t => decide (codeOf t = some .notArmed)) = true
    ∧ after (exec (.sectorErase hd 1) (storeWith (fun st => { st with arm := true, boundary := 1 }))) (fun t =>
      decide (t.store.active = some (.erase 1 .erasing 0)) && !t.store.arm) = true
    ∧ after (exec .eraseComplete (storeWith (fun st => { st with active := some (.erase 0 .erasing 900) }))) (fun t =>
      decide (t.store.slots[0]? = some .empty) && decide (t.link.tx = some (.notice (.storeEvent (.eraseDone 0) (some 1000))))) = true
    ∧ after (exec .programComplete (storeWith (fun st => { st with active := some (.program 31 plan0) }))) (fun t =>
      decide (t.store.slots[31]? = some (.programmed plan0))) = true := by decide +kernel

theorem test_erase_suspension :
    after (exec (.eraseSuspend hd) (storeWith (fun st => { st with active := some (.erase 1 .erasing 5), guard := some 3 })))
      (fun t => decide (codeOf t = some .tooSoon)) = true
    ∧ after (exec .suspensionTaken (storeWith (fun st => { st with active := some (.erase 1 (.suspending .host) 5) }))) (fun t =>
      decide (t.store.suspended = some ⟨1, 5, .host⟩) && decide (t.store.active = none)) = true
    ∧ after (exec (.eraseResume hd) (storeWith (fun st => { st with suspended := some ⟨1, 5, .host⟩ }))) (fun t =>
      decide (t.store.active = some (.erase 1 .erasing 5)) && decide (t.store.guard = some 20)) = true := by decide +kernel

theorem test_site_record :
    after (exec (.siteWrite hd ⟨some 13, none, none⟩) (storeWith (fun st => { st with arm := true }))) (fun t =>
      decide (codeOf t = some .alreadySet)) = true
    ∧ after (exec (.siteLock hd) (storeWith (fun st => { st with arm := true }))) (fun t =>
      decide (t.store.active = some .siteLock)) = true
    ∧ after (exec .siteLockComplete (storeWith (fun st => { st with active := some .siteLock }))) (fun t =>
      t.store.site.locked) = true := by decide +kernel

theorem test_power_on_damages_an_interrupted_erase :
    after (exec (.powerOn ⟨⟨true, false, true⟩, true, false⟩) (storeWith (fun st => { st with active := some (.erase 0 .erasing 5) })))
      (fun t => decide (t.store.slots.take 5 = [.damaged, .damaged, .damaged, .damaged, .empty]) && decide (t.link.rate = .b57600)
        && decide (t.line.channels.map Channel.activity = ⟨.settling 5000, .offline, .settling 5000⟩)) = true := by decide +kernel

theorem test_resets :
    after (exec (.resetAll hd) yard) (fun t => decide (t.roster.entries = []) && decide (t.campaigns.counter = none)
      && decide (t.clock.time = some 1000) && decide (t.store.slots[0]? = some (.programmed plan0))) = true
    ∧ after (exec (.resetCampaigns hd) yard) (fun t => decide (t.campaigns.table = []) && decide (t.campaigns.counter = some 9)
      && decide (t.roster.entries.map Entry.pending = [[], [], []])) = true := by decide +kernel

theorem test_staging : after (exec (.planStage hd ⟨11, [⟨0, 1⟩, ⟨5, 2⟩], some 7, none⟩) yard) (fun t =>
    decide (t.store.staging.points[11]? = some (some ⟨0, 1⟩)) && decide (t.store.staging.points[0]? = some (some ⟨5, 2⟩))) = true := by
  decide +kernel

/-! ## A receiver -/

/-- A receiver of unit 2 on network 12 that relays, with eight bands and relay 1. -/
def house : Receiver := .factory ⟨12, 2, [5], true, 8, true, false, 12, 450⟩

theorem test_receiver_applies_and_answers :
    (house.hear (OrderFrame.bytes ⟨12, 2, [], 0, 7, 1, 1, .bandSet 3 none⟩)).band = 3
    ∧ (house.hear (OrderFrame.bytes ⟨12, 2, [], 0, 7, 1, 1, .bandSet 3 none⟩)).outbox = [.own ⟨12, 2, 7, .applied⟩]
    ∧ (house.hear (OrderFrame.bytes ⟨12, 2, [], 0, 7, 1, 1, .loadSwitch 2 .on 0 none⟩)).outbox
        = [.own ⟨12, 2, 7, .refused .relayAbsent⟩]
    ∧ (house.hear (OrderFrame.bytes ⟨13, 2, [], 0, 7, 1, 1, .bandSet 3 none⟩)).outbox = [] := by decide +kernel

/-- The house with relay 1 switched ON for one minute by sequence 7, and the copy of that order (R31). -/
def switching : Receiver := house.hear (OrderFrame.bytes ⟨12, 2, [], 0, 7, 1, 1, .loadSwitch 1 .on 1 none⟩)
def switchedAgain (r : Receiver) : Receiver := r.hear (OrderFrame.bytes ⟨12, 2, [], 0, 7, 1, 1, .loadSwitch 1 .on 1 none⟩)

theorem test_a_load_window_is_counted_from_its_first_application :
    switching.relay1 = ⟨true, some ⟨7, .on, 1, 60, true⟩⟩
    ∧ (switchedAgain (Nat.repeat Receiver.second 59 switching)).relay1 = ⟨true, some ⟨7, .on, 1, 1, true⟩⟩
    ∧ (switchedAgain (Nat.repeat Receiver.second 60 switching)).relay1 = ⟨false, some ⟨7, .on, 1, 0, false⟩⟩ := by
  decide +kernel

theorem test_a_loss_of_power_restarts_no_load_window :
    (switching.powerCycled 20).relay1 = ⟨false, some ⟨7, .on, 1, 40, false⟩⟩
    ∧ (Nat.repeat Receiver.second 40 (switching.powerCycled 20)).relay1.on = false
    ∧ (switchedAgain (switching.powerCycled 20)).relay1 = ⟨true, some ⟨7, .on, 1, 40, true⟩⟩
    ∧ (Nat.repeat Receiver.second 40 (switchedAgain (switching.powerCycled 20))).relay1.on = false
    ∧ (switchedAgain (switching.powerCycled 60)).relay1 = ⟨false, some ⟨7, .on, 1, 0, false⟩⟩ := by decide +kernel

theorem test_relay_repeats_a_flood_once :
    (house.hear (BroadcastFrame.bytes ⟨12, 5, 2, 7, 1, 1, .bandSet 3 none⟩)).sendingBytes
      = some (BroadcastFrame.bytes ⟨12, 5, 1, 7, 1, 1, .bandSet 3 none⟩)
    ∧ (((house.hear (BroadcastFrame.bytes ⟨12, 5, 2, 7, 1, 1, .bandSet 3 none⟩)).sendingEnded).hear
        (BroadcastFrame.bytes ⟨12, 5, 1, 7, 1, 1, .bandSet 3 none⟩)).outbox = [] := by decide +kernel

theorem test_relay_repeats_every_frame_it_takes :
    ((house.hear (BroadcastFrame.bytes ⟨12, 5, 2, 7, 1, 1, .bandSet 3 none⟩)).hear
        (BroadcastFrame.bytes ⟨12, 5, 2, 8, 1, 1, .bandSet 4 none⟩)).outbox.map (Queued.bytes none)
      = [BroadcastFrame.bytes ⟨12, 5, 1, 7, 1, 1, .bandSet 3 none⟩,
        BroadcastFrame.bytes ⟨12, 5, 1, 8, 1, 1, .bandSet 4 none⟩] := by decide +kernel

theorem test_relay_repeats_clock_sync_with_its_own_time :
    ((house.hear (BroadcastFrame.bytes ⟨12, 0, 2, 7, 1, 1, .clockSync 900⟩)).second).sendingBytes
      = some (BroadcastFrame.bytes ⟨12, 0, 1, 7, 1, 1, .clockSync 901⟩) := by decide +kernel

/-- The house as the relay at position 1 of a forwarded order of three hops, once its sending has ended. -/
def relaying : Receiver := (house.hear (OrderFrame.bytes ⟨12, 9, [2, 7], 0, 4, 1, 1, .bandSet 3 none⟩)).sendingEnded

theorem test_relay_forwards_an_order_with_the_next_hop_index :
    (house.hear (OrderFrame.bytes ⟨12, 9, [2, 7], 0, 4, 1, 1, .bandSet 3 none⟩)).sendingBytes
      = some (OrderFrame.bytes ⟨12, 9, [2, 7], 1, 4, 1, 1, .bandSet 3 none⟩)
    ∧ relaying.forward = some ⟨4, 9, 1, [2, 7], 1, 900⟩ := by decide +kernel

/-- The two body bytes of a STATUS POLL are nobody's to read, and a relay passes them on as they came (R139, R144). -/
theorem test_relay_forwards_ignored_bits_unchanged :
    (house.hear (withCheck [0x10, 0x0C, 0x00, 0x94, 0x00, 0x20, 0, 0, 0, 4, 0x55, 0xAB, 0xCD])).sendingBytes
      = some (withCheck [0x10, 0x0C, 0x00, 0x95, 0x00, 0x20, 0, 0, 0, 4, 0x55, 0xAB, 0xCD]) := by decide +kernel

/-- The three bits of the state byte that R140 does not name come back as they were heard (R141, R146). -/
theorem test_relay_returns_a_reply_unchanged :
    (relaying.hear (withCheck [0x30, 0x0C, 0x00, 0x94, 0, 0, 0, 4, 0, 1, 0x2E, 0, 0, 0, 0, 0, 0, 0])).sendingBytes
      = some (withCheck [0x30, 0x0C, 0x00, 0x94, 0, 0, 0, 4, 0, 1, 0x2E, 0, 0, 0, 0, 0, 0, 0])
    ∧ (relaying.hear (withCheck [0x30, 0x0C, 0x00, 0x94, 0, 0, 0, 4, 0, 1, 0x2E, 0, 0, 0, 0, 0, 0, 0])).forward = none := by
  decide +kernel

theorem test_relay_waits_and_reports_hop_failed :
    (Nat.repeat Receiver.millisecond 899 relaying).outbox = []
    ∧ (Nat.repeat Receiver.millisecond 900 relaying).outbox = [.own ⟨12, 2, 4, .hopFailed 1⟩]
    ∧ (Nat.repeat Receiver.millisecond 900 relaying).forward = none := by decide +kernel

/-! ## States that meet the premises of the statements

One theorem for each statement with premises, one conjunct for each of its cases. -/

theorem takes {s : State} (r : Request) (h1 : s.link.reply = none) (h2 : s.link.inbound = []) : s.Takes hd r :=
  ⟨⟨h1, .inl h2⟩, by decide, rfl⟩

theorem yard_campaigns_sound : yard.campaigns.Sound where
  order := by unfold InOrder; decide
  slots := by decide
  below := by
    intro c hc
    rcases List.mem_cons.mp hc with rfl | hc
    · exact ⟨9, rfl, by decide⟩
    · rcases List.mem_singleton.mp hc with rfl
      exact ⟨9, rfl, by decide⟩
  distinct := by decide

theorem yard_roster_sound : yard.roster.Sound where
  order := by unfold InOrder; decide
  size := by decide
  entries := by
    intro e he
    rcases List.mem_cons.mp he with rfl | he
    · exact ⟨by decide, by decide, by decide⟩
    · rcases List.mem_cons.mp he with rfl | he
      · exact ⟨by decide, by decide, by decide⟩
      · rcases List.mem_singleton.mp he with rfl
        exact ⟨by decide, by decide, by decide⟩
  routes := by
    intro e he
    rcases List.mem_cons.mp he with rfl | he
    · exact ⟨by decide, by decide, by decide, by decide⟩
    · rcases List.mem_cons.mp he with rfl | he
      · exact ⟨by decide, by decide, by decide, by decide⟩
      · rcases List.mem_singleton.mp he with rfl
        exact ⟨by decide, by decide, by decide, by decide⟩
  threshold := by decide
  map := by decide
  attention := by decide

theorem yard_balanced : yard.Balanced where
  units := by unfold InOrder; decide
  slots := by unfold InOrder; decide
  records := by
    intro c hc
    rcases List.mem_cons.mp hc with rfl | hc
    · exact ⟨by decide, (fun _ n h => by cases h; decide), by decide, by decide, by decide⟩
    · rcases List.mem_singleton.mp hc with rfl
      exact ⟨by decide, (fun h => by cases h), by decide, by decide, by decide⟩
  entries := by
    intro e he
    rcases List.mem_cons.mp he with rfl | he
    · exact ⟨by decide, by decide, fun k hk => by cases hk⟩
    · rcases List.mem_cons.mp he with rfl | he
      · refine ⟨by decide, by decide, fun k hk => ?_⟩
        rcases List.mem_singleton.mp hk with rfl
        exact ⟨camp0, by decide, by decide, by decide, by decide⟩
      · rcases List.mem_singleton.mp he with rfl
        exact ⟨by decide, by decide, fun k hk => by cases hk⟩

theorem yardBefore_slots (v : CampaignState) (b : OrderBody) (start : Option Nat) :
    InOrder Campaign.slot (yardBefore v b start).campaigns.table := by
  refine List.pairwise_cons.mpr ⟨fun c hc => ?_, List.pairwise_singleton _ _⟩
  rcases List.mem_singleton.mp hc with rfl
  exact (by decide : (0 : Nat) < 1)

theorem yardBefore_balanced (v : CampaignState) (b : OrderBody) (start : Option Nat) :
    (yardBefore v b start).Balanced where
  units := by
    show List.Pairwise _ [relay1, { term2 with pending := [] }, term3]
    decide
  slots := yardBefore_slots v b start
  records := by
    intro c hc
    rcases List.mem_cons.mp hc with rfl | hc
    · exact ⟨fun _ => rfl, (fun _ n h => by cases h), rfl, fun _ => ⟨rfl, rfl, rfl⟩, fun h => by cases h⟩
    · rcases List.mem_singleton.mp hc with rfl
      exact ⟨fun _ => rfl, (fun h => by cases h), rfl, by decide, fun _ => rfl⟩
  entries := by
    intro e he
    rcases List.mem_cons.mp he with rfl | he
    · exact ⟨by decide, by decide, fun k hk => by cases hk⟩
    · rcases List.mem_cons.mp he with rfl | he
      · exact ⟨by decide, by decide, fun k hk => by cases hk⟩
      · rcases List.mem_singleton.mp he with rfl
        exact ⟨by decide, by decide, fun k hk => by cases hk⟩

theorem yardBefore_sound (v : CampaignState) (b : OrderBody) (start : Option Nat) :
    (yardBefore v b start).campaigns.Sound where
  order := yardBefore_slots v b start
  slots := by
    intro c hc
    rcases List.mem_cons.mp hc with rfl | hc
    · exact (by decide : (0 : Nat) < 16)
    · rcases List.mem_singleton.mp hc with rfl
      decide
  below := by
    intro c hc
    rcases List.mem_cons.mp hc with rfl | hc
    · exact ⟨9, rfl, (by decide : (7 : Nat) < 9)⟩
    · rcases List.mem_singleton.mp hc with rfl
      exact ⟨9, rfl, by decide⟩
  distinct := by
    refine List.pairwise_cons.mpr ⟨fun c hc => ?_, List.pairwise_singleton _ _⟩
    rcases List.mem_singleton.mp hc with rfl
    exact (by decide : (7 : Nat) ≠ 8)

/-- The law of the snapshots while the request of a PLAN LOAD waits: its slot stays PROGRAMMED and out of every erase. -/
theorem loadingWith_snapshots (f : Store → Store) (h1 : (loadingWith f).store.slots[0]? = some (.programmed plan0))
    (h2 : ∀ phase n, (loadingWith f).store.active ≠ some (.erase 0 phase n))
    (h3 : ∀ e, (loadingWith f).store.suspended = some e → e.sector ≠ 0)
    (h4 : (loadingWith f).store.waiting = [⟨0, 7, 0⟩])
    (h5 : (loadingWith f).store.deliveries.Pairwise (fun a b => a.seq ≤ b.seq)) : (loadingWith f).Snapshots where
  kept := by
    intro c hc _ p hp
    rcases List.mem_cons.mp hc with rfl | hc
    · cases hp
      exact ⟨⟨plan0, h1⟩, h2, h3⟩
    · rcases List.mem_singleton.mp hc with rfl
      cases hp
  rising := by rw [h4]; exact List.pairwise_singleton _ _
  asked := by
    rw [h4]
    intro r hr
    rcases List.mem_singleton.mp hr with rfl
    exact ⟨_, List.mem_cons_self, rfl, rfl, rfl, rfl⟩
  handed := h5

theorem yard_powered : yard.Powered := ⟨by decide, by decide, fun ph => by cases ph <;> decide⟩

theorem test_meets_TakenRequestsAreRepliedToFirst :
    (requestOf (.status hd) = some ⟨hd, .status⟩ ∧ yard.CanTake hd .status ∧ yard.link.tx = none)
    ∧ (∃ o, yard.CanTake hd .status ∧ (yard.setLink { yard.link with tx := some o }).link.tx = some o
        ∧ (yard.setLink { yard.link with tx := some o }).CanTake hd .status)
    ∧ (yard.setLink { yard.link with inbound := [⟨hd, .status⟩] }).CanTake hd .status
    ∧ yard.Takes hd (.hold ⟨16, none⟩) ∧ (serveOf (.hold ⟨16, none⟩) yard.popInbound).code ≠ .ok :=
  ⟨⟨rfl, ⟨rfl, .inl rfl⟩, rfl⟩, ⟨.notice (.attention 1 1), ⟨rfl, .inl rfl⟩, rfl, rfl, .inl rfl⟩, ⟨rfl, .inr ⟨[], rfl⟩⟩,
    takes _ rfl rfl, by decide⟩

theorem test_meets_RequestsAreCheckedBeforeTheirOwner :
    yard.CanTake hd (.unknown 99) ∧ yard.CanTake ⟨0, true⟩ .status ∧ yard.CanTake ⟨255, false⟩ .status
    ∧ ¬ (yard.setLink { yard.link with inbound := [⟨hd, .identify⟩] }).CanTake hd .status := by
  refine ⟨⟨rfl, .inl rfl⟩, ⟨rfl, .inl rfl⟩, ⟨rfl, .inl rfl⟩, ?_⟩
  rintro ⟨_, h | ⟨rest, h⟩⟩
  · cases h
  · injection h with h1 h2
    cases h1

theorem test_meets_FramesAreReceivedOrDiscarded :
    (([] : List RxChar) ++ frameChars 5 1 [] = [] ++ frameChars 5 1 [] ∧ (List.replicate 240 (0 : Byte)).length ≤ 240)
    ∧ (∀ d : List RxChar, (∀ c ∈ [(⟨7, false⟩ : RxChar)], isMarker c = false)
        ∧ yard.link.rx ++ (⟨7, false⟩ :: (d ++ frameChars 5 1 [])) = [⟨7, false⟩] ++ d ++ frameChars 5 1 [])
    ∧ 240 < (241 : Byte).toNat
    ∧ ((240 : Byte).toNat ≤ 240 ∧ (∀ c ∈ [(⟨7, false⟩ : RxChar)], c.framingError = false)
        ∧ (⟨9, true⟩ : RxChar).framingError = true ∧ [(⟨7, false⟩ : RxChar)].length < (240 : Byte).toNat + 4)
    ∧ ((0 : Byte).toNat ≤ 240 ∧ (∀ c ∈ [(⟨5, false⟩ : RxChar), ⟨1, false⟩, ⟨9, false⟩] ++ [⟨9, false⟩], c.framingError = false)
        ∧ [(⟨5, false⟩ : RxChar), ⟨1, false⟩, ⟨9, false⟩].length + 1 = (0 : Byte).toNat + 4
        ∧ checked? ((0 : Byte) :: ([(⟨5, false⟩ : RxChar), ⟨1, false⟩, ⟨9, false⟩] ++ [(⟨9, false⟩ : RxChar)]).map RxChar.byte) = none) := by
  refine ⟨by decide +kernel, fun d => ⟨by decide, rfl⟩, ?_⟩
  decide +kernel

theorem test_meets_TheTransmitterSendsRepliesBeforeNotices :
    (yard.setLink { yard.link with reply := some ⟨.status, 1, .ok, .none⟩ }).link.reply = some ⟨.status, 1, .ok, .none⟩
    ∧ (yard.setLink { yard.link with notices := [.attention 1 1] }).link.notices = [.attention 1 1]
    ∧ yard.link.reply = none ∧ yard.link.notices = [] := by decide

theorem test_meets_StepOnAnEmptyQueue :
    (State.reset.pending = [] ∧ State.reset.due = [])
    ∧ (lineIn (.settling 0) |>.setChannel .l2 (Channel.initial .offline) |>.setChannel .l3 (Channel.initial .offline)).due
        = [.settleExpired .l1]
    ∧ 2 ≤ yard.due.length := by decide +kernel

theorem test_meets_EventsThatCannotOccur :
    State.reset.store.active = none ∧ State.reset.store.guard = none ∧ State.reset.store.deliveries = []
    ∧ State.reset.pins.mains.get .l1 = false ∧ yard.pins.mains.get .l1 = true
    ∧ (State.reset.channel .l1).activity = .offline ∧ State.reset.reports .l1 = []
    ∧ State.reset.requesting .l1 = [] ∧ State.reset.store.site.fields.network = none
    ∧ (∀ c, yard.campaign 1 = some c → c.state ≠ .resting) := by
  refine ⟨by decide, by decide, by decide, by decide, by decide, by decide, by decide, by decide, by decide, ?_⟩
  intro c hc
  have : some camp1 = some c := hc
  injection this with this
  subst this
  decide

/-- STATUS, IDENTIFY, SEGMENT GET, SITE READ, STORE STATUS, LINE STATUS, CAMPAIGN LIST, ROSTER SCAN, PARAM GET, RESET, and the
others without a premise but the taking. -/
theorem test_meets_plain_requests :
    yard.Takes hd .status ∧ yard.Takes hd .identify ∧ yard.Takes hd .segmentGet ∧ yard.Takes hd .siteRead
    ∧ yard.Takes hd .lineStatus ∧ yard.Takes hd .storeStatus ∧ yard.Takes hd .planClear ∧ yard.Takes hd .storeArm
    ∧ yard.Takes hd .storeDisarm ∧ yard.Takes hd .segmentLock ∧ yard.Takes hd .resetAll ∧ yard.Takes hd .resetCampaigns
    ∧ yard.Takes hd (.paramGet .all) ∧ yard.Takes hd .campaignList ∧ yard.campaigns.Sound ∧ yard.roster.Sound :=
  ⟨takes _ rfl rfl, takes _ rfl rfl, takes _ rfl rfl, takes _ rfl rfl, takes _ rfl rfl, takes _ rfl rfl, takes _ rfl rfl,
    takes _ rfl rfl, takes _ rfl rfl, takes _ rfl rfl, takes _ rfl rfl, takes _ rfl rfl, takes _ rfl rfl, takes _ rfl rfl,
    yard_campaigns_sound, yard_roster_sound⟩

theorem test_meets_CampaignReads :
    yard.Names ⟨0, some 7⟩ camp0 ∧ yard.Names ⟨1, none⟩ camp1 ∧ yard.campaign 15 = none ∧ camp0.seq ≠ 6 := by
  refine ⟨⟨by decide, rfl, .inr rfl⟩, ⟨by decide, rfl, .inl rfl⟩, by decide, by decide⟩

theorem test_meets_LineStatus :
    (yard.channel .l1).activity.work = none
    ∧ ((lineIn (.sensing work0 1 1)).channel .l1).activity.work = some work0 ∧ work0.kind = .exchange 2 [1]
    ∧ ((lineIn (.awaiting work1 1)).channel .l1).activity.work = some work1 ∧ work1.kind = .broadcast 0 1 := by decide

theorem test_meets_StoreReads :
    yard.store.active = none
    ∧ (storeWith (fun st => { st with active := some (.program 31 plan0) })).store.active = some (.program 31 plan0)
    ∧ (storeWith (fun st => { st with active := some (.erase 7 (.suspending .host) 900) })).store.active
        = some (.erase 7 (.suspending .host) 900)
    ∧ yard.store.slots[0]? = some (.programmed plan0) ∧ yard.store.slots[31]? = some .empty := by decide

theorem test_meets_RosterReads :
    yard.entry 2 = some term2 ∧ yard.entry 4095 = none ∧ yard.Takes hd (.rosterGet 4095)
    ∧ yard.Takes hd (.rosterScan ⟨4095, some .all⟩) ∧ yard.Takes hd (.rosterScan ⟨4096, some .all⟩) :=
  ⟨by decide, by decide, takes _ rfl rfl, takes _ rfl rfl, takes _ rfl rfl⟩

theorem test_meets_PowerOnRecordsTheDamage :
    (storeWith (fun st => { st with active := some (.program 31 plan0) })).store.slots.length = 32
    ∧ 31 / 4 = 7 ∧ 31 < 32
    ∧ (storeWith (fun st => { st with suspended := some ⟨7, 900, .host⟩ })).store.suspended = some ⟨7, 900, .host⟩ := by decide

theorem test_meets_ParamSet :
    ¬ paramAdmits .defaultPassLimit (.number 17) ∧ ¬ properlyChannelled (some .arbitrationMode) none
    ∧ paramAdmits .silenceThreshold (.number 15) ∧ properlyChannelled (some .arbitrationMode) (some (some .l3)) := by
  refine ⟨by simp [paramAdmits], by simp [properlyChannelled], by simp [paramAdmits], .inl ⟨rfl, .l3, rfl⟩⟩

theorem yard_free_slot : ∃ k, k < 16 ∧ yard.campaign k = none := ⟨2, by decide, by decide⟩
theorem yard_time : yard.clock.time = some 1000 := rfl
theorem yard_counter : yard.campaigns.counter = some 9 := rfl
theorem yard_network : yard.store.site.fields.network = some 12 := rfl
theorem yard_active : yard.store.active = none := rfl
theorem yard_suspended : yard.store.suspended = none := rfl
theorem yard_plan : yard.store.slots[0]? = some (.programmed plan0) := rfl

theorem test_meets_SubmitPasses :
    AllPass (yard.submitChecks order3)
    ∧ AllPass (yard.submitChecks { order3 with start := some 1001 })
    ∧ AllPass (yard.submitChecks { order3 with start := some 1000 })
    ∧ AllPass (yard.submitChecks { order3 with order := .planLoad 0 })
    ∧ AllPass (yard.submitChecks
        { order3 with mode := some .broadcast, target := .group 5, interval := some 60, deadline := none }) := by
  have h := yard_free_slot
  refine ⟨?_, ?_, ?_, ?_, ?_⟩ <;>
    simp [AllPass, State.submitChecks, order3, h, yard_time, yard_counter, yard_network, yard_active, yard_suspended, yard_plan]

theorem test_meets_SubmitIsCheckedInOrder :
    FirstFails (State.reset.submitChecks order3) .clockUnset
    ∧ FirstFails (yard.submitChecks { order3 with priority := some 4 }) .malformed
    ∧ FirstFails (yard.submitChecks { order3 with deadline := some 1000 }) .malformed
    ∧ FirstFails (yard.submitChecks { order3 with start := some 2000 }) .malformed
    ∧ FirstFails (yard.submitChecks { order3 with target := .unit 4095 }) .notFound
    ∧ FirstFails (yard.submitChecks { order3 with order := .planLoad 31 }) .notFound := by
  have hr : State.reset.clock.time = none := rfl
  have he : yard.entry 4095 = none := by decide
  have hs : ∀ plan, yard.store.slots[31]? ≠ some (.programmed plan) := by
    intro plan h
    have : yard.store.slots[31]? = some .empty := rfl
    rw [this] at h
    cases h
  refine ⟨?_, ?_, ?_, ?_, ?_, ?_⟩ <;>
    simp [FirstFails, State.submitChecks, order3, hr, he, hs, yard_time, yard_counter, yard_network]

/-- The newer order is of the class of the campaign in slot 0, and reaches its receiver. -/
theorem test_meets_NewerCampaignsSupersede :
    (OrderBody.bandSet 3).superClass = camp0.order.body.superClass ∧ camp0.order.body.superClass ≠ none
    ∧ yard.campaigns.Sound ∧ yard.Balanced ∧ yard.clock.time = some 1000 :=
  ⟨rfl, by decide, yard_campaigns_sound, yard_balanced, rfl⟩

theorem test_meets_HoldCancelRelease :
    (yard.Names ⟨0, none⟩ camp0 ∧ camp0.state = .running)
    ∧ ((yardWith .held).Names ⟨0, some 7⟩ { camp0 with state := .held })
    ∧ ((yardWith .preparing).Names ⟨0, some 7⟩ { camp0 with state := .preparing })
    ∧ ((yardWith .cancelled).Names ⟨0, some 7⟩ { camp0 with state := .cancelled }) :=
  ⟨⟨⟨by decide, rfl, .inl rfl⟩, rfl⟩, ⟨by decide, rfl, .inr rfl⟩, ⟨by decide, rfl, .inr rfl⟩, ⟨by decide, rfl, .inr rfl⟩⟩

theorem yardWith_sound (st : CampaignState) : (yardWith st).campaigns.Sound where
  order := by unfold InOrder; cases st <;> decide
  slots := by
    intro c hc
    rcases List.mem_cons.mp hc with rfl | hc
    · exact (by decide : (0 : Nat) < 16)
    · rcases List.mem_singleton.mp hc with rfl
      decide
  below := by
    intro c hc
    rcases List.mem_cons.mp hc with rfl | hc
    · exact ⟨9, rfl, (by decide : (7 : Nat) < 9)⟩
    · rcases List.mem_singleton.mp hc with rfl
      exact ⟨9, rfl, by decide⟩
  distinct := by cases st <;> decide

/-- A held campaign that owes its receiver; one in its last pass with nobody owed; a held round ended of a broadcast that stands
and of one that does not. -/
theorem test_meets_Resume :
    (let s := yardWith .held
     s.Takes hd (.resume ⟨0, none⟩) ∧ s.Names ⟨0, none⟩ { camp0 with state := .held } ∧ s.campaigns.Sound
        ∧ ∃ e ∈ s.roster.entries, { camp0 with state := .held }.owes e = true)
    ∧ (let c := { camp0 with state := .held, pass := some 5 }
       let s := (yard.setTable [c, camp1]).setEntries []
       s.Names ⟨0, none⟩ c ∧ c.terms = .confirmed 5 ∧ s.inFlight c = false ∧ ∀ e ∈ s.roster.entries, c.owes e = false)
    ∧ (∀ interval, let c := { camp1 with
          state := .held, terms := .broadcast 0 1 interval
          run := some ⟨⟨true, true, true⟩, ⟨0, 0, 0⟩, ⟨1, 1, 1⟩, interval.map (fun _ => 65535)⟩ }
      (yard.setTable [camp0, c]).Names ⟨1, none⟩ c) := by
  refine ⟨⟨takes _ rfl rfl, ⟨by decide, rfl, .inl rfl⟩, yardWith_sound .held, ⟨term2, by decide, by decide⟩⟩,
    ⟨⟨by decide, rfl, .inl rfl⟩, rfl, by decide, by decide⟩, ?_⟩
  intro interval
  exact ⟨by decide, rfl, .inl rfl⟩

/-- A delivery meets its campaign in PREPARING, or one that is not; and the orders of a start are of every kind. -/
theorem test_meets_SnapshotDeliveries :
    (let s := loadingWith (fun st => { st with waiting := [], deliveries := [⟨0, 7, plan0⟩] })
     s.store.deliveries = [⟨0, 7, plan0⟩] ∧ s.campaign 0 = some (fresh .preparing (.planLoad 0) none)
        ∧ s.campaigns.Sound ∧ s.Balanced)
    ∧ (∀ c, yard.campaign 0 = some c → c.state ≠ .preparing ∨ c.seq ≠ 7) := by
  refine ⟨⟨by decide, by decide, yardBefore_sound .preparing (.planLoad 0) none,
    yardBefore_balanced .preparing (.planLoad 0) none⟩, ?_⟩
  intro c hc
  have : some camp0 = some c := hc
  injection this with this
  subst this
  exact .inl (by decide)

/-- A start that the next second reaches, of a PLAN LOAD and of another class, no deadline with it. -/
theorem test_meets_Starts :
    (∀ b, let s := yardBefore .waiting b (some 1001)
      s.campaigns.Sound ∧ s.Balanced ∧ s.clock.time = some 1000 ∧ s.Takes hd (.clockSet 1001)
        ∧ fresh .waiting b (some 1001) ∈ s.campaigns.table ∧ (fresh .waiting b (some 1001)).StartsAt 1001)
    ∧ (fresh .waiting (.planLoad 0) (some 1001)).order.body = .planLoad 0
    ∧ (∀ p, (fresh .waiting (.bandSet 3) (some 1001)).order.body ≠ .planLoad p) := by
  refine ⟨fun b => ⟨yardBefore_sound .waiting b _, yardBefore_balanced .waiting b _, rfl, takes _ rfl rfl,
    List.mem_cons_self, rfl, ⟨1001, rfl, by decide⟩, fun d hd => ?_⟩, rfl, fun p h => by cases h⟩
  cases hd
  decide

theorem test_meets_LineTime :
    yard.clock.time ≠ none ∧ State.reset.clock.time = none ∧ 4294967295 < 4294967296
    ∧ (yard.setClock { yard.clock with time := some 4294967295 }).clock.time = some 4294967295
    ∧ (camp0 ∈ yard.campaigns.table ∧ camp0.state.live = true ∧ camp0.deadline = some 5000 ∧ 5000 ≤ 4294967295) := by decide

theorem test_meets_Mains :
    yard.pins.mains.get .l1 = true ∧ ((lineIn (.sending work0 [])).channel .l1).activity.work = some work0
    ∧ (yard.channel .l1).activity.work = none ∧ State.reset.pins.mains.get .l3 = false
    ∧ ((lineIn (.settling 0)).channel .l1).activity = .settling 0 := by decide

theorem reset_powered : State.reset.Powered := ⟨by decide, by decide, fun ph => by cases ph <;> decide⟩

theorem test_meets_SequenceSeed :
    FirstFails [(1 ≤ 0 ∧ 0 ≤ 4294967279, .malformed), (yard.campaigns.table = [], .wrongState)] .malformed
    ∧ FirstFails [(1 ≤ 4294967279 ∧ 4294967279 ≤ 4294967279, .malformed), (yard.campaigns.table = [], .wrongState)] .wrongState
    ∧ State.reset.campaigns.table = [] := by
  refine ⟨.inl ⟨by decide, rfl⟩, .inr ⟨by decide, .inl ⟨by decide, rfl⟩⟩, rfl⟩

/-- The store of the cases of auto-suspend: requests wait beside an ERASING erase, or do not. -/
theorem test_meets_ParametersWithAFurtherEffect :
    yard.roster.threshold ≤ 15 ∧ 1 < yard.roster.threshold ∧ yard.Powered
    ∧ (storeWith (fun st => { st with autoSuspend := false })).store.waiting = []
    ∧ (storeWith (fun st => { st with
        autoSuspend := false, waiting := [⟨2, 9, 0⟩], active := some (.erase 1 .erasing 5) })).store.waiting ≠ []
    ∧ (storeWith (fun st => { st with
        autoSuspend := false, waiting := [⟨2, 9, 0⟩], active := some (.erase 1 .erasing 5) })).store.guard = none :=
  ⟨by decide, by decide, yard_powered, by decide, by decide, by decide⟩

/-- A ROSTER PUT of a new terminal behind the relay. -/
def put4 : RosterPutReq := ⟨4, 44, some .terminal, some none, [9, 2], [1]⟩

theorem yard_entry1 : yard.entry 1 = some relay1 := rfl
theorem yard_entry2 : yard.entry 2 = some term2 := rfl
theorem yard_entry4 : yard.entry 4 = none := rfl
theorem yard_entries : yard.roster.entries = [relay1, term2, term3] := rfl

theorem test_meets_RosterPut :
    AllPass (yard.rosterPutChecks put4)
    ∧ AllPass (yard.rosterPutChecks { put4 with unit := 2, serial := 22 })
    ∧ AllPass (yard.rosterPutChecks { put4 with unit := 2, serial := 23 })
    ∧ yard.entry 4 = none ∧ yard.entry 2 = some term2 ∧ term2.serial = 22
    ∧ FirstFails (yard.rosterPutChecks { put4 with unit := 4096 }) .malformed
    ∧ FirstFails (yard.rosterPutChecks { put4 with route := [4] }) .malformed
    ∧ FirstFails (yard.rosterPutChecks { put4 with route := [4095] }) .notFound
    ∧ FirstFails (yard.rosterPutChecks { put4 with route := [2] }) .malformed
    ∧ FirstFails (yard.rosterPutChecks { put4 with unit := 1, route := [] }) .inUse := by
  have h9 : yard.entry 4095 = none := by decide
  refine ⟨?_, ?_, ?_, rfl, rfl, rfl, ?_, ?_, ?_, ?_, ?_⟩ <;>
    simp [AllPass, FirstFails, State.rosterPutChecks, put4, yard_entry1, yard_entry2, yard_entry4, yard_entries, relay1, term2,
      term3, h9]

theorem test_meets_RosterRemove :
    yard.entry 2 = some term2 ∧ (∀ d ∈ yard.roster.entries, 2 ∉ d.route) ∧ yard.Balanced
    ∧ FirstFails [(1 ≤ 4096 ∧ 4096 ≤ 4095, .malformed)] .malformed
    ∧ yard.entry 4095 = none ∧ ¬ (∀ e ∈ yard.roster.entries, 1 ∉ e.route) :=
  ⟨by decide, by decide, yard_balanced, .inl ⟨by decide, rfl⟩, by decide, by decide⟩

theorem test_meets_RosterFlagsAndAttention :
    yard.entry 3 = some term3 ∧ yard.roster.attention = 0 ∧ yard.roster.noticesOn = true
    ∧ ([{ term3 with flags := { noFlags with refused := true } }]).filter (fun e => e.flags.any)
        = { term3 with flags := { noFlags with refused := true } } :: [] := by decide

theorem test_meets_SegmentSet :
    yard.roster.locked = false ∧ (yard.setRoster { yard.roster with locked := true }).roster.locked = true
    ∧ 7 < 8 ∧ yard.Balanced := ⟨by decide, by decide, by decide, yard_balanced⟩

theorem test_meets_PhaseAndBarring :
    term2.phase = some .l1 ∧ term3.phase = none
    ∧ ([clearedSegment, ⟨3, 3, some .l2, true, true⟩] : List Segment)[1]? = some ⟨3, 3, some .l2, true, true⟩
    ∧ (∀ g ∈ yard.roster.segments, g.enabled = false ∨ term3.unit < g.first ∨ g.last < term3.unit ∨ g.phase = none) := by
  decide

theorem test_meets_Grants :
    (yard.channel .l1).activity = .idle ∧ (yard.channel .l1).masked = false ∧ yard.requesting .l1 ≠ []
    ∧ yard.store.site.fields.network = some 12 ∧ yard.campaigns.Sound ∧ yard.roster.Sound :=
  ⟨by decide, by decide, by decide, by decide, yard_campaigns_sound, yard_roster_sound⟩

theorem test_meets_Sensing :
    ((lineIn (.sensing work0 0 0)).channel .l1).activity = .sensing work0 0 0
    ∧ ((lineIn (.sending { work1 with count := 3 } [])).channel .l1).activity = .sending { work1 with count := 3 } []
    ∧ ((lineIn (.awaiting work0 0)).channel .l1).activity = .awaiting work0 0
    ∧ ((lineIn (.awaiting work1 0)).channel .l1).activity = .awaiting work1 0
    ∧ work1.fragment < { work1 with count := 3 }.count ∧ work1.count ≤ work1.fragment := by decide

/-- Every row of R149, by the bytes that fall in it. -/
theorem test_meets_ReplyWindows :
    readFrame [] = none
    ∧ readFrame (OrderFrame.bytes ⟨12, 2, [1], 1, 7, 1, 1, .bandSet 3 none⟩)
        = some (.order ⟨12, 2, [1], 1, 7, 1, 1, .bandSet 3 none⟩)
    ∧ readFrame (BroadcastFrame.bytes ⟨12, 0, 0, 7, 1, 1, .bandSet 3 none⟩)
        = some (.broadcast ⟨12, 0, 0, 7, 1, 1, .bandSet 3 none⟩)
    ∧ readFrame (ReplyFrame.bytes ⟨13, 2, 7, .applied⟩) = some (.reply ⟨13, 2, 7, .applied⟩)
    ∧ work0.verdict .applied (some 1000) = some .applied
    ∧ { work0 with count := 2 }.verdict (.fragmentOk 1) none = none
    ∧ ([1] : List Nat)[1 - 1]? = some 1 := by decide +kernel

theorem test_meets_Reports :
    yard.entry 4095 = none ∧ yard.entry 2 ≠ none ∧ yard.entry 3 ≠ none
    ∧ yard.resolved term2 ≠ none ∧ yard.resolved term3 = none := by decide

theorem test_meets_Outcomes :
    (let s := yard.setReports .l1 [.outcome work0 .applied]
     takeFirst ChannelReport.isOutcome (s.reports .l1) = some (.outcome work0 .applied, []) ∧ s.Balanced
        ∧ s.campaign 0 = some camp0 ∧ camp0.seq = work0.seq ∧ camp0.state.active = true ∧ s.entry 2 = some term2
        ∧ work0.slot ∈ term2.pending)
    ∧ (let s := (yardWith .expired).setReports .l1 [.outcome work0 (.hopFailed 1)]
       takeFirst ChannelReport.isOutcome (s.reports .l1) = some (.outcome work0 (.hopFailed 1), [])
        ∧ s.campaign 0 = some { camp0 with state := .expired } ∧ { camp0 with state := .expired }.state.active = false)
    ∧ takeFirst ChannelReport.isOutcome ((yard.setReports .l1 [.outcome work1 .interrupted]).reports .l1)
        = some (.outcome work1 .interrupted, []) :=
  ⟨⟨by decide, yard_balanced, by decide, by decide, by decide, by decide, by decide⟩, by decide, by decide⟩

theorem test_meets_Transmissions :
    (let s := yard.setReports .l1 [.transmissionEnded 1 8]
     takeFirst ChannelReport.isTransmissionEnded (s.reports .l1) = some (.transmissionEnded 1 8, []) ∧ s.campaigns.Sound
        ∧ s.campaign 1 = some camp1 ∧ camp1.seq = 8 ∧ camp1.state.active = true ∧ camp1.terms = .broadcast 0 1 (some 60)
        ∧ camp1.run = some ⟨⟨true, true, true⟩, ⟨1, 1, 1⟩, ⟨0, 0, 0⟩, some 0⟩)
    ∧ (let s := yard.setReports .l1 [.transmissionEnded 15 8]
       takeFirst ChannelReport.isTransmissionEnded (s.reports .l1) = some (.transmissionEnded 15 8, []) ∧ s.campaign 15 = none)
    ∧ takeFirst ChannelReport.isTailEnded ((yard.setReports .l1 [.tailEnded 1 8]).reports .l1) = some (.tailEnded 1 8, []) :=
  ⟨⟨by decide, yard_campaigns_sound, by decide, by decide, by decide, by decide, by decide⟩, by decide, by decide⟩

/-- A standing broadcast at rest beside the first campaign. -/
theorem test_meets_Interval :
    let s := yard.setTable [camp0, { camp1 with state := .resting, intervalTimer := some 0 }]
    { camp1 with state := .resting, intervalTimer := some 0 } ∈ s.campaigns.table ∧ s.campaigns.Sound := by
  refine ⟨by decide, ?_⟩
  have h := yard_campaigns_sound
  exact
    { order := by unfold InOrder; decide
      slots := by decide
      below := by
        intro c hc
        rcases List.mem_cons.mp hc with rfl | hc
        · exact ⟨9, rfl, by decide⟩
        · rcases List.mem_singleton.mp hc with rfl
          exact ⟨9, rfl, by decide⟩
      distinct := by decide }

theorem test_meets_Staging :
    (11 : Nat) < 12 ∧ (List.replicate 12 (⟨1439, 8⟩ : Point)).length ≤ 12 ∧ yard.store.staging.points.length = 12
    ∧ (⟨some 65535, some 255, some ⟨0, 1⟩ :: List.replicate 11 none⟩ : Staging).committable = some ⟨65535, 255, [⟨0, 1⟩]⟩ := by
  decide

/-- A store armed and unprotected, with a committable plan and a complete site record. -/
def armed : State := storeWith (fun st => { st with
  arm := true, boundary := 2, staging := ⟨some 65535, some 255, some ⟨0, 1⟩ :: List.replicate 11 none⟩ })

theorem armed_plan : armed.store.staging.committable = some ⟨65535, 255, [⟨0, 1⟩]⟩ := by decide
theorem armed_slot : armed.store.slots[8]? = some .empty := by decide
theorem armed_store : armed.store.arm = true ∧ armed.store.boundary = 2 ∧ armed.store.active = none
    ∧ armed.store.suspended = none ∧ armed.store.site = ⟨⟨some 12, some 77, some 2⟩, false⟩ := by decide
theorem armed_table : ∀ c ∈ armed.campaigns.table, ∀ p, c.order.body ≠ .planLoad p := by
  intro c hc
  rcases List.mem_cons.mp hc with rfl | hc
  · intro p h; cases h
  · rcases List.mem_singleton.mp hc with rfl
    intro p h; cases h

theorem test_meets_ArmedRequests :
    AllPass (armed.armedChecks (.planCommit 8)) ∧ AllPass (armed.armedChecks (.sectorErase 7))
    ∧ AllPass (armed.armedChecks .siteLock)
    ∧ AllPass ((armed.setStore { armed.store with site := factorySite }).armedChecks (.siteWrite ⟨some 4094, none, some 8⟩))
    ∧ FirstFails (armed.armedChecks (.planCommit 32)) .malformed
    ∧ FirstFails (armed.armedChecks (.planCommit 7)) .sectorProtected
    ∧ FirstFails (armed.armedChecks (.sectorErase 1)) .sectorProtected
    ∧ FirstFails (armed.armedChecks (.siteWrite ⟨some 4094, none, none⟩)) .alreadySet
    ∧ FirstFails (yard.armedChecks .siteLock) .notArmed := by
  obtain ⟨h1, h2, h3, h4, h5⟩ := armed_store
  have h6 := armed_table
  have h7 : yard.store.arm = false := rfl
  refine ⟨?_, ?_, ?_, ?_, ?_, ?_, ?_, ?_, ?_⟩ <;>
    simp [AllPass, FirstFails, State.armedChecks, armed_plan, armed_slot, h1, h2, h3, h4, h5, h7, factorySite]
  all_goals first
    | exact ⟨rfl, rfl, rfl, rfl, rfl⟩
    | (intro c hc _ p hp; exact absurd hp (h6 c hc p))

theorem test_meets_StoreProtect :
    8 < 9 ∧ (storeWith (fun st => { st with site := { st.site with locked := true } })).store.site.locked = true
    ∧ yard.store.site.fields.floor = some 2 ∧ yard.store.site.locked = false
    ∧ (storeWith (fun st => { st with boundary := 1, suspended := some ⟨1, 5, .host⟩ })).store.suspended = some ⟨1, 5, .host⟩ := by
  decide

theorem test_meets_Suspensions :
    (storeWith (fun st => { st with active := some (.erase 1 .erasing 5), guard := some 20 })).store.guard = some 20
    ∧ (storeWith (fun st => { st with active := some (.erase 1 (.suspending .snapshot) 5) })).store.active
        = some (.erase 1 (.suspending .snapshot) 5)
    ∧ (storeWith (fun st => { st with suspended := some ⟨1, 5, .host⟩ })).store.suspended = some ⟨1, 5, .host⟩ := by decide

/-- A program, an erase of another sector, a site write or a lock ends while a request waits for the plan in slot 0, and a
delivery handed over before is still untaken. -/
theorem test_meets_Completions : ∀ op : Operation, (∀ phase n, op ≠ .erase 0 phase n) →
    let s := loadingWith (fun st => { st with active := some op, deliveries := [⟨2, 6, plan0⟩] })
    s.store.active = some op ∧ s.store.waiting ≠ [] ∧ s.Snapshots := by
  intro op ho
  refine ⟨rfl, List.cons_ne_nil _ _, loadingWith_snapshots _ rfl (fun ph n h => ho ph n ?_) (fun e h => by cases h) rfl
    (List.pairwise_singleton _ _)⟩
  injection h

/-- The invariant of the snapshots, beside a suspended erase of another sector. -/
theorem test_meets_SnapshotsKept :
    let s := loadingWith (fun st => { st with suspended := some ⟨1, 5, .host⟩ })
    s.campaigns.Sound ∧ s.Snapshots :=
  ⟨yardBefore_sound .preparing (.planLoad 0) none, loadingWith_snapshots _ rfl (fun _ _ h => by cases h)
    (fun e h => by cases h; decide) rfl .nil⟩

theorem test_meets_FramesRoundTrip :
    (LineFrame.order ⟨4094, 4095, [4095, 4095, 4095], 3, 4294967294, 3, 3,
      .planLoad 65535 255 12 [⟨1439, 8⟩, ⟨1439, 8⟩, ⟨1439, 8⟩, ⟨1439, 8⟩] (some 4294967295)⟩).sendable = true
    ∧ (LineFrame.broadcast ⟨1, 63, 3, 1, 1, 1, .clockSync 0⟩).sendable = true
    ∧ (LineFrame.reply ⟨1, 1, 0, .hopFailed 3⟩).sendable = true := by decide +kernel

theorem yard_store_sound : yard.store.Sound where
  slots := by decide
  positions := by decide
  boundary := by decide
  floor := by decide
  floors := by decide
  writing := fun _ h => by cases h
  beside := fun _ h => by cases h
  owner := fun _ h => by cases h
  erasing := fun _ _ _ h => by cases h
  program := fun _ _ h => by cases h
  guard := fun _ h => by cases h

/-- The premises of the invariants: the small block keeps them too. -/
theorem test_meets_invariants :
    yard.link.Sound ∧ yard.roster.Sound ∧ yard.campaigns.Sound ∧ yard.store.Sound ∧ yard.Powered ∧ yard.Balanced :=
  ⟨⟨by decide, by decide, fun _ => ⟨rfl, rfl⟩⟩, yard_roster_sound, yard_campaigns_sound, yard_store_sound, yard_powered,
    yard_balanced⟩

end Sys2Proof.Tests
end

section
/-! SUPPORT. The roster unit answered: what its requests give in each case, what the attention count does, how the segment map
decides phase and barring, and what a contact or a miss report makes of an entry. -/

namespace Sys2Proof.Machine

/-! ## The answer to a request from its owner's service -/

theorem exec_refused {c : Instr} {h : Header} {r : Request} {s : State} {code : ResultCode}
    (hc : requestOf c = some ⟨h, r⟩) (ht : s.Takes h r) (hv : serveOf r s.popInbound = refuse s.popInbound code) :
    exec c s = .next (s.popInbound.replied h r code .none) := by
  rw [exec_taken hc ht, hv]; rfl

theorem exec_accepted {c : Instr} {h : Header} {r : Request} {s t : State} {b : ReplyBody}
    (hc : requestOf c = some ⟨h, r⟩) (ht : s.Takes h r) (hv : serveOf r s.popInbound = accept t b) :
    exec c s = .next (t.replied h r .ok b) := by
  rw [exec_taken hc ht, hv]; rfl

theorem validUnit_iff {u : Nat} : validUnit u = true ↔ 1 ≤ u ∧ u ≤ 4095 := by
  rw [validUnit, within, Bool.and_eq_true, decide_eq_true_eq, decide_eq_true_eq, Config.maxUnit]

theorem validUnit_false_iff {u : Nat} : validUnit u = false ↔ u < 1 ∨ 4095 < u := by
  rw [Bool.eq_false_iff, ne_eq, validUnit_iff]; omega

/-! ## ROSTER GET (R21) -/

theorem serveRosterGet_invalid {u : Nat} (s : State) (hu : u < 1 ∨ 4095 < u) :
    serveRosterGet u s = refuse s .malformed := by
  simp [serveRosterGet, validUnit_false_iff.mpr hu]

theorem serveRosterGet_absent {u : Nat} {s : State} (h1 : 1 ≤ u) (h2 : u ≤ 4095) (he : s.entry u = none) :
    serveRosterGet u s = refuse s .notFound := by
  simp [serveRosterGet, validUnit_iff.mpr ⟨h1, h2⟩, he]

theorem serveRosterGet_present {u : Nat} {s : State} {e : Entry} (h1 : 1 ≤ u) (h2 : u ≤ 4095) (he : s.entry u = some e) :
    serveRosterGet u s = accept s (.entry (s.view e)) := by
  simp [serveRosterGet, validUnit_iff.mpr ⟨h1, h2⟩, he]

/-! ## ROSTER SCAN (R22) -/

/-- The entries a scan looks for, in ascending unit order. -/
def State.matching (s : State) (start : Nat) (f : ScanFilter) : List Entry :=
  s.roster.entries.filter (fun e => decide (start ≤ e.unit) && scanMatches f e)

theorem State.scan_page (s : State) (start : Nat) (f : ScanFilter) : (s.scan start f).1 = (s.matching start f).take 4 := rfl

theorem State.scan_next_nil {s : State} {start : Nat} {f : ScanFilter} (h : (s.matching start f).drop 4 = []) :
    (s.scan start f).2 = 0 := by
  unfold State.matching at h
  simp [State.scan, h]

theorem State.scan_next_cons {s : State} {start : Nat} {f : ScanFilter} {e : Entry} {tail : List Entry}
    (h : (s.matching start f).drop 4 = e :: tail) : (s.scan start f).2 = e.unit := by
  unfold State.matching at h
  simp [State.scan, h]

theorem State.matching_inOrder {s : State} (hs : s.roster.Sound) (start : Nat) (f : ScanFilter) :
    InOrder Entry.unit (s.matching start f) := List.Pairwise.filter _ hs.order

theorem serveRosterScan_invalid {q : RosterScanReq} (s : State) (hq : q.filter = none ∨ q.start < 1 ∨ 4095 < q.start) :
    serveRosterScan q s = refuse s .malformed := by
  unfold serveRosterScan
  rcases hq with hf | hu
  · rw [hf]
  · rw [validUnit_false_iff.mpr hu]
    split <;> rfl

theorem serveRosterScan_valid {q : RosterScanReq} {f : ScanFilter} (s : State) (hf : q.filter = some f)
    (h1 : 1 ≤ q.start) (h2 : q.start ≤ 4095) :
    serveRosterScan q s = accept s (.entries (((s.matching q.start f).take 4).map s.view) (s.scan q.start f).2) := by
  rw [← State.scan_page]
  simp [serveRosterScan, hf, validUnit_iff.mpr ⟨h1, h2⟩]

/-! ## ROSTER FLAGS (R23) and the attention count (R24) -/

theorem serveRosterFlags_invalid {q : RosterFlagsReq} (s : State)
    (hq : q.unit < 1 ∨ 4095 < q.unit ∨ q.select = none ∨ q.value = none) :
    serveRosterFlags q s = refuse s .malformed := by
  unfold serveRosterFlags
  split
  · rename_i hu hx hv
    rw [validUnit_iff] at hu
    rcases hq with hq | hq | hq | hq
    · omega
    · omega
    · rw [hx] at hq; cases hq
    · rw [hv] at hq; cases hq
  · rfl

theorem serveRosterFlags_absent {q : RosterFlagsReq} {s : State} {x v : Flags} (h1 : 1 ≤ q.unit) (h2 : q.unit ≤ 4095)
    (hx : q.select = some x) (hv : q.value = some v) (he : s.entry q.unit = none) :
    serveRosterFlags q s = refuse s .notFound := by
  simp [serveRosterFlags, validUnit_iff.mpr ⟨h1, h2⟩, hx, hv, he]

theorem serveRosterFlags_present {q : RosterFlagsReq} {s : State} {x v : Flags} {e : Entry} (h1 : 1 ≤ q.unit)
    (h2 : q.unit ≤ 4095) (hx : q.select = some x) (hv : q.value = some v) (he : s.entry q.unit = some e) :
    serveRosterFlags q s = accept (s.updateEntry q.unit (fun d => { d with flags := e.flags.assign x v })).updateAttention
      (.flags (e.flags.assign x v)) := by
  simp [serveRosterFlags, validUnit_iff.mpr ⟨h1, h2⟩, hx, hv, he]

/-- `s` with the attention count of its entries. -/
def State.counted (s : State) : State := s.setRoster { s.roster with attention := (flagged s.roster.entries).length }

theorem State.updateAttention_quiet {s : State}
    (h : s.roster.attention ≠ 0 ∨ s.roster.noticesOn = false ∨ flagged s.roster.entries = []) :
    s.updateAttention = s.counted := by
  unfold State.updateAttention
  dsimp only
  split
  · rename_i hc
    rcases h with h | h | h
    · exact absurd hc.1 h
    · rw [hc.2] at h; cases h
    · have hn : attentionNotice s.roster.entries = none := by simp [attentionNotice, h]
      rw [hn]; rfl
  · rfl

theorem State.updateAttention_raised {s : State} {e : Entry} {rest : List Entry}
    (hf : flagged s.roster.entries = e :: rest) (h0 : s.roster.attention = 0) (hon : s.roster.noticesOn = true) :
    s.updateAttention = s.counted.notify (.attention (flagged s.roster.entries).length e.unit) := by
  have hn : attentionNotice s.roster.entries = some (.attention (flagged s.roster.entries).length e.unit) := by
    simp [attentionNotice, hf]
  unfold State.updateAttention
  dsimp only
  rw [if_pos ⟨h0, hon⟩, hn]
  rfl

/-! ## The segment map (R10, R13) -/

theorem Segment.governs_iff {g : Segment} {u : Nat} :
    g.governs u = true ↔ g.enabled = true ∧ g.first ≤ u ∧ u ≤ g.last := by
  simp [Segment.governs, and_assoc]

theorem Segment.governs_false_iff {g : Segment} {u : Nat} :
    g.governs u = false ↔ g.enabled = false ∨ u < g.first ∨ g.last < u := by
  rw [Bool.eq_false_iff, ne_eq, Segment.governs_iff, not_and_or, not_and_or, Bool.not_eq_true, Nat.not_le, Nat.not_le]

/-- The lowest-indexed member with a property is the one that a search finds. -/
theorem find?_lowest {α : Type} {p : α → Bool} {l : List α} {i : Nat} {a : α} (hi : l[i]? = some a) (ha : p a = true)
    (hlow : ∀ j d, j < i → l[j]? = some d → p d = false) : l.find? p = some a := by
  obtain ⟨hlt, rfl⟩ := List.getElem?_eq_some_iff.mp hi
  refine List.find?_eq_some_iff_getElem.mpr ⟨ha, i, hlt, rfl, fun j hj => ?_⟩
  rw [hlow j l[j] hj (List.getElem?_eq_getElem (Nat.lt_trans hj hlt)), Bool.not_false]

theorem barredBy_lowest {map : List Segment} {u i : Nat} {g : Segment} (hi : map[i]? = some g) (hg : g.governs u = true)
    (hlow : ∀ j d, j < i → map[j]? = some d → d.governs u = false) : barredBy map u = g.barred := by
  simp [barredBy, governing, find?_lowest hi hg hlow]

theorem barredBy_none {map : List Segment} {u : Nat} (h : ∀ g ∈ map, g.governs u = false) : barredBy map u = false := by
  have hf : governing map u = none := List.find?_eq_none.mpr fun g hg => by simp [h g hg]
  simp [barredBy, hf]

/-- The range gives the unit a phase (R10, step 2). -/
def Segment.phases (g : Segment) (u : Nat) : Bool := g.governs u && g.phase.isSome

theorem Segment.phases_false_iff {g : Segment} {u : Nat} :
    g.phases u = false ↔ g.enabled = false ∨ u < g.first ∨ g.last < u ∨ g.phase = none := by
  rw [Segment.phases, Bool.and_eq_false_iff, Segment.governs_false_iff, Option.isSome_eq_false_iff, Option.isNone_iff_eq_none,
    or_assoc, or_assoc]

theorem mapPhase_lowest {map : List Segment} {u i : Nat} {g : Segment} {ph : Phase} (hi : map[i]? = some g)
    (hg : g.governs u = true) (hp : g.phase = some ph)
    (hlow : ∀ j d, j < i → map[j]? = some d → d.phases u = false) : mapPhase map u = some ph := by
  have hf : map.find? (fun g => g.governs u && g.phase.isSome) = some g :=
    find?_lowest hi (by simp [hg, hp]) hlow
  simp [mapPhase, hf, hp]

theorem mapPhase_none {map : List Segment} {u : Nat} (h : ∀ g ∈ map, g.phases u = false) : mapPhase map u = none := by
  have hf : map.find? (fun g => g.governs u && g.phase.isSome) = none :=
    List.find?_eq_none.mpr fun g hg => Bool.eq_false_iff.mp (h g hg)
  simp [mapPhase, hf]

theorem State.resolved_own {s : State} {e : Entry} {ph : Phase} (h : e.phase = some ph) : s.resolved e = some ph := by
  simp [State.resolved, h]

theorem State.resolved_map {s : State} {e : Entry} (h : e.phase = none) :
    s.resolved e = mapPhase s.roster.segments e.unit := by
  simp [State.resolved, h]

theorem State.channelOf_resolved {s : State} {e : Entry} {ph : Phase} (h : s.resolved e = some ph) :
    s.channelOf e = ph := by
  simp [State.channelOf, h]

theorem State.channelOf_unresolved {s : State} {e : Entry} (h : s.resolved e = none) :
    s.channelOf e = e.searchPhase := by
  simp [State.channelOf, h]

/-! ## The target phases of a broadcast (R57, R101) -/

theorem State.contributes_iff {s : State} {e : Entry} {ph : Phase} :
    s.contributes e ph = true ↔ s.resolved e = some ph ∨ s.resolved e = none := by
  unfold State.contributes
  cases s.resolved e <;> simp

theorem State.mem_openMembers_group {s : State} {g : Nat} {e : Entry} :
    e ∈ s.openMembers (.group g) ↔ e ∈ s.roster.entries ∧ g ∈ e.groups ∧ s.barred e = false := by
  simp [State.openMembers, State.members, Target.names, and_comm]

theorem State.targetPhases_all (s : State) (ph : Phase) : (s.targetPhases .all).get ph = true :=
  PerPhase.get_const true ph

theorem State.targetPhases_group {s : State} {g : Nat} {ph : Phase} : (s.targetPhases (.group g)).get ph = true ↔
    ∃ e ∈ s.roster.entries, g ∈ e.groups ∧ s.barred e = false ∧ (s.resolved e = some ph ∨ s.resolved e = none) := by
  simp only [State.targetPhases, PerPhase.get_ofFn, List.any_eq_true, State.contributes_iff, State.mem_openMembers_group,
    and_assoc]

/-- What a broadcast holds from entry into RUNNING. -/
theorem State.opened_broadcast {s : State} {c : Campaign} {base budget : Nat} {interval : Option Nat}
    (h : c.terms = .broadcast base budget interval) : (s.opened c).run = some ⟨s.targetPhases c.target,
      (s.targetPhases c.target).map (fun target => if target then base + 1 else 0), .const 0, interval.map (fun _ => 0)⟩ := by
  simp [State.opened, h, PerPhase.const]

/-! ## Contact reports (R4 to R6, R12) -/

theorem Entry.learnPhase_eq (e : Entry) (ch : Phase) : e.learnPhase ch = { e with
    phase := some (e.phase.getD ch)
    flags := { e.flags with phaseLearned := e.flags.phaseLearned || e.phase.isNone } } := by
  unfold Entry.learnPhase
  split <;> rename_i h
  · cases e; cases h; simp
  · simp [h]

/-- The confirmed sequence after a contact report: the highest one heard of (R5). -/
def Extra.confirms (x : Extra) (old : Option Nat) : Option Nat :=
  match x with
  | .confirmed seq => some (match old with | some o => max o seq | none => seq)
  | _ => old

/-- The last report after a contact report (R6). -/
def Extra.reports (x : Extra) (now : Option Nat) (old : Option StatusReport) : Option StatusReport :=
  match x with
  | .report f heardAt => some (statusRecord f heardAt now)
  | _ => old

/-- The extra is a status report (R6). -/
def Extra.isReport : Extra → Bool
  | .report _ _ => true
  | _ => false

/-- The extra is a refusal (R5). -/
def Extra.isRefusal : Extra → Bool
  | .refusal => true
  | _ => false

theorem Entry.applyExtra_eq (e : Entry) (x : Extra) (now : Option Nat) : e.applyExtra x now = { e with
    lastConfirmed := x.confirms e.lastConfirmed
    lastReport := x.reports now e.lastReport
    flags := { e.flags with
      reportNew := e.flags.reportNew || x.isReport
      refused := e.flags.refused || x.isRefusal } } := by
  cases x with
  | confirmed seq =>
    cases h : e.lastConfirmed <;>
      simp [Entry.applyExtra, Extra.confirms, Extra.reports, Extra.isReport, Extra.isRefusal, h]
  | _ => simp [Entry.applyExtra, Extra.confirms, Extra.reports, Extra.isReport, Extra.isRefusal]

/-- An entry after a contact report, field by field. -/
theorem Entry.contacted_eq (e : Entry) (ch : Phase) (x : Extra) (now : Option Nat) : e.contacted ch x now = { e with
    misses := 0
    state := .active
    lastContact := now
    phase := some (e.phase.getD ch)
    lastConfirmed := x.confirms e.lastConfirmed
    lastReport := x.reports now e.lastReport
    flags := { e.flags with
      cameBack := e.flags.cameBack || decide (e.state = .silent)
      phaseLearned := e.flags.phaseLearned || e.phase.isNone
      reportNew := e.flags.reportNew || x.isReport
      refused := e.flags.refused || x.isRefusal } } := by
  rw [Entry.contacted, Entry.applyExtra_eq, Entry.learnPhase_eq]; rfl

theorem State.contact_absent {s : State} {u : Nat} (h : s.entry u = none) (ch : Phase) (x : Extra) : s.contact u ch x = s := by
  simp [State.contact, h]

theorem State.contact_present {s : State} {u : Nat} (h : s.entry u ≠ none) (ch : Phase) (x : Extra) :
    s.contact u ch x = (s.updateEntry u (fun e => e.contacted ch x s.clock.time)).updateAttention := by
  obtain ⟨e, he⟩ := Option.ne_none_iff_exists'.mp h
  simp [State.contact, he]

/-! ## Miss reports (R7, R11) -/

theorem Entry.markRouteFault_eq (e : Entry) (mark : Bool) :
    e.markRouteFault mark = { e with flags := { e.flags with routeFault := e.flags.routeFault || mark } } := by
  cases mark <;> simp [Entry.markRouteFault]

theorem State.missed_resolved {s : State} {e : Entry} (h : s.resolved e ≠ none) (mark : Bool) :
    s.missed e mark = (e.countMiss s.roster.threshold).markRouteFault mark := by
  obtain ⟨ph, hp⟩ := Option.ne_none_iff_exists'.mp h
  simp [State.missed, hp]

/-- An unresolved receiver searched for on L1 or L2 is searched for on the next phase, and no miss is counted. -/
theorem State.missed_search {s : State} {e : Entry} (h : s.resolved e = none) (hp : e.searchPhase ≠ .l3) (mark : Bool) :
    s.missed e mark = { e with searchPhase := e.searchPhase.next }.markRouteFault mark := by
  simp [State.missed, h, hp]

/-- The step from L3 back to L1 counts a miss. -/
theorem State.missed_wrap {s : State} {e : Entry} (h : s.resolved e = none) (hp : e.searchPhase = .l3) (mark : Bool) :
    s.missed e mark = ({ e with searchPhase := .l1 }.countMiss s.roster.threshold).markRouteFault mark := by
  simp [State.missed, h, hp, Phase.next]

theorem State.miss_absent {s : State} {u : Nat} (h : s.entry u = none) (mark : Bool) : s.miss u mark = s := by
  simp [State.miss, h]

theorem State.miss_present {s : State} {u : Nat} (h : s.entry u ≠ none) (mark : Bool) :
    s.miss u mark = (s.updateEntry u (fun e => s.missed e mark)).updateAttention := by
  obtain ⟨e, he⟩ := Option.ne_none_iff_exists'.mp h
  simp [State.miss, he]

end Sys2Proof.Machine
end

section
/-! The statements of the roster family, settled. -/

namespace Sys2Proof.Machine

/-- Settles O13: the services of ROSTER GET and ROSTER SCAN, case by case; the page and the rest are the two parts of the
matching entries at position 4. -/
theorem rosterReadsShowEntries : Obligations.RosterReadsShowEntries := by
  refine ⟨fun h u s ht => ⟨fun hu => ?_, fun h1 h2 he => ?_, fun e h1 h2 he => ?_⟩,
    fun h q s ht hs => ⟨fun hq => ?_, fun f hf h1 h2 => ?_⟩⟩
  · exact exec_refused rfl ht (serveRosterGet_invalid _ hu)
  · exact exec_refused rfl ht (serveRosterGet_absent h1 h2 he)
  · exact exec_accepted rfl ht (serveRosterGet_present h1 h2 he)
  · exact exec_refused rfl ht (serveRosterScan_invalid _ hq)
  · let found := s.matching q.start f
    have hsplit : found.take 4 ++ found.drop 4 = found := List.take_append_drop 4 found
    refine ⟨found.take 4, found.drop 4, (s.scan q.start f).2,
      exec_accepted rfl ht (serveRosterScan_valid _ hf h1 h2), hsplit.trans ?_, ?_, ?_, fun hr => ?_,
      fun hr => State.scan_next_nil hr, fun e tail hr => State.scan_next_cons hr⟩
    · cases f <;> rfl
    · rw [hsplit]; exact State.matching_inOrder hs q.start f
    · exact List.length_take_le 4 found
    · have hlen : ¬ found.length ≤ 4 := fun hle => hr (List.drop_eq_nil_of_le hle)
      rw [List.length_take]; omega

/-- Settles O33: the service of ROSTER FLAGS, case by case, and the two ways the attention count is brought up to date. -/
theorem rosterFlagsAndTheAttentionCount : Obligations.RosterFlagsAndTheAttentionCount := by
  refine ⟨fun h q s ht => ⟨fun hq => ?_, fun h1 h2 hx hv he => ?_, fun e x v h1 h2 hx hv he => ?_⟩,
    fun s => ⟨State.updateAttention_quiet, fun e rest => State.updateAttention_raised⟩⟩
  · exact exec_refused rfl ht (serveRosterFlags_invalid _ hq)
  · obtain ⟨x, hx⟩ := Option.ne_none_iff_exists'.mp hx
    obtain ⟨v, hv⟩ := Option.ne_none_iff_exists'.mp hv
    exact exec_refused rfl ht (serveRosterFlags_absent h1 h2 hx hv he)
  · exact exec_accepted rfl ht (serveRosterFlags_present h1 h2 hx hv he)

/-- Settles O35: phase and barring by the lowest-indexed range that the search of the map finds, and the target phases by
the members that contribute to them. -/
theorem phaseAndBarringFollowTheSegmentMap : Obligations.PhaseAndBarringFollowTheSegmentMap := by
  refine ⟨fun s e => ⟨fun ph => State.resolved_own, fun i g ph hn hi hen hfst hlst hp hlow => ?_, fun hn hall => ?_,
      fun ph => State.channelOf_resolved, State.channelOf_unresolved, fun i g hi hen hfst hlst hlow => ?_, fun hall => ?_⟩,
    fun s ph => ⟨s.targetPhases_all ph, fun g => State.targetPhases_group, fun c base budget interval hc => ?_⟩⟩
  · rw [State.resolved_map hn]
    exact mapPhase_lowest hi (Segment.governs_iff.mpr ⟨hen, hfst, hlst⟩) hp
      fun j d hj hd => Segment.phases_false_iff.mpr (hlow j d hj hd)
  · rw [State.resolved_map hn]
    exact mapPhase_none fun g hg => Segment.phases_false_iff.mpr (hall g hg)
  · exact barredBy_lowest hi (Segment.governs_iff.mpr ⟨hen, hfst, hlst⟩)
      fun j d hj hd => Segment.governs_false_iff.mpr (hlow j d hj hd)
  · exact barredBy_none fun g hg => Segment.governs_false_iff.mpr (hall g hg)
  · exact ⟨_, State.opened_broadcast hc, rfl, PerPhase.get_const 0 ph, PerPhase.get_map _ _ ph⟩

/-- Settles O42: the entry after a contact report, field by field, for each kind of extra. -/
theorem contactReportsUpdateTheEntry : Obligations.ContactReportsUpdateTheEntry := by
  refine fun s u ch x => ⟨fun h => State.contact_absent h ch x, fun h => ?_⟩
  rw [State.contact_present h]
  congr 2
  funext e
  rw [Entry.contacted_eq]
  cases hp : e.phase <;> cases x <;> rfl

/-- Settles O43: the entry after a miss report, for a resolved receiver and for each phase of the search. -/
theorem missReportsUpdateTheEntry : Obligations.MissReportsUpdateTheEntry := by
  refine fun s u mark => ⟨fun h => State.miss_absent h mark, fun h => ?_⟩
  rw [State.miss_present h]
  congr 2
  funext e
  by_cases hr : s.resolved e = none
  · rw [if_neg (not_not_intro hr)]
    cases hp : e.searchPhase with
    | l1 => rw [State.missed_search hr (by simp [hp]), Entry.markRouteFault_eq, hp]; rfl
    | l2 => rw [State.missed_search hr (by simp [hp]), Entry.markRouteFault_eq, hp]; rfl
    | l3 => rw [State.missed_wrap hr hp, Entry.markRouteFault_eq]; rfl
  · rw [if_pos hr, State.missed_resolved hr, Entry.markRouteFault_eq]; rfl

end Sys2Proof.Machine
end

section
/-! SUPPORT. The requests on campaigns answered: the checks of a rule against the model's list of checks, the slot and sequence
that a request names, the rows of CAMPAIGN LIST and the seeding of the counter. -/

namespace Sys2Proof.Machine

/-! ## Checks in the order of a rule -/

/-- The checks of a rule and the model's list of checks agree one by one, refusal codes included. -/
def ChecksAgree : List (Prop × ResultCode) → List (Bool × ResultCode) → Prop :=
  List.Forall₂ (fun p b => (b.1 = true ↔ p.1) ∧ b.2 = p.2)

/-- The code of a rule's first failing check is the one that the model's list of checks gives. -/
theorem firstRefusal_of_firstFails {code : ResultCode} {l : List (Prop × ResultCode)} {m : List (Bool × ResultCode)}
    (hlm : ChecksAgree l m) (hf : FirstFails l code) : firstRefusal m = some code := by
  induction hlm with
  | nil => exact hf.elim
  | @cons p b l m hpb _ ih =>
    obtain ⟨check, refusal⟩ := p
    obtain ⟨passes, given⟩ := b
    obtain ⟨hiff, rfl⟩ := hpb
    rcases hf with ⟨hno, rfl⟩ | ⟨hyes, hrest⟩
    · rw [firstRefusal, if_neg (mt hiff.mp hno)]
    · rw [firstRefusal, if_pos (hiff.mpr hyes)]; exact ih hrest

theorem within_iff {lo n hi : Nat} : within lo n hi = true ↔ lo ≤ n ∧ n ≤ hi := by
  rw [within, Bool.and_eq_true, decide_eq_true_eq, decide_eq_true_eq]

/-! ## SEQUENCE SEED (R45) -/

/-- The two checks of R45 in their order. -/
def State.seedChecks (s : State) (value : Nat) : List (Prop × ResultCode) :=
  [(1 ≤ value ∧ value ≤ 4294967279, .malformed), (s.campaigns.table = [], .wrongState)]

theorem State.seedChecks_agree (s : State) (value : Nat) : ChecksAgree (s.seedChecks value)
    [(within 1 value Config.maxSeed, .malformed), (s.campaigns.table.isEmpty, .wrongState)] :=
  .cons ⟨within_iff, rfl⟩ (.cons ⟨List.isEmpty_iff, rfl⟩ .nil)

theorem serveSequenceSeed_refused {value : Nat} {s : State} {code : ResultCode}
    (h : FirstFails (s.seedChecks value) code) : serveSequenceSeed value s = refuse s code := by
  rw [serveSequenceSeed, firstRefusal_of_firstFails (s.seedChecks_agree value) h]

theorem serveSequenceSeed_accepted {value : Nat} {s : State} (h1 : 1 ≤ value) (h2 : value ≤ 4294967279)
    (ht : s.campaigns.table = []) :
    serveSequenceSeed value s = accept (s.setCampaigns { s.campaigns with counter := some value }) .none := by
  have hin : within 1 value Config.maxSeed = true := within_iff.mpr ⟨h1, h2⟩
  simp [serveSequenceSeed, firstRefusal, hin, ht]

/-! ## The campaign that a request names (R61) -/

theorem State.named_slotOutside {s : State} {q : SlotRef} (h : 16 ≤ q.slot) : s.named q = .error .malformed := by
  rw [State.named, Config.campaignSlots, if_pos h]

theorem State.named_slotFree {s : State} {q : SlotRef} (h : q.slot < 16) (hc : s.campaign q.slot = none) :
    s.named q = .error .notFound := by
  rw [State.named, Config.campaignSlots, if_neg (Nat.not_le.mpr h), hc]

theorem State.named_otherSeq {s : State} {q : SlotRef} {d : Campaign} {n : Nat} (h : q.slot < 16)
    (hc : s.campaign q.slot = some d) (hq : q.seq = some n) (hn : n ≠ d.seq) : s.named q = .error .notFound := by
  simp [State.named, Config.campaignSlots, Nat.not_le.mpr h, hc, hq, hn]

theorem State.named_of_names {s : State} {q : SlotRef} {c : Campaign} (h : s.Names q c) : s.named q = .ok c := by
  obtain ⟨hslot, hc, hseq | hseq⟩ := h <;> simp [State.named, Config.campaignSlots, Nat.not_le.mpr hslot, hc, hseq]

/-- The five commands that name a campaign, each with its request (R61). -/
def namingCommands (h : Header) (q : SlotRef) : List (Instr × Request) :=
  [(.hold h q, .hold q), (.resume h q, .resume q), (.cancel h q, .cancel q), (.release h q, .release q),
    (.campaignQuery h q, .campaignQuery q)]

/-- Each of the five is refused by its owner with the code that the name gives. -/
theorem serveOf_unnamed {h : Header} {q : SlotRef} {c : Instr} {r : Request} {s : State} {code : ResultCode}
    (hm : (c, r) ∈ namingCommands h q) (hn : s.named q = .error code) : serveOf r s = refuse s code := by
  simp only [namingCommands, List.mem_cons, Prod.mk.injEq, List.not_mem_nil, or_false] at hm
  obtain ⟨-, rfl⟩ | ⟨-, rfl⟩ | ⟨-, rfl⟩ | ⟨-, rfl⟩ | ⟨-, rfl⟩ := hm
  · rw [serveOf, serveHold, hn]
  · rw [serveOf, serveResume, hn]
  · rw [serveOf, serveCancel, hn]
  · rw [serveOf, serveRelease, hn]
  · rw [serveOf, serveCampaignQuery, hn]

theorem requestOf_naming {h : Header} {q : SlotRef} {c : Instr} {r : Request} (hm : (c, r) ∈ namingCommands h q) :
    requestOf c = some ⟨h, r⟩ := by
  simp only [namingCommands, List.mem_cons, Prod.mk.injEq, List.not_mem_nil, or_false] at hm
  obtain ⟨rfl, rfl⟩ | ⟨rfl, rfl⟩ | ⟨rfl, rfl⟩ | ⟨rfl, rfl⟩ | ⟨rfl, rfl⟩ := hm <;> rfl

theorem exec_unnamed {h : Header} {q : SlotRef} {c : Instr} {r : Request} {s : State} {code : ResultCode}
    (hm : (c, r) ∈ namingCommands h q) (ht : s.Takes h r) (hn : s.popInbound.named q = .error code) :
    exec c s = .next (s.popInbound.replied h r code .none) :=
  exec_refused (requestOf_naming hm) ht (serveOf_unnamed hm hn)

/-! ## CAMPAIGN QUERY (R66) -/

theorem serveCampaignQuery_named {q : SlotRef} {s : State} {c : Campaign} (h : s.Names q c) :
    serveCampaignQuery q s = accept s (.campaign { c with intervalTimer := none } c.order.body.superClass) := by
  rw [serveCampaignQuery, State.named_of_names h]

/-! ## CAMPAIGN LIST (R67) -/

theorem Campaign.row_confirmed {c : Campaign} (h : c.mode = .confirmed) : c.row = ⟨c.slot, c.seq, c.order.body.cls, c.mode,
    c.priority, c.state, c.pass, some c.counts.outstanding, none, none⟩ := by
  simp [Campaign.row, h]

theorem Campaign.row_broadcast {c : Campaign} (h : c.mode = .broadcast) : c.row = ⟨c.slot, c.seq, c.order.body.cls, c.mode,
    c.priority, c.state, none, none, c.run.map (fun r => r.remaining.l1 + r.remaining.l2 + r.remaining.l3),
    c.run.bind BroadcastRun.rounds⟩ := by
  simp [Campaign.row, h, PerPhase.toList, Nat.add_assoc]

/-- The fields of R67 are the row: the four fields of a mode are set by the campaign's own mode. -/
theorem Campaign.eq_row_iff {c : Campaign} {row : CampaignRow} : row = c.row ↔
    row.slot = c.slot ∧ row.seq = c.seq ∧ row.cls = c.order.body.cls ∧ row.mode = c.mode
    ∧ row.priority = c.priority ∧ row.state = c.state
    ∧ (c.mode = .confirmed → row.pass = c.pass ∧ row.outstanding = some c.counts.outstanding
        ∧ row.remaining = none ∧ row.rounds = none)
    ∧ (c.mode = .broadcast → row.pass = none ∧ row.outstanding = none
        ∧ row.remaining = c.run.map (fun r => r.remaining.l1 + r.remaining.l2 + r.remaining.l3)
        ∧ row.rounds = c.run.bind BroadcastRun.rounds) := by
  cases row
  cases hm : c.mode with
  | confirmed => simp [Campaign.row_confirmed hm, hm]
  | broadcast => simp [Campaign.row_broadcast hm, hm]

theorem serveCampaignList_eq (s : State) : serveCampaignList s = accept s (.campaigns
    ((List.range 16).filter (fun k => (s.campaign k).isNone)).length (s.campaigns.table.map Campaign.row)) := rfl

theorem Campaigns.Sound.rows_rising {cs : Campaigns} (h : cs.Sound) :
    (cs.table.map Campaign.row).Pairwise (fun a b => a.slot < b.slot) := List.pairwise_map.mpr h.order

end Sys2Proof.Machine
end

section
/-! The statements of the campaign family, settled. -/

namespace Sys2Proof.Machine

/-- Settles O10: the rows are the table's campaigns in their order, and QUERY answers with the campaign that it names. -/
theorem campaignReadsShowTheTable : Obligations.CampaignReadsShowTheTable := by
  refine ⟨fun h s ht hs => ⟨s.campaigns.table.map Campaign.row, ?_, hs.rows_rising, fun row => ?_⟩, fun h q s c ht hn => ?_⟩
  · exact exec_accepted rfl ht (serveCampaignList_eq _)
  · simp only [List.mem_map, eq_comm (b := row), Campaign.eq_row_iff]
  · rw [exec_accepted rfl ht (serveCampaignQuery_named hn)]
    cases c.order.body <;> rfl

/-- Settles O22: the two checks of R45 in their order, and the counter where both pass. -/
theorem sequenceSeedSetsTheCounter : Obligations.SequenceSeedSetsTheCounter := fun _ _ _ ht =>
  ⟨fun _ hf => exec_refused rfl ht (serveSequenceSeed_refused hf),
    fun h1 h2 htab => exec_accepted rfl ht (serveSequenceSeed_accepted h1 h2 htab)⟩

/-- Settles O27: the three ways in which a slot and a sequence name no campaign. -/
theorem requestsNamingACampaignAreChecked : Obligations.RequestsNamingACampaignAreChecked := fun _ _ _ _ _ hm ht =>
  ⟨fun hslot => exec_unnamed hm ht (State.named_slotOutside hslot),
    fun hslot hfree => exec_unnamed hm ht (State.named_slotFree hslot hfree),
    fun _ _ hslot hc hq hn => exec_unnamed hm ht (State.named_otherSeq hslot hc hq hn)⟩

end Sys2Proof.Machine
end

section
/-! SUPPORT. What LINE STATUS shows of a channel: the record, the view of its unit of work by kind, and the requesting set in
slot order. -/

namespace Sys2Proof.Machine

/-! ## LINE STATUS (R134) -/

theorem serveLineStatus_eq (s : State) : serveLineStatus s = accept s (.lines (.ofFn s.lineRecord)) := rfl

/-- The record of a channel reads nothing of the serial link. -/
theorem State.lineRecord_popInbound (s : State) (ph : Phase) : s.popInbound.lineRecord ph = s.lineRecord ph := rfl

theorem Work.view_exchange {w : Work} {dest : Nat} {route : List Nat} (h : w.kind = .exchange dest route) :
    w.view = ⟨w.slot, w.seq, true, some dest, w.fragment, w.count⟩ := by
  simp [Work.view, Work.dest, h]

theorem Work.view_broadcast {w : Work} {group budget : Nat} (h : w.kind = .broadcast group budget) :
    w.view = ⟨w.slot, w.seq, false, none, w.fragment, w.count⟩ := by
  simp [Work.view, Work.dest, h]

theorem State.lineRecord_work_none {s : State} {ph : Phase} (h : (s.channel ph).activity.work = none) :
    (s.lineRecord ph).work = none := by
  simp [State.lineRecord, h]

theorem State.lineRecord_work_some {s : State} {ph : Phase} {w : Work} (h : (s.channel ph).activity.work = some w) :
    (s.lineRecord ph).work = some w.view := by
  simp [State.lineRecord, h]

/-- The requesting set keeps the order of the table (R127). -/
theorem Campaigns.Sound.requesting_inOrder {s : State} (hs : s.campaigns.Sound) (ph : Phase) :
    InOrder Campaign.slot (s.requesting ph) := List.Pairwise.filter _ hs.order

theorem Campaigns.Sound.lineRecord_requesting_rising {s : State} (hs : s.campaigns.Sound) (ph : Phase) :
    (s.lineRecord ph).requesting.Pairwise (fun a b => a.1 < b.1) :=
  List.pairwise_map.mpr (hs.requesting_inOrder ph)

end Sys2Proof.Machine
end

section
/-! The statement of the line channels' family on LINE STATUS, settled. -/

namespace Sys2Proof.Machine

/-- Settles O11: the records are those of the state as the request meets it, and the work shown is the view of the unit in
flight, by its kind. -/
theorem lineStatusShowsTheChannels : Obligations.LineStatusShowsTheChannels := by
  refine fun h s ht => ⟨.ofFn s.popInbound.lineRecord, exec_accepted rfl ht (serveLineStatus_eq _), fun ph => ?_⟩
  rw [PerPhase.get_ofFn, State.lineRecord_popInbound]
  refine ⟨rfl, rfl, rfl, rfl, rfl, rfl, fun hs => hs.lineRecord_requesting_rising ph, State.lineRecord_work_none,
    fun w dest route hw hk => ?_, fun w group budget hw hk => ?_⟩
  · rw [State.lineRecord_work_some hw, Work.view_exchange hk]
  · rw [State.lineRecord_work_some hw, Work.view_broadcast hk]

end Sys2Proof.Machine
end

section
/-! SUPPORT. The roster's law (R1, R3, R17, R24) through the shared operations of the roster unit: entries rewritten in place, one
put in, one taken out. -/

namespace Sys2Proof.Machine

/-! ## Entries that keep their place -/

/-- What the laws of R1 and R17 read of an entry. -/
def Entry.place (e : Entry) : Nat × Role × List Nat := (e.unit, e.role, e.route)

theorem Entry.place_eq_iff {a b : Entry} : a.place = b.place ↔ a.unit = b.unit ∧ a.role = b.role ∧ a.route = b.route := by
  simp [Entry.place]

theorem Entry.Routed.of_place {l m : List Entry} {a b : Entry} (h : a.Routed l) (hab : b.place = a.place)
    (hlm : m.map Entry.place = l.map Entry.place) : b.Routed m := by
  obtain ⟨hunit, -, hroute⟩ := Entry.place_eq_iff.mp hab
  refine ⟨hroute ▸ h.length, hroute ▸ h.once, by rw [hunit, hroute]; exact h.others, fun u hu => ?_⟩
  obtain ⟨d, hd, hdu, hdr⟩ := h.present u (hroute ▸ hu)
  have hmem : d.place ∈ m.map Entry.place := hlm ▸ List.mem_map_of_mem hd
  obtain ⟨x, hx, hxd⟩ := List.mem_map.mp hmem
  obtain ⟨hxu, hxr, -⟩ := Entry.place_eq_iff.mp hxd
  exact ⟨x, hx, hxu.trans hdu, hxr.trans hdr⟩

/-- Entries judged afresh, that keep unit, role and route, keep the law of the roster. -/
theorem Roster.Sound.of_places {a b : Roster} (h : a.Sound) (hp : b.entries.map Entry.place = a.entries.map Entry.place)
    (he : ∀ e ∈ b.entries, e.Sound b.threshold) (ht : 1 ≤ b.threshold) (hm : b.segments.length = 8)
    (hc : b.attention = (flagged b.entries).length) : b.Sound where
  order := InOrder.of_map (by
    have := congrArg (List.map Prod.fst) hp
    simp only [List.map_map] at this
    exact this ▸ h.order.map_lt)
  size := by simpa using (congrArg List.length hp).trans_le (by simpa using h.size)
  entries := he
  routes := fun e hmem => by
    have : e.place ∈ a.entries.map Entry.place := hp ▸ List.mem_map_of_mem hmem
    obtain ⟨d, hd, hde⟩ := List.mem_map.mp this
    exact (h.routes d hd).of_place hde.symm hp
  threshold := ht
  map := hm
  attention := hc

/-- The campaign controller's changes leave the roster's law alone. -/
theorem Roster.Sound.of_touch {s t : State} (h : s.roster.Sound) (o : OnlyCampaigns s t) : t.roster.Sound := by
  have hp := congrArg (List.map Entry.place) o.entries
  have hf := congrArg (fun l => (flagged l).length) o.entries
  simp only [List.map_map] at hp
  refine h.of_places hp (fun e he => ?_) (o.threshold ▸ h.threshold) (o.segments ▸ h.map) ?_
  · have : e.forgetSlots ∈ s.roster.entries.map Entry.forgetSlots := o.entries ▸ List.mem_map_of_mem he
    obtain ⟨d, hd, hde⟩ := List.mem_map.mp this
    obtain ⟨hunit, hmiss, hjudge⟩ := h.entries d hd
    have hu : d.unit = e.unit := show d.forgetSlots.unit = _ by rw [hde]; rfl
    have hm : d.misses = e.misses := show d.forgetSlots.misses = _ by rw [hde]; rfl
    have hs : d.state = e.state := show d.forgetSlots.state = _ by rw [hde]; rfl
    exact ⟨hu ▸ hunit, hm ▸ hmiss, by rw [o.threshold, ← hm, ← hs]; exact hjudge⟩
  · have hfl : ∀ l : List Entry, (flagged (l.map Entry.forgetSlots)).length = (flagged l).length := fun l => by
      unfold flagged; rw [List.filter_map, List.length_map]; rfl
    rw [o.attention, h.attention, ← hfl, ← hfl t.roster.entries]
    exact hf.symm

/-! ## The attention count -/

/-- The roster's law apart from the attention count. -/
structure Roster.Lawful (r : Roster) : Prop where
  order     : InOrder Entry.unit r.entries
  size      : r.entries.length ≤ 1024
  entries   : ∀ e ∈ r.entries, e.Sound r.threshold
  routes    : ∀ e ∈ r.entries, e.Routed r.entries
  threshold : 1 ≤ r.threshold
  map       : r.segments.length = 8

theorem Roster.Sound.lawful {r : Roster} (h : r.Sound) : r.Lawful :=
  ⟨h.order, h.size, h.entries, h.routes, h.threshold, h.map⟩

/-- Bringing the attention count up to date completes the law. -/
theorem State.updateAttention_sound {s : State} (h : s.roster.Lawful) : s.updateAttention.roster.Sound := by
  rw [State.updateAttention_roster]
  exact ⟨h.order, h.size, h.entries, h.routes, h.threshold, h.map, rfl⟩

/-- Entries rewritten in place, each judged by the threshold. -/
theorem Roster.Sound.rewritten {r : Roster} (h : r.Sound) {f : Entry → Entry} {n : Nat} (hn : 1 ≤ n)
    (hp : ∀ e, (f e).place = e.place) (hf : ∀ e, e.Sound r.threshold → (f e).Sound n) :
    ({ r with threshold := n, entries := r.entries.map f } : Roster).Lawful := by
  have hplaces : (r.entries.map f).map Entry.place = r.entries.map Entry.place := by
    rw [List.map_map]; exact List.map_congr_left fun e _ => hp e
  have hs : ({ r with threshold := n, entries := r.entries.map f, attention := (flagged (r.entries.map f)).length } :
      Roster).Sound := h.of_places hplaces (fun e he => ?_) hn h.map rfl
  · exact ⟨hs.order, hs.size, hs.entries, hs.routes, hs.threshold, hs.map⟩
  obtain ⟨d, hd, rfl⟩ := List.mem_map.mp he
  exact hf d (h.entries d hd)

/-- One entry rewritten in place. -/
theorem State.updateEntry_sound {s : State} (h : s.roster.Sound) (u : Nat) {f : Entry → Entry}
    (hp : ∀ e, (f e).place = e.place) (hf : ∀ e, e.Sound s.roster.threshold → (f e).Sound s.roster.threshold) :
    (s.updateEntry u f).updateAttention.roster.Sound := by
  refine State.updateAttention_sound ?_
  refine h.rewritten (f := fun e => if e.unit = u then f e else e) h.threshold (fun e => ?_) fun e he => ?_
  · split
    · exact hp e
    · rfl
  · split
    · exact hf e he
    · exact he

/-! ## Reports and the threshold -/

theorem Entry.Sound.of_same {n : Nat} {a b : Entry} (h : a.Sound n) (hu : b.unit = a.unit) (hm : b.misses = a.misses)
    (hs : b.state = a.state) : b.Sound n :=
  ⟨hu ▸ h.unit, hm ▸ h.misses, by rw [hs, hm]; exact h.judged⟩

theorem Entry.contacted_sound {n : Nat} {e : Entry} (hn : 1 ≤ n) (h : e.Sound n) (ch : Phase) (x : Extra) (now : Option Nat) :
    (e.contacted ch x now).Sound n := by
  rw [Entry.contacted_eq]
  exact ⟨h.unit, Nat.zero_le _, fun _ => hn⟩

theorem Entry.contacted_place (e : Entry) (ch : Phase) (x : Extra) (now : Option Nat) :
    (e.contacted ch x now).place = e.place := by
  rw [Entry.contacted_eq]; rfl

theorem Entry.markRouteFault_sound {n : Nat} {e : Entry} (h : e.Sound n) (mark : Bool) : (e.markRouteFault mark).Sound n := by
  rw [Entry.markRouteFault_eq]
  exact h.of_same rfl rfl rfl

theorem Entry.markRouteFault_place (e : Entry) (mark : Bool) : (e.markRouteFault mark).place = e.place := by
  rw [Entry.markRouteFault_eq]; rfl

/-- A counted miss that reaches the threshold makes the entry SILENT (R7). -/
theorem Entry.countMiss_sound {n : Nat} {e : Entry} (h : e.Sound n) : (e.countMiss n).Sound n := by
  unfold Entry.countMiss
  dsimp only
  have hbound : min Config.maxMisses (e.misses + 1) ≤ 15 := Nat.min_le_left _ _
  split
  · exact ⟨h.unit, hbound, fun hs => absurd rfl hs⟩
  · rename_i hc
    exact ⟨h.unit, hbound, fun hs => Nat.not_le.mp fun hle => hc ⟨hs, hle⟩⟩

theorem Entry.countMiss_place (e : Entry) (n : Nat) : (e.countMiss n).place = e.place := by
  unfold Entry.countMiss; dsimp only; split <;> rfl

theorem State.missed_sound {s : State} {e : Entry} (h : e.Sound s.roster.threshold) (mark : Bool) :
    (s.missed e mark).Sound s.roster.threshold := by
  by_cases hr : s.resolved e = none
  · by_cases hp : e.searchPhase = .l3
    · rw [State.missed_wrap hr hp]
      refine Entry.markRouteFault_sound (Entry.countMiss_sound ?_) mark
      exact h.of_same rfl rfl rfl
    · rw [State.missed_search hr hp]
      refine Entry.markRouteFault_sound ?_ mark
      exact h.of_same rfl rfl rfl
  · rw [State.missed_resolved hr]
    exact Entry.markRouteFault_sound (Entry.countMiss_sound h) mark

theorem State.missed_place (s : State) (e : Entry) (mark : Bool) : (s.missed e mark).place = e.place := by
  by_cases hr : s.resolved e = none
  · by_cases hp : e.searchPhase = .l3
    · rw [State.missed_wrap hr hp, Entry.markRouteFault_place, Entry.countMiss_place]; rfl
    · rw [State.missed_search hr hp, Entry.markRouteFault_place]; rfl
  · rw [State.missed_resolved hr, Entry.markRouteFault_place, Entry.countMiss_place]

theorem State.contact_sound {s : State} (h : s.roster.Sound) (u : Nat) (ch : Phase) (x : Extra) :
    (s.contact u ch x).roster.Sound := by
  by_cases he : s.entry u = none
  · rw [State.contact_absent he]; exact h
  · rw [State.contact_present he]
    exact State.updateEntry_sound h u (fun e => e.contacted_place ch x _) fun e hs => Entry.contacted_sound h.threshold hs ch x _

theorem State.miss_sound {s : State} (h : s.roster.Sound) (u : Nat) (mark : Bool) : (s.miss u mark).roster.Sound := by
  by_cases he : s.entry u = none
  · rw [State.miss_absent he]; exact h
  · rw [State.miss_present he]
    exact State.updateEntry_sound h u (fun e => s.missed_place e mark) fun e hs => State.missed_sound hs mark

theorem Entry.underThreshold_place (e : Entry) (n : Nat) : (e.underThreshold n).place = e.place := by
  unfold Entry.underThreshold; split <;> rfl

/-- A lowered threshold silences the entries at or above it (R8). -/
theorem Entry.underThreshold_sound {m n : Nat} {e : Entry} (h : e.Sound m) : (e.underThreshold n).Sound n := by
  unfold Entry.underThreshold
  split
  · exact ⟨h.unit, h.misses, fun hs => absurd rfl hs⟩
  · rename_i hc
    exact ⟨h.unit, h.misses, fun hs => Nat.not_le.mp fun hle => hc ⟨hs, hle⟩⟩

theorem State.setThreshold_sound {s : State} (h : s.roster.Sound) {n : Nat} (hn : 1 ≤ n) :
    (s.setThreshold n).roster.Sound := by
  unfold State.setThreshold
  dsimp only
  split
  · exact State.updateAttention_sound
      (h.rewritten hn (fun e => e.underThreshold_place n) fun _ he => Entry.underThreshold_sound he)
  · rename_i hle
    exact h.of_places rfl (fun e he => ⟨(h.entries e he).unit, (h.entries e he).misses, fun hs =>
      ((h.entries e he).judged hs).trans_le (Nat.not_lt.mp hle)⟩) hn h.map h.attention

/-! ## Entries put in and taken out (R18 to R20) -/

theorem putBy_length {α : Type} (key : α → Nat) (a : α) : ∀ l : List α,
    (putBy key a l).length ≤ l.length + 1 ∧ (findBy key (key a) l ≠ none → InOrder key l → (putBy key a l).length = l.length)
  | [] => ⟨Nat.le_refl _, fun h => absurd rfl h⟩
  | b :: r => by
    obtain ⟨hle, heq⟩ := putBy_length key a r
    simp only [putBy]
    refine ⟨?_, fun hf ho => ?_⟩
    · split
      · exact Nat.le_refl _
      · split
        · simp
        · simpa using hle
    · obtain ⟨hb, ho⟩ := List.pairwise_cons.mp ho
      split
      · rename_i hlt
        refine absurd (findBy_none.mpr fun c hc => ?_) hf
        rcases List.mem_cons.mp hc with rfl | hc
        · omega
        · have := hb c hc; omega
      · split
        · rfl
        · rename_i hne
          simp only [List.length_cons, Nat.add_right_cancel_iff]
          refine heq ?_ ho
          simpa [findBy, List.find?_cons, Ne.symm hne] using hf

/-- An entry that may be put into a roster: sound, its route lawful there, and no relay lost that a route still names. -/
structure Entry.Fits (l : List Entry) (n : Nat) (e : Entry) : Prop where
  sound  : e.Sound n
  routed : e.Routed l
  relay  : ∀ d ∈ l, d.unit = e.unit → d.role = .relay → e.role = .relay ∨ ∀ x ∈ l, e.unit ∉ x.route
  room   : (∃ d ∈ l, d.unit = e.unit) ∨ l.length < 1024

theorem Entry.Routed.put {l : List Entry} (ho : InOrder Entry.unit l) {e x : Entry} (hx : x.Routed l)
    (he : e.role = .relay ∨ e.unit ∉ x.route) : x.Routed (putBy Entry.unit e l) := by
  refine ⟨hx.length, hx.once, hx.others, fun u hu => ?_⟩
  obtain ⟨d, hd, hdu, hdr⟩ := hx.present u hu
  by_cases hue : u = e.unit
  · rcases he with he | he
    · exact ⟨e, (mem_putBy ho).mpr (.inl rfl), hue.symm, he⟩
    · exact absurd (hue ▸ hu) he
  · exact ⟨d, (mem_putBy ho).mpr (.inr ⟨hd, by rwa [hdu]⟩), hdu, hdr⟩

theorem Roster.Sound.put {r : Roster} (h : r.Sound) {e : Entry} (he : e.Fits r.entries r.threshold) :
    ({ r with entries := putBy Entry.unit e r.entries } : Roster).Lawful where
  order := putBy_inOrder h.order
  size := by
    obtain ⟨hle, heq⟩ := putBy_length Entry.unit e r.entries
    rcases he.room with ⟨d, hd, hde⟩ | hroom
    · refine (heq (fun hn => findBy_none.mp hn d hd hde) h.order).trans_le h.size
    · exact hle.trans hroom
  entries := fun x hx => ((mem_putBy h.order).mp hx).elim (fun hxe => hxe ▸ he.sound) fun hxl => h.entries x hxl.1
  routes := fun x hx => by
    have names : ∀ y : Entry, y.Routed r.entries → (y = e ∨ y ∈ r.entries) → y.Routed (putBy Entry.unit e r.entries) := by
      refine fun y hy hye => hy.put h.order ?_
      by_cases hin : e.unit ∈ y.route
      · obtain ⟨d, hd, hdu, hdr⟩ := hy.present _ hin
        refine (he.relay d hd hdu hdr).imp_right fun hno => ?_
        rcases hye with rfl | hye
        · exact hy.others
        · exact hno y hye
      · exact .inr hin
    rcases (mem_putBy h.order).mp hx with rfl | ⟨hxl, -⟩
    · exact names _ he.routed (.inl rfl)
    · exact names _ (h.routes x hxl) (.inr hxl)
  threshold := h.threshold
  map := h.map

/-- An entry that no route names may leave. -/
theorem Roster.Sound.remove {r : Roster} (h : r.Sound) {u : Nat} (hu : ∀ e ∈ r.entries, u ∉ e.route) :
    ({ r with entries := removeBy Entry.unit u r.entries } : Roster).Lawful where
  order := removeBy_inOrder h.order
  size := (List.length_filter_le _ _).trans h.size
  entries := fun e he => h.entries e (mem_removeBy.mp he).1
  routes := fun e he => by
    have hr := h.routes e (mem_removeBy.mp he).1
    refine ⟨hr.length, hr.once, hr.others, fun v hv => ?_⟩
    obtain ⟨d, hd, hdv, hdr⟩ := hr.present v hv
    refine ⟨d, mem_removeBy.mpr ⟨hd, fun hdu => hu e (mem_removeBy.mp he).1 ?_⟩, hdv, hdr⟩
    rwa [← hdu, hdv]
  threshold := h.threshold
  map := h.map

end Sys2Proof.Machine
end

section
/-! SUPPORT. The plan store's law (R163 to R182) through the store's own operations: settings, operations that begin, end, are
suspended and resumed, the boundary, the resets and the passing of a millisecond. -/

namespace Sys2Proof.Machine

/-! ## Settings and service -/

/-- The arm, the lists of the snapshots and auto-suspend are no part of the law. -/
theorem Store.Sound.settings {a : Store} (h : a.Sound) (arm auto : Bool) (w : List SnapshotRequest) (d : List Delivery) :
    ({ a with arm := arm, autoSuspend := auto, waiting := w, deliveries := d } : Store).Sound := { h with }

theorem Store.Sound.staged {a : Store} (h : a.Sound) {b : Staging} (hb : b.points.length = 12) :
    ({ a with staging := b } : Store).Sound := { h with positions := hb }

/-- The store without an active operation, and so without a guard, keeps every law but that of its slots and site. -/
theorem Store.Sound.freed {a : Store} (h : a.Sound) (hg : a.guard = none) : ({ a with active := none } : Store).Sound :=
  { h with
    floor := fun hb => h.floor (by
      have hl : a.site.locked = true := by simpa [Store.floorBinds] using hb
      simp [Store.floorBinds, hl])
    writing := nofun
    beside := nofun
    erasing := nofun
    program := nofun
    guard := fun n hn => nomatch hg.symm.trans hn }

/-- The guard runs beside an ERASING erase alone. -/
theorem Store.Sound.unguarded {a : Store} (h : a.Sound) (ha : ∀ k n, a.active ≠ some (.erase k .erasing n)) : a.guard = none := by
  cases hg : a.guard with
  | none => rfl
  | some n =>
    obtain ⟨k, m, hm⟩ := h.guard n hg
    exact absurd hm (ha k m)

/-- An active erase in another phase, with a guard only in ERASING. -/
theorem Store.Sound.phased {a : Store} (h : a.Sound) {k n : Nat} {ph : ErasePhase} (ha : a.active = some (.erase k ph n))
    (hg : a.guard = none) (v : ErasePhase) : ({ a with active := some (.erase k v n) } : Store).Sound :=
  { h with
    floor := fun hb => h.floor (by simpa [Store.floorBinds, ha] using hb)
    writing := nofun
    beside := fun e he _ _ => (h.beside e he _ ha).elim
    erasing := fun j p m hx => by
      cases hx; exact h.erasing k ph n ha
    program := nofun
    guard := fun n hn => nomatch hg.symm.trans hn }

theorem Store.Sound.of_serves {a b : Store} (h : a.Sound) (g : Store.Serves a b) : b.Sound := by
  have hb : b = { ({ a with active := b.active } : Store) with waiting := b.waiting, deliveries := b.deliveries } := by
    obtain ⟨h1, h2, h3, h4, h5, h6, h7, h8, -⟩ := g
    cases a; cases b
    simp_all
  have ha : ({ a with active := b.active } : Store).Sound := by
    rcases g.active with hs | ⟨k, n, hk, hs, hguard⟩
    · rw [hs]; exact h
    · rw [hs]; exact h.phased hk hguard _
  rw [hb]
  exact ha.settings _ _ _ _

theorem Store.Sound.taken {a : Store} (h : a.Sound) : a.takeSnapshots.Sound := h.of_serves a.takeSnapshots_serves

/-! ## Operations that begin -/

/-- What the law asks of an operation that becomes active in a free store. -/
structure Store.Admits (a : Store) (o : Operation) : Prop where
  lock    : o = .siteLock → a.site.fields.floor.getD 0 ≤ a.boundary
  write   : ∀ q, o = .siteWrite q → a.site.locked = false ∧ q.floor.getD 0 ≤ 8
  beside  : ∀ e, a.suspended = some e → o.besideSuspended e.sector
  erase   : ∀ k ph n, o = .erase k ph n → k < 8 ∧ n ≤ 900
  program : ∀ p plan, o = .program p plan → a.slots[p]? = some .empty

theorem Store.Sound.begun {a : Store} (h : a.Sound) (hf : a.active = none) {o : Operation} (ho : a.Admits o) (arm : Bool) :
    ({ a with arm := arm, active := some o } : Store).Sound :=
  { h with
    floor := fun hb => by
      by_cases hl : a.site.locked = true
      · exact h.floor (by simp [Store.floorBinds, hl])
      · exact ho.lock (by simpa [Store.floorBinds, hl] using hb)
    writing := fun q hx => ho.write q (Option.some.inj hx)
    beside := fun e he p hx => Option.some.inj hx ▸ ho.beside e he
    erasing := fun k ph n hx => ho.erase k ph n (Option.some.inj hx)
    program := fun p plan hx => ho.program p plan (Option.some.inj hx)
    guard := fun n hn => by
      have := h.unguarded (by simp [hf])
      exact nomatch this.symm.trans hn }

/-- A passed check of a list of checks. -/
theorem passed {l : List (Bool × ResultCode)} (h : firstRefusal l = none) {p : Bool × ResultCode} (hp : p ∈ l) :
    p.1 = true := firstRefusal_none.mp h p hp

theorem State.planCommit_admits {s : State} {p : Nat} {plan : Plan} (h : s.planCommitRefusal p = none) :
    s.store.active = none ∧ s.store.Admits (.program p plan) := by
  simp only [State.planCommitRefusal, firstRefusal_none, List.forall_mem_cons, List.not_mem_nil, false_implies, implies_true,
    and_true] at h
  obtain ⟨-, -, -, hsusp, hfree, hempty, -⟩ := h
  refine ⟨Option.isNone_iff_eq_none.mp hfree, ⟨nofun, nofun, fun e he => ?_,
    nofun, fun q _ hx => ?_⟩⟩
  · simp only [Store.sectorSuspended, he, Bool.not_eq_true', beq_eq_false_iff_ne] at hsusp
    exact hsusp.symm
  · cases hx; exact of_decide_eq_true hempty

theorem State.sectorErase_admits {s : State} {k : Nat} (h : s.sectorEraseRefusal k = none) :
    s.store.active = none ∧ s.store.Admits (.erase k .erasing 0) := by
  simp only [State.sectorEraseRefusal, firstRefusal_none, List.forall_mem_cons, List.not_mem_nil, false_implies, implies_true,
    and_true, Bool.and_eq_true, Option.isNone_iff_eq_none, decide_eq_true_eq] at h
  obtain ⟨hk, -, -, ⟨hfree, hsusp⟩, -⟩ := h
  refine ⟨hfree, ⟨nofun, nofun, fun e he => (nomatch hsusp.symm.trans he),
    fun _ _ _ hx => ?_, nofun⟩⟩
  cases hx; exact ⟨hk, by decide⟩

theorem State.siteWrite_admits {s : State} {q : SiteFields} (h : s.siteWriteRefusal q = none) :
    s.store.active = none ∧ s.store.Admits (.siteWrite q) := by
  simp only [State.siteWriteRefusal, firstRefusal_none, List.forall_mem_cons, List.not_mem_nil, false_implies, implies_true,
    and_true, Option.isNone_iff_eq_none, Bool.not_eq_true', siteInRange, Bool.and_eq_true] at h
  obtain ⟨⟨-, hfloor⟩, -, hlock, hfree, -⟩ := h
  refine ⟨hfree, ⟨nofun, fun _ hx => ?_, fun _ _ => trivial, nofun,
    nofun⟩⟩
  cases hx
  refine ⟨hlock, ?_⟩
  cases hq : q.floor with
  | none => exact Nat.zero_le 8
  | some n =>
    rw [hq, optWithin, within_iff] at hfloor
    exact hfloor.2

theorem State.siteLock_admits {s : State} (h : s.siteLockRefusal = none) :
    s.store.active = none ∧ s.store.Admits .siteLock := by
  simp only [State.siteLockRefusal, firstRefusal_none, List.forall_mem_cons, List.not_mem_nil, false_implies, implies_true,
    and_true, Option.isNone_iff_eq_none, Bool.and_eq_true, decide_eq_true_eq] at h
  obtain ⟨-, -, hfree, -, hfloor⟩ := h
  exact ⟨hfree, ⟨fun _ => hfloor, nofun, fun _ _ => trivial, nofun,
    nofun⟩⟩

/-! ## Suspension, resumption and the boundary -/

theorem Store.Sound.resumed {a : Store} (h : a.Sound) {e : SuspendedErase} (hk : e.sector < 8) (hn : e.runTime ≤ 900)
    (hf : a.active = none) : (a.resumeErase e).Sound :=
  { h with
    floor := fun hb => h.floor (by simpa [Store.floorBinds, Store.resumeErase, hf] using hb)
    writing := nofun
    beside := nofun
    owner := nofun
    erasing := fun _ _ _ hx => by cases hx; exact ⟨hk, hn⟩
    program := nofun
    guard := fun _ _ => ⟨_, _, rfl⟩ }

/-- A suspended erase of the host's in a free store. -/
theorem Store.Sound.suspendedHost {a : Store} (h : a.Sound) {k n : Nat} (hk : k < 8) (hn : n ≤ 900) (hf : a.active = none) :
    ({ a with suspended := some ⟨k, n, .host⟩ } : Store).Sound :=
  { h with
    beside := fun _ _ o ho => nomatch hf.symm.trans ho
    owner := fun e he => by cases he; exact ⟨rfl, hk, hn⟩ }

theorem fillSector_length (k : Nat) (v : PlanSlot) (l : List PlanSlot) : (fillSector k v l).length = l.length := by
  simp [fillSector]

theorem fillSector_at (k : Nat) (v : PlanSlot) (l : List PlanSlot) (p : Nat) :
    (fillSector k v l)[p]? = l[p]?.map (fun old => if sectorOf p = k then v else old) := by
  simp [fillSector, List.getElem?_mapIdx]

theorem Store.Sound.bounded {a : Store} (h : a.Sound) {v : Nat} (hv : v ≤ 8)
    (hf : a.floorBinds = true → a.site.fields.floor.getD 0 ≤ v) : ({ a with boundary := v } : Store).Sound :=
  { h with boundary := hv, floor := hf }

/-- A suspended erase abandoned: its four slots are DAMAGED (R168). -/
theorem Store.Sound.abandoned {a : Store} (h : a.Sound) {e : SuspendedErase} (he : a.suspended = some e) :
    ({ a with slots := fillSector e.sector .damaged a.slots, suspended := none } : Store).Sound :=
  { h with
    slots := (fillSector_length _ _ _).trans h.slots
    beside := nofun
    owner := nofun
    program := fun p plan ho => by
      have hne : sectorOf p ≠ e.sector := h.beside e he _ ho
      rw [fillSector_at, h.program p plan ho, Option.map_some, if_neg hne] }

/-! ## Ends of operations -/

/-- The slots may change while no program runs. -/
theorem Store.Sound.reslotted {a : Store} (h : a.Sound) (hf : a.active = none) {l : List PlanSlot} (hl : l.length = 32) :
    ({ a with slots := l } : Store).Sound :=
  { h with slots := hl, program := fun _ _ hx => nomatch hf.symm.trans hx }

theorem State.completeOperation_store (s : State) (st : Store) (e : StoreEvent) :
    (s.completeOperation st e).store = ({ st with active := none } : Store).takeSnapshots := by
  simp [State.completeOperation, State.storeNotice, Store.serve]

theorem State.suspendForHost_store (s : State) (k n : Nat) : (s.suspendForHost k n).store =
    ({ ({ s.store with active := none } : Store) with suspended := some ⟨k, n, .host⟩ } : Store).takeSnapshots := by
  simp [State.suspendForHost, State.storeNotice]

/-- The site fields may be written while no lock binds the floor. -/
theorem Store.Sound.written {a : Store} (h : a.Sound) (hf : a.active = none) (hl : a.site.locked = false) {f : SiteFields}
    (hn : f.floor.getD 0 ≤ 8) : ({ a with site := { a.site with fields := f } } : Store).Sound :=
  { h with
    floor := fun hb => by simp [Store.floorBinds, hf, hl] at hb
    floors := hn
    writing := fun _ hx => nomatch hf.symm.trans hx }

theorem Store.Sound.locked {a : Store} (h : a.Sound) (hf : a.active = none) (hl : a.site.fields.floor.getD 0 ≤ a.boundary) :
    ({ a with site := { a.site with locked := true } } : Store).Sound :=
  { h with floor := fun _ => hl, writing := fun _ hx => nomatch hf.symm.trans hx }

theorem siteWritten_floor {f q : SiteFields} (hf : f.floor.getD 0 ≤ 8) (hq : q.floor.getD 0 ≤ 8) :
    (siteWritten f q).floor.getD 0 ≤ 8 := by
  unfold siteWritten
  cases h : q.floor with
  | none => exact hf
  | some n => rw [h] at hq; exact hq

/-! ## Resets, power-on and a millisecond -/

theorem Store.Sound.reset {a : Store} (h : a.Sound) : a.resetCampaigns.Sound := h.settings _ _ _ _

theorem Store.Sound.resetAll {a : Store} (h : a.Sound) : a.resetAll.Sound :=
  (h.reset.staged (b := .blank) rfl).bounded (Nat.le_refl 8) (fun _ => h.floors) |>.settings _ _ _ _

theorem Store.Sound.poweredOn {a : Store} (h : a.Sound) : a.poweredOn.Sound where
  slots := by
    simp only [Store.poweredOn, Store.initial]
    unfold damageSuspended damageActive
    repeat' split
    all_goals simp [fillSector_length, h.slots]
  positions := rfl
  boundary := Nat.le_refl 8
  floor := fun _ => h.floors
  floors := h.floors
  writing := nofun
  beside := nofun
  owner := nofun
  erasing := nofun
  program := nofun
  guard := nofun

/-- A millisecond moves the run time of an erase, up to 900, and the guard. -/
theorem Store.Sound.ticked {a : Store} (h : a.Sound) : a.tick.Sound := by
  have back : ∀ o, a.tick.active = some o → ∃ p, a.active = some p ∧ p.tick = o := fun o ho => by
    simpa [Store.tick] using ho
  refine { h with
    floor := fun hb => h.floor ?_
    writing := fun q hx => ?_
    beside := fun e he o hx => ?_
    erasing := fun k ph n hx => ?_
    program := fun p plan hx => ?_
    guard := fun n hn => ?_ }
  · cases ha : a.active with
    | none => simp [Store.floorBinds, Store.tick, ha] at hb ⊢; exact hb
    | some o => cases o <;> simp_all [Store.floorBinds, Store.tick, Operation.tick]
  · obtain ⟨o, ho, ht⟩ := back _ hx
    cases o <;> cases ht
    exact h.writing q ho
  · obtain ⟨p, hp, rfl⟩ := back _ hx
    have := h.beside e he p hp
    cases p <;> exact this
  · obtain ⟨o, ho, ht⟩ := back _ hx
    cases o <;> cases ht
    exact ⟨(h.erasing _ _ _ ho).1, Nat.min_le_left _ _⟩
  · obtain ⟨o, ho, ht⟩ := back _ hx
    cases o <;> cases ht
    exact h.program p plan ho
  · obtain ⟨m, hm, -⟩ := Option.map_eq_some_iff.mp (show a.guard.map (fun n => n - 1) = some n from hn)
    obtain ⟨k, i, hk⟩ := h.guard m hm
    exact ⟨k, min Config.eraseTime (i + 1), by simp [Store.tick, hk, Operation.tick]⟩

end Sys2Proof.Machine
end

section
/-! SUPPORT. What every command's own change keeps, said once: the queue of commands, the bounds of the link's queues, the laws
of the roster, of the store and of the mains. -/

namespace Sys2Proof.Machine

/-! ## The laws kept between two moments -/

/-- The bounds of the link controller's queues (R187, R190). -/
structure Link.Bounded (l : Link) : Prop where
  inbound : l.inbound.length ≤ 2
  notices : l.notices.length ≤ 32

/-- Between two moments the queue of commands stayed, and the laws of the link's queues, the roster, the store and the mains
were kept. -/
structure LawsKept (s t : State) : Prop where
  pending : t.pending = s.pending
  link    : s.link.Bounded → t.link.Bounded
  roster  : s.roster.Sound → t.roster.Sound
  store   : s.store.Sound → t.store.Sound
  powered : s.Powered → t.Powered

/-- And the transmitter, which only the link controller moves, sends what it sent. -/
structure Lawful (s t : State) : Prop extends LawsKept s t where
  tx : t.link.tx = s.link.tx

theorem LawsKept.refl (s : State) : LawsKept s s := ⟨rfl, id, id, id, id⟩

theorem LawsKept.trans {s t u : State} (h : LawsKept s t) (g : LawsKept t u) : LawsKept s u :=
  ⟨g.pending.trans h.pending, g.link ∘ h.link, g.roster ∘ h.roster, g.store ∘ h.store, g.powered ∘ h.powered⟩

theorem Lawful.refl (s : State) : Lawful s s := ⟨.refl s, rfl⟩

theorem Lawful.trans {s t u : State} (h : Lawful s t) (g : Lawful t u) : Lawful s u :=
  ⟨h.toLawsKept.trans g.toLawsKept, g.tx.trans h.tx⟩

theorem State.Powered.of_same {s t : State} (h : s.Powered) (hp : t.pins = s.pins) (hl : t.line.channels = s.line.channels)
    (hc : t.clock = s.clock) : t.Powered where
  reference := by rw [hc, hp]; exact h.reference
  source := by rw [hc]; exact h.source
  offline := fun ph => by rw [State.channel, hl, hp]; exact h.offline ph

theorem Link.Bounded.of_grows {a b : Link} (h : a.Bounded) (g : Link.Grows a b) : b.Bounded :=
  ⟨g.inbound ▸ h.inbound, g.bound h.notices⟩

/-! ## One block changes -/

theorem Lawful.touch {s t : State} (o : OnlyCampaigns s t) : Lawful s t :=
  ⟨⟨o.pending, fun h => h.of_grows o.link, fun h => h.of_touch o, fun h => h.of_serves o.store,
    fun h => h.of_same o.pins (by rw [o.line]) o.clock⟩, o.link.tx⟩

theorem Lawful.of_roster {s t : State} (o : OnlyRoster s t) (h : s.roster.Sound → t.roster.Sound) : Lawful s t :=
  ⟨⟨o.pending, fun hb => hb.of_grows o.link, h, fun hs => o.store ▸ hs,
    fun hp => hp.of_same o.pins (by rw [o.line]) o.clock⟩, o.link.tx⟩

theorem Lawful.setCampaigns (s : State) (v : Campaigns) : Lawful s (s.setCampaigns v) :=
  ⟨⟨rfl, id, id, id, fun h => h.of_same rfl rfl rfl⟩, rfl⟩

theorem Lawful.setRoster {s : State} {v : Roster} (h : s.roster.Sound → v.Sound) : Lawful s (s.setRoster v) :=
  ⟨⟨rfl, id, h, id, fun hp => hp.of_same rfl rfl rfl⟩, rfl⟩

theorem Lawful.setStore {s : State} {v : Store} (h : s.store.Sound → v.Sound) : Lawful s (s.setStore v) :=
  ⟨⟨rfl, id, id, h, fun hp => hp.of_same rfl rfl rfl⟩, rfl⟩

theorem LawsKept.setLink {s : State} {v : Link} (h : s.link.Bounded → v.Bounded) : LawsKept s (s.setLink v) :=
  ⟨rfl, h, id, id, fun hp => hp.of_same rfl rfl rfl⟩

theorem Lawful.setLink {s : State} {v : Link} (h : s.link.Bounded → v.Bounded) (ht : v.tx = s.link.tx) :
    Lawful s (s.setLink v) := ⟨.setLink h, ht⟩

theorem Lawful.setLine {s : State} {v : Line} (h : s.Powered → (s.setLine v).Powered) : Lawful s (s.setLine v) :=
  ⟨⟨rfl, id, id, id, h⟩, rfl⟩

theorem Lawful.setClock {s : State} {v : Clock} (h : s.Powered → (s.setClock v).Powered) : Lawful s (s.setClock v) :=
  ⟨⟨rfl, id, id, id, h⟩, rfl⟩

theorem Lawful.notify (s : State) (n : Notice) : Lawful s (s.notify n) := .touch (OnlyCampaigns.of_notify s n)

theorem Lawful.updateAttention {s : State} (h : s.roster.Sound → s.updateAttention.roster.Sound) : Lawful s s.updateAttention :=
  .of_roster s.updateAttention_touch h

theorem Lawful.popInbound (s : State) : Lawful s s.popInbound :=
  .setLink (fun h => ⟨(by simpa using Nat.le_trans (Nat.sub_le _ 1) h.inbound), h.notices⟩) rfl

/-! ## The line (R116, R117) -/

/-- An activity of a channel whose phase has mains. -/
def Activity.online : Activity → Bool
  | .offline => false
  | _ => true

theorem Activity.online_false_iff (a : Activity) : a.online = false ↔ a = .offline := by cases a <;> simp [Activity.online]

/-- A channel that has mains before and after, or has none, keeps the law of the mains. -/
theorem Lawful.setChannel {s : State} {ph : Phase} {c : Channel} (h : c.activity.online = (s.channel ph).activity.online) :
    Lawful s (s.setChannel ph c) := by
  refine .setLine fun hp => ⟨hp.reference, hp.source, fun q => ?_⟩
  rw [← Activity.online_false_iff]
  show ((s.line.channels.set ph c).get q).activity.online = false ↔ _
  rw [PerPhase.get_set]
  split
  · rename_i hq
    rw [h, Activity.online_false_iff, hq]
    exact hp.offline ph
  · rw [Activity.online_false_iff]
    exact hp.offline q

theorem Lawful.setActivity {s : State} {ph : Phase} {a : Activity} (h : a.online = (s.channel ph).activity.online) :
    Lawful s (s.setActivity ph a) := .setChannel h

theorem Lawful.setReports (s : State) (ph : Phase) (l : List ChannelReport) : Lawful s (s.setReports ph l) :=
  .setLine fun hp => hp.of_same rfl rfl rfl

theorem Lawful.handBack (s : State) (ph : Phase) (r : ChannelReport) : Lawful s (s.handBack ph r) := .setReports s ph _

/-- The line rewritten channel by channel, each keeping its mains. -/
theorem Lawful.setChannels {s : State} {l : Line} (h : ∀ ph, (l.channels.get ph).activity.online = (s.channel ph).activity.online) :
    Lawful s (s.setLine l) := by
  refine .setLine fun hp => ⟨hp.reference, hp.source, fun q => ?_⟩
  rw [← Activity.online_false_iff]
  show (l.channels.get q).activity.online = false ↔ _
  rw [h, Activity.online_false_iff]
  exact hp.offline q

theorem Lawful.sense {s : State} {ph : Phase} (w : Work) (h : (s.channel ph).activity.online = true) : Lawful s (s.sense ph w) :=
  .setActivity h.symm

theorem State.handBack_channel (s : State) (ph q : Phase) (r : ChannelReport) : (s.handBack ph r).channel q = s.channel q := rfl

theorem Lawful.endUnit {s : State} {ph : Phase} {w : Work} {v : Verdict} {a : Activity}
    (h : a.online = (s.channel ph).activity.online) : Lawful s (s.endUnit ph w v a) :=
  (Lawful.handBack s ph _).trans (.setActivity h)

theorem Lawful.lineNotice (s : State) (ph : Phase) (c : LineChange) : Lawful s (s.lineNotice ph c) := .notify s _

theorem Lawful.jamSet (s : State) (ph : Phase) (w : Work) : Lawful s (s.jamSet ph w) := by
  unfold State.jamSet
  split
  · exact .refl s
  · exact .trans (.setChannel (by rfl)) (.lineNotice _ _ _)

theorem Lawful.jamClear (s : State) (ph : Phase) : Lawful s (s.jamClear ph) := by
  unfold State.jamClear
  split
  · exact .trans (.setChannel (by rfl)) (.lineNotice _ _ _)
  · exact .refl s

theorem Lawful.hearSignal (s : State) (ph : Phase) : Lawful s (s.hearSignal ph) := by
  unfold State.hearSignal
  split
  · rename_i h
    exact .setActivity (by rw [h]; rfl)
  all_goals exact .refl s

theorem Lawful.sent {s : State} {ph : Phase} (w : Work) (h : (s.channel ph).activity.online = true) : Lawful s (s.sent ph w) := by
  unfold State.sent
  split
  · exact .setActivity h.symm
  · split
    · exact .sense _ h
    · refine (Lawful.handBack s ph _).trans (.setActivity ?_)
      rw [State.handBack_channel, h]
      split <;> rfl

theorem Lawful.answered {s : State} {ph : Phase} (w : Work) (e : Heard) (h : (s.channel ph).activity.online = true) :
    Lawful s (s.answered ph w e) := by
  unfold State.answered
  split
  · exact .refl s
  · exact .sense _ h
  · exact .endUnit h.symm

/-! ## Mains (R118, R119, R158, R159) -/

theorem referenceOf_eq (m : PerPhase Bool) : referenceOf m = lowestWithMains m := by
  obtain ⟨a, b, c⟩ := m
  cases a <;> cases b <;> cases c <;> rfl

theorem runningSource_eq (p : Source) (r : Option Phase) : runningSource p r = sourceUnder p r := by
  cases p <;> cases r <;> rfl

/-- A clock that takes the reference phase of the mains, with any source parameter. -/
theorem State.retime_fields (s : State) (r : Option Phase) (p : Source) (c : SourceCause) :
    (s.retime r p c).clock = { s.clock with reference := r, sourceParam := p, source := sourceUnder p r }
    ∧ (s.retime r p c).pins = s.pins ∧ (s.retime r p c).line = s.line ∧ (s.retime r p c).roster = s.roster
    ∧ (s.retime r p c).store = s.store ∧ (s.retime r p c).pending = s.pending ∧ Link.Grows s.link (s.retime r p c).link := by
  unfold State.retime
  dsimp only
  rw [runningSource_eq]
  split
  · exact ⟨rfl, rfl, rfl, rfl, rfl, rfl, .refl _⟩
  · generalize hc : ({ s.clock with reference := r, sourceParam := p, source := sourceUnder p r } : Clock) = clock
    refine ⟨?_, ?_, ?_, ?_, ?_, ?_, State.notify_grows (s.setClock clock) _⟩ <;> simp

/-- Mains lost or returned on one phase: the channel and the clock follow it together. -/
theorem Lawful.mains {s u : State} {ph : Phase} {on : Bool} {p : Source} {c : SourceCause}
    (hpins : u.pins = { s.pins with mains := s.pins.mains.set ph on })
    (hroster : u.roster = s.roster) (hstore : u.store = s.store) (hpending : u.pending = s.pending)
    (hlink : Link.Grows s.link u.link) (hother : ∀ q, q ≠ ph → u.channel q = s.channel q)
    (hoff : s.Powered → (u.channel ph).activity.online = on) :
    Lawful s (u.retime (referenceOf (s.pins.mains.set ph on)) p c) := by
  obtain ⟨h1, h2, h3, h4, h5, h6, h7⟩ := u.retime_fields (referenceOf (s.pins.mains.set ph on)) p c
  refine ⟨⟨h6.trans hpending, fun hb => hb.of_grows (hlink.trans h7), fun hr => ?_, fun hs => ?_, fun hp => ⟨?_, ?_, fun q => ?_⟩⟩,
    (hlink.trans h7).tx⟩
  · rw [h4, hroster]; exact hr
  · rw [h5, hstore]; exact hs
  · rw [h1, h2, hpins, referenceOf_eq]
  · rw [h1]
  · rw [State.channel, h3, h2, hpins, ← Activity.online_false_iff]
    show (u.channel q).activity.online = false ↔ (s.pins.mains.set ph on).get q = false
    rw [PerPhase.get_set]
    split
    · rename_i hq
      rw [hq, hoff hp]
    · rename_i hq
      rw [hother q hq, Activity.online_false_iff]
      exact hp.offline q

end Sys2Proof.Machine
end

section
/-! SUPPORT. The laws of the blocks through the service of every request. -/

namespace Sys2Proof.Machine

/-! ## Campaign requests -/

theorem serveSubmit_lawful (q : SubmitReq) (s : State) : Lawful s (serveSubmit q s).state := by
  unfold serveSubmit
  split
  · exact .refl s
  · split
    · dsimp only [accept]
      unfold State.acceptCampaign
      dsimp only
      split
      · exact .trans (.setCampaigns s _) (.touch (State.activate_touch _ _))
      · exact .setCampaigns s _
    · exact .refl s

theorem serveNaming_lawful {q : SlotRef} {s : State} {f : Campaign → Served} {v : Served}
    (hv : v = match s.named q with | .error code => refuse s code | .ok c => f c) (hf : ∀ c, Lawful s (f c).state) :
    Lawful s v.state := by
  rw [hv]
  split
  · exact .refl s
  · exact hf _

theorem serveHold_lawful (q : SlotRef) (s : State) : Lawful s (serveHold q s).state := by
  refine serveNaming_lawful rfl fun c => ?_
  split
  · exact .touch (OnlyCampaigns.of_updateCampaign fun _ _ _ => rfl)
  · exact .refl s

theorem serveResume_lawful (q : SlotRef) (s : State) : Lawful s (serveResume q s).state := by
  refine serveNaming_lawful rfl fun c => ?_
  split
  · refine .touch (.trans (.trans ?_ (State.examinePass_touch _ _)) (State.examineRound_touch _ _))
    exact OnlyCampaigns.of_updateCampaign fun _ _ _ => rfl
  · exact .refl s

theorem serveCancel_lawful (q : SlotRef) (s : State) : Lawful s (serveCancel q s).state := by
  refine serveNaming_lawful rfl fun c => ?_
  split
  · exact .touch (State.endCampaign_touch _ _ _ _)
  · exact .refl s

theorem serveRelease_lawful (q : SlotRef) (s : State) : Lawful s (serveRelease q s).state := by
  refine serveNaming_lawful rfl fun c => ?_
  split
  · exact .refl s
  · exact .setCampaigns s _

theorem serveClockSet_lawful (n : Nat) (s : State) : Lawful s (serveClockSet n s).state := by
  unfold serveClockSet
  split
  · exact .refl s
  · have hset : Lawful s (s.setClock { s.clock with time := some n, part := 0 }) :=
      .setClock fun h => ⟨h.reference, h.source, h.offline⟩
    refine hset.trans ?_
    generalize s.setClock { s.clock with time := some n, part := 0 } = t
    split
    · dsimp only [accept]
      exact .touch (t.timeReached_touch n)
    · exact .refl t

/-! ## Roster requests -/

/-- What the six checks of R18 say of an accepted ROSTER PUT. -/
theorem State.rosterPut_passed {s : State} {q : RosterPutReq} (h : s.rosterPutRefusal q = none) :
    (1 ≤ q.unit ∧ q.unit ≤ 4095) ∧ q.route.length ≤ 3 ∧ q.unit ∉ q.route ∧ q.route.Nodup
    ∧ (∀ u ∈ q.route, ∃ d ∈ s.roster.entries, d.unit = u ∧ d.role = .relay)
    ∧ (∀ e, s.entry q.unit = some e → e.role = .relay → q.role = some .terminal → s.routed q.unit = false)
    ∧ ((∃ d ∈ s.roster.entries, d.unit = q.unit) ∨ s.roster.entries.length < 1024) := by
  have nodup : ∀ l : List Nat, distinct l = true → l.Nodup := fun l => by
    induction l with
    | nil => exact fun _ => .nil
    | cons a r ih =>
      intro hd
      simp only [distinct, Bool.and_eq_true, Bool.not_eq_true', List.contains_eq_mem, decide_eq_false_iff_not] at hd
      exact List.nodup_cons.mpr ⟨hd.1, ih hd.2⟩
  simp only [State.rosterPutRefusal, firstRefusal_none, List.forall_mem_cons, List.not_mem_nil, false_implies, implies_true,
    and_true] at h
  obtain ⟨hrange, hroute, hthere, hrelay, huse, hroom⟩ := h
  simp only [rosterPutInRange, Bool.and_eq_true, validUnit_iff, decide_eq_true_eq] at hrange
  obtain ⟨⟨⟨⟨⟨⟨⟨hunit, -⟩, -⟩, -⟩, -⟩, -⟩, hlen⟩, -⟩ := hrange
  simp only [rosterRouteSound, Bool.and_eq_true, Bool.not_eq_true', List.contains_eq_mem, decide_eq_false_iff_not] at hroute
  refine ⟨hunit, hlen, hroute.1, nodup _ hroute.2, fun u hu => ?_, fun e he hr hq => ?_, ?_⟩
  · obtain ⟨e, he⟩ := Option.isSome_iff_exists.mp (List.all_eq_true.mp hthere u hu)
    have hr := List.all_eq_true.mp hrelay u hu
    rw [he] at hr
    exact ⟨e, (State.entry_some he).1, (State.entry_some he).2, by simpa using hr⟩
  · simpa [he, hr, hq] using huse
  · rcases (Bool.or_eq_true _ _).mp hroom with hin | hlt
    · obtain ⟨e, he⟩ := Option.isSome_iff_exists.mp hin
      exact .inl ⟨e, (State.entry_some he).1, (State.entry_some he).2⟩
    · exact .inr (of_decide_eq_true hlt)

/-- The entry that an accepted ROSTER PUT makes fits the roster. -/
theorem State.rosterPut_fits {s : State} (hs : s.roster.Sound) {q : RosterPutReq} {role : Role}
    (h : s.rosterPutRefusal q = none) (hrole : q.role = some role) {e : Entry} (hunit : e.unit = q.unit) (her : e.role = role)
    (hroute : e.route = q.route) (hmiss : e.misses ≤ 15) (hjudge : e.state ≠ .silent → e.misses < s.roster.threshold) :
    e.Fits s.roster.entries s.roster.threshold := by
  obtain ⟨hu, hlen, hown, honce, hpresent, hloss, hroom⟩ := State.rosterPut_passed h
  refine ⟨⟨hunit ▸ hu, hmiss, hjudge⟩, ⟨hroute ▸ hlen, hroute ▸ honce, by rw [hunit, hroute]; exact hown, hroute ▸ hpresent⟩,
    fun d hd hde hdr => ?_, hunit ▸ hroom⟩
  cases role with
  | relay => exact .inl her
  | terminal =>
    have hentry : s.entry q.unit = some d := by
      rw [← hunit, ← hde]; exact hs.order.findBy_of_mem hd
    have hno := hloss d hentry hdr hrole
    refine .inr fun x hx hin => ?_
    rw [State.routed, List.any_eq_false] at hno
    exact hno x hx (by rw [← hunit]; simpa using hin)

theorem serveRosterPut_lawful (q : RosterPutReq) (s : State) : Lawful s (serveRosterPut q s).state := by
  unfold serveRosterPut
  split
  · rename_i role phase hpass hrole hphase
    have put : ∀ {e : Entry}, e.unit = q.unit → e.role = role → e.route = q.route →
        (s.roster.Sound → e.misses ≤ 15 ∧ (e.state ≠ .silent → e.misses < s.roster.threshold)) →
        Lawful s (s.setEntries (putBy Entry.unit e s.roster.entries)).updateAttention := fun hu hr hroute hj => by
      refine .of_roster ((OnlyRoster.of_setEntries s _).trans (State.updateAttention_touch _)) fun hs => ?_
      exact State.updateAttention_sound (hs.put (State.rosterPut_fits hs hpass hrole hu hr hroute (hj hs).1 (hj hs).2))
    unfold State.putReceiver
    dsimp only [accept]
    cases he : s.entry q.unit with
    | none => exact put rfl rfl rfl fun hs => ⟨Nat.zero_le _, fun _ => hs.threshold⟩
    | some e =>
      obtain ⟨hmem, hunit⟩ := State.entry_some he
      by_cases hser : e.serial = q.serial
      · simp only [hser, if_true]
        refine put hunit rfl rfl fun hs => ?_
        have hold := hs.entries e hmem
        simp only [Entry.updated]
        split
        · exact ⟨hold.misses, hold.judged⟩
        · exact ⟨Nat.zero_le _, fun _ => hs.threshold⟩
      · simp only [hser, if_false]
        exact put rfl rfl rfl fun hs => ⟨Nat.zero_le _, fun _ => hs.threshold⟩
  · exact .refl s
  · exact .refl s

theorem State.dropReceiver_routes (s : State) (u : Nat) :
    (s.dropReceiver u).roster.entries.map Entry.route = s.roster.entries.map Entry.route := by
  have h := congrArg (List.map Entry.route) (s.dropReceiver_touch u).entries
  simp only [List.map_map] at h
  exact h

theorem serveRosterRemove_lawful (u : Nat) (s : State) : Lawful s (serveRosterRemove u s).state := by
  unfold serveRosterRemove
  split
  · exact .refl s
  · rename_i hpass
    dsimp only [accept]
    refine (Lawful.touch (s.dropReceiver_touch u)).trans
      (.of_roster ((OnlyRoster.of_setEntries _ _).trans (State.updateAttention_touch _)) fun hs => ?_)
    refine State.updateAttention_sound (hs.remove fun e he hin => ?_)
    have hroute : e.route ∈ s.roster.entries.map Entry.route := State.dropReceiver_routes s u ▸ List.mem_map_of_mem he
    obtain ⟨d, hd, hde⟩ := List.mem_map.mp hroute
    have hno := passed hpass (p := (!s.routed u, .inUse)) (by simp)
    simp only [State.routed, Bool.not_eq_true', List.any_eq_false] at hno
    exact hno d hd (by rw [hde]; simpa using hin)

theorem serveRosterFlags_lawful (q : RosterFlagsReq) (s : State) : Lawful s (serveRosterFlags q s).state := by
  unfold serveRosterFlags
  split
  · split
    · exact .refl s
    · exact .of_roster ((OnlyRoster.of_updateEntry s _ _).trans (State.updateAttention_touch _)) fun hs =>
        State.updateEntry_sound hs _ (fun _ => rfl) fun _ he => he.of_same rfl rfl rfl
  · exact .refl s

theorem State.dropBarred_touch (s : State) : OnlyCampaigns s s.dropBarred :=
  OnlyCampaigns.foldl _ (fun t (e : Entry) => t.dropReceiver_touch e.unit) _ _

theorem serveSegmentSet_lawful (q : SegmentSetReq) (s : State) : Lawful s (serveSegmentSet q s).state := by
  unfold serveSegmentSet
  split
  · exact .refl s
  · split
    · exact .refl s
    · refine .trans (.setRoster fun hs => ?_) (.touch (State.dropBarred_touch _))
      exact { hs with map := List.length_set.trans hs.map }

/-! ## Parameters and resets -/

theorem State.applyThreshold_lawful (s : State) {n : Nat} (hn : 1 ≤ n) : Lawful s (s.applyThreshold n) :=
  .trans (.of_roster (s.setThreshold_touch n) fun hs => State.setThreshold_sound hs hn) (.touch (State.examineSilenced_touch _ _))

theorem State.applyAutoSuspend_lawful (s : State) (on : Bool) : Lawful s (s.applyAutoSuspend on) := by
  refine .setStore fun hs => ?_
  have hset : ({ s.store with autoSuspend := on } : Store).Sound := hs.settings _ _ _ _
  split
  · exact hset.of_serves (Store.autoSuspendErase_serves _)
  · exact hset

theorem State.retime_lawful (s : State) (p : Source) (c : SourceCause) : Lawful s (s.retime s.clock.reference p c) := by
  obtain ⟨h1, h2, h3, h4, h5, h6, h7⟩ := s.retime_fields s.clock.reference p c
  refine ⟨⟨h6, fun hb => hb.of_grows h7, fun hr => h4 ▸ hr, fun hs => h5 ▸ hs, fun hp => ⟨?_, ?_, fun q => ?_⟩⟩, h7.tx⟩
  · rw [h1, h2]; exact hp.reference
  · rw [h1]
  · rw [State.channel, h3, h2]; exact hp.offline q

theorem State.applyParam_lawful (s : State) {r : ParamRef} {v : ParamValue} (h : paramInRange r v = true) :
    Lawful s (s.applyParam r v) := by
  unfold State.applyParam
  split
  · exact .setChannel rfl
  · exact s.applyThreshold_lawful (within_iff.mp h).1
  · exact .setRoster fun hs => { hs with }
  · exact .setCampaigns s _
  · exact .setChannels fun _ => rfl
  · exact .setChannels fun _ => rfl
  · exact .setChannels fun _ => rfl
  · exact .setChannels fun _ => rfl
  · exact .setChannels fun _ => rfl
  · exact s.retime_lawful _ _
  · exact .setClock fun hp => ⟨hp.reference, hp.source, hp.offline⟩
  · exact s.applyAutoSuspend_lawful _
  · exact .refl s

theorem serveParamSet_lawful (q : ParamSetReq) (s : State) : Lawful s (serveParamSet q s).state := by
  unfold serveParamSet
  split
  · exact .refl s
  · split
    · rename_i hin
      dsimp only [accept]
      split
      · exact .refl s
      · exact s.applyParam_lawful hin
    · exact .refl s

theorem Activity.reset_online (a : Activity) : a.reset.online = a.online := by cases a <;> rfl

theorem Link.Bounded.reset {l : Link} : l.reset.Bounded := ⟨Nat.zero_le _, Nat.zero_le _⟩

theorem Roster.Sound.initial : Roster.initial.Sound where
  order := .nil
  size := Nat.zero_le _
  entries := fun _ he => nomatch he
  routes := fun _ he => nomatch he
  threshold := by decide
  map := rfl
  attention := rfl

theorem Roster.Sound.resetAll {r : Roster} (h : r.Sound) : r.resetAll.Sound := by
  unfold Roster.resetAll
  split
  · exact { Roster.Sound.initial with map := h.map }
  · exact .initial

theorem State.resetAll_lawful (s : State) : Lawful s s.resetAll where
  pending := rfl
  tx := rfl
  link := fun _ => .reset
  roster := .resetAll
  store := .resetAll
  powered := fun h => ⟨h.reference, by
      show runningSource .mains s.clock.reference = _
      rw [runningSource_eq]; rfl, fun ph => by
    refine Iff.trans ?_ (h.offline ph)
    rw [← Activity.online_false_iff, ← Activity.online_false_iff, ← Activity.reset_online (s.channel ph).activity]
    cases ph <;> rfl⟩

theorem State.resetCampaigns_lawful (s : State) : Lawful s s.resetCampaigns where
  pending := rfl
  tx := rfl
  link := fun _ => .reset
  roster := fun h => by
    refine h.of_places ?_ (fun e he => ?_) h.threshold h.map ?_
    · show (s.roster.entries.map Entry.forgetSlots).map Entry.place = _
      rw [List.map_map]; rfl
    · obtain ⟨d, hd, rfl⟩ := List.mem_map.mp (show e ∈ s.roster.entries.map Entry.forgetSlots from he)
      exact (h.entries d hd).of_same rfl rfl rfl
    · show s.roster.attention = (flagged (s.roster.entries.map Entry.forgetSlots)).length
      rw [h.attention, flagged, flagged, List.filter_map, List.length_map]; rfl
  store := .reset
  powered := fun h => ⟨h.reference, h.source, fun ph => by
    refine Iff.trans ?_ (h.offline ph)
    rw [← Activity.online_false_iff, ← Activity.online_false_iff, ← Activity.reset_online (s.channel ph).activity]
    show ((s.line.channels.map Channel.resetCampaigns).get ph).activity.online = false ↔ _
    rw [PerPhase.get_map]; rfl⟩

theorem serveLineMask_lawful (q : LineMaskReq) (s : State) : Lawful s (serveLineMask q s).state := by
  unfold serveLineMask
  split
  · refine .setChannels fun ph => ?_
    simp only [Line.applyMask, PerPhase.get_ofFn]
    split <;> rfl
  · exact .refl s

/-! ## Store requests -/

theorem stagePoints_length : ∀ (l : List Point) (n : Nat) (b : List (Option Point)), (stagePoints n l b).length = b.length
  | [], _, _ => rfl
  | _ :: l, n, _ => (stagePoints_length l (n + 1) _).trans List.length_set

theorem servePlanStage_lawful (q : PlanStageReq) (s : State) : Lawful s (servePlanStage q s).state := by
  unfold servePlanStage
  split
  · exact .setStore fun hs => hs.staged ((stagePoints_length _ _ _).trans hs.positions)
  · exact .refl s

theorem State.begin_lawful {s : State} {o : Operation} (h : s.store.active = none ∧ s.store.Admits o) : Lawful s (s.begin o) :=
  .setStore fun hs => hs.begun h.1 h.2 false

theorem servePlanCommit_lawful (p : Nat) (s : State) : Lawful s (servePlanCommit p s).state := by
  unfold servePlanCommit
  split
  · exact .refl s
  · rename_i h _; exact State.begin_lawful (State.planCommit_admits h)
  · exact .refl s

theorem serveSectorErase_lawful (k : Nat) (s : State) : Lawful s (serveSectorErase k s).state := by
  unfold serveSectorErase
  split
  · exact .refl s
  · rename_i h; exact State.begin_lawful (State.sectorErase_admits h)

theorem serveSiteWrite_lawful (q : SiteFields) (s : State) : Lawful s (serveSiteWrite q s).state := by
  unfold serveSiteWrite
  split
  · exact .refl s
  · rename_i h; exact State.begin_lawful (State.siteWrite_admits h)

theorem serveSiteLock_lawful (s : State) : Lawful s (serveSiteLock s).state := by
  unfold serveSiteLock
  split
  · exact .refl s
  · rename_i h; exact State.begin_lawful (State.siteLock_admits h)

theorem serveEraseSuspend_lawful (s : State) : Lawful s (serveEraseSuspend s).state := by
  unfold serveEraseSuspend
  split
  · rename_i h
    split
    · exact .refl s
    · rename_i hg
      exact .setStore fun hs => hs.phased h (by simpa using hg) _
  · rename_i h
    exact .setStore fun hs => hs.phased h (hs.unguarded (by simp [h])) _
  all_goals exact .refl s

theorem serveEraseResume_lawful (s : State) : Lawful s (serveEraseResume s).state := by
  unfold serveEraseResume
  split
  · exact .refl s
  · rename_i e he
    split
    · exact .refl s
    · split
      · exact .refl s
      · rename_i hf
        exact .setStore fun hs => hs.resumed (hs.owner e he).2.1 (hs.owner e he).2.2 (by simpa using hf)

theorem State.abandonErase_lawful (s : State) (old new : Nat) : Lawful s (s.abandonErase old new) := by
  unfold State.abandonErase
  split
  · exact .refl s
  · rename_i e he
    split
    · exact .trans (.setStore fun hs => hs.abandoned he) (.notify _ _)
    · exact .refl s

theorem serveStoreProtect_lawful (v : Nat) (s : State) : Lawful s (serveStoreProtect v s).state := by
  unfold serveStoreProtect
  split
  · exact .refl s
  · rename_i hpass
    refine .trans (.setStore fun hs => hs.bounded ?_ fun hf => ?_) (State.abandonErase_lawful _ _ _)
    · exact of_decide_eq_true (passed hpass (p := (decide (v ≤ Config.sectors), .malformed)) (by simp))
    · have h := passed hpass
        (p := (!(s.store.floorBinds && decide (v < s.store.site.fields.floor.getD 0)), .locked)) (by simp)
      simpa [hf] using h

/-! ## Every request -/

/-- The service of every request keeps the laws of the blocks. -/
theorem serveOf_lawful (r : Request) (s : State) : Lawful s (serveOf r s).state := by
  cases r with
  | unknown => exact .refl s
  | status => exact .setLink (fun h => ⟨h.inbound, h.notices⟩) rfl
  | identify => exact .refl s
  | resetAll => exact s.resetAll_lawful
  | resetCampaigns => exact s.resetCampaigns_lawful
  | paramSet q => exact serveParamSet_lawful q s
  | paramGet q =>
    cases q with
    | all => exact .refl s
    | one n c => simp only [serveOf, serveParamGet]; split <;> exact .refl s
  | clockSet n => exact serveClockSet_lawful n s
  | sequenceSeed n =>
    simp only [serveOf, serveSequenceSeed]
    split
    · exact .refl s
    · exact .setCampaigns s _
  | submit q => exact serveSubmit_lawful q s
  | campaignQuery q => exact serveNaming_lawful rfl fun _ => .refl s
  | campaignList => exact .refl s
  | hold q => exact serveHold_lawful q s
  | resume q => exact serveResume_lawful q s
  | cancel q => exact serveCancel_lawful q s
  | release q => exact serveRelease_lawful q s
  | rosterPut q => exact serveRosterPut_lawful q s
  | rosterRemove u => exact serveRosterRemove_lawful u s
  | rosterGet u => simp only [serveOf, serveRosterGet]; repeat' split <;> try exact .refl s
  | rosterScan q => simp only [serveOf, serveRosterScan]; repeat' split <;> try exact .refl s
  | rosterFlags q => exact serveRosterFlags_lawful q s
  | segmentSet q => exact serveSegmentSet_lawful q s
  | segmentGet => exact .refl s
  | segmentLock => exact .setRoster fun hs => { hs with }
  | lineMask q => exact serveLineMask_lawful q s
  | lineStatus => exact .refl s
  | planStage q => exact servePlanStage_lawful q s
  | planClear => exact .setStore fun hs => hs.staged rfl
  | planCommit p => exact servePlanCommit_lawful p s
  | planRead p => simp only [serveOf, servePlanRead]; repeat' split <;> try exact .refl s
  | sectorErase k => exact serveSectorErase_lawful k s
  | eraseSuspend => exact serveEraseSuspend_lawful s
  | eraseResume => exact serveEraseResume_lawful s
  | storeArm => exact .setStore fun hs => hs.settings _ _ _ _
  | storeDisarm => exact .setStore fun hs => hs.settings _ _ _ _
  | storeProtect v => exact serveStoreProtect_lawful v s
  | storeStatus => exact .refl s
  | siteWrite q => exact serveSiteWrite_lawful q s
  | siteLock => exact serveSiteLock_lawful s
  | siteRead => exact .refl s

end Sys2Proof.Machine
end

section
/-! SUPPORT. What a command answers: the state as it was, or a lawful change of it with the transmitter's choice after it. And so
the laws of the blocks through a step. -/

namespace Sys2Proof.Machine

/-- The answer leaves the state as it was, or is a lawful change of it after which the transmitter chooses (R189). -/
def State.Answers (s : State) (r : Result) : Prop := r = .next s ∨ ∃ u, LawsKept s u ∧ r = .next u.transmit

theorem Lawful.answers {s u : State} (h : Lawful s u) : s.Answers (finish u) := .inr ⟨u, h.toLawsKept, rfl⟩

theorem State.Answers.same (s : State) : s.Answers (.next s) := .inl rfl

/-! ## Requests -/

theorem takeRequest_lawful (h : Header) (r : Request) {serve : State → Served} (hs : ∀ s, Lawful s (serve s).state) (s : State) :
    s.Answers (takeRequest h r serve s) := by
  unfold takeRequest
  split
  · refine Lawful.answers ((Lawful.popInbound s).trans ?_)
    unfold State.settle serveFormed
    split
    · exact .setLink (fun hb => ⟨hb.inbound, hb.notices⟩) rfl
    · exact (hs _).trans (.setLink (fun hb => ⟨hb.inbound, hb.notices⟩) rfl)
  · exact .same s

theorem execUnknownKind_lawful (h : Header) (k : Byte) (s : State) : s.Answers (execUnknownKind h k s) := by
  unfold execUnknownKind
  dsimp only
  split
  · exact Lawful.answers ((Lawful.popInbound s).trans (.setLink (fun hb => ⟨hb.inbound, hb.notices⟩) rfl))
  · exact .same s

theorem request_answers {c : Instr} {i : Inbound} (hc : requestOf c = some i) (s : State) : s.Answers (exec c s) := by
  obtain ⟨h, r⟩ := i
  by_cases hk : ∃ k, r = .unknown k
  · obtain ⟨k, rfl⟩ := hk
    cases c <;> simp only [requestOf, Option.some.injEq, Inbound.mk.injEq, reduceCtorEq, and_false] at hc
    exact execUnknownKind_lawful _ _ s
  · rw [exec_request hc (fun k hk' => hk ⟨k, hk'⟩) s]
    exact takeRequest_lawful h r (serveOf_lawful r) s

/-! ## Events of the link and the clock -/

theorem Lawful.enqueue (s : State) (i : Inbound) : Lawful s (s.enqueue i) := by
  unfold State.enqueue
  split
  · rename_i h
    refine .setLink (fun hb => ⟨?_, hb.notices⟩) rfl
    simpa [Config.inboundSize] using h
  · exact .refl s

theorem execFrameComplete_answers (chars : List RxChar) (formed : Bool) (q : Option Request) (s : State) :
    s.Answers (execFrameComplete chars formed q s) := by
  have hrx : ∀ kept, Lawful s (s.setLink { s.link with rx := kept }) := fun _ => .setLink (fun hb => ⟨hb.inbound, hb.notices⟩) rfl
  unfold execFrameComplete
  dsimp only
  split
  · exact ((hrx _).trans (.enqueue _ _)).answers
  · exact (hrx _).answers

theorem execSecondComplete_answers (s : State) : s.Answers (execSecondComplete s) := by
  have hset : ∀ c : Clock, c.reference = s.clock.reference → c.source = s.clock.source → c.sourceParam = s.clock.sourceParam →
      Lawful s (s.setClock c) := fun c h1 h2 h3 =>
    .setClock fun hp => ⟨h1.trans hp.reference, by show c.source = sourceUnder c.sourceParam c.reference; rw [h1, h2, h3]; exact hp.source,
      hp.offline⟩
  unfold execSecondComplete
  dsimp only
  split
  · exact (hset { s.clock with part := 0 } rfl rfl rfl).answers
  · split
    · refine Lawful.answers (.trans ?_ (.touch (State.timeReached_touch _ _)))
      exact hset _ rfl rfl rfl
    · exact (hset { s.clock with part := 0 } rfl rfl rfl).answers

/-! ## Mains events -/

theorem State.channelLost_frame (s : State) (ph : Phase) : (s.channelLost ph).pins = s.pins ∧ (s.channelLost ph).roster = s.roster
    ∧ (s.channelLost ph).store = s.store ∧ (s.channelLost ph).pending = s.pending
    ∧ Link.Grows s.link (s.channelLost ph).link ∧ (∀ q, q ≠ ph → (s.channelLost ph).channel q = s.channel q)
    ∧ ((s.channelLost ph).channel ph).activity = .offline := by
  unfold State.channelLost State.lineNotice
  split
  · refine ⟨by simp [State.endUnit], by simp [State.endUnit], by simp [State.endUnit], by simp [State.endUnit],
      State.notify_grows (s.endUnit ph _ _ _) _, fun q hq => ?_, ?_⟩
    · simpa [State.channel, State.endUnit] using PerPhase.get_set_other _ ph q _ hq
    · simp [State.channel, State.endUnit]
  · refine ⟨by simp, by simp, by simp, by simp, State.notify_grows (s.setActivity ph .offline) _, fun q hq => ?_, ?_⟩
    · simpa [State.channel] using PerPhase.get_set_other _ ph q _ hq
    · simp [State.channel]

theorem execMainsLost_answers (ch : Phase) (s : State) : s.Answers (execMainsLost ch s) := by
  unfold execMainsLost
  split
  · obtain ⟨h1, h2, h3, h4, h5, h6, h7⟩ :=
      State.channelLost_frame (s.setPins { s.pins with mains := s.pins.mains.set ch false }) ch
    exact (Lawful.mains (on := false) h1 h2 h3 h4 h5 h6 fun _ => by rw [h7]; rfl).answers
  · exact .same s

theorem execMainsReturned_answers (ch : Phase) (s : State) : s.Answers (execMainsReturned ch s) := by
  unfold execMainsReturned
  split
  · exact .same s
  · rename_i hno
    let a := s.setPins { s.pins with mains := s.pins.mains.set ch true }
    have hframe : ∀ x, x = a ∨ (∃ n, x = a.setActivity ch (.settling n)) →
        x.pins = a.pins ∧ x.roster = a.roster ∧ x.store = a.store ∧ x.pending = a.pending ∧ x.link = a.link
          ∧ ∀ q, q ≠ ch → x.channel q = a.channel q := by
      rintro x (rfl | ⟨n, rfl⟩)
      · exact ⟨rfl, rfl, rfl, rfl, rfl, fun _ _ => rfl⟩
      · exact ⟨rfl, rfl, rfl, rfl, rfl, fun q hq => PerPhase.get_set_other _ ch q _ hq⟩
    have hcase : a.channelReturned ch = a ∨ ∃ n, a.channelReturned ch = a.setActivity ch (.settling n) := by
      unfold State.channelReturned
      split
      · exact .inr ⟨_, rfl⟩
      all_goals exact .inl rfl
    obtain ⟨h1, h2, h3, h4, h5, h6⟩ := hframe _ hcase
    refine (Lawful.mains (u := a.channelReturned ch) (on := true) h1 h2 h3 h4 (h5 ▸ .refl _) h6 fun hp => ?_).answers
    have hoff : (a.channel ch).activity = .offline := (hp.offline ch).mpr (by simpa using hno)
    unfold State.channelReturned
    rw [hoff]
    simp [State.channel, Activity.online]

/-! ## Events of the channels -/

theorem execSettleExpired_answers (ch : Phase) (s : State) : s.Answers (execSettleExpired ch s) := by
  unfold execSettleExpired
  split
  · rename_i h
    exact (Lawful.trans (.setActivity (by rw [h]; rfl)) (.lineNotice _ _ _)).answers
  all_goals exact .same s

theorem State.grantable_idle {s : State} {ph : Phase} {w : Work} (h : s.grantable ph = some w) :
    (s.channel ph).activity = .idle := by
  unfold State.grantable at h
  dsimp only at h
  split at h
  · rename_i hc; exact hc.1
  · cases h

theorem execGrant_answers (ch : Phase) (s : State) : s.Answers (execGrant ch s) := by
  unfold execGrant
  split
  · rename_i w h
    unfold State.grantTo
    refine Lawful.answers (.trans (.setChannel ?_) (.sense w ?_))
    · rfl
    simp [State.channel, State.setChannel, show (s.line.channels.get ch).activity = .idle from State.grantable_idle h, Activity.online]
  · exact .same s

theorem execQuietIntervalHeard_answers (ch : Phase) (s : State) : s.Answers (execQuietIntervalHeard ch s) := by
  unfold execQuietIntervalHeard
  split
  · rename_i h
    refine ((Lawful.jamClear s ch).trans (.setActivity ?_)).answers
    unfold State.jamClear
    split
    · simp [State.lineNotice, State.channel, show (s.line.channels.get ch).activity = _ from h, Activity.online]
    · rw [h]; rfl
  all_goals exact .same s

theorem execAccessLimitExpired_answers (ch : Phase) (s : State) : s.Answers (execAccessLimitExpired ch s) := by
  unfold execAccessLimitExpired
  split
  · rename_i h
    exact (Lawful.trans (.endUnit (by rw [h]; rfl)) (.jamSet _ _ _)).answers
  all_goals exact .same s

theorem execSendingEnd_answers (ch : Phase) (s : State) : s.Answers (execSendingEnd ch s) := by
  unfold execSendingEnd
  split
  · rename_i h
    exact (Lawful.sent _ (by rw [h]; rfl)).answers
  all_goals exact .same s

theorem execInboundLineFrame_answers (ch : Phase) (bytes : List Byte) (s : State) :
    s.Answers (execInboundLineFrame ch bytes s) := by
  unfold execInboundLineFrame
  split
  · rename_i h
    split
    · exact (Lawful.answered _ _ (by rw [h]; rfl)).answers
    · exact (Lawful.refl s).answers
  · exact (Lawful.hearSignal s ch).answers
  all_goals exact (Lawful.refl s).answers

theorem execReplyWindowExpired_answers (ch : Phase) (s : State) : s.Answers (execReplyWindowExpired ch s) := by
  unfold execReplyWindowExpired
  split
  · rename_i h
    split
    · exact (Lawful.endUnit (by rw [h]; rfl)).answers
    · exact .same s
  all_goals exact .same s

theorem execTailExpired_answers (ch : Phase) (s : State) : s.Answers (execTailExpired ch s) := by
  unfold execTailExpired
  split
  · rename_i h
    split
    · exact .same s
    · refine (Lawful.trans (.handBack s ch _) (.setActivity ?_)).answers
      rw [State.handBack_channel, h]; rfl
  all_goals exact .same s

/-! ## What the campaign controller takes -/

theorem Lawful.contact (s : State) (u : Nat) (ch : Phase) (x : Extra) : Lawful s (s.contact u ch x) :=
  .of_roster (s.contact_touch u ch x) fun h => State.contact_sound h u ch x

theorem Lawful.miss (s : State) (u : Nat) (mark : Bool) : Lawful s (s.miss u mark) :=
  .of_roster (s.miss_touch u mark) fun h => State.miss_sound h u mark

theorem Lawful.learn (s : State) (ch : Phase) (seq dest : Nat) (route : List Nat) (v : Verdict) :
    Lawful s (s.learn ch seq dest route v) := by
  unfold State.learn
  split
  · exact .contact _ _ _ _
  · exact .contact _ _ _ _
  · exact .contact _ _ _ _
  · exact .contact _ _ _ _
  · exact .miss _ _ _
  · exact .miss _ _ _
  · refine .trans ?_ (.miss _ _ _)
    unfold State.relayContact
    split
    · exact .contact _ _ _ _
    · exact .refl s
  · exact .refl s
  · exact .refl s

theorem Entry.markTried_forget (e : Entry) (k : Nat) : (e.markTried k).forgetSlots = e.forgetSlots := rfl

theorem State.credit_touch (s : State) (k dest : Nat) (v : Verdict) : OnlyCampaigns s (s.credit k dest v) := by
  unfold State.credit
  split
  · exact s.settleReceiver_touch _ _ _ fun _ => rfl
  · exact s.settleReceiver_touch _ _ _ fun _ => rfl
  · exact s.settleReceiver_touch _ _ _ fun _ => rfl
  · exact s.settleReceiver_touch _ _ _ fun _ => rfl
  · exact .of_updateEntry fun e => e.markTried_forget k
  · exact .of_updateEntry fun e => e.markTried_forget k
  · exact .of_updateEntry fun e => e.markTried_forget k
  · exact .refl s
  · exact .refl s

theorem State.account_touch (s : State) (w : Work) (dest : Nat) (v : Verdict) : OnlyCampaigns s (s.account w dest v) := by
  unfold State.account
  split
  · exact (s.credit_touch _ _ _).trans (State.completeIfSettled_touch _ _ _)
  · exact .refl s

theorem State.examineOwn_touch (s : State) (w : Work) : OnlyCampaigns s (s.examineOwn w) := by
  unfold State.examineOwn
  split
  · split
    · exact s.examinePass_touch _
    · exact .refl s
  · exact .refl s

theorem Lawful.takeOutcome (s : State) (ch : Phase) (w : Work) (v : Verdict) : Lawful s (s.takeOutcome ch w v) := by
  unfold State.takeOutcome
  split
  · exact .refl s
  · exact (Lawful.touch (s.account_touch _ _ _)).trans ((Lawful.learn _ _ _ _ _ _).trans
      (.touch ((State.examineOwn_touch _ _).trans (State.examineSilenced_touch _ _))))

theorem State.countTransmission_touch (s : State) (ch : Phase) (k seq : Nat) :
    OnlyCampaigns s (s.countTransmission ch k seq) := by
  unfold State.countTransmission
  split
  · exact .refl s
  · split
    · refine .trans ?_ (State.examineRound_touch _ _)
      exact .of_updateCampaign fun _ _ _ => rfl
    · exact .refl s

theorem execOutcomeTaken_answers (ch : Phase) (s : State) : s.Answers (execOutcomeTaken ch s) := by
  unfold execOutcomeTaken
  split
  · exact ((Lawful.setReports s ch _).trans (.takeOutcome _ _ _ _)).answers
  all_goals exact .same s

theorem execTransmissionEndedTaken_answers (ch : Phase) (s : State) : s.Answers (execTransmissionEndedTaken ch s) := by
  unfold execTransmissionEndedTaken
  split
  · exact ((Lawful.setReports s ch _).trans (.touch (State.countTransmission_touch _ _ _ _))).answers
  all_goals exact .same s

theorem execTailEndedTaken_answers (ch : Phase) (s : State) : s.Answers (execTailEndedTaken ch s) := by
  unfold execTailEndedTaken
  split
  · exact (Lawful.setReports s ch _).answers
  · exact .same s

theorem execIntervalExpired_answers (k : Nat) (s : State) : s.Answers (execIntervalExpired k s) := by
  unfold execIntervalExpired
  split
  · exact .same s
  · split
    · refine Lawful.answers (.touch ?_)
      exact .of_updateCampaign fun _ _ _ => rfl
    · exact .same s

theorem State.takeDelivery_touch (s : State) (d : Delivery) : OnlyCampaigns s (s.takeDelivery d) := by
  unfold State.takeDelivery
  split
  · exact .refl s
  · split
    · refine .trans (.trans (s.withdrawSnapshot_touch d.slot) ?_) (State.enterRunning_touch _ _)
      exact .of_updateCampaign fun _ _ _ => rfl
    · exact .refl s

/-! ## Events of the plan store -/

/-- An operation that ends: what is left of the store keeps its law, and the snapshots are taken. -/
theorem Lawful.completed {s : State} {st : Store} (e : StoreEvent)
    (h : s.store.Sound → ({ st with active := none } : Store).Sound) : Lawful s (s.completeOperation st e) := by
  unfold State.completeOperation
  refine (Lawful.setStore h).trans ((Lawful.notify _ _).trans (.setStore fun hs => hs.of_serves (Store.serve_serves _)))

theorem execProgramComplete_answers (s : State) : s.Answers (execProgramComplete s) := by
  unfold execProgramComplete
  split
  · rename_i ha
    refine (Lawful.completed _ fun hs => ?_).answers
    have hfree := hs.freed (hs.unguarded (by simp [ha]))
    exact hfree.reslotted rfl (List.length_set.trans hs.slots)
  all_goals exact .same s

theorem execEraseComplete_answers (s : State) : s.Answers (execEraseComplete s) := by
  unfold execEraseComplete
  split
  · refine (Lawful.completed _ fun hs => ?_).answers
    have hquiet : ({ s.store with guard := none } : Store).Sound := { hs with guard := fun _ hn => nomatch hn }
    exact (hquiet.freed rfl).reslotted rfl ((fillSector_length _ _ _).trans hs.slots)
  all_goals exact .same s

theorem execSuspensionTaken_answers (s : State) : s.Answers (execSuspensionTaken s) := by
  unfold execSuspensionTaken
  split
  · rename_i k n ha
    refine Lawful.answers ((Lawful.setStore fun hs => ?_).trans ((Lawful.notify _ _).trans (.setStore fun hs => hs.taken)))
    exact (hs.freed (hs.unguarded (by simp [ha]))).suspendedHost (hs.erasing _ _ _ ha).1 (hs.erasing _ _ _ ha).2 rfl
  · rename_i k n ha
    refine Lawful.answers (.setStore fun hs => ?_)
    have hfree := (hs.freed (hs.unguarded (by simp [ha]))).taken
    exact hfree.resumed (e := ⟨k, n, .snapshot⟩) (hs.erasing _ _ _ ha).1 (hs.erasing _ _ _ ha).2 rfl
  all_goals exact .same s

theorem execResumeGuardExpired_answers (s : State) : s.Answers (execResumeGuardExpired s) := by
  unfold execResumeGuardExpired
  split
  · refine Lawful.answers (.setStore fun hs => ?_)
    have hquiet : ({ s.store with guard := none } : Store).Sound := { hs with guard := fun _ hn => nomatch hn }
    exact hquiet.of_serves (Store.autoSuspendErase_serves _)
  · exact .same s

theorem execSiteWriteComplete_answers (s : State) : s.Answers (execSiteWriteComplete s) := by
  unfold execSiteWriteComplete
  split
  · rename_i q ha
    refine (Lawful.completed _ fun hs => ?_).answers
    have hfree := hs.freed (hs.unguarded (by simp [ha]))
    exact hfree.written rfl (hs.writing q ha).1 (siteWritten_floor hs.floors (hs.writing q ha).2)
  all_goals exact .same s

theorem execSiteLockComplete_answers (s : State) : s.Answers (execSiteLockComplete s) := by
  unfold execSiteLockComplete
  split
  · rename_i ha
    refine (Lawful.completed _ fun hs => ?_).answers
    have hfree := hs.freed (hs.unguarded (by simp [ha]))
    exact hfree.locked rfl (hs.floor (by simp [Store.floorBinds, ha]))
  all_goals exact .same s

theorem execSnapshotDelivery_answers (s : State) : s.Answers (execSnapshotDelivery s) := by
  unfold execSnapshotDelivery
  split
  · exact .same s
  · exact (Lawful.trans (.setStore fun hs => hs.settings _ _ _ _) (.touch (State.takeDelivery_touch _ _))).answers

/-! ## Every command -/

/-- Every command but power-on answers with the state as it was or with a lawful change of it. -/
theorem exec_answers {c : Instr} (hp : ∀ pins, c ≠ .powerOn pins) (s : State) : s.Answers (exec c s) := by
  cases hq : requestOf c with
  | some i => exact request_answers hq s
  | none =>
    cases c <;> first | exact absurd hq (Option.some_ne_none _) | skip
    case powerOn pins => exact absurd rfl (hp pins)
    case frameComplete => exact execFrameComplete_answers _ _ _ s
    case interByteTimeout => exact Lawful.answers (Lawful.setLink (v := { s.link with rx := [] }) (fun hb => ⟨hb.inbound, hb.notices⟩) rfl)
    case transmissionEnd => exact .inr ⟨s.setLink { s.link with tx := none }, .setLink fun hb => ⟨hb.inbound, hb.notices⟩, rfl⟩
    case programComplete => exact execProgramComplete_answers s
    case eraseComplete => exact execEraseComplete_answers s
    case suspensionTaken => exact execSuspensionTaken_answers s
    case resumeGuardExpired => exact execResumeGuardExpired_answers s
    case siteWriteComplete => exact execSiteWriteComplete_answers s
    case siteLockComplete => exact execSiteLockComplete_answers s
    case snapshotDelivery => exact execSnapshotDelivery_answers s
    case secondComplete => exact execSecondComplete_answers s
    case mainsLost ch => exact execMainsLost_answers ch s
    case mainsReturned ch => exact execMainsReturned_answers ch s
    case settleExpired ch => exact execSettleExpired_answers ch s
    case grant ch => exact execGrant_answers ch s
    case signalHeard ch => exact (Lawful.hearSignal s ch).answers
    case quietIntervalHeard ch => exact execQuietIntervalHeard_answers ch s
    case accessLimitExpired ch => exact execAccessLimitExpired_answers ch s
    case sendingEnd ch => exact execSendingEnd_answers ch s
    case inboundLineFrame ch bytes => exact execInboundLineFrame_answers ch bytes s
    case replyWindowExpired ch => exact execReplyWindowExpired_answers ch s
    case tailExpired ch => exact execTailExpired_answers ch s
    case outcomeTaken ch => exact execOutcomeTaken_answers ch s
    case transmissionEndedTaken ch => exact execTransmissionEndedTaken_answers ch s
    case tailEndedTaken ch => exact execTailEndedTaken_answers ch s
    case intervalExpired k => exact execIntervalExpired_answers k s

theorem powerOn_lawsKept (pins : Pins) (s : State) : ∃ t, exec (.powerOn pins) s = .next t ∧ LawsKept s t
    ∧ t.link.reply = none ∧ t.link.notices = [] := by
  refine ⟨_, rfl, ⟨rfl, fun _ => ⟨Nat.zero_le _, Nat.zero_le _⟩, fun _ => .initial, fun hs => hs.poweredOn, fun _ => ?_⟩, rfl, rfl⟩
  refine ⟨referenceOf_eq _, runningSource_eq _ _, fun ph => ?_⟩
  have hact : ∀ b, activityAtPowerOn b = .offline ↔ b = false := fun b => by cases b <;> simp [activityAtPowerOn]
  cases ph <;> exact hact _

/-- The laws of the blocks through a command; nothing waits behind a free transmitter afterwards, or nothing changed. -/
theorem exec_lawsKept (c : Instr) (s : State) : ∃ t, exec c s = .next t ∧ LawsKept s t
    ∧ (t = s ∨ (t.link.tx = none → t.link.reply = none ∧ t.link.notices = [])) := by
  by_cases hp : ∃ pins, c = .powerOn pins
  · obtain ⟨pins, rfl⟩ := hp
    obtain ⟨t, ht, hl, hr, hn⟩ := powerOn_lawsKept pins s
    exact ⟨t, ht, hl, .inr fun _ => ⟨hr, hn⟩⟩
  · rcases exec_answers (fun pins h => hp ⟨pins, h⟩) s with h | ⟨u, hu, h⟩
    · exact ⟨s, h, .refl s, .inl rfl⟩
    · refine ⟨_, h, hu.trans (.setLink fun hb => ⟨?_, ?_⟩), .inr (Link.transmitted_flowing _)⟩
      · rw [Link.transmitted_inbound]; exact hb.inbound
      · exact (Link.transmitted_notices_le _).trans hb.notices

/-! ## A step -/

/-- What a step does: a command on the rest of the queue, a due command queued, or a millisecond. -/
theorem step_cases {s t : State} (h : step s = .next t) :
    (∃ c rest, exec c (s.setPending rest) = .next t) ∨ t = s.passMillisecond ∨ ∃ l n, t = (s.setPending l).setFree n := by
  unfold step at h
  split at h
  · exact .inl ⟨_, _, h⟩
  · injection h with h
    subst h
    refine .inr ?_
    unfold State.idle
    split
    · exact .inl rfl
    · exact .inr ⟨_, s.free, rfl⟩
    · exact .inr ⟨_, _, rfl⟩

theorem Activity.tick_online (a : Activity) : a.tick.online = a.online := by cases a <;> rfl

theorem Clock.tick_fields (c : Clock) (b : Bool) : (c.tick b).reference = c.reference ∧ (c.tick b).source = c.source
    ∧ (c.tick b).sourceParam = c.sourceParam := by
  unfold Clock.tick
  split
  · exact ⟨rfl, rfl, rfl⟩
  · split <;> exact ⟨rfl, rfl, rfl⟩

theorem State.passMillisecond_lawful (s : State) : Lawful s s.passMillisecond where
  pending := rfl
  tx := rfl
  link := id
  roster := id
  store := fun h => h.ticked
  powered := fun h => by
    obtain ⟨h1, h2, h3⟩ := s.clock.tick_fields (Config.zeroCrossing s.free)
    refine ⟨h1.trans h.reference, ?_, fun ph => ?_⟩
    · exact h2.trans (h.source.trans (by rw [← h1, ← h3]; rfl))
    · refine Iff.trans ?_ (h.offline ph)
      rw [← Activity.online_false_iff, ← Activity.online_false_iff, ← Activity.tick_online (s.channel ph).activity]
      show ((s.line.channels.map fun (c : Channel) => { c with activity := c.activity.tick }).get ph).activity.online = false ↔ _
      rw [PerPhase.get_map]; rfl

/-- A step keeps the laws of the roster, the store and the mains. -/
theorem step_lawful {s t : State} (h : step s = .next t) : (s.roster.Sound → t.roster.Sound) ∧ (s.store.Sound → t.store.Sound)
    ∧ (s.Powered → t.Powered) := by
  rcases step_cases h with ⟨c, rest, hc⟩ | rfl | ⟨l, n, rfl⟩
  · obtain ⟨u, hu, hl, -⟩ := exec_lawsKept c (s.setPending rest)
    obtain rfl : t = u := Host.Outcome.next.inj (hc.symm.trans hu)
    exact ⟨hl.roster, hl.store, fun hp => hl.powered (hp.of_same rfl rfl rfl)⟩
  · exact ⟨id, s.passMillisecond_lawful.store, s.passMillisecond_lawful.powered⟩
  · exact ⟨id, id, fun hp => hp.of_same rfl rfl rfl⟩

/-- A property that survives every act of the campaign controller and the service of every request is kept by a step. -/
theorem EventActs.step {P : State → Prop} (F : EventActs P) (serve : ∀ r s, P s → P (serveOf r s).state)
    (on : ∀ pins s t, P s → execPowerOn pins s = .next t → P t)
    (own : ∀ c ∈ storeEvents, ∀ s t, P s → exec c s = .next t → P t) (hp : ∀ s l, P s → P (s.setPending l))
    (hf : ∀ s n, P s → P (s.setFree n)) (hm : ∀ s, P s → P s.passMillisecond) {s t : State} (h : P s)
    (ht : Machine.step s = .next t) : P t := by
  refine step_keeps (fun {c s t} h ht => ?_) hp hf hm h ht
  cases hq : requestOf c with
  | some i => exact F.link.request serve hq h ht
  | none => exact F.event on own hq h ht

/-! ## The account and the table -/

theorem balanced_acts : EventActs State.Balanced where
  link := balanced_linkFree
  line := fun _ _ h => h
  clock := fun _ _ h => h
  pins := fun _ _ h => h
  reached := fun now h => State.timeReached_balanced h now
  outcome := fun ch w v h => State.takeOutcome_balanced h ch w v
  counted := fun ch k seq h => State.countTransmission_balanced h ch k seq
  rested := fun {s k c} hc hr f h => by
    have hrest : ∀ d ∈ s.campaigns.table, d.slot = k → d.state = .resting := fun d hd hk => by
      rw [h.record_of_slot hc hd hk]; exact hr
    refine State.updateCampaign_balanced h (fun _ _ hs => hs) (fun d hd hk b => ?_) fun d hd hk ha => ?_
    · refine b.of_same rfl rfl rfl rfl rfl (fun _ => by rw [hrest d hd hk]; rfl) fun hu => ?_
      rcases (hu : CampaignState.running = .waiting ∨ CampaignState.running = .preparing) with hu | hu <;> cases hu
    · rw [hrest d hd hk] at ha; cases ha

/-- The store's own events leave the table and the receivers alone, but for a delivery, which the controller takes. -/
theorem storeEvent_cases {c : Instr} {s t : State} (hc : c ∈ storeEvents) (ht : exec c s = .next t) :
    (t.campaigns = s.campaigns ∧ t.roster = s.roster)
      ∨ ∃ st d, finish ((s.setStore st).takeDelivery d) = .next t := by
  have same : ∀ {u : State}, finish u = .next t → u.campaigns = s.campaigns → u.roster = s.roster →
      t.campaigns = s.campaigns ∧ t.roster = s.roster := fun {u} ht hu hr => by
    obtain rfl : t = u.transmit := (Host.Outcome.next.inj ht).symm
    exact ⟨hu, hr⟩
  have stay : Host.Outcome.next (φ := Fault) (ρ := Refusal) s = .next t → t.campaigns = s.campaigns ∧ t.roster = s.roster :=
    fun ht => by cases ht; exact ⟨rfl, rfl⟩
  have done : ∀ {st e}, finish (s.completeOperation st e) = .next t → t.campaigns = s.campaigns ∧ t.roster = s.roster :=
    fun ht => same ht (by simp [State.completeOperation, State.storeNotice]) (by simp [State.completeOperation, State.storeNotice])
  simp only [storeEvents, List.mem_cons, List.not_mem_nil, or_false] at hc
  rcases hc with rfl | rfl | rfl | rfl | rfl | rfl | rfl <;> simp only [exec] at ht
  · simp only [execProgramComplete] at ht
    split at ht
    · exact .inl (done ht)
    all_goals exact .inl (stay ht)
  · simp only [execEraseComplete] at ht
    split at ht
    · exact .inl (done ht)
    all_goals exact .inl (stay ht)
  · simp only [execSuspensionTaken] at ht
    split at ht
    · exact .inl (same ht (by simp [State.suspendForHost, State.storeNotice]) (by simp [State.suspendForHost, State.storeNotice]))
    · exact .inl (same ht rfl rfl)
    all_goals exact .inl (stay ht)
  · simp only [execResumeGuardExpired] at ht
    split at ht
    · exact .inl (same ht rfl rfl)
    · exact .inl (stay ht)
  · simp only [execSiteWriteComplete] at ht
    split at ht
    · exact .inl (done ht)
    all_goals exact .inl (stay ht)
  · simp only [execSiteLockComplete] at ht
    split at ht
    · exact .inl (done ht)
    all_goals exact .inl (stay ht)
  · simp only [execSnapshotDelivery] at ht
    split at ht
    · exact .inl (stay ht)
    · exact .inr ⟨_, _, ht⟩

theorem storeEvents_balanced {c : Instr} (hc : c ∈ storeEvents) {s t : State} (h : s.Balanced) (ht : exec c s = .next t) :
    t.Balanced := by
  rcases storeEvent_cases hc ht with ⟨hcamp, hroster⟩ | ⟨st, d, hd⟩
  · exact h.of_same (by rw [hcamp]) (by rw [hroster])
  · have hst : (s.setStore st).Balanced := h
    exact balanced_linkFree.finish (State.takeDelivery_balanced hst d) hd

theorem storeEvents_numbered {c : Instr} (hc : c ∈ storeEvents) {s t : State} (h : s.Numbered) (ht : exec c s = .next t) :
    t.Numbered := by
  rcases storeEvent_cases hc ht with ⟨hcamp, hroster⟩ | ⟨st, d, hd⟩
  · exact h.of_eq hcamp
  · have hst : (s.setStore st).Numbered := h
    exact numbered_free.acts.link.finish (numbered_free.takeDelivery hst d) hd

theorem State.passMillisecond_balanced {s : State} (h : s.Balanced) : s.passMillisecond.Balanced where
  units := h.units
  slots := InOrder.of_map (by
    show ((s.campaigns.table.map Campaign.tick).map Campaign.slot).Pairwise _
    rw [List.map_map]; exact h.slots.map_lt)
  records := fun c hc => by
    obtain ⟨d, hd, rfl⟩ := List.mem_map.mp (show c ∈ s.campaigns.table.map Campaign.tick from hc)
    exact (h.records d hd).of_same rfl rfl rfl rfl rfl id id
  entries := fun e he => by
    have hs := h.entries e he
    refine ⟨hs.order, hs.tried, fun k hk => ?_⟩
    obtain ⟨c, hc, hrest⟩ := hs.owed k hk
    exact ⟨c.tick, List.mem_map_of_mem hc, hrest⟩

theorem execPowerOn_balanced (pins : Pins) (s : State) {t : State} (ht : execPowerOn pins s = .next t) : t.Balanced := by
  injection ht with ht
  subst ht
  exact accounts_empty _ .nil fun _ he => nomatch he

end Sys2Proof.Machine
end

section
/-! The laws that every step keeps, settled, with the answers of every command and the state at reset. -/

namespace Sys2Proof.Machine

/-- Settles O54: the bounds through every command's own change, and the transmitter's choice that ends it. -/
theorem linkSoundKept : Obligations.LinkSoundKept := by
  intro s t hs ht
  rcases step_cases ht with ⟨c, rest, hc⟩ | rfl | ⟨l, n, rfl⟩
  · obtain ⟨u, hu, hl, hflow⟩ := exec_lawsKept c (s.setPending rest)
    obtain rfl : t = u := Host.Outcome.next.inj (hc.symm.trans hu)
    obtain ⟨hin, hno⟩ := hl.link ⟨hs.inbound, hs.notices⟩
    refine ⟨hin, hno, ?_⟩
    rcases hflow with rfl | hflow
    · exact hs.flowing
    · exact hflow
  · exact hs
  · exact hs

/-- Settles O55: entries are rewritten, put in and taken out as the roster's law allows. -/
theorem rosterSoundKept : Obligations.RosterSoundKept := fun _ _ hs ht => (step_lawful ht).1 hs

/-- Settles O56: the table's law through the service of every request and every act of the campaign controller. -/
theorem campaignsSoundKept : Obligations.CampaignsSoundKept := fun s t hs ht => by
  exact numbered_free.acts.step serveOf_numbered
    (fun pins s t _ ht => by injection ht with ht; subst ht; exact .empty rfl) (fun _ hc _ _ => storeEvents_numbered hc) (fun _ _ h => h) (fun _ _ h => h)
    (fun s h => Campaigns.Sound.of_host h (by
      show (s.campaigns.table.map Campaign.tick).map Campaign.hostFields = _
      rw [List.map_map]; rfl) rfl) hs ht

/-- Settles O57: the store's law through every command, and the law of the snapshots together with the table's. -/
theorem storeSoundKept : Obligations.StoreSoundKept :=
  ⟨fun _ _ hs ht => (step_lawful ht).2.1 hs, fun _ _ hn hs ht =>
    (settled_acts.step serveOf_settled (fun pins s _ _ ht => execPowerOn_settled pins s ht) storeEvents_settled
      (fun _ _ h => h.of_eq rfl rfl) (fun _ _ h => h.of_eq rfl rfl) (fun _ h => State.passMillisecond_settled h)
      (show State.Settled _ from ⟨hn, hs⟩) ht).2⟩

/-- Settles O58: a mains event moves the channel and the clock together, and nothing else moves either. -/
theorem poweredKept : Obligations.PoweredKept := fun _ _ hs ht => (step_lawful ht).2.2 hs

/-- Settles O59: the account through the service of every request and every act of the campaign controller. -/
theorem balancedKept : Obligations.BalancedKept := fun _ _ hs ht =>
  balanced_acts.step serveOf_balanced (fun pins s _ _ ht => execPowerOn_balanced pins s ht) (fun _ hc _ _ => storeEvents_balanced hc)
    (fun _ _ h => h) (fun _ _ h => h) (fun _ h => State.passMillisecond_balanced h) hs ht

/-- Settles O3: no command faults, and none touches the queue. -/
theorem everyCommandAnswersAndLeavesTheQueue : Obligations.EveryCommandAnswersAndLeavesTheQueue := fun c s => by
  obtain ⟨t, ht, hl, -⟩ := exec_lawsKept c s
  exact ⟨t, ht, hl.pending⟩

/-- Settles O1: the first case of a step. -/
theorem stepTakesTheFrontCommand : Obligations.StepTakesTheFrontCommand := fun _ _ _ => rfl

end Sys2Proof.Machine
end

section
/-! SUPPORT. What the plain requests answer, and the state at reset. -/

namespace Sys2Proof.Machine

/-! ## The link controller's own checks (R188) -/

theorem serveFormed_unsound {h : Header} (hu : h.tag = 0 ∨ h.formed = false) (serve : State → Served) (s : State) :
    serveFormed h serve s = refuse s .malformed := by
  unfold serveFormed
  rcases hu with hu | hu <;> simp [hu]

theorem execUnknownKind_taken {h : Header} {k : Byte} {s : State} (ht : s.CanTake h (.unknown k)) :
    execUnknownKind h k s = .next (s.popInbound.replied h (.unknown k) .unknownKind .none) := by
  unfold execUnknownKind
  dsimp only
  rw [if_pos ((s.mayTake_iff h _).mpr ht)]
  rfl

theorem execUnknownKind_not_taken {h : Header} {k : Byte} {s : State} (ht : ¬ s.CanTake h (.unknown k)) :
    execUnknownKind h k s = .next s := by
  unfold execUnknownKind
  dsimp only
  rw [if_neg fun x => ht ((s.mayTake_iff h _).mp x)]

/-- A request that cannot be taken leaves the state. -/
theorem exec_not_taken {c : Instr} {h : Header} {r : Request} {s : State} (hc : requestOf c = some ⟨h, r⟩)
    (ht : ¬ s.CanTake h r) : exec c s = .next s := by
  by_cases hk : ∃ k, r = .unknown k
  · obtain ⟨k, rfl⟩ := hk
    cases c <;> simp only [requestOf, Option.some.injEq, Inbound.mk.injEq, reduceCtorEq, and_false] at hc
    obtain ⟨rfl, hk⟩ := hc
    cases hk
    exact execUnknownKind_not_taken ht
  · rw [exec_request hc (fun k hk' => hk ⟨k, hk'⟩) s, takeRequest_not_taken ht]

/-- The memory and the record as they come from manufacture keep the law of the plan store. -/
theorem Store.Sound.factory : (Store.initial factorySlots factorySite).Sound where
  slots := rfl
  positions := rfl
  boundary := Nat.le_refl 8
  floor := fun _ => Nat.zero_le _
  floors := Nat.zero_le _
  writing := fun _ h => nomatch h
  beside := fun _ h => nomatch h
  owner := fun _ h => nomatch h
  erasing := fun _ _ _ h => nomatch h
  program := fun _ _ h => nomatch h
  guard := fun _ h => nomatch h

/-! ## PARAM GET and LINE MASK (R194, R132) -/

theorem serveParamGet_unnamed {name : Coded ParamName} {channel : Option (Coded Phase)} (s : State)
    (hq : paramRef? name channel = none) : serveParamGet (.one name channel) s = refuse s .malformed := by
  simp [serveParamGet, hq]

theorem serveParamGet_named {name : Coded ParamName} {channel : Option (Coded Phase)} {r : ParamRef} (s : State)
    (hq : paramRef? name channel = some r) : serveParamGet (.one name channel) s = accept s (.param (s.paramValue r)) := by
  simp [serveParamGet, hq]

theorem paramRef?_plain {p : ParamName} (hp : p ≠ .arbitrationMode) : paramRef? (some p) none = some (.plain p) := by
  cases p <;> first | rfl | exact absurd rfl hp

theorem paramRef?_none {name : Coded ParamName} {channel : Option (Coded Phase)}
    (h : name = none ∨ (name = some .arbitrationMode ∧ (channel = none ∨ channel = some none))
      ∨ (name ≠ some .arbitrationMode ∧ channel ≠ none)) : paramRef? name channel = none := by
  rcases h with rfl | ⟨rfl, rfl | rfl⟩ | ⟨hn, hc⟩
  · rfl
  · rfl
  · rfl
  · unfold paramRef?
    split
    · exact absurd rfl hn
    · rfl
    · exact absurd rfl hc
    · rfl

theorem serveLineMask_invalid {q : LineMaskReq} (s : State) (h : q.target = none ∨ q.mask = none) :
    serveLineMask q s = refuse s .malformed := by
  unfold serveLineMask
  rcases h with h | h
  · rw [h]
  · rw [h]; cases q.target <;> rfl

theorem Line.applyMask_one (l : Line) (ch : Phase) (mask : Bool) :
    l.applyMask (.one ch) mask = { l with channels := l.channels.set ch { l.channels.get ch with masked := mask } } := by
  unfold Line.applyMask maskCovers
  cases ch <;> rfl

/-! ## Suspending and resuming an erase (R173, R174) -/

theorem serveEraseSuspend_wrongState {s : State}
    (h : ∀ k n, s.store.active ≠ some (.erase k .erasing n) ∧ s.store.active ≠ some (.erase k (.suspending .snapshot) n)) :
    serveEraseSuspend s = refuse s .wrongState := by
  unfold serveEraseSuspend
  split
  · exact absurd ‹_› (h _ _).1
  · exact absurd ‹_› (h _ _).2
  all_goals rfl

theorem serveEraseSuspend_erasing {s : State} {k n : Nat} (ha : s.store.active = some (.erase k .erasing n)) :
    serveEraseSuspend s
      = if s.store.guard.isSome then refuse s .tooSoon else accept (s.setErase k (.suspending .host) n) .none := by
  simp [serveEraseSuspend, ha]

theorem serveEraseSuspend_snapshot {s : State} {k n : Nat} (ha : s.store.active = some (.erase k (.suspending .snapshot) n)) :
    serveEraseSuspend s = accept (s.setErase k (.suspending .host) n) .none := by
  simp [serveEraseSuspend, ha]

theorem serveEraseResume_wrongState {s : State} (h : ∀ e, s.store.suspended = some e → e.owner = .snapshot) :
    serveEraseResume s = refuse s .wrongState := by
  unfold serveEraseResume
  split
  · rfl
  · rename_i e he
    rw [h e he]

theorem serveEraseResume_host {s : State} {e : SuspendedErase} (he : s.store.suspended = some e) (ho : e.owner = .host) :
    serveEraseResume s
      = if s.store.active.isSome then refuse s .storeBusy else accept (s.setStore (s.store.resumeErase e)) .none := by
  simp [serveEraseResume, he, ho]

/-! ## STORE PROTECT (R168) -/

theorem State.abandonErase_none {s : State} {old new : Nat}
    (h : ∀ e, s.store.suspended = some e → ¬ (old ≤ e.sector ∧ e.sector < new)) : s.abandonErase old new = s := by
  unfold State.abandonErase
  split
  · rfl
  · rename_i e he
    rw [if_neg (h e he)]

theorem State.abandonErase_some {s : State} {old new : Nat} {e : SuspendedErase} (he : s.store.suspended = some e)
    (hold : old ≤ e.sector) (hnew : e.sector < new) : s.abandonErase old new
      = (s.setStore { s.store with
          slots := s.store.slots.mapIdx (fun p old => if p / 4 = e.sector then .damaged else old), suspended := none }).notify
            (.storeEvent (.eraseAborted e.sector) s.clock.time) := by
  simp only [State.abandonErase, he, if_pos (And.intro hold hnew)]
  rfl

theorem Store.floorBinds_iff {st : Store} : st.floorBinds = true ↔ st.site.locked = true ∨ st.active = some .siteLock := by
  rw [Store.floorBinds, Bool.or_eq_true, decide_eq_true_eq]

theorem serveStoreProtect_invalid {value : Nat} (s : State) (h : 8 < value) :
    serveStoreProtect value s = refuse s .malformed := by
  have hn : ¬ value ≤ 8 := by omega
  simp [serveStoreProtect, firstRefusal, Config.sectors, hn]

theorem serveStoreProtect_locked {value : Nat} {s : State} (h : value ≤ 8) (hb : s.store.floorBinds = true)
    (hf : value < s.store.site.fields.floor.getD 0) : serveStoreProtect value s = refuse s .locked := by
  simp [serveStoreProtect, firstRefusal, Config.sectors, h, hb, hf]

/-- No check of STORE PROTECT fails on a value that the floor, where it binds, does not exceed. -/
theorem serveStoreProtect_free {value : Nat} {s : State} (h : value ≤ 8)
    (hf : (s.store.site.locked = false ∧ s.store.active ≠ some .siteLock)
      ∨ ∀ n, s.store.site.fields.floor = some n → n ≤ value) : serveStoreProtect value s
      = accept ((s.setStore { s.store with boundary := value }).abandonErase s.store.boundary value) (.boundary value) := by
  have hc : (s.store.floorBinds && decide (value < s.store.site.fields.floor.getD 0)) = false := by
    rcases hf with ⟨hl, ha⟩ | hf
    · have hb : s.store.floorBinds = false := by simp [Store.floorBinds, hl, ha]
      rw [hb]; rfl
    · have hle : s.store.site.fields.floor.getD 0 ≤ value := by
        cases hn : s.store.site.fields.floor with
        | none => exact Nat.zero_le _
        | some n => exact hf n hn
      rw [decide_eq_false (Nat.not_lt.mpr hle), Bool.and_false]
  simp [serveStoreProtect, firstRefusal, Config.sectors, h, hc]

end Sys2Proof.Machine
end

section
/-! The plain requests and the state at reset, settled. -/

namespace Sys2Proof.Machine

/-- Settles O6: the two checks before the service, and the guard before both. -/
theorem requestsAreCheckedBeforeTheirOwner : Obligations.RequestsAreCheckedBeforeTheirOwner := by
  refine ⟨fun h k s ht => execUnknownKind_taken ht, fun c h r s hc hk ht hu => ?_, fun c h r s hc ht => exec_not_taken hc ht⟩
  rw [exec_request hc hk, takeRequest_taken ht, serveFormed_unsound hu]
  rfl

/-- Settles O9: each of the four services is an acceptance. -/
theorem plainReadsShowTheBlock : Obligations.PlainReadsShowTheBlock :=
  ⟨fun _ _ ht => exec_accepted rfl ht rfl, fun _ _ ht => exec_accepted rfl ht rfl,
    fun _ _ => ⟨fun ht => exec_accepted rfl ht rfl, fun ht => exec_accepted rfl ht rfl⟩⟩

/-- Settles O14, by the parameter that a name and a channel refer to. -/
theorem paramGetShowsTheValues : Obligations.ParamGetShowsTheValues := by
  refine fun h s => ⟨fun name channel hn ht => ?_, fun ch ht => ?_, fun p hp ht => ?_, fun ht => ?_⟩
  · exact exec_refused rfl ht (serveParamGet_unnamed _ (paramRef?_none hn))
  · exact exec_accepted rfl ht rfl
  · exact exec_accepted rfl ht (serveParamGet_named _ (paramRef?_plain hp))
  · exact exec_accepted rfl ht rfl

/-- Settles O36, by the target. -/
theorem lineMaskSetsTheMarks : Obligations.LineMaskSetsTheMarks := by
  refine fun h q s ht => ⟨fun hq => ?_, ?_, ?_⟩
  · exact exec_refused rfl ht (serveLineMask_invalid _ hq)
  · rintro ch mask rfl
    refine ⟨_, rfl, exec_accepted rfl ht ?_⟩
    simp only [serveOf, serveLineMask, Line.applyMask_one]
    rfl
  · rintro mask rfl
    exact exec_accepted rfl ht rfl

/-- Settles O49, by the checks of STORE PROTECT. -/
theorem armAndProtectionAreSet : Obligations.ArmAndProtectionAreSet := by
  refine fun h s => ⟨fun ht => exec_accepted rfl ht rfl, fun ht => exec_accepted rfl ht rfl,
    fun value ht => ⟨fun hv => ?_, fun hv hb hf => ?_, fun hv hf => ?_⟩⟩
  · exact exec_refused rfl ht (serveStoreProtect_invalid _ hv)
  · obtain ⟨n, hn, hlt⟩ := hf
    exact exec_refused rfl ht (serveStoreProtect_locked hv (Store.floorBinds_iff.mpr hb) (by
      show value < (s.store.site.fields.floor).getD 0
      rw [hn]; exact hlt))
  · refine ⟨fun hq => exec_accepted rfl ht ((serveStoreProtect_free (s := s.popInbound) hv hf).trans ?_), fun e he hold hnew =>
      exec_accepted rfl ht ((serveStoreProtect_free (s := s.popInbound) hv hf).trans ?_)⟩
    · exact congrArg (accept · _) (State.abandonErase_none hq)
    · exact congrArg (accept · _) (State.abandonErase_some he hold hnew)

/-- Settles O50, by the active operation and by the suspended erase. -/
theorem erasesAreSuspendedAndResumed : Obligations.ErasesAreSuspendedAndResumed := by
  refine fun h s => ⟨fun ht => ⟨fun k n ha => ⟨fun hg => ?_, fun hg => ?_⟩, fun k n ha => ?_, fun ha => ?_⟩,
    fun ht => ⟨fun hs => ?_, fun e he ho => ⟨fun ha => ?_, fun ha => ?_⟩⟩⟩
  · exact exec_refused rfl ht ((serveEraseSuspend_erasing (s := s.popInbound) ha).trans (if_pos (Option.isSome_iff_ne_none.mpr hg)))
  · exact exec_accepted rfl ht ((serveEraseSuspend_erasing (s := s.popInbound) ha).trans (if_neg (by simp [hg])))
  · exact exec_accepted rfl ht (serveEraseSuspend_snapshot ha)
  · exact exec_refused rfl ht (serveEraseSuspend_wrongState ha)
  · exact exec_refused rfl ht (serveEraseResume_wrongState hs)
  · exact exec_refused rfl ht ((serveEraseResume_host (s := s.popInbound) he ho).trans (if_pos (Option.isSome_iff_ne_none.mpr ha)))
  · exact exec_accepted rfl ht ((serveEraseResume_host (s := s.popInbound) he ho).trans (if_neg (by simp [ha])))

/-- Settles O53: every queue, table and set of the reset state is empty, and every channel is OFFLINE without mains. -/
theorem soundAtReset : Obligations.SoundAtReset := by
  refine ⟨⟨⟨Nat.zero_le _, Nat.zero_le _, fun _ => ⟨rfl, rfl⟩⟩, .initial, State.Numbered.empty rfl, .factory, ?_⟩,
    accounts_empty [] .nil (by simp), ?_⟩
  · exact ⟨rfl, rfl, fun ph => by cases ph <;> decide⟩
  · exact {
      kept := fun c hc => absurd hc (List.not_mem_nil (a := c)), rising := .nil
      asked := fun r hr => absurd hr (List.not_mem_nil (a := r)), handed := .nil }

end Sys2Proof.Machine
end

section
/-! SUPPORT. The transmitter, the record of a channel written twice, and what the events of a channel do. -/

namespace Sys2Proof.Machine

/-! ## The transmitter (R189) -/

theorem Link.transmitted_reply {l : Link} {r : Reply} (ht : l.tx = none) (hr : l.reply = some r) :
    l.transmitted = { l with tx := some (.reply r), reply := none } := by
  simp [Link.transmitted, ht, hr]

theorem Link.transmitted_notice {l : Link} {n : Notice} {rest : List Notice} (ht : l.tx = none) (hr : l.reply = none)
    (hn : l.notices = n :: rest) : l.transmitted = { l with tx := some (.notice n), notices := rest } := by
  simp [Link.transmitted, ht, hr, hn]

theorem Link.transmitted_idle {l : Link} (ht : l.tx = none) (hr : l.reply = none) (hn : l.notices = []) :
    l.transmitted = l := by
  simp [Link.transmitted, ht, hr, hn]

theorem Outgoing.body_length_le (o : Outgoing) : o.body.length ≤ 240 := by
  cases o with
  | reply r =>
    have hrest : r.rest.length < 240 := by
      unfold Reply.rest
      split
      · split
        · exact Nat.zero_lt_succ _
        · rw [List.length_map, List.length_range]
          exact (Config.replyLength _).isLt
      · exact Nat.zero_lt_succ _
    simpa [Outgoing.body] using hrest
  | notice n =>
    simpa [Outgoing.body] using Nat.le_of_lt_succ (Config.noticeLength n).isLt

/-! ## One channel written -/

theorem State.channel_setChannel_same (s : State) (ph : Phase) (c : Channel) : (s.setChannel ph c).channel ph = c :=
  PerPhase.get_set_same _ _ _

theorem State.channel_setChannel_other (s : State) {ph q : Phase} (c : Channel) (h : q ≠ ph) :
    (s.setChannel ph c).channel q = s.channel q :=
  PerPhase.get_set_other _ _ _ _ h

theorem State.setChannel_setChannel (s : State) (ph : Phase) (c d : Channel) :
    (s.setChannel ph c).setChannel ph d = s.setChannel ph d := by
  simp [State.setChannel, State.setLine]

theorem State.setActivity_setChannel (s : State) (ph : Phase) (c : Channel) (a : Activity) :
    (s.setChannel ph c).setActivity ph a = s.setChannel ph { c with activity := a } := by
  rw [State.setActivity, State.channel_setChannel_same, State.setChannel_setChannel]

theorem State.setChannel_notify (s : State) (n : Notice) (ph : Phase) (c : Channel) :
    (s.notify n).setChannel ph c = (s.setChannel ph c).notify n := by
  unfold State.notify
  show _ = if s.link.notices.length < _ then _ else _
  split <;> rfl

theorem State.notify_channel (s : State) (n : Notice) (ph : Phase) : (s.notify n).channel ph = s.channel ph := by
  unfold State.notify
  split <;> rfl

theorem Channel.jam_eq (c : Channel) {b : Bool} (h : c.jam = b) (a : Activity) :
    { c with activity := a } = { c with activity := a, jam := b } := by
  subst h; rfl

/-! ## Sensing and sending (R121 to R124) -/

theorem State.startSending_clear {s : State} {ch : Phase} (w : Work) (h : (s.channel ch).jam = false) :
    s.startSending ch w = s.setChannel ch { s.channel ch with activity := .sending w (w.frame s.clock.time).bytes } := by
  simp [State.startSending, State.jamClear, h, State.setActivity]

theorem State.startSending_jammed {s : State} {ch : Phase} (w : Work) (h : (s.channel ch).jam = true) :
    s.startSending ch w
      = (s.setChannel ch { s.channel ch with activity := .sending w (w.frame s.clock.time).bytes, jam := false }).notify
          (.lineChange ch .cleared s.clock.time) := by
  unfold State.startSending State.jamClear
  rw [if_pos h, State.lineNotice, State.setActivity, State.notify_channel, State.setChannel_notify,
    State.channel_setChannel_same, State.setChannel_setChannel]
  rfl

theorem State.jamSet_jammed {s : State} {ch : Phase} (w : Work) (h : (s.channel ch).jam = true) : s.jamSet ch w = s := by
  rw [State.jamSet, if_pos h]

theorem State.jamSet_clear {s : State} {ch : Phase} (w : Work) (h : (s.channel ch).jam = false) :
    s.jamSet ch w = (s.setChannel ch { s.channel ch with jam := true }).notify
      (.lineChange ch (.jammed w.slot w.seq) s.clock.time) := by
  rw [State.jamSet, if_neg (by simp [h])]
  rfl

/-- A unit that ends takes its channel to the next activity, behind its report. -/
theorem State.endUnit_eq (s : State) (ch : Phase) (w : Work) (v : Verdict) (a : Activity) : s.endUnit ch w v a
    = (s.setReports ch (s.reports ch ++ [.outcome w v])).setChannel ch { s.channel ch with activity := a } := rfl

theorem Work.body_eq (w : Work) (now : Option Nat) : w.body now = match w.order.body, w.plan with
    | .bandSet band, _ => .bandSet band w.order.effective
    | .loadSwitch relay action duration, _ => .loadSwitch relay action duration w.order.effective
    | .planLoad _, some p => .planLoad p.identity p.version p.points.length
        ((p.points.drop (4 * (w.fragment - 1))).take 4) w.order.effective
    | .planLoad _, none => .planLoad 0 0 0 [] w.order.effective
    | .clockSync, _ => .clockSync (now.getD 0)
    | .statusPoll, _ => .statusPoll := by
  unfold Work.body
  cases w.order.body <;> cases w.plan <;> rfl

/-! ## The events of a channel, by its activity -/

section
variable {ch : Phase} {s : State} {w : Work} {frame : List Byte} {quiet access left : Nat}

theorem State.hearSignal_sensing (h : (s.channel ch).activity = .sensing w quiet access) :
    s.hearSignal ch = s.setChannel ch { s.channel ch with activity := .sensing w s.line.quietInterval access } := by
  simp [State.hearSignal, h, State.setActivity]

theorem State.hearSignal_deaf (h : ∀ w quiet access, (s.channel ch).activity ≠ .sensing w quiet access) :
    s.hearSignal ch = s := by
  unfold State.hearSignal
  split
  · exact absurd ‹_› (h _ _ _)
  all_goals rfl

theorem execInboundLineFrame_sensing (bytes : List Byte) (h : (s.channel ch).activity = .sensing w quiet access) :
    execInboundLineFrame ch bytes s = finish (s.hearSignal ch) := by
  simp [execInboundLineFrame, h]

theorem execQuietIntervalHeard_sensing (h : (s.channel ch).activity = .sensing w quiet access) :
    execQuietIntervalHeard ch s = finish (s.startSending ch w) := by
  simp [execQuietIntervalHeard, h]

theorem execAccessLimitExpired_sensing (h : (s.channel ch).activity = .sensing w quiet access) :
    execAccessLimitExpired ch s = finish ((s.endUnit ch w .deferred .idle).jamSet ch w) := by
  simp [execAccessLimitExpired, h]

theorem execSendingEnd_sending (h : (s.channel ch).activity = .sending w frame) : execSendingEnd ch s = finish (s.sent ch w) := by
  simp [execSendingEnd, h]

theorem execReplyWindowExpired_awaiting {dest : Nat} {route : List Nat} (h : (s.channel ch).activity = .awaiting w left)
    (hk : w.kind = .exchange dest route) : execReplyWindowExpired ch s = finish (s.endUnit ch w .noReply .idle) := by
  simp [execReplyWindowExpired, h, hk]

theorem execTailExpired_awaiting {group budget : Nat} (h : (s.channel ch).activity = .awaiting w left)
    (hk : w.kind = .broadcast group budget) :
    execTailExpired ch s = finish ((s.handBack ch (.tailEnded w.slot w.seq)).setActivity ch .idle) := by
  simp [execTailExpired, h, hk]

theorem execInboundLineFrame_window (bytes : List Byte) {dest : Nat} {route : List Nat}
    (h : (s.channel ch).activity = .awaiting w left) (hk : w.kind = .exchange dest route) :
    execInboundLineFrame ch bytes s = finish (s.answered ch w (classify w dest route bytes s.clock.time)) := by
  simp [execInboundLineFrame, h, hk]

/-- A frame is set aside everywhere but in SENSING and in the reply window of an exchange (R125, R151). -/
theorem execInboundLineFrame_deaf (bytes : List Byte)
    (h : (s.channel ch).activity = .offline ∨ (s.channel ch).activity = .idle ∨ (∃ n, (s.channel ch).activity = .settling n)
      ∨ (∃ w frame, (s.channel ch).activity = .sending w frame)
      ∨ (∃ w left group budget, (s.channel ch).activity = .awaiting w left ∧ w.kind = .broadcast group budget)) :
    execInboundLineFrame ch bytes s = finish s := by
  rcases h with h | h | ⟨n, h⟩ | ⟨w, frame, h⟩ | ⟨w, left, group, budget, h, hk⟩
  · simp [execInboundLineFrame, h]
  · simp [execInboundLineFrame, h]
  · simp [execInboundLineFrame, h]
  · simp [execInboundLineFrame, h]
  · simp [execInboundLineFrame, h, hk]

end

/-! ## What follows a sending (R104 to R106, R148) -/

theorem State.sent_exchange (s : State) (ch : Phase) {w : Work} {dest : Nat} {route : List Nat}
    (h : w.kind = .exchange dest route) : s.sent ch w
      = s.setActivity ch (.awaiting w (s.line.replyBase + route.length * s.line.hopExtension)) := by
  simp [State.sent, h, Line.window]

theorem State.sent_fragment (s : State) (ch : Phase) {w : Work} {group budget : Nat} (h : w.kind = .broadcast group budget)
    (hf : w.fragment < w.count) : s.sent ch w = s.sense ch w.advance := by
  simp [State.sent, h, hf]

theorem State.sent_last (s : State) (ch : Phase) {w : Work} {group budget : Nat} (h : w.kind = .broadcast group budget)
    (hf : w.count ≤ w.fragment) : s.sent ch w = (s.handBack ch (.transmissionEnded w.slot w.seq)).setActivity ch
      (if budget = 0 then .idle else .awaiting w (budget * s.line.hopExtension)) := by
  simp [State.sent, h, Nat.not_lt.mpr hf, Line.tail]

/-! ## What a reply window hears (R82, R149) -/

section
variable {w : Work} {dest : Nat} {route : List Nat} {bytes : List Byte} {f : ReplyFrame}

theorem classify_stranger (now : Option Nat) (hr : readFrame bytes = some (.reply f))
    (h : f.network ≠ w.network ∨ f.seq ≠ w.seq) : classify w dest route bytes now = .setAside := by
  rcases h with h | h
  · simp [classify, hr, h]
  · simp [classify, hr, h]

theorem classify_destination (now : Option Nat) (hr : readFrame bytes = some (.reply f)) (hn : f.network = w.network)
    (hs : f.seq = w.seq) (hd : f.source = dest) : classify w dest route bytes now = destinationAnswer w f.answer now := by
  simp [classify, hr, hn, hs, hd]

theorem classify_hopFailed (now : Option Nat) {k : Nat} (hr : readFrame bytes = some (.reply f)) (hn : f.network = w.network)
    (hs : f.seq = w.seq) (hd : f.source ≠ dest) (ha : f.answer = .hopFailed k) (h1 : 1 ≤ k)
    (hk : route[k - 1]? = some f.source) : classify w dest route bytes now = .ends (.hopFailed k) := by
  simp [classify, hr, hn, hs, hd, ha, h1, hk]

theorem classify_other (now : Option Nat) (hr : readFrame bytes = some (.reply f)) (hn : f.network = w.network)
    (hs : f.seq = w.seq) (hd : f.source ≠ dest)
    (h : ∀ k, f.answer = .hopFailed k → ¬ (1 ≤ k ∧ route[k - 1]? = some f.source)) :
    classify w dest route bytes now = .setAside := by
  cases ha : f.answer with
  | hopFailed k => simpa [classify, hr, hn, hs, hd, ha] using h k ha
  | _ => simp [classify, hr, hn, hs, hd, ha]

end

/-- The verdict of R82 is what the destination's answer ends the exchange with. -/
theorem destinationAnswer_verdict {w : Work} {a : LineAnswer} {now : Option Nat} {v : Verdict}
    (h : w.verdict a now = some v) : destinationAnswer w a now = .ends v := by
  unfold Work.verdict at h
  unfold destinationAnswer OrderBody.decided
  cases a with
  | fragmentOk i =>
    dsimp only at h ⊢
    split at h
    · cases h
    · rename_i hi
      split at h
      · cases h
      · rename_i hc
        rw [if_neg hi, if_neg hc]
        injection h with h
        rw [h]
  | hopFailed k => cases hb : w.order.body <;> simp_all
  | _ => cases hb : w.order.body <;> by_cases hf : w.fragment = w.count <;> simp_all

/-! ## The arbiter (R127, R128) -/

theorem bestPriority_le {l : List Campaign} {d : Campaign} (h : d ∈ l) : bestPriority l ≤ d.priority := by
  induction l using bestPriority.induct with
  | case1 => cases h
  | case2 c =>
    obtain rfl := List.mem_singleton.mp h
    exact Nat.le_refl _
  | case3 c rest hne ih =>
    rw [bestPriority.eq_3 _ _ hne]
    rcases List.mem_cons.mp h with rfl | h
    · exact Nat.min_le_left _ _
    · exact (Nat.min_le_right _ _).trans (ih h)

theorem bestPriority_mem {l : List Campaign} (h : l ≠ []) : ∃ c ∈ l, c.priority = bestPriority l := by
  induction l using bestPriority.induct with
  | case1 => exact absurd rfl h
  | case2 c => exact ⟨c, List.mem_singleton_self c, rfl⟩
  | case3 c rest hne ih =>
    rw [bestPriority.eq_3 _ _ hne]
    obtain ⟨d, hd, hp⟩ := ih hne
    rcases Nat.le_total c.priority (bestPriority rest) with hle | hle
    · exact ⟨c, List.mem_cons_self, (Nat.min_eq_left hle).symm⟩
    · exact ⟨d, List.mem_cons_of_mem _ hd, hp.trans (Nat.min_eq_right hle).symm⟩

/-- The first member of an ordered list that a search finds is the lowest with the property. -/
theorem InOrder.find?_lowest {α : Type} {key : α → Nat} {l : List α} (ho : InOrder key l) {p : α → Bool} {a b : α}
    (ha : l.find? p = some a) (hb : b ∈ l) (hp : p b = true) : key a ≤ key b := by
  obtain ⟨-, pre, post, rfl, hpre⟩ := List.find?_eq_some_iff_append.mp ha
  have hpost : b = a ∨ b ∈ post := by
    rcases List.mem_append.mp hb with h | h
    · exact absurd hp (by simpa using hpre b h)
    · exact List.mem_cons.mp h
  rcases hpost with rfl | h
  · exact Nat.le_refl _
  · exact Nat.le_of_lt ((List.pairwise_cons.mp (List.pairwise_append.mp ho).2.1).1 b h)

/-- What the arbiter's choice satisfies (R128). -/
structure Arbitrated (arb : ArbMode) (pointer : Nat) (l : List Campaign) (c : Campaign) : Prop where
  mem : c ∈ l
  best : ∀ d ∈ l, c.priority ≤ d.priority
  fixed : ∀ d ∈ l, d.priority = c.priority → arb = .fixed → c.slot ≤ d.slot
  rotating : ∀ d ∈ l, d.priority = c.priority → arb = .rotating →
    (pointer < c.slot → pointer < d.slot → c.slot ≤ d.slot) ∧ (c.slot ≤ pointer → d.slot ≤ pointer ∧ c.slot ≤ d.slot)

/-- A set that is not empty has a winner. -/
theorem arbitrate_some (arb : ArbMode) (pointer : Nat) {l : List Campaign} (hl : l ≠ []) :
    ∃ c, arbitrate arb pointer l = some c := by
  obtain ⟨b, hb, hbest⟩ := bestPriority_mem hl
  have hne : l.filter (fun c => c.priority == bestPriority l) ≠ [] :=
    List.ne_nil_of_mem (List.mem_filter.mpr ⟨hb, by simpa using hbest⟩)
  have hhead : (l.filter (fun c => c.priority == bestPriority l)).head? ≠ none := by simpa using hne
  unfold arbitrate
  dsimp only
  cases arb with
  | fixed => exact Option.ne_none_iff_exists'.mp hhead
  | rotating =>
    dsimp only
    split
    · exact ⟨_, rfl⟩
    · exact Option.ne_none_iff_exists'.mp hhead

theorem head?_le {l : List Campaign} (ho : InOrder Campaign.slot l) {c d : Campaign} (hc : l.head? = some c) (hd : d ∈ l) :
    c.slot ≤ d.slot := by
  have hfind : l.find? (fun _ => true) = some c := by
    cases l with
    | nil => cases hc
    | cons a rest => exact hc
  exact ho.find?_lowest hfind hd rfl

theorem arbitrate_mem {arb : ArbMode} {pointer : Nat} {l : List Campaign} {c : Campaign}
    (h : arbitrate arb pointer l = some c) : c ∈ l ∧ c.priority = bestPriority l := by
  have hkept : c ∈ l.filter (fun c => c.priority == bestPriority l) := by
    unfold arbitrate at h
    dsimp only at h
    cases arb with
    | fixed => exact List.mem_of_head? h
    | rotating =>
      dsimp only at h
      split at h
      · cases h; exact List.mem_of_find?_eq_some ‹_›
      · exact List.mem_of_head? h
  simpa using List.mem_filter.mp hkept

theorem arbitrate_arbitrated {arb : ArbMode} {pointer : Nat} {l : List Campaign} {c : Campaign} (ho : InOrder Campaign.slot l)
    (h : arbitrate arb pointer l = some c) : Arbitrated arb pointer l c := by
  obtain ⟨hmem, hbest⟩ := arbitrate_mem h
  have hkept : ∀ d ∈ l, d.priority = c.priority → d ∈ l.filter (fun c => c.priority == bestPriority l) :=
    fun d hd hp => List.mem_filter.mpr ⟨hd, by simpa using hp.trans hbest⟩
  have hord : InOrder Campaign.slot (l.filter (fun c => c.priority == bestPriority l)) := List.Pairwise.filter _ ho
  refine ⟨hmem, fun d hd => hbest ▸ bestPriority_le hd, fun d hd hp ha => ?_, fun d hd hp ha => ?_⟩
  · subst ha
    exact head?_le hord h (hkept d hd hp)
  · subst ha
    unfold arbitrate at h
    dsimp only at h
    split at h
    · rename_i a hfind
      cases h
      have hafter : pointer < c.slot := by simpa using List.find?_some hfind
      exact ⟨fun _ hlt => hord.find?_lowest hfind (hkept d hd hp) (by simpa using hlt), fun hle => by omega⟩
    · rename_i hfind
      have hnone : ∀ x ∈ l.filter (fun c => c.priority == bestPriority l), x.slot ≤ pointer := fun x hx => by
        simpa using List.find?_eq_none.mp hfind x hx
      have hle : c.slot ≤ d.slot := head?_le hord h (hkept d hd hp)
      exact ⟨fun _ _ => hle, fun _ => ⟨hnone d (hkept d hd hp), hle⟩⟩

/-! ## Eligible receivers and the requesting set (R76 to R79, R102, R127) -/

theorem State.claimed_false_iff {s : State} {c : Campaign} {u : Nat} :
    s.claimed c u = false ↔ ∀ w ∈ s.works, w.slot = c.slot → w.seq = c.seq → w.dest ≠ some u := by
  simp [State.claimed, Work.of]

theorem State.eligible_iff {s : State} {c : Campaign} {ph : Phase} {e : Entry} : s.eligible c ph e = true ↔
    c.slot ∈ e.pending ∧ c.slot ∉ e.tried ∧ (c.pass = some 1 ∨ e.state ≠ .silent) ∧ s.channelOf e = ph
      ∧ ∀ w ∈ s.works, w.slot = c.slot → w.seq = c.seq → w.dest ≠ some e.unit := by
  rw [State.eligible, Bool.and_eq_true, Bool.and_eq_true, Campaign.owes_iff, decide_eq_true_eq, Bool.not_eq_true',
    State.claimed_false_iff, Campaign.Owed]
  tauto

theorem State.requests_confirmed {s : State} {ph : Phase} {c : Campaign} (h : c.mode = .confirmed) :
    s.requests ph c = true ↔ c.state = .running ∧ ∃ e ∈ s.roster.entries, s.eligible c ph e = true := by
  unfold Campaign.mode at h
  unfold State.requests
  split at h
  · simp [State.firstEligible, *]
  · cases h

theorem State.requests_broadcast {s : State} {ph : Phase} {c : Campaign} (h : c.mode = .broadcast) :
    s.requests ph c = true ↔ c.state = .running ∧ (∃ r, c.run = some r ∧ 0 < r.remaining.get ph)
      ∧ .transmissionEnded c.slot c.seq ∉ s.reports ph := by
  unfold Campaign.mode at h
  unfold State.requests
  split at h
  · cases h
  · cases hr : c.run <;> simp [State.countPending, *]

theorem State.mem_requesting {s : State} {ph : Phase} {c : Campaign} :
    c ∈ s.requesting ph ↔ c ∈ s.campaigns.table ∧ s.requests ph c = true := List.mem_filter

/-- A requesting campaign names a unit of work, where the network number is known. -/
theorem State.workFor_some {s : State} {ph : Phase} {c : Campaign} (hr : s.requests ph c = true)
    (hn : s.store.site.fields.network ≠ none) : ∃ w, s.workFor ph c = some w := by
  obtain ⟨network, hn⟩ := Option.ne_none_iff_exists'.mp hn
  unfold State.requests at hr
  unfold State.workFor
  rw [hn]
  dsimp only
  split
  · rename_i hterms
    rw [hterms] at hr
    obtain ⟨e, he⟩ := Option.isSome_iff_exists.mp (Bool.and_eq_true_iff.mp hr).2
    exact ⟨_, by rw [he]; rfl⟩
  · exact ⟨_, rfl⟩

theorem State.grantable_iff {s : State} {ph : Phase} : (s.grantable ph).isSome = true ↔
    (s.channel ph).activity = .idle ∧ (s.channel ph).masked = false ∧ s.requesting ph ≠ []
      ∧ s.store.site.fields.network ≠ none := by
  constructor
  · intro h
    obtain ⟨w, h⟩ := Option.isSome_iff_exists.mp h
    unfold State.grantable at h
    dsimp only at h
    split at h
    · rename_i hidle
      split at h
      · rename_i winner hw
        refine ⟨hidle.1, hidle.2, List.ne_nil_of_mem (arbitrate_mem hw).1, fun hn => ?_⟩
        simp [State.workFor, hn] at h
      · cases h
    · cases h
  · rintro ⟨hidle, hmask, hreq, hnet⟩
    obtain ⟨c, hc⟩ := arbitrate_some (s.channel ph).arb (s.channel ph).pointer hreq
    obtain ⟨w, hw⟩ := State.workFor_some (State.mem_requesting.mp (arbitrate_mem hc).1).2 hnet
    simp [State.grantable, hidle, hmask, hc, hw]

/-- What a unit of work granted to a campaign records (R79, R80, R103). -/
structure State.Grants (s : State) (ph : Phase) (network : Nat) (c : Campaign) (w : Work) : Prop where
  slot : w.slot = c.slot
  seq : w.seq = c.seq
  order : w.order = c.order
  plan : w.plan = c.snapshot
  fragment : w.fragment = 1
  count : w.count = c.fragments
  network : w.network = network
  channel : w.channel = ph
  exchange : c.mode = .confirmed → ∃ e, s.firstEligible c ph = some e ∧ w.kind = .exchange e.unit e.route
  broadcast : ∀ base budget interval, c.terms = .broadcast base budget interval →
    w.kind = .broadcast c.target.groupNumber budget

theorem State.workFor_grants {s : State} {ph : Phase} {network : Nat} {c : Campaign} {w : Work}
    (hn : s.store.site.fields.network = some network) (h : s.workFor ph c = some w) : s.Grants ph network c w := by
  unfold State.workFor at h
  rw [hn] at h
  dsimp only at h
  split at h
  · rename_i limit hterms
    obtain ⟨e, he, rfl⟩ := Option.map_eq_some_iff.mp h
    exact ⟨rfl, rfl, rfl, rfl, rfl, rfl, rfl, rfl, fun _ => ⟨e, he, rfl⟩, fun _ _ _ hb => by rw [hterms] at hb; cases hb⟩
  · rename_i base budget interval hterms
    injection h with h
    subst h
    refine ⟨rfl, rfl, rfl, rfl, rfl, rfl, rfl, rfl, fun hm => ?_, fun _ _ _ hb => ?_⟩
    · simp [Campaign.mode, hterms] at hm
    · rw [hterms] at hb
      cases hb
      rfl

/-- A grant, where one can be made: the winner, its unit of work, and the channel behind it (R127 to R129). -/
theorem State.grantable_some {s : State} {ch : Phase} {network : Nat} (hidle : (s.channel ch).activity = .idle)
    (hmask : (s.channel ch).masked = false) (hreq : s.requesting ch ≠ []) (hnet : s.store.site.fields.network = some network)
    (ho : InOrder Campaign.slot (s.requesting ch)) : ∃ c w, s.grantable ch = some w
      ∧ Arbitrated (s.channel ch).arb (s.channel ch).pointer (s.requesting ch) c ∧ s.Grants ch network c w := by
  obtain ⟨c, hc⟩ := arbitrate_some (s.channel ch).arb (s.channel ch).pointer hreq
  obtain ⟨w, hw⟩ := State.workFor_some (State.mem_requesting.mp (arbitrate_mem hc).1).2
    (Option.ne_none_iff_exists'.mpr ⟨network, hnet⟩)
  exact ⟨c, w, by simp [State.grantable, hidle, hmask, hc, hw], arbitrate_arbitrated ho hc, State.workFor_grants hnet hw⟩

theorem State.grantTo_eq (s : State) (ch : Phase) (w : Work) : s.grantTo ch w = s.setChannel ch { s.channel ch with
    activity := .sensing w s.line.quietInterval s.line.accessLimit, pointer := w.slot } :=
  State.setActivity_setChannel _ _ _ _

/-! ## What is due (log 2) -/

theorem mem_dueIf {b : Bool} {c d : Instr} : d ∈ dueIf b c ↔ b = true ∧ d = c := by
  unfold dueIf
  split <;> simp_all

/-- The command of an inbound request is the one that takes that request. -/
theorem requestOf_iff {c : Instr} {i : Inbound} : requestOf c = some i ↔ c = i.command := by
  constructor
  · intro h
    cases c <;> simp only [requestOf, reduceCtorEq, Option.some.injEq] at h <;> subst h <;> rfl
  · rintro rfl
    obtain ⟨h, r⟩ := i
    cases r <;> rfl

theorem State.mem_dueRequest {s : State} {c : Instr} :
    c ∈ s.dueRequest ↔ s.link.reply = none ∧ ∃ i rest, s.link.inbound = i :: rest ∧ requestOf c = some i := by
  unfold State.dueRequest
  split
  · rename_i i rest hr hi
    simp [hr, hi, requestOf_iff]
  · rename_i hno
    refine iff_of_false List.not_mem_nil fun ⟨hr, i, rest, hi, _⟩ => hno _ _ hr hi

/-- The expiry due by a channel's timers, command by command. -/
theorem Activity.mem_due {a : Activity} {ch : Phase} {c : Instr} : c ∈ a.due ch ↔
    (c = .settleExpired ch ∧ a = .settling 0)
    ∨ (c = .quietIntervalHeard ch ∧ ∃ w access, a = .sensing w 0 access)
    ∨ (c = .accessLimitExpired ch ∧ ∃ w quiet, a = .sensing w quiet 0)
    ∨ (c = .replyWindowExpired ch ∧ ∃ w dest route, a = .awaiting w 0 ∧ w.kind = .exchange dest route)
    ∨ (c = .tailExpired ch ∧ ∃ w group budget, a = .awaiting w 0 ∧ w.kind = .broadcast group budget) := by
  cases a with
  | awaiting w left =>
    simp only [Activity.due]
    cases hk : w.kind <;> simp [mem_dueIf, hk, and_comm]
  | _ => simp [Activity.due, mem_dueIf, and_comm]

theorem mem_takings {l : List ChannelReport} {ch : Phase} {c : Instr} : c ∈ l.map (fun r => r.taking ch) ↔
    (c = .outcomeTaken ch ∧ ∃ w v, .outcome w v ∈ l)
    ∨ (c = .transmissionEndedTaken ch ∧ ∃ slot seq, .transmissionEnded slot seq ∈ l)
    ∨ (c = .tailEndedTaken ch ∧ ∃ slot seq, .tailEnded slot seq ∈ l) := by
  rw [List.mem_map]
  constructor
  · rintro ⟨r, hr, rfl⟩
    cases r with
    | outcome w v => exact .inl ⟨rfl, w, v, hr⟩
    | transmissionEnded slot seq => exact .inr (.inl ⟨rfl, slot, seq, hr⟩)
    | tailEnded slot seq => exact .inr (.inr ⟨rfl, slot, seq, hr⟩)
  · rintro (⟨rfl, w, v, h⟩ | ⟨rfl, slot, seq, h⟩ | ⟨rfl, slot, seq, h⟩)
    · exact ⟨_, h, rfl⟩
    · exact ⟨_, h, rfl⟩
    · exact ⟨_, h, rfl⟩

theorem Store.mem_due {st : Store} {c : Instr} : c ∈ st.due ↔ (c = .resumeGuardExpired ∧ st.guard = some 0)
    ∨ (c = .eraseComplete ∧ ∃ k phase n, st.active = some (.erase k phase n) ∧ 900 ≤ n)
    ∨ (c = .snapshotDelivery ∧ st.deliveries ≠ []) := by
  unfold Store.due
  rcases st.active with _ | ⟨⟩ | ⟨⟩ | ⟨⟩ | _ <;> simp [mem_dueIf, and_comm]
  rfl

theorem State.mem_dueOn {s : State} {ch : Phase} {c : Instr} : c ∈ s.dueOn ch ↔
    c ∈ (s.channel ch).activity.due ch ∨ (c = .grant ch ∧ (s.grantable ch).isSome = true)
      ∨ c ∈ (s.reports ch).map (fun r => r.taking ch) := by
  rw [State.dueOn, List.mem_append, List.mem_append, mem_dueIf, or_assoc, and_comm]

/-- What is due, source by source. -/
theorem State.mem_due {s : State} {c : Instr} : c ∈ s.due ↔ c ∈ s.dueRequest ∨ (∃ ch, c ∈ s.dueOn ch) ∨ c ∈ s.store.due
    ∨ (∃ d ∈ s.campaigns.table, d.intervalTimer = some 0 ∧ c = .intervalExpired d.slot)
    ∨ (c = .secondComplete ∧ 3000 ≤ s.clock.part) := by
  have hphase : (c ∈ s.dueOn .l1 ∨ c ∈ s.dueOn .l2 ∨ c ∈ s.dueOn .l3) ↔ ∃ ch, c ∈ s.dueOn ch :=
    ⟨fun h => by rcases h with h | h | h <;> exact ⟨_, h⟩, fun ⟨ch, h⟩ => by cases ch <;> simp [h]⟩
  have htimer : c ∈ (s.campaigns.table.filter (fun d => decide (d.intervalTimer = some 0))).map (fun d => .intervalExpired d.slot)
      ↔ ∃ d ∈ s.campaigns.table, d.intervalTimer = some 0 ∧ c = .intervalExpired d.slot := by
    simp [and_assoc, eq_comm]
  rw [← hphase, ← htimer]
  simp only [State.due, List.mem_append, mem_dueIf, decide_eq_true_eq, or_assoc]
  rw [and_comm (a := c = _)]
  rfl

/-- Due is what the state says is due. -/
theorem State.mem_due_iff (s : State) (c : Instr) : c ∈ s.due ↔ s.IsDue c := by
  rw [State.mem_due, State.mem_dueRequest, Store.mem_due]
  simp only [State.mem_dueOn, Activity.mem_due, mem_takings, State.grantable_iff]
  cases c <;> simp only [State.IsDue]
  case intervalExpired k => simp [requestOf, eq_comm (a := k), and_comm]
  all_goals simp [requestOf]

/-! ## A millisecond (R154, R161, R172) -/

theorem Clock.tick_eq (c : Clock) (crossing : Bool) : c.tick crossing = { c with
    part := c.part + match c.source, crossing, c.frequency with
      | .crystal, _, _ => 3
      | .mains, true, .hz50 => 30
      | .mains, true, .hz60 => 25
      | .mains, false, _ => 0 } := by
  obtain ⟨time, part, reference, source, param, frequency⟩ := c
  cases source <;> cases crossing <;> cases frequency <;> rfl

theorem Store.tick_eq (st : Store) : st.tick = { st with
    guard := st.guard.map (fun n => n - 1)
    active := match st.active with
      | some (.erase sector phase runTime) => some (.erase sector phase (min 900 (runTime + 1)))
      | o => o } := by
  unfold Store.tick
  rcases st.active with _ | ⟨⟩ | ⟨⟩ | ⟨⟩ | _ <;> rfl

theorem Activity.tick_eq (a : Activity) : a.tick = match a with
    | .settling left => .settling (left - 1)
    | .sensing w quiet access => .sensing w (quiet - 1) (access - 1)
    | .awaiting w left => .awaiting w (left - 1)
    | a => a := by
  cases a <;> rfl

/-- The open choice is one of the commands due. -/
theorem chooseDue_mem {l : List Instr} (free : Nat) (h : l ≠ []) : ∃ c ∈ l, chooseDue free l = [c] := by
  have hlt : Config.dueChoice free % l.length < l.length := Nat.mod_lt _ (List.length_pos_iff.mpr h)
  refine ⟨_, List.getElem_mem hlt, ?_⟩
  rw [chooseDue, List.drop_eq_getElem_cons hlt]
  rfl

theorem State.idle_choice {s : State} (h : 2 ≤ s.due.length) :
    s.idle = (s.setPending (chooseDue s.free s.due)).setFree (s.free + 1) := by
  unfold State.idle
  split
  · rename_i hd; rw [hd] at h; exact absurd h (Nat.not_succ_le_zero 1)
  · rename_i hd; rw [hd] at h; exact absurd h (Nat.lt_irrefl 1)
  · rfl

end Sys2Proof.Machine
end

section
/-! The transmitter, the line channels and the idle step, settled. -/

namespace Sys2Proof.Machine

/-- Settles O8: the transmitter's choice once it is free, and the parts of an outgoing frame. -/
theorem theTransmitterSendsRepliesBeforeNotices : Obligations.TheTransmitterSendsRepliesBeforeNotices := by
  refine ⟨fun s => ⟨fun r hr => ?_, fun n rest hr hn => ?_, fun hr hn => ?_, rfl⟩, fun s n => ?_, fun o =>
    ⟨o.kind, o.tag, o.body, rfl, o.body_length_le, ?_, ?_⟩⟩
  · exact congrArg Host.Outcome.next (congrArg s.setLink (Link.transmitted_reply (l := { s.link with tx := none }) rfl hr))
  · exact congrArg Host.Outcome.next (congrArg s.setLink (Link.transmitted_notice (l := { s.link with tx := none }) rfl hr hn))
  · exact congrArg Host.Outcome.next (congrArg s.setLink (Link.transmitted_idle (l := { s.link with tx := none }) rfl hr hn))
  · unfold State.notify
    split <;> rename_i h <;> simp only [Config.noticeSize] at h
    · rw [if_pos h]
    · rw [if_neg h]
  · rintro r rfl
    refine ⟨rfl, rfl, fun hok => ⟨r.rest, ?_⟩, fun hno => ?_⟩
    · simp [Outgoing.body, hok]
    · simp [Outgoing.body, Reply.rest, hno]
  · rintro n rfl
    exact ⟨rfl, rfl⟩

/-- Settles O39, by the channel in SENSING: the signal, the quiet interval and the access limit. -/
theorem sensingEndsInSendingOrDeferral : Obligations.SensingEndsInSendingOrDeferral := by
  refine ⟨fun ch s bytes => ⟨fun w quiet access h => ⟨?_, ?_⟩, fun h => ?_⟩, fun ch s w quiet access h => ⟨fun hj => ?_, fun hj => ?_⟩,
    fun ch s w quiet access h => ⟨fun hj => ?_, fun hj => ?_⟩⟩
  · exact congrArg finish (State.hearSignal_sensing h)
  · exact (execInboundLineFrame_sensing bytes h).trans (congrArg finish (State.hearSignal_sensing h))
  · exact congrArg finish (State.hearSignal_deaf h)
  · refine (execQuietIntervalHeard_sensing h).trans (congrArg finish ((State.startSending_clear w hj).trans ?_))
    simp only [Work.frame, Work.body_eq] <;> rfl
  · refine (execQuietIntervalHeard_sensing h).trans (congrArg finish ((State.startSending_jammed w hj).trans ?_))
    simp only [Work.frame, Work.body_eq] <;> rfl
  · refine (execAccessLimitExpired_sensing h).trans (congrArg finish ?_)
    have hj' : ((s.endUnit ch w .deferred .idle).channel ch).jam = true :=
      (congrArg Channel.jam (State.channel_setChannel_same _ _ _)).trans hj
    rw [State.jamSet_jammed w hj', State.endUnit_eq, Channel.jam_eq _ hj]
  · refine (execAccessLimitExpired_sensing h).trans (congrArg finish ?_)
    have hj' : ((s.endUnit ch w .deferred .idle).channel ch).jam = false :=
      (congrArg Channel.jam (State.channel_setChannel_same _ _ _)).trans hj
    rw [State.jamSet_clear w hj', State.endUnit_eq, State.channel_setChannel_same, State.setChannel_setChannel]
    rfl

/-- Settles O40, by what was sent and by what a window or a tail awaits. -/
theorem sendingsEndInWindowsTailsOrTheNextFragment : Obligations.SendingsEndInWindowsTailsOrTheNextFragment := by
  refine ⟨fun ch s w frame h => ⟨fun dest route hk => ?_, fun group budget hk => ⟨fun hf => ?_, fun hf => ?_⟩⟩,
    fun ch s w left h => ⟨fun dest route hk => ?_, fun group budget hk => ?_⟩⟩
  · exact (execSendingEnd_sending h).trans (congrArg finish (s.sent_exchange ch hk))
  · exact (execSendingEnd_sending h).trans (congrArg finish (s.sent_fragment ch hk hf))
  · exact (execSendingEnd_sending h).trans (congrArg finish (s.sent_last ch hk hf))
  · exact execReplyWindowExpired_awaiting h hk
  · exact execTailExpired_awaiting h hk

/-- Settles O41, by the first row of the classification that applies. -/
theorem replyWindowsClassifyWhatTheyHear : Obligations.ReplyWindowsClassifyWhatTheyHear := by
  refine ⟨fun ch s w left dest route bytes h hk => ?_, fun ch s bytes h => execInboundLineFrame_deaf bytes h⟩
  have hears : ∀ e, classify w dest route bytes s.clock.time = e →
      exec (.inboundLineFrame ch bytes) s = finish (s.answered ch w e) := by
    rintro e rfl
    exact execInboundLineFrame_window bytes h hk
  refine ⟨fun hr => ?_, fun f hr => ?_, fun f hr => ?_, fun f hr => ⟨fun hs => ?_, fun hn hs hd => ⟨fun v hv => ?_, fun i ha hi => ?_,
    fun ha hi => ?_⟩, fun hn hs hd => ⟨fun k ha h1 hk => ?_, fun ho => ?_⟩⟩⟩
  · exact hears (.ends .garbled) (by simp [classify, hr])
  · exact hears .setAside (by simp [classify, hr])
  · exact hears .setAside (by simp [classify, hr])
  · exact hears .setAside (classify_stranger _ hr hs)
  · exact hears (.ends v) ((classify_destination _ hr hn hs hd).trans (destinationAnswer_verdict hv))
  · exact hears .setAside ((classify_destination _ hr hn hs hd).trans (by simp [destinationAnswer, ha, hi]))
  · exact hears .nextFragment ((classify_destination _ hr hn hs hd).trans (by simp [destinationAnswer, ha, hi]))
  · exact hears (.ends (.hopFailed k)) (classify_hopFailed _ hr hn hs hd ha h1 hk)
  · exact hears .setAside (classify_other _ hr hn hs hd ho)

/-- Settles O37, by the campaign's mode. -/
theorem requestingCampaignsHaveWorkOnThePhase : Obligations.RequestingCampaignsHaveWorkOnThePhase := by
  intro s ph c
  rw [State.mem_requesting]
  cases hm : c.mode with
  | confirmed => simp [State.requests_confirmed hm, State.eligible_iff]
  | broadcast => simp [State.requests_broadcast hm]

/-- Settles O38: the arbiter's choice and the record of its unit of work. -/
theorem grantsServeTheArbitersChoice : Obligations.GrantsServeTheArbitersChoice := by
  intro ch s network hidle hmask hreq hnet hc hr
  obtain ⟨c, w, hw, harb, hg⟩ := State.grantable_some hidle hmask hreq hnet (hc.requesting_inOrder ch)
  refine ⟨c, w, harb.mem, ?_, harb.best, harb.fixed, harb.rotating, hg.slot, hg.seq, hg.order, hg.plan, hg.fragment, ?_,
    hg.network, hg.channel, fun hm => ?_, fun base budget interval hb => ?_⟩
  · have hexec : exec (.grant ch) s = finish (s.grantTo ch w) := by
      show execGrant ch s = _
      unfold execGrant
      rw [hw]
    rw [hexec, State.grantTo_eq, hg.slot]
    rfl
  · rw [hg.count]; rfl
  · obtain ⟨e, he, hk⟩ := hg.exchange hm
    exact ⟨e, List.mem_of_find?_eq_some he, List.find?_some he, hk, fun d hd hel => hr.order.find?_lowest he hd hel⟩
  · rw [hg.broadcast _ _ _ hb]; rfl

/-- Settles O2: what is due by the state, and the timers of a millisecond. -/
theorem stepOnAnEmptyQueueTakesWhatIsDue : Obligations.StepOnAnEmptyQueueTakesWhatIsDue := by
  refine fun s hp => ⟨s.mem_due_iff, s.idle, by rw [step, hp], fun hd => ⟨Config.zeroCrossing s.free, ?_⟩, fun c hd => ?_, fun hd => ?_⟩
  · have hidle : s.idle = s.passMillisecond := by rw [State.idle, hd]
    rw [hidle, State.passMillisecond, Clock.tick_eq]
    rw [Store.tick_eq]
    simp only [Activity.tick_eq]
    rfl
  · rw [State.idle, hd]
  · obtain ⟨c, hc, hchoice⟩ := chooseDue_mem s.free (fun h => by rw [h] at hd; exact absurd hd (by decide) : s.due ≠ [])
    exact ⟨c, hc, by rw [State.idle_choice hd, hchoice]⟩

end Sys2Proof.Machine
end

section
/-! SUPPORT. The reply behind a request, events that the state does not admit, and what PARAM SET sets. -/

namespace Sys2Proof.Machine

/-! ## The reply (R188, R189) -/

/-- Where a request can be taken, its reply is what its owner or the link controller gave, behind a lawful change. -/
theorem exec_replied {c : Instr} {h : Header} {r : Request} {s : State} (hc : requestOf c = some ⟨h, r⟩) (ht : s.CanTake h r) :
    ∃ (u : State) (code : ResultCode) (body : ReplyBody), exec c s = .next (u.replied h r code body) ∧ u.link.tx = s.link.tx ∧ (code ≠ .ok → body = .none) := by
  by_cases hk : ∃ k, r = .unknown k
  · obtain ⟨k, rfl⟩ := hk
    cases c <;> simp only [requestOf, Option.some.injEq, Inbound.mk.injEq, reduceCtorEq, and_false] at hc
    obtain ⟨rfl, hk⟩ := hc
    cases hk
    exact ⟨s.popInbound, _, _, execUnknownKind_taken ht, rfl, fun _ => rfl⟩
  · rw [exec_request hc (fun k hk' => hk ⟨k, hk'⟩) s, takeRequest_taken ht]
    refine ⟨_, _, _, rfl, ?_, ?_⟩
    · unfold serveFormed
      split
      · rfl
      · exact (serveOf_lawful r s.popInbound).tx
    · unfold serveFormed
      split
      · exact fun _ => rfl
      · exact fun hcode => (serveOf_refused r _ hcode).2

theorem State.replied_free {u : State} (h : Header) (r : Request) (code : ResultCode) (body : ReplyBody)
    (ht : u.link.tx = none) : (u.replied h r code body).link.tx = some (.reply ⟨r.kind, h.tag, code, body⟩)
      ∧ (u.replied h r code body).link.reply = none := by
  have hl : (u.replied h r code body).link = _ :=
    Link.transmitted_reply (l := { u.link with reply := some ⟨r.kind, h.tag, code, body⟩ }) ht rfl
  rw [hl]
  exact ⟨rfl, rfl⟩

theorem State.replied_busy {u : State} {o : Outgoing} (h : Header) (r : Request) (code : ResultCode) (body : ReplyBody)
    (ht : u.link.tx = some o) : (u.replied h r code body).link.tx = some o
      ∧ (u.replied h r code body).link.reply = some ⟨r.kind, h.tag, code, body⟩ := by
  have hl : (u.replied h r code body).link = _ :=
    Link.transmitted_busy (l := { u.link with reply := some ⟨r.kind, h.tag, code, body⟩ }) ht
  rw [hl]
  exact ⟨ht, rfl⟩

/-! ## Events that the state does not admit (log 1) -/

theorem takeFirst_none {p : ChannelReport → Bool} {l : List ChannelReport} (h : ∀ r ∈ l, p r = false) : takeFirst p l = none := by
  induction l with
  | nil => rfl
  | cons r rest ih =>
    unfold takeFirst
    rw [h r List.mem_cons_self, ih fun x hx => h x (List.mem_cons_of_mem _ hx)]
    rfl

theorem State.grantable_none {s : State} {ch : Phase} (h : (s.channel ch).activity ≠ .idle ∨ (s.channel ch).masked = true
    ∨ s.requesting ch = [] ∨ s.store.site.fields.network = none) : s.grantable ch = none := by
  rw [← Option.not_isSome_iff_eq_none, State.grantable_iff]
  rintro ⟨h1, h2, h3, h4⟩
  rcases h with h | h | h | h
  · exact h h1
  · rw [h2] at h; cases h
  · exact h3 h
  · exact h4 h

section
variable {ch : Phase} {s : State}

theorem execSettleExpired_still (h : ∀ n, (s.channel ch).activity ≠ .settling n) : execSettleExpired ch s = .next s := by
  unfold execSettleExpired
  split
  · exact absurd ‹_› (h _)
  all_goals rfl

theorem execQuietIntervalHeard_still (h : ∀ w quiet access, (s.channel ch).activity ≠ .sensing w quiet access) :
    execQuietIntervalHeard ch s = .next s := by
  unfold execQuietIntervalHeard
  split
  · exact absurd ‹_› (h _ _ _)
  all_goals rfl

theorem execAccessLimitExpired_still (h : ∀ w quiet access, (s.channel ch).activity ≠ .sensing w quiet access) :
    execAccessLimitExpired ch s = .next s := by
  unfold execAccessLimitExpired
  split
  · exact absurd ‹_› (h _ _ _)
  all_goals rfl

theorem execSendingEnd_still (h : ∀ w frame, (s.channel ch).activity ≠ .sending w frame) : execSendingEnd ch s = .next s := by
  unfold execSendingEnd
  split
  · exact absurd ‹_› (h _ _)
  all_goals rfl

theorem execReplyWindowExpired_still
    (h : ∀ w left dest route, (s.channel ch).activity = .awaiting w left → w.kind ≠ .exchange dest route) :
    execReplyWindowExpired ch s = .next s := by
  unfold execReplyWindowExpired
  split
  · rename_i ha
    split
    · exact absurd ‹_› (h _ _ _ _ ha)
    · rfl
  all_goals rfl

theorem execTailExpired_still
    (h : ∀ w left group budget, (s.channel ch).activity = .awaiting w left → w.kind ≠ .broadcast group budget) :
    execTailExpired ch s = .next s := by
  unfold execTailExpired
  split
  · rename_i ha
    split
    · rfl
    · exact absurd ‹_› (h _ _ _ _ ha)
  all_goals rfl

theorem execOutcomeTaken_still (h : ∀ r ∈ s.reports ch, r.isOutcome = false) : execOutcomeTaken ch s = .next s := by
  rw [execOutcomeTaken, takeFirst_none h]

theorem execTransmissionEndedTaken_still (h : ∀ r ∈ s.reports ch, r.isTransmissionEnded = false) :
    execTransmissionEndedTaken ch s = .next s := by
  rw [execTransmissionEndedTaken, takeFirst_none h]

theorem execTailEndedTaken_still (h : ∀ r ∈ s.reports ch, r.isTailEnded = false) : execTailEndedTaken ch s = .next s := by
  rw [execTailEndedTaken, takeFirst_none h]

theorem execGrant_still (h : s.grantable ch = none) : execGrant ch s = .next s := by rw [execGrant, h]

theorem execIntervalExpired_still {k : Nat} (h : ∀ c, s.campaign k = some c → c.state ≠ .resting) :
    execIntervalExpired k s = .next s := by
  unfold execIntervalExpired
  split
  · rfl
  · rename_i c hc
    split
    · exact absurd ‹_› (h c hc)
    · rfl

end

section
variable {s : State}

theorem execProgramComplete_still (h : ∀ p plan, s.store.active ≠ some (.program p plan)) : execProgramComplete s = .next s := by
  unfold execProgramComplete
  split
  · exact absurd ‹_› (h _ _)
  all_goals rfl

theorem execEraseComplete_still (h : ∀ k phase n, s.store.active ≠ some (.erase k phase n)) : execEraseComplete s = .next s := by
  unfold execEraseComplete
  split
  · exact absurd ‹_› (h _ _ _)
  all_goals rfl

theorem execSuspensionTaken_still (h : ∀ k owner n, s.store.active ≠ some (.erase k (.suspending owner) n)) :
    execSuspensionTaken s = .next s := by
  unfold execSuspensionTaken
  split
  · exact absurd ‹_› (h _ _ _)
  · exact absurd ‹_› (h _ _ _)
  all_goals rfl

theorem execSiteWriteComplete_still (h : ∀ q, s.store.active ≠ some (.siteWrite q)) : execSiteWriteComplete s = .next s := by
  unfold execSiteWriteComplete
  split
  · exact absurd ‹_› (h _)
  all_goals rfl

theorem execSiteLockComplete_still (h : s.store.active ≠ some .siteLock) : execSiteLockComplete s = .next s := by
  unfold execSiteLockComplete
  split
  · exact absurd ‹_› h
  all_goals rfl

theorem execResumeGuardExpired_still (h : s.store.guard = none) : execResumeGuardExpired s = .next s := by
  rw [execResumeGuardExpired, h]

theorem execSnapshotDelivery_still (h : s.store.deliveries = []) : execSnapshotDelivery s = .next s := by
  rw [execSnapshotDelivery, h]

end

/-! ## PLAN READ (R175) -/

theorem Store.sectorSuspended_false_iff {st : Store} {k : Nat} :
    st.sectorSuspended k = false ↔ ∀ e, st.suspended = some e → e.sector ≠ k := by
  unfold Store.sectorSuspended
  cases st.suspended <;> simp

theorem Store.planOf_eq_some_iff {st : Store} {p : Nat} {plan : Plan} :
    st.planOf p = some plan ↔ st.slots[p]? = some (.programmed plan) := by
  unfold Store.planOf Store.slot
  split
  · rename_i other h
    simp [h]
  · rename_i hno
    refine iff_of_false nofun fun h => hno _ h

/-- The checks of a rule and the model's list of checks agree one by one, refusal codes included, each where those before it
pass. -/
def ChecksFollow : List (Prop × ResultCode) → List (Bool × ResultCode) → Prop
  | [], [] => True
  | (check, refusal) :: l, (passes, given) :: m => ((passes = true ↔ check) ∧ given = refusal) ∧ (check → ChecksFollow l m)
  | _, _ => False

theorem ChecksFollow.cons {check : Prop} {passes : Bool} {refusal : ResultCode} {l : List (Prop × ResultCode)}
    {m : List (Bool × ResultCode)} (h : passes = true ↔ check) (hrest : check → ChecksFollow l m) :
    ChecksFollow ((check, refusal) :: l) ((passes, refusal) :: m) := ⟨⟨h, rfl⟩, hrest⟩

/-- The first check that fails gives the code of the model's list. -/
theorem ChecksFollow.refusal {code : ResultCode} : ∀ {l : List (Prop × ResultCode)} {m : List (Bool × ResultCode)},
    ChecksFollow l m → FirstFails l code → firstRefusal m = some code
  | [], _, _, hf => hf.elim
  | (check, refusal) :: l, (passes, given) :: m, ⟨⟨hiff, hgiven⟩, hrest⟩, hf => by
    rcases hf with ⟨hno, rfl⟩ | ⟨hyes, hf⟩
    · rw [firstRefusal, if_neg (mt hiff.mp hno), hgiven]
    · rw [firstRefusal, if_pos (hiff.mpr hyes)]
      exact (hrest hyes).refusal hf

/-- Where every check passes the model's list refuses nothing. -/
theorem ChecksFollow.passed : ∀ {l : List (Prop × ResultCode)} {m : List (Bool × ResultCode)},
    ChecksFollow l m → AllPass l → firstRefusal m = none
  | [], [], _, _ => rfl
  | (check, refusal) :: l, (passes, given) :: m, ⟨⟨hiff, _⟩, hrest⟩, hp => by
    obtain ⟨hhead, htail⟩ := List.forall_mem_cons.mp hp
    rw [firstRefusal, if_pos (hiff.mpr hhead)]
    exact (hrest hhead).passed htail

/-- The three checks of PLAN READ that come before the plan. -/
theorem Store.readChecks_follow (st : Store) (p : Nat) : ChecksFollow
    [(p < 32, .malformed), (st.active = none, .storeBusy),
      (∀ e, st.suspended = some e → e.sector ≠ p / 4, .sectorSuspended)]
    [(decide (p < Config.planSlots), .malformed), (st.active.isNone, .storeBusy),
      (!st.sectorSuspended (sectorOf p), .sectorSuspended)] :=
  .cons decide_eq_true_iff fun _ => .cons Option.isNone_iff_eq_none fun _ =>
    .cons (by rw [Bool.not_eq_true', Store.sectorSuspended_false_iff]; rfl) fun _ => trivial

/-- A list of checks fails where a part of it does. -/
theorem FirstFails.append {l m : List (Prop × ResultCode)} {code : ResultCode} (h : FirstFails (l ++ m) code) :
    FirstFails l code ∨ (AllPass l ∧ FirstFails m code) := by
  induction l with
  | nil => exact .inr ⟨nofun, h⟩
  | cons p l ih =>
    rcases h with h | ⟨hp, h⟩
    · exact .inl (.inl h)
    · rcases ih h with h | ⟨hall, h⟩
      · exact .inl (.inr ⟨hp, h⟩)
      · exact .inr ⟨List.forall_mem_cons.mpr ⟨hp, hall⟩, h⟩

theorem servePlanRead_refused {p : Nat} {s : State} {code : ResultCode} (h : FirstFails [
    (p < 32, .malformed), (s.store.active = none, .storeBusy),
    (∀ e, s.store.suspended = some e → e.sector ≠ p / 4, .sectorSuspended),
    (∃ plan, s.store.slots[p]? = some (.programmed plan), .notFound)] code) : servePlanRead p s = refuse s code := by
  rcases FirstFails.append (l := [_, _, _]) (m := [_]) h with h | ⟨hall, h⟩
  · rw [servePlanRead, (s.store.readChecks_follow p).refusal h]
  · have hnone : s.store.planOf p = none := by
      obtain ⟨hno, rfl⟩ | ⟨-, h⟩ := h
      · cases hp : s.store.planOf p with
        | none => rfl
        | some plan => exact absurd ⟨plan, Store.planOf_eq_some_iff.mp hp⟩ hno
      · exact h.elim
    obtain ⟨-, rfl⟩ | ⟨-, h⟩ := h
    · rw [servePlanRead, (s.store.readChecks_follow p).passed hall, hnone]
    · exact h.elim

theorem servePlanRead_accepted {p : Nat} {s : State} {plan : Plan} (h1 : p < 32) (h2 : s.store.active = none)
    (h3 : ∀ e, s.store.suspended = some e → e.sector ≠ p / 4) (h4 : s.store.slots[p]? = some (.programmed plan)) :
    servePlanRead p s = accept s (.plan plan) := by
  rw [servePlanRead, (s.store.readChecks_follow p).passed (by simpa [AllPass] using ⟨h1, h2, h3⟩),
    Store.planOf_eq_some_iff.mpr h4]

/-! ## Power-on and the resets (R179, R193) -/

theorem fillSector_inside {k p : Nat} (v : PlanSlot) {l : List PlanSlot} (hp : p < l.length) (hk : p / 4 = k) :
    (fillSector k v l)[p]? = some v := by
  have hs : sectorOf p = k := hk
  rw [fillSector_at, List.getElem?_eq_getElem hp, Option.map_some, if_pos hs]

theorem fillSector_outside {k p : Nat} (v : PlanSlot) (l : List PlanSlot) (hk : k ≠ p / 4) : (fillSector k v l)[p]? = l[p]? := by
  have hs : ¬ sectorOf p = k := fun h => hk h.symm
  simp [fillSector_at, hs]

theorem damageActive_length (o : Option Operation) (l : List PlanSlot) : (damageActive o l).length = l.length := by
  unfold damageActive
  split <;> simp [fillSector_length]

theorem damageSuspended_length (o : Option SuspendedErase) (l : List PlanSlot) :
    (damageSuspended o l).length = l.length := by
  unfold damageSuspended
  split <;> simp [fillSector_length]

/-- A slot that a suspended erase does not reach keeps what the operation left of it. -/
theorem damageSuspended_other {o : Option SuspendedErase} {p : Nat} (l : List PlanSlot)
    (h : ∀ e, o = some e → e.sector ≠ p / 4) : (damageSuspended o l)[p]? = l[p]? := by
  unfold damageSuspended
  split
  · rename_i e
    exact fillSector_outside _ _ (h e rfl)
  · rfl

/-- A slot is DAMAGED by the suspended erase, or was before it. -/
theorem damageSuspended_damaged {o : Option SuspendedErase} {p : Nat} {l : List PlanSlot} (hp : p < l.length)
    (h : (∃ e, o = some e ∧ p / 4 = e.sector) ∨ l[p]? = some .damaged) : (damageSuspended o l)[p]? = some .damaged := by
  unfold damageSuspended
  split
  · rename_i e
    rcases h with ⟨d, hd, hs⟩ | h
    · cases hd
      exact fillSector_inside _ hp hs
    · rw [fillSector_at, h, Option.map_some]
      split <;> rfl
  · rcases h with ⟨d, hd, hs⟩ | h
    · cases hd
    · exact h

theorem damageActive_other {o : Option Operation} {p : Nat} (l : List PlanSlot) (hw : ∀ plan, o ≠ some (.program p plan))
    (he : ∀ phase n, o ≠ some (.erase (p / 4) phase n)) : (damageActive o l)[p]? = l[p]? := by
  unfold damageActive
  split
  · rename_i q plan
    exact List.getElem?_set_ne fun h => hw plan (by rw [h])
  · rename_i k phase n
    exact fillSector_outside _ _ fun h => he phase n (by rw [h])
  all_goals rfl

theorem damageActive_program {p : Nat} (plan : Plan) {l : List PlanSlot} (hp : p < l.length) :
    (damageActive (some (.program p plan)) l)[p]? = some .damaged := by
  simp [damageActive, hp]

theorem damageActive_erase {p k : Nat} (phase : ErasePhase) (n : Nat) {l : List PlanSlot} (hp : p < l.length) (hk : p / 4 = k) :
    (damageActive (some (.erase k phase n)) l)[p]? = some .damaged :=
  fillSector_inside _ hp hk

theorem Roster.resetAll_eq (r : Roster) : r.resetAll
    = ⟨[], if r.locked then r.segments else List.replicate 8 ⟨1, 1, none, false, false⟩, r.locked, 0, 4, true⟩ := by
  unfold Roster.resetAll
  cases h : r.locked <;> rfl

/-! ## PARAM SET (R194) -/

/-- The parameter that a reference names. -/
def ParamRef.name : ParamRef → ParamName
  | .plain p => p
  | .arbitration _ => .arbitrationMode

theorem paramRef?_name {p : ParamName} {channel : Option (Coded Phase)} {r : ParamRef} (h : paramRef? (some p) channel = some r) :
    r.name = p := by
  unfold paramRef? at h
  split at h
  · rename_i hp; cases hp; cases h; rfl
  · cases h
  · rename_i hp; cases hp; cases h; rfl
  · cases h

theorem paramInRange_admits {r : ParamRef} {v : ParamValue} (h : paramInRange r v = true) : paramAdmits r.name v := by
  unfold paramInRange at h
  split at h <;> first | trivial | exact within_iff.mp h | skip
  · rename_i n
    have hn : n = 50 ∨ n = 60 := by simpa using h
    exact hn

/-- A name and a channel that do not go together name no parameter. -/
theorem paramRef?_improper {name : Coded ParamName} {channel : Option (Coded Phase)} (h : ¬ properlyChannelled name channel) :
    paramRef? name channel = none := by
  refine paramRef?_none ?_
  unfold properlyChannelled at h
  rcases name with _ | p
  · exact .inl rfl
  · rcases channel with _ | _ | ch <;> by_cases hp : p = .arbitrationMode <;> simp_all

theorem decide_switchOf (b : Bool) : decide (switchOf b = .on) = b := by cases b <;> rfl

theorem switchOf_decide (w : Switch) : switchOf (decide (w = .on)) = w := by cases w <;> rfl

theorem State.setChannel_self (s : State) (ph : Phase) : s.setChannel ph (s.channel ph) = s := by
  rw [State.setChannel, State.channel, PerPhase.set_get]; rfl

theorem serveParamSet_bad {q : ParamSetReq} (s : State)
    (h : ¬ properlyChannelled q.name q.channel ∨ ∃ p, q.name = some p ∧ ¬ paramAdmits p q.value) :
    serveParamSet q s = refuse s .malformed := by
  unfold serveParamSet
  split
  · rfl
  · rename_i r hr
    rcases h with h | ⟨p, hp, hv⟩
    · rw [paramRef?_improper h] at hr; cases hr
    · rw [hp] at hr
      have hname := paramRef?_name hr
      rw [if_neg fun hin => hv (hname ▸ paramInRange_admits hin)]

/-- A parameter set within its range: the value it already holds changes nothing. -/
theorem serveParamSet_set {q : ParamSetReq} {r : ParamRef} {s t : State} (hr : paramRef? q.name q.channel = some r)
    (hin : paramInRange r q.value = true) (hset : s.paramValue r ≠ q.value → s.applyParam r q.value = t)
    (hsame : s.paramValue r = q.value → s = t) (hshow : t.paramValue r = q.value) :
    serveParamSet q s = accept t (.param q.value) := by
  have ht : (if s.paramValue r = q.value then s else s.applyParam r q.value) = t := by
    split
    · exact hsame ‹_›
    · exact hset ‹_›
  simp only [serveParamSet, hr, hin, if_true, ht, hshow]

end Sys2Proof.Machine
end

section
/-! Replies and events that cannot occur, settled. -/

namespace Sys2Proof.Machine

/-- Settles O4, event by event. -/
theorem eventsThatCannotOccurChangeNothing : Obligations.EventsThatCannotOccurChangeNothing := fun ch s =>
  ⟨execProgramComplete_still, execEraseComplete_still, execSuspensionTaken_still, execSiteWriteComplete_still,
    execSiteLockComplete_still, execResumeGuardExpired_still, execSnapshotDelivery_still,
    fun h => if_neg (by simp [h]), fun h => if_pos h, execSettleExpired_still,
    fun h => ⟨execQuietIntervalHeard_still h, execAccessLimitExpired_still h⟩, execSendingEnd_still,
    execReplyWindowExpired_still, execTailExpired_still, execOutcomeTaken_still, execTransmissionEndedTaken_still,
    execTailEndedTaken_still, fun h => execGrant_still (State.grantable_none h), fun _ => execIntervalExpired_still⟩

/-- Settles O5, by the transmitter: free, it takes the reply; busy, the reply waits. -/
theorem takenRequestsAreRepliedToFirst : Obligations.TakenRequestsAreRepliedToFirst := by
  refine ⟨fun c h r s hc ht => ?_, fun c h r s hc ht hcode => ?_⟩
  · obtain ⟨u, code, body, hexec, htx, hbody⟩ := exec_replied hc ht
    exact ⟨_, code, body, hexec, fun hfree => State.replied_free h r code body (htx.trans hfree),
      fun o hbusy => State.replied_busy h r code body (htx.trans hbusy), hbody⟩
  · obtain ⟨hstate, hbody⟩ := serveOf_refused r s.popInbound hcode
    rw [exec_taken hc ht, hstate, hbody]

/-- Settles O12: the body of STORE STATUS by the active operation, and the checks of PLAN READ. -/
theorem storeReadsShowTheStore : Obligations.StoreReadsShowTheStore := by
  refine ⟨fun h s ht => ⟨s.store.body, exec_accepted rfl ht rfl, fun ha => ?_, fun p plan ha => ?_, fun k phase n ha => ?_,
    fun f ha => ?_, fun ha => ?_, rfl, rfl, rfl, rfl, rfl, rfl, rfl, rfl, rfl⟩,
    fun h p s ht => ⟨fun code hf => ?_, fun plan h1 h2 h3 h4 => ?_⟩⟩
  · simp [Store.body, Store.runTime?, ha]
  · simp [Store.body, Store.runTime?, ha, Operation.view, Operation.erasePhase?, Operation.runTime?]
  · simp [Store.body, Store.runTime?, ha, Operation.view, Operation.erasePhase?, Operation.runTime?]
  · simp [Store.body, Store.runTime?, ha, Operation.view, Operation.erasePhase?, Operation.runTime?]
  · simp [Store.body, Store.runTime?, ha, Operation.view, Operation.erasePhase?, Operation.runTime?]
  · exact exec_refused rfl ht (servePlanRead_refused hf)
  · exact exec_accepted rfl ht (servePlanRead_accepted h1 h2 h3 h4)

/-- Settles O15: the damage slot by slot, and every other block at its initial value. -/
theorem powerOnBringsTheInitialState : Obligations.PowerOnBringsTheInitialState := by
  refine ⟨fun pins s => ⟨_, rfl, fun p plan ha hp => ?_, fun p k phase n ha hk hp => ?_, fun p e he hs hp => ?_,
    fun p hw he hs => ?_, ?_, rfl, rfl, rfl, rfl, rfl, rfl, rfl, rfl, rfl, rfl, rfl⟩, fun pins s => ⟨s.store.poweredOn, ?_⟩⟩
  · refine damageSuspended_damaged ((damageActive_length _ _).symm ▸ hp) (.inr ?_)
    rw [ha]; exact damageActive_program plan hp
  · refine damageSuspended_damaged ((damageActive_length _ _).symm ▸ hp) (.inr ?_)
    rw [ha]; exact damageActive_erase phase n hp hk
  · exact damageSuspended_damaged ((damageActive_length _ _).symm ▸ hp) (.inl ⟨e, he, hs⟩)
  · exact (damageSuspended_other _ hs).trans (damageActive_other _ hw he)
  · exact (damageSuspended_length _ _).trans (damageActive_length _ _)
  · show execPowerOn pins s = _
    rw [execPowerOn, clockAtPowerOn, referenceOf_eq, runningSource_eq]
    rfl

/-- Settles O16, by the two scopes. -/
theorem resetsOfBothScopes : Obligations.ResetsOfBothScopes := by
  refine ⟨fun h s ht => exec_accepted rfl ht ?_, fun h s ht => exec_accepted rfl ht ?_⟩
  · show accept s.popInbound.resetAll .none = _
    rw [State.resetAll, Roster.resetAll_eq, Clock.resetAll, runningSource_eq]
    rfl
  · rfl

/-- Settles O17: the checks by the reference, and each plain parameter's value. -/
theorem paramSetIsCheckedAndSetsOneValue : Obligations.ParamSetIsCheckedAndSetsOneValue := by
  refine ⟨fun h q s ht hq => exec_refused rfl ht (serveParamSet_bad _ hq), fun h s t q ht hq => exec_accepted rfl ht ?_⟩
  show serveParamSet q s.popInbound = _
  rcases hq with ⟨ch, m, rfl, rfl⟩ | ⟨w, rfl, rfl⟩ | ⟨n, rfl, h1, h2, rfl⟩ | ⟨n, rfl, h1, h2, rfl⟩ | ⟨n, rfl, h1, h2, rfl⟩
    | ⟨n, rfl, h1, h2, rfl⟩ | ⟨n, rfl, h1, h2, rfl⟩ | ⟨n, rfl, h1, h2, rfl⟩ | ⟨rfl, rfl⟩ | ⟨rfl, rfl⟩
  · refine serveParamSet_set (r := .arbitration ch) rfl rfl (fun _ => rfl) (fun h => ?_) ?_
    · cases h
      exact (State.setChannel_self _ ch).symm
    · exact congrArg (ParamValue.arb ∘ Channel.arb) (State.channel_setChannel_same _ ch _)
  · refine serveParamSet_set (r := .plain .attentionNotices) rfl rfl (fun _ => rfl) (fun h => ?_) ?_
    · have hw : switchOf s.roster.noticesOn = w := ParamValue.switch.inj h
      rw [← hw, decide_switchOf]; rfl
    · exact congrArg ParamValue.switch (switchOf_decide w)
  · refine serveParamSet_set (r := .plain .defaultPassLimit) rfl (within_iff.mpr ⟨h1, h2⟩) (fun _ => rfl) (fun h => ?_) rfl
    cases h; rfl
  · refine serveParamSet_set (r := .plain .settleTime) rfl (within_iff.mpr ⟨h1, h2⟩) (fun _ => rfl) (fun h => ?_) rfl
    cases h; rfl
  · refine serveParamSet_set (r := .plain .quietInterval) rfl (within_iff.mpr ⟨h1, h2⟩) (fun _ => rfl) (fun h => ?_) rfl
    cases h; rfl
  · refine serveParamSet_set (r := .plain .accessLimit) rfl (within_iff.mpr ⟨h1, h2⟩) (fun _ => rfl) (fun h => ?_) rfl
    cases h; rfl
  · refine serveParamSet_set (r := .plain .replyBase) rfl (within_iff.mpr ⟨h1, h2⟩) (fun _ => rfl) (fun h => ?_) rfl
    cases h; rfl
  · refine serveParamSet_set (r := .plain .hopExtension) rfl (within_iff.mpr ⟨h1, h2⟩) (fun _ => rfl) (fun h => ?_) rfl
    cases h; rfl
  · refine serveParamSet_set (r := .plain .mainsFrequency) rfl rfl (fun _ => rfl) (fun h => ?_) rfl
    have hz : s.clock.frequency = .hz50 := by
      cases hf : s.clock.frequency with
      | hz50 => rfl
      | hz60 => simp [State.paramValue, hf, Frequency.hertz] at h
    rw [← hz]; rfl
  · refine serveParamSet_set (r := .plain .mainsFrequency) rfl rfl (fun _ => rfl) (fun h => ?_) rfl
    have hz : s.clock.frequency = .hz60 := by
      cases hf : s.clock.frequency with
      | hz50 => simp [State.paramValue, hf, Frequency.hertz] at h
      | hz60 => rfl
    rw [← hz]; rfl

end Sys2Proof.Machine
end

section
/-! SUPPORT. The rules' lists of checks against the model's: SUBMIT, ROSTER PUT and the armed requests of the plan store; and
the staging buffer. -/

namespace Sys2Proof.Machine

/-! ## Checked values -/

theorem optWithin_iff {lo hi : Nat} {o : Option Nat} : optWithin lo o hi = true ↔ ∀ n, o = some n → lo ≤ n ∧ n ≤ hi := by
  cases o with
  | none => simp [optWithin]
  | some n => simp [optWithin, within_iff]

theorem distinct_iff {l : List Nat} : distinct l = true ↔ l.Nodup := by
  induction l with
  | nil => simp [distinct]
  | cons a r ih => simp [distinct, ih]

/-! ## SUBMIT (R49) -/

theorem ite_some_isSome {α : Type} {p : Prop} [Decidable p] {a : α} : (if p then some a else none).isSome = true ↔ p := by
  split <;> simp_all

theorem submitOrder?_of_body {q : SubmitReq} {body : OrderBody} {mode : Mode} (hb : orderBody? q.order = some body)
    (hm : q.mode = some mode) : submitOrder? q
      = if body.allows mode = true ∧ (q.effective.isNone || body.mayWait) = true then some ⟨body, q.effective⟩ else none := by
  simp [submitOrder?, hb, hm]

theorem submitOrder?_of_none {q : SubmitReq} (h : orderBody? q.order = none ∨ q.mode = none) : submitOrder? q = none := by
  unfold submitOrder?
  rcases h with h | h
  · rw [h]
  · rw [h]; cases orderBody? q.order <;> rfl

/-- The order of a request is valid for its class and mode (R28). -/
theorem submitOrder?_isSome_iff (q : SubmitReq) : (submitOrder? q).isSome = true ↔ (match q.order with
    | .bandSet b => 1 ≤ b ∧ b ≤ 8 ∧ q.mode ≠ none
    | .loadSwitch r a d => 1 ≤ r ∧ r ≤ 2 ∧ a ≠ none ∧ d ≤ 1440 ∧ q.mode ≠ none
    | .planLoad p => p < 32 ∧ q.mode ≠ none
    | .clockSync => q.mode = some .broadcast ∧ q.effective = none
    | .statusPoll => q.mode = some .confirmed ∧ q.effective = none
    | .other => False) := by
  cases hm : q.mode with
  | none => rw [submitOrder?_of_none (.inr hm)]; cases q.order <;> simp
  | some mode =>
    have valid : ∀ {body : OrderBody}, orderBody? q.order = some body → ((submitOrder? q).isSome = true ↔
        body.allows mode = true ∧ (q.effective.isNone || body.mayWait) = true) :=
      fun hb => by rw [submitOrder?_of_body hb hm, ite_some_isSome]
    have invalid : orderBody? q.order = none → ¬ (submitOrder? q).isSome = true :=
      fun hb => by rw [submitOrder?_of_none (.inl hb)]; exact Bool.false_ne_true
    cases ho : q.order with
    | bandSet b =>
      rw [ho] at valid invalid
      by_cases hb : 1 ≤ b ∧ b ≤ 8
      · rw [valid (if_pos (within_iff.mpr hb))]
        cases mode <;> simp [OrderBody.allows, OrderBody.mayWait, hb]
      · refine iff_of_false (invalid (if_neg (mt within_iff.mp hb))) fun h => hb ⟨h.1, h.2.1⟩
    | loadSwitch r a d =>
      rw [ho] at valid invalid
      cases a with
      | none => exact iff_of_false (invalid rfl) fun h => h.2.2.1 rfl
      | some a =>
        by_cases hb : (within 1 r 2 && within 0 d 1440) = true
        · rw [valid (if_pos hb)]
          simp only [Bool.and_eq_true, within_iff] at hb
          cases mode <;> simp [OrderBody.allows, OrderBody.mayWait, hb]
        · refine iff_of_false (invalid (if_neg hb)) fun h => hb ?_
          simp only [Bool.and_eq_true, within_iff]
          exact ⟨⟨h.1, h.2.1⟩, Nat.zero_le _, h.2.2.2.1⟩
    | planLoad p =>
      rw [ho] at valid invalid
      by_cases hb : p < 32
      · rw [valid (if_pos hb)]
        cases mode <;> simp [OrderBody.allows, OrderBody.mayWait, hb]
      · exact iff_of_false (invalid (if_neg hb)) fun h => hb h.1
    | clockSync =>
      rw [ho] at valid
      rw [valid rfl]
      cases mode <;> simp [OrderBody.allows, OrderBody.mayWait]
    | statusPoll =>
      rw [ho] at valid
      rw [valid rfl]
      cases mode <;> simp [OrderBody.allows, OrderBody.mayWait]
    | other =>
      rw [ho] at invalid
      exact iff_of_false (invalid rfl) id

theorem submitTarget?_isSome_iff (q : SubmitReq) : (submitTarget? q).isSome = true ↔ (match q.target with
    | .unit u => 1 ≤ u ∧ u ≤ 4095
    | .group g => 1 ≤ g ∧ g ≤ 63
    | .all => True
    | .other => False) := by
  unfold submitTarget?
  cases q.target with
  | unit u => exact ite_some_isSome.trans validUnit_iff
  | group g => exact ite_some_isSome.trans within_iff
  | all => simp
  | other => simp

theorem submitBroadcastable_iff (q : SubmitReq) :
    submitBroadcastable q = true ↔ (q.mode = some .broadcast → ∀ u, q.target ≠ .unit u) := by
  unfold submitBroadcastable
  rcases q.mode with _ | _ | _ <;> cases q.target <;> simp

theorem submitPriority?_isSome_iff (q : SubmitReq) : (submitPriority? q).isSome = true ↔ ∃ p, q.priority = some p ∧ p ≤ 3 := by
  unfold submitPriority?
  cases q.priority with
  | none => simp
  | some p => simp

/-- The fields of the mode (R50), where a mode is given. -/
theorem submitTerms?_isSome_iff {q : SubmitReq} (d : Nat) (hm : q.mode ≠ none) : (submitTerms? q d).isSome = true ↔
    (q.mode = some .confirmed → (∀ n, q.passLimit = some n → 1 ≤ n ∧ n ≤ 16) ∧ q.repeatsBase = none ∧ q.hopBudget = none
        ∧ q.interval = none)
    ∧ (q.mode = some .broadcast → q.passLimit = none ∧ (∀ n, q.repeatsBase = some n → n ≤ 15)
        ∧ (∀ n, q.hopBudget = some n → n ≤ 3) ∧ (∀ n, q.interval = some n → 60 ≤ n ∧ n ≤ 86400)) := by
  unfold submitTerms?
  cases hq : q.mode with
  | none => exact absurd hq hm
  | some mode => cases mode <;> simp [optWithin_iff]

theorem maxTime_eq : 4294967295 = Config.maxTime := rfl

theorem submitDeadlineValid_iff {q : SubmitReq} {now : Nat} : submitDeadlineValid q now = true ↔
    (q.deadline = none → q.mode = some .broadcast ∧ q.interval ≠ none)
      ∧ ∀ d, q.deadline = some d → now < d ∧ d ≤ 4294967295 := by
  rw [maxTime_eq]
  unfold submitDeadlineValid
  cases q.deadline <;> simp [Option.isSome_iff_ne_none]

theorem submitStartValid_iff {q : SubmitReq} : submitStartValid q = true ↔
    ∀ t, q.start = some t → t ≤ 4294967295 ∧ ∀ d, q.deadline = some d → t < d := by
  rw [maxTime_eq]
  unfold submitStartValid
  cases q.start <;> cases q.deadline <;> simp

theorem submitEffectiveValid_iff {q : SubmitReq} : submitEffectiveValid q = true ↔
    ∀ t, q.effective = some t → t ≤ 4294967295 ∧ ∃ d, q.deadline = some d ∧ d ≤ t := by
  rw [maxTime_eq]
  unfold submitEffectiveValid
  cases q.effective <;> cases q.deadline <;> simp

theorem State.targetPresent_iff {s : State} {t : TargetReq} :
    s.targetPresent t = true ↔ ∀ u, t = .unit u → s.entry u ≠ none := by
  unfold State.targetPresent
  cases t <;> simp [Option.isSome_iff_ne_none]

theorem Store.planOf_isSome_iff {st : Store} {p : Nat} :
    (st.planOf p).isSome = true ↔ ∃ plan, st.slots[p]? = some (.programmed plan) := by
  rw [Option.isSome_iff_exists]
  exact exists_congr fun _ => Store.planOf_eq_some_iff

theorem State.planPresent_iff {s : State} {o : OrderReq} :
    s.planPresent o = true ↔ ∀ p, o = .planLoad p → ∃ plan, s.store.slots[p]? = some (.programmed plan) := by
  unfold State.planPresent
  cases o <;> simp [Store.planOf_isSome_iff]

theorem Store.erasing_false_iff {st : Store} {k : Nat} : st.erasing k = false ↔ ∀ phase n, st.active ≠ some (.erase k phase n) := by
  unfold Store.erasing
  rcases st.active with _ | ⟨⟩ | ⟨⟩ | ⟨⟩ | _ <;> simp

theorem State.planQuiet_iff {s : State} {o : OrderReq} : s.planQuiet o = true ↔ ∀ p, o = .planLoad p →
    (∀ phase n, s.store.active ≠ some (.erase (p / 4) phase n)) ∧ ∀ e, s.store.suspended = some e → e.sector ≠ p / 4 := by
  unfold State.planQuiet
  cases o with
  | planLoad p =>
    rw [Bool.and_eq_true, Bool.not_eq_true', Bool.not_eq_true', Store.erasing_false_iff, Store.sectorSuspended_false_iff]
    exact ⟨fun h _ hp => by cases hp; exact h, fun h => h p rfl⟩
  | _ => simp

theorem State.freeSlot_isSome_iff {s : State} : s.freeSlot.isSome = true ↔ ∃ k, k < 16 ∧ s.campaign k = none := by
  simp [State.freeSlot, allSlots, Config.campaignSlots]

/-- The fifteen checks of R49. -/
theorem State.submitChecks_follow (s : State) (q : SubmitReq) : ChecksFollow (s.submitChecks q) [
    (s.clock.time.isSome, .clockUnset),
    (s.campaigns.counter.isSome, .noSequence),
    (decide (s.campaigns.counter.getD 0 < Config.maxCounter), .sequenceExhausted),
    (s.store.site.fields.network.isSome, .noNetwork),
    ((submitOrder? q).isSome, .malformed),
    ((submitTarget? q).isSome, .malformed),
    (submitBroadcastable q, .malformed),
    ((submitTerms? q s.campaigns.defaultPassLimit).isSome && (submitPriority? q).isSome, .malformed),
    (submitDeadlineValid q (s.clock.time.getD 0), .malformed),
    (submitStartValid q, .malformed),
    (submitEffectiveValid q, .malformed),
    (s.targetPresent q.target, .notFound),
    (s.planPresent q.order, .notFound),
    (s.planQuiet q.order, .storeBusy),
    (s.freeSlot.isSome, .full)] := by
  refine .cons Option.isSome_iff_ne_none fun htime => .cons Option.isSome_iff_ne_none fun hcount => .cons ?_ fun _ =>
    .cons Option.isSome_iff_ne_none fun _ => .cons (submitOrder?_isSome_iff q) fun horder =>
    .cons (submitTarget?_isSome_iff q) fun _ => .cons (submitBroadcastable_iff q) fun _ => .cons ?_ fun _ => .cons ?_ fun _ =>
    .cons submitStartValid_iff fun _ => .cons submitEffectiveValid_iff fun _ => .cons State.targetPresent_iff fun _ =>
    .cons State.planPresent_iff fun _ => .cons State.planQuiet_iff fun _ => .cons State.freeSlot_isSome_iff fun _ => trivial
  · obtain ⟨n, hn⟩ := Option.ne_none_iff_exists'.mp hcount
    simp [hn, Config.maxCounter]
  · have hmode : q.mode ≠ none := fun hm => by
      have hsome := (submitOrder?_isSome_iff q).mpr horder
      rw [submitOrder?_of_none (.inr hm)] at hsome
      cases hsome
    rw [Bool.and_eq_true, submitTerms?_isSome_iff _ hmode, submitPriority?_isSome_iff, and_comm]
  · obtain ⟨now, hnow⟩ := Option.ne_none_iff_exists'.mp htime
    rw [submitDeadlineValid_iff, hnow]
    simp

theorem serveSubmit_refused {q : SubmitReq} {s : State} {code : ResultCode} (h : FirstFails (s.submitChecks q) code) :
    serveSubmit q s = refuse s code := by
  rw [serveSubmit, State.submitRefusal, (s.submitChecks_follow q).refusal h]

/-! ## ROSTER PUT (R18, R19) -/

theorem rosterPutInRange_iff {q : RosterPutReq} : rosterPutInRange q = true ↔ (1 ≤ q.unit ∧ q.unit ≤ 4095) ∧ q.role ≠ none
    ∧ q.phase ≠ none ∧ q.groups.length ≤ 4 ∧ (∀ g ∈ q.groups, 1 ≤ g ∧ g ≤ 63) ∧ q.groups.Nodup ∧ q.route.length ≤ 3
    ∧ ∀ u ∈ q.route, 1 ≤ u ∧ u ≤ 4095 := by
  simp only [rosterPutInRange, Bool.and_eq_true, validUnit_iff, Option.isSome_iff_ne_none, decide_eq_true_iff,
    List.all_eq_true, within_iff, distinct_iff, and_assoc]

theorem rosterRouteSound_iff {q : RosterPutReq} : rosterRouteSound q = true ↔ q.unit ∉ q.route ∧ q.route.Nodup := by
  simp [rosterRouteSound, distinct_iff]

/-- The six checks of R18. -/
theorem State.rosterPutChecks_follow (s : State) (q : RosterPutReq) : ChecksFollow (s.rosterPutChecks q) [
    (rosterPutInRange q, .malformed),
    (rosterRouteSound q, .malformed),
    (q.route.all (fun u => (s.entry u).isSome), .notFound),
    (q.route.all (fun u => (s.entry u).any (fun e => decide (e.role = .relay))), .malformed),
    (!((s.entry q.unit).any (fun e => decide (e.role = .relay)) && decide (q.role = some .terminal) && s.routed q.unit),
      .inUse),
    ((s.entry q.unit).isSome || decide (s.roster.entries.length < Config.rosterSize), .full)] := by
  refine .cons rosterPutInRange_iff fun _ => .cons rosterRouteSound_iff fun _ => .cons ?_ fun hthere => .cons ?_ fun _ =>
    .cons ?_ fun _ => .cons ?_ fun _ => trivial
  · simp [Option.isSome_iff_ne_none]
  · rw [List.all_eq_true]
    refine forall₂_congr fun u hu => ?_
    obtain ⟨e, he⟩ := Option.ne_none_iff_exists'.mp (hthere u hu)
    simp [he]
  · cases s.entry q.unit <;> simp [State.routed]
    tauto
  · have hsize : 1024 = Config.rosterSize := rfl
    rw [hsize]
    cases s.entry q.unit <;> simp

theorem serveRosterPut_refused {q : RosterPutReq} {s : State} {code : ResultCode} (h : FirstFails (s.rosterPutChecks q) code) :
    serveRosterPut q s = refuse s code := by
  have hr : s.rosterPutRefusal q = some code := (s.rosterPutChecks_follow q).refusal h
  rw [serveRosterPut, hr]

theorem serveRosterPut_accepted {q : RosterPutReq} {s : State} {role : Role} {phase : Option Phase}
    (h : AllPass (s.rosterPutChecks q)) (hr : q.role = some role) (hp : q.phase = some phase) :
    serveRosterPut q s = s.putReceiver q role phase := by
  have hno : s.rosterPutRefusal q = none := (s.rosterPutChecks_follow q).passed h
  simp [serveRosterPut, hno, hr, hp]

theorem State.putReceiver_added {s : State} {q : RosterPutReq} (role : Role) (phase : Option Phase)
    (he : s.entry q.unit = none) : s.putReceiver q role phase = accept ((s.setEntries
      (putBy Entry.unit (freshEntry q role phase) s.roster.entries)).updateAttention) (.disposition .added) := by
  simp [State.putReceiver, he]

theorem State.putReceiver_updated {s : State} {q : RosterPutReq} (role : Role) (phase : Option Phase) {e : Entry}
    (he : s.entry q.unit = some e) (hs : e.serial = q.serial) : s.putReceiver q role phase = accept ((s.setEntries
      (putBy Entry.unit (e.updated q role phase) s.roster.entries)).updateAttention) (.disposition .updated) := by
  simp [State.putReceiver, he, hs]

theorem State.putReceiver_replaced {s : State} {q : RosterPutReq} (role : Role) (phase : Option Phase) {e : Entry}
    (he : s.entry q.unit = some e) (hs : e.serial ≠ q.serial) : s.putReceiver q role phase = accept ((s.setEntries
      (putBy Entry.unit (e.replaced q role phase) s.roster.entries)).updateAttention) (.disposition .replaced) := by
  simp [State.putReceiver, he, hs]

/-! ## The armed requests (R169, R171, R181, R182) -/

theorem Store.covered_not_iff {st : Store} {k : Nat} : (!st.covered k) = true ↔ st.boundary ≤ k := by
  simp [Store.covered]

theorem Campaign.usesSector_false_iff {c : Campaign} {k : Nat} : c.usesSector k = false ↔
    (c.state = .waiting ∨ c.state = .preparing → ∀ p, c.order.body = .planLoad p → p / 4 ≠ k) := by
  unfold Campaign.usesSector
  cases hb : c.order.body <;> simp [OrderBody.planSlot, sectorOf, Config.slotsPerSector]

theorem State.planCommitChecks_follow (s : State) (p : Nat) : ChecksFollow (s.armedChecks (.planCommit p)) [
    (decide (p < Config.planSlots), .malformed),
    (s.store.arm, .notArmed),
    (!s.store.covered (sectorOf p), .sectorProtected),
    (!s.store.sectorSuspended (sectorOf p), .sectorSuspended),
    (s.store.active.isNone, .storeBusy),
    (decide (s.store.slot p = some .empty), .notEmpty),
    (s.store.staging.committable.isSome, .malformed)] := by
  refine .cons decide_eq_true_iff fun _ => .cons Iff.rfl fun _ => .cons Store.covered_not_iff fun _ => .cons ?_ fun _ =>
    .cons Option.isNone_iff_eq_none fun _ => .cons decide_eq_true_iff fun _ => .cons Option.isSome_iff_exists fun _ => trivial
  rw [Bool.not_eq_true', Store.sectorSuspended_false_iff]
  rfl

theorem State.sectorEraseChecks_follow (s : State) (k : Nat) : ChecksFollow (s.armedChecks (.sectorErase k)) [
    (decide (k < Config.sectors), .malformed),
    (s.store.arm, .notArmed),
    (!s.store.covered k, .sectorProtected),
    (s.store.active.isNone && s.store.suspended.isNone, .storeBusy),
    (!s.campaigns.table.any (fun c => c.usesSector k), .inUse)] := by
  refine .cons decide_eq_true_iff fun _ => .cons Iff.rfl fun _ => .cons Store.covered_not_iff fun _ => .cons ?_ fun _ =>
    .cons ?_ fun _ => trivial
  · simp
  · rw [Bool.not_eq_true', List.any_eq_false]
    exact forall₂_congr fun c _ => by rw [Bool.not_eq_true, Campaign.usesSector_false_iff]

theorem siteInRange_iff {q : SiteFields} : siteInRange q = true ↔ (q.network ≠ none ∨ q.kiosk ≠ none ∨ q.floor ≠ none)
    ∧ (∀ n, q.network = some n → 1 ≤ n ∧ n ≤ 4094) ∧ ∀ n, q.floor = some n → n ≤ 8 := by
  simp only [siteInRange, Bool.and_eq_true, Bool.or_eq_true, Option.isSome_iff_ne_none, optWithin_iff, or_assoc, and_assoc,
    Nat.zero_le, true_and]

theorem siteBlankFor_iff {f q : SiteFields} : siteBlankFor f q = true ↔ (q.network ≠ none → f.network = none)
    ∧ (q.kiosk ≠ none → f.kiosk = none) ∧ (q.floor ≠ none → f.floor = none) := by
  simp only [siteBlankFor, Bool.and_eq_true, Bool.or_eq_true, Option.isNone_iff_eq_none, and_assoc, or_iff_not_imp_left, ne_eq]

theorem State.siteWriteChecks_follow (s : State) (q : SiteFields) : ChecksFollow (s.armedChecks (.siteWrite q)) [
    (siteInRange q, .malformed),
    (s.store.arm, .notArmed),
    (!s.store.site.locked, .locked),
    (s.store.active.isNone, .storeBusy),
    (siteBlankFor s.store.site.fields q, .alreadySet)] :=
  .cons siteInRange_iff fun _ => .cons Iff.rfl fun _ => .cons (Bool.not_eq_true' _).to_iff fun _ =>
    .cons Option.isNone_iff_eq_none fun _ => .cons siteBlankFor_iff fun _ => trivial

theorem State.siteLockChecks_follow (s : State) : ChecksFollow (s.armedChecks .siteLock) [
    (s.store.arm, .notArmed),
    (!s.store.site.locked, .locked),
    (s.store.active.isNone, .storeBusy),
    (siteComplete s.store.site.fields && decide (s.store.site.fields.floor.getD 0 ≤ s.store.boundary), .wrongState)] := by
  refine .cons Iff.rfl fun _ => .cons (Bool.not_eq_true' _).to_iff fun _ => .cons Option.isNone_iff_eq_none fun _ =>
    .cons ?_ fun _ => trivial
  cases hf : s.store.site.fields.floor <;> simp [siteComplete, hf, Option.isSome_iff_ne_none, and_assoc]

theorem servePlanCommit_accepted {p : Nat} {s : State} {plan : Plan} (h : AllPass (s.armedChecks (.planCommit p)))
    (hp : s.store.staging.committable = some plan) : servePlanCommit p s = accept (s.begin (.program p plan)) .none := by
  have hno : s.planCommitRefusal p = none := (s.planCommitChecks_follow p).passed h
  simp [servePlanCommit, hno, hp]

/-- What each armed request answers where its first check fails. -/
theorem serveArmed_refused {c : Instr} {h : Header} {r : Request} {s : State} {code : ResultCode}
    (hc : (∃ p, c = .planCommit h p ∧ r = .planCommit p) ∨ (∃ k, c = .sectorErase h k ∧ r = .sectorErase k)
      ∨ (∃ q, c = .siteWrite h q ∧ r = .siteWrite q) ∨ (c = .siteLock h ∧ r = .siteLock))
    (hf : FirstFails (s.armedChecks r) code) : requestOf c = some ⟨h, r⟩ ∧ serveOf r s = refuse s code := by
  rcases hc with ⟨p, rfl, rfl⟩ | ⟨k, rfl, rfl⟩ | ⟨q, rfl, rfl⟩ | ⟨rfl, rfl⟩
  · have hr : s.planCommitRefusal p = some code := (s.planCommitChecks_follow p).refusal hf
    exact ⟨rfl, by simp [serveOf, servePlanCommit, hr]⟩
  · have hr : s.sectorEraseRefusal k = some code := (s.sectorEraseChecks_follow k).refusal hf
    exact ⟨rfl, by simp [serveOf, serveSectorErase, hr]⟩
  · have hr : s.siteWriteRefusal q = some code := (s.siteWriteChecks_follow q).refusal hf
    exact ⟨rfl, by simp [serveOf, serveSiteWrite, hr]⟩
  · have hr : s.siteLockRefusal = some code := s.siteLockChecks_follow.refusal hf
    exact ⟨rfl, by simp [serveOf, serveSiteLock, hr]⟩

end Sys2Proof.Machine
end

section
/-! The checked requests, settled. -/

namespace Sys2Proof.Machine

/-- Settles O23, by the fifteen checks in turn. -/
theorem submitIsCheckedInOrder : Obligations.SubmitIsCheckedInOrder := fun _ _ _ _ ht hf =>
  exec_refused rfl ht (serveSubmit_refused hf)

/-- Settles O31, by the six checks in turn and by the entry that stood under the unit. -/
theorem rosterPutIsCheckedAndTakesEffect : Obligations.RosterPutIsCheckedAndTakesEffect := by
  refine ⟨fun h q s code ht hf => exec_refused rfl ht (serveRosterPut_refused hf), fun h q s role phase ht hp hrole hphase =>
    ⟨fun he => ?_, fun e he hs => ?_, fun e he hs => ?_⟩⟩
  · exact exec_accepted rfl ht ((serveRosterPut_accepted (s := s.popInbound) hp hrole hphase).trans
      (State.putReceiver_added role phase he))
  · exact exec_accepted rfl ht ((serveRosterPut_accepted (s := s.popInbound) hp hrole hphase).trans
      (State.putReceiver_updated role phase he hs))
  · exact exec_accepted rfl ht ((serveRosterPut_accepted (s := s.popInbound) hp hrole hphase).trans
      (State.putReceiver_replaced role phase he hs))

/-- Settles O48, request by request. -/
theorem armedRequestsAreCheckedAndStart : Obligations.ArmedRequestsAreCheckedAndStart := by
  refine ⟨fun h c r s code hc ht hf => ?_, fun h s => ⟨fun p plan ht hp hplan => ?_, fun k ht hp => ?_, fun q ht hp => ?_,
    fun ht hp => ?_⟩⟩
  · obtain ⟨hreq, hserve⟩ := serveArmed_refused (s := s.popInbound) hc hf
    exact exec_refused hreq ht hserve
  · exact exec_accepted rfl ht (servePlanCommit_accepted (s := s.popInbound) hp hplan)
  · have hno : s.popInbound.sectorEraseRefusal k = none := (s.popInbound.sectorEraseChecks_follow k).passed hp
    exact exec_accepted rfl ht (by simp only [serveOf, serveSectorErase, hno]; rfl)
  · have hno : s.popInbound.siteWriteRefusal q = none := (s.popInbound.siteWriteChecks_follow q).passed hp
    exact exec_accepted rfl ht (by simp only [serveOf, serveSiteWrite, hno]; rfl)
  · have hno : s.popInbound.siteLockRefusal = none := s.popInbound.siteLockChecks_follow.passed hp
    exact exec_accepted rfl ht (by simp only [serveOf, serveSiteLock, hno]; rfl)

end Sys2Proof.Machine
end

section
/-! SUPPORT. The staging buffer: what PLAN STAGE writes, and when the buffer holds a committable plan (R165, R166). -/

namespace Sys2Proof.Machine

/-! ## PLAN STAGE (R165) -/

/-- A position that no point reaches keeps what it held. -/
theorem stagePoints_other {j : Nat} : ∀ (l : List Point) (n : Nat) (b : List (Option Point)),
    (∀ i, i < l.length → (n + i) % 12 ≠ j) → (stagePoints n l b)[j]? = b[j]?
  | [], _, _, _ => rfl
  | p :: rest, n, b, h => by
    have hrest : ∀ i, i < rest.length → (n + 1 + i) % 12 ≠ j := fun i hi => by
      have := h (i + 1) (Nat.succ_lt_succ hi)
      rwa [Nat.add_assoc, Nat.add_comm 1 i]
    have hhead : n % Config.stagingPositions ≠ j := h 0 (Nat.succ_pos _)
    exact (stagePoints_other rest (n + 1) _ hrest).trans (List.getElem?_set_ne hhead)

/-- Up to twelve points take twelve different positions, each its own. -/
theorem stagePoints_at {p : Point} : ∀ (l : List Point) (n i : Nat) (b : List (Option Point)), l.length ≤ 12 → b.length = 12 →
    l[i]? = some p → (stagePoints n l b)[(n + i) % 12]? = some (some p)
  | q :: rest, n, 0, b, hl, hb, hp => by
    have hpos : n % 12 < b.length := hb.symm ▸ Nat.mod_lt _ (Nat.succ_pos 11)
    have hother : (stagePoints (n + 1) rest (b.set (n % 12) (some q)))[n % 12]? = (b.set (n % 12) (some q))[n % 12]? :=
      stagePoints_other rest (n + 1) _ fun i hi => by
        rw [List.length_cons] at hl
        omega
    cases hp
    exact hother.trans (by rw [List.getElem?_set_self hpos])
  | q :: rest, n, i + 1, b, hl, hb, hp => by
    have h := stagePoints_at rest (n + 1) i (b.set (n % 12) (some q)) (Nat.le_of_succ_le hl) (List.length_set.trans hb) hp
    rwa [Nat.add_assoc, Nat.add_comm 1 i] at h

theorem planStageInRange_iff {q : PlanStageReq} : planStageInRange q = true ↔ q.start < 12
    ∧ (1 ≤ q.points.length ∧ q.points.length ≤ 12) ∧ (∀ p ∈ q.points, p.minute ≤ 1439 ∧ 1 ≤ p.band ∧ p.band ≤ 8)
    ∧ (∀ n, q.identity = some n → 1 ≤ n ∧ n ≤ 65535) ∧ ∀ n, q.version = some n → n ≤ 255 := by
  have hstart : 12 = Config.stagingPositions := rfl
  rw [hstart]
  simp only [planStageInRange, Bool.and_eq_true, decide_eq_true_iff, List.all_eq_true, within_iff, optWithin_iff, and_assoc,
    Nat.zero_le, true_and]
  rfl

theorem servePlanStage_invalid {q : PlanStageReq} (s : State) (h : planStageInRange q ≠ true) :
    servePlanStage q s = refuse s .malformed := if_neg h

theorem servePlanStage_valid {q : PlanStageReq} (s : State) (h : planStageInRange q = true) : servePlanStage q s
    = accept (s.setStore { s.store with staging := s.store.staging.stage q }) (.staging (s.store.staging.stage q)) := if_pos h

/-! ## The committable plan (R166) -/

theorem minutesRise_iff (l : List Point) : minutesRise l = true ↔ l.Pairwise (fun p q => p.minute < q.minute) := by
  have htrans : IsTrans Point (fun p q => p.minute < q.minute) := ⟨fun _ _ _ => Nat.lt_trans⟩
  rw [← List.isChain_iff_pairwise]
  induction l using minutesRise.induct with
  | case1 => simp [minutesRise]
  | case2 p => simp [minutesRise]
  | case3 p q rest ih => rw [minutesRise, Bool.and_eq_true, decide_eq_true_iff, List.isChain_cons_cons]; exact and_congr_right fun _ => ih

/-- The buffer is its filled run and then nothing, or a blank position and the rest. -/
theorem filledRun_split : ∀ b : List (Option Point), ∃ rest, b = (filledRun b).map some ++ rest
    ∧ (rest.filter Option.isSome).length = (b.filter Option.isSome).length - (filledRun b).length
    ∧ (filledRun b).length ≤ (b.filter Option.isSome).length
  | [] => ⟨[], rfl, rfl, Nat.le_refl _⟩
  | none :: rest => ⟨none :: rest, rfl, rfl, Nat.zero_le _⟩
  | some p :: rest => by
    obtain ⟨tail, htail, hcount, hle⟩ := filledRun_split rest
    refine ⟨tail, congrArg (some p :: ·) htail, ?_, ?_⟩
    · simpa [filledRun] using hcount
    · simpa [filledRun] using hle

theorem filledRun_points (l : List Point) (n : Nat) : filledRun (l.map some ++ List.replicate n none) = l := by
  induction l with
  | nil => cases n <;> rfl
  | cons p rest ih => simpa [filledRun] using ih

/-- The filled positions are one unbroken run from position 0 when they are as many as that run. -/
theorem filledRun_unbroken_iff {b : List (Option Point)} {l : List Point} :
    (filledRun b = l ∧ l.length = (b.filter Option.isSome).length) ↔ ∃ blank, b = l.map some ++ List.replicate blank none := by
  constructor
  · rintro ⟨rfl, hlen⟩
    obtain ⟨rest, hb, hcount, -⟩ := filledRun_split b
    refine ⟨rest.length, hb.trans (congrArg _ (List.eq_replicate_of_mem fun x hx => ?_))⟩
    rw [← hlen, Nat.sub_self, List.length_eq_zero_iff, List.filter_eq_nil_iff] at hcount
    simpa using hcount x hx
  · rintro ⟨blank, rfl⟩
    refine ⟨filledRun_points l blank, ?_⟩
    have hall : l.filter (Option.isSome ∘ some) = l := List.filter_eq_self.mpr fun _ _ => rfl
    simp [List.filter_append, List.filter_map, hall]

theorem Staging.committable_iff (b : Staging) (plan : Plan) : b.committable = some plan ↔
    b.identity = some plan.identity ∧ b.version = some plan.version ∧ plan.points ≠ []
      ∧ plan.points.Pairwise (fun p q => p.minute < q.minute) ∧ (∀ p ∈ plan.points, 1 ≤ p.band ∧ p.band ≤ 8)
      ∧ ∃ blank, b.points = plan.points.map some ++ List.replicate blank none := by
  have hbands : ∀ l : List Point, l.all (fun p => decide (1 ≤ p.band) && decide (p.band ≤ 8)) = true
      ↔ ∀ p ∈ l, 1 ≤ p.band ∧ p.band ≤ 8 := fun l => by simp
  rw [← filledRun_unbroken_iff]
  unfold Staging.committable
  split
  · rename_i identity version hi hv
    dsimp only
    rw [hi, hv]
    split
    · rename_i h
      obtain ⟨hne, hlen, hrise, hband⟩ := h
      rw [minutesRise_iff] at hrise
      rw [hbands] at hband
      constructor
      · intro h
        cases h
        exact ⟨rfl, rfl, hne, hrise, hband, rfl, hlen⟩
      · rintro ⟨h1, h2, -, -, -, h3, -⟩
        cases h1
        cases h2
        rw [h3]
    · rename_i hno
      refine iff_of_false nofun fun ⟨_, _, hne, hrise, hband, hrun, hlen⟩ => hno ?_
      rw [hrun, minutesRise_iff, hbands]
      exact ⟨hne, hlen, hrise, hband⟩
  · rename_i hno
    exact iff_of_false nofun fun ⟨hi, hv, _⟩ => hno _ _ hi hv

end Sys2Proof.Machine
end

section
/-! The staging buffer, settled. -/

namespace Sys2Proof.Machine

/-- Settles O47: the range of a PLAN STAGE, the positions it writes, and the run of filled positions. -/
theorem stagingFollowsStageAndClear : Obligations.StagingFollowsStageAndClear := by
  refine ⟨fun h q s => ⟨fun ht => ⟨fun hbad => ?_, fun h1 h2 h3 h4 h5 h6 hlen => ?_⟩, fun ht => exec_accepted rfl ht rfl⟩,
    Staging.committable_iff⟩
  · refine exec_refused rfl ht (servePlanStage_invalid _ fun hin => ?_)
    obtain ⟨hstart, ⟨hone, htwelve⟩, hpoints, hid, hversion⟩ := planStageInRange_iff.mp hin
    rcases hbad with hb | hb | hb | ⟨p, hp, hb⟩ | ⟨n, hn, hb⟩ | ⟨n, hn, hb⟩
    · omega
    · omega
    · omega
    · have := hpoints p hp; omega
    · have := hid n hn; omega
    · have := hversion n hn; omega
  · have hin : planStageInRange q = true := planStageInRange_iff.mpr ⟨h1, ⟨h2, h3⟩, h4, h5, h6⟩
    refine ⟨s.store.staging.stage q, exec_accepted rfl ht (servePlanStage_valid _ hin), (stagePoints_length _ _ _).trans hlen,
      fun i p hp => stagePoints_at _ _ _ _ h3 hlen hp, fun j hj hno => stagePoints_other _ _ _ hno, rfl, rfl⟩

end Sys2Proof.Machine
end

section
/-! SUPPORT. The three kinds of line frame read back from their bytes, each behind its network number. -/

namespace Sys2Proof.Machine

/-! ## The frame kinds behind the network number -/

section
variable {network : Nat} {rest : List Byte}

theorem readFrame_order {f : OrderFrame} (hn : validNetwork network = true) (h : order? network rest = some f) :
    readFrame (withCheck (bytesOf 2 (1 * 4096 + network) ++ rest)) = some (.order f) := by
  simp only [validNetwork, Bool.and_eq_true, decide_eq_true_eq] at hn
  have h1 : (1 * 4096 + network) % 4096 = network := by omega
  have h2 : (1 * 4096 + network) / 4096 = 1 := by omega
  rw [readFrame, checked?_withCheck]
  dsimp only
  rw [number?_bytesOf 2 _ (by omega)]
  simp only [h1, h2, hn, and_self, if_true, h, Option.map_some]

theorem readFrame_broadcast {f : BroadcastFrame} (hn : validNetwork network = true) (h : broadcast? network rest = some f) :
    readFrame (withCheck (bytesOf 2 (2 * 4096 + network) ++ rest)) = some (.broadcast f) := by
  simp only [validNetwork, Bool.and_eq_true, decide_eq_true_eq] at hn
  have h1 : (2 * 4096 + network) % 4096 = network := by omega
  have h2 : (2 * 4096 + network) / 4096 = 2 := by omega
  rw [readFrame, checked?_withCheck]
  dsimp only
  rw [number?_bytesOf 2 _ (by omega)]
  simp only [h1, h2, hn, and_self, if_true, h, Option.map_some]

theorem readFrame_reply {f : ReplyFrame} (hn : validNetwork network = true) (h : reply? network rest = some f) :
    readFrame (withCheck (bytesOf 2 (3 * 4096 + network) ++ rest)) = some (.reply f) := by
  simp only [validNetwork, Bool.and_eq_true, decide_eq_true_eq] at hn
  have h1 : (3 * 4096 + network) % 4096 = network := by omega
  have h2 : (3 * 4096 + network) / 4096 = 3 := by omega
  rw [readFrame, checked?_withCheck]
  dsimp only
  rw [number?_bytesOf 2 _ (by omega)]
  simp only [h1, h2, hn, and_self, if_true, h, Option.map_some]

end

/-! ## ORDER and BROADCAST (section 7.1, R139) -/

theorem validSeq_lt {n : Nat} (h : validSeq n = true) : n < 256 ^ 4 := by
  simp only [validSeq, Bool.and_eq_true, decide_eq_true_eq] at h
  omega

theorem validFragment_iff {i n : Nat} : validFragment i n = true ↔ 1 ≤ i ∧ i ≤ n ∧ n ≤ 3 := by
  simp [validFragment, and_assoc]

theorem order?_bytes {f : OrderFrame} (h : f.sendable = true) : order? f.network
    (bytesOf 2 (f.dest * 16 + f.route.length * 4 + f.hop) ++ (routeBytes f.route
      ++ (bytesOf 4 f.seq ++ classByte f.body f.index f.count :: f.body.bytes))) = some f := by
  obtain ⟨network, dest, route, hop, seq, index, count, body⟩ := f
  simp only [OrderFrame.sendable, Bool.and_eq_true, validReceiver, decide_eq_true_eq, List.all_eq_true, validFragment_iff] at h
  obtain ⟨⟨⟨⟨⟨⟨⟨-, hdest⟩, hlen⟩, hroute⟩, hhop⟩, hseq⟩, hfrag⟩, hbody⟩ := h
  dsimp only at *
  have hr : (dest * 16 + route.length * 4 + hop) / 4 % 4 = route.length := by omega
  have hd : (dest * 16 + route.length * 4 + hop) / 16 = dest := by omega
  have hh : (dest * 16 + route.length * 4 + hop) % 4 = hop := by omega
  have hpad : routeNumber route * 2 ^ routePad route.length / 2 ^ routePad route.length = routeNumber route :=
    Nat.mul_div_cancel _ (Nat.two_pow_pos _)
  have hunits : routeUnits route.length (routeNumber route) = route :=
    (routeUnits_routeNumber route fun u hu => (hroute u hu).2).1
  have hone : route.all (fun u => decide (1 ≤ u)) = true := List.all_eq_true.mpr fun u hu => decide_eq_true (hroute u hu).1
  unfold order?
  rw [number?_bytesOf 2 _ (by omega)]
  simp only [hr, hd, hh]
  rw [number?_routeBytes route (fun u hu => (hroute u hu).2) hlen]
  dsimp only
  rw [number?_bytesOf 4 _ (validSeq_lt hseq)]
  dsimp only
  rw [fragment?_bytes body index count hbody hfrag.1 hfrag.2.1 hfrag.2.2]
  simp only [hpad, hunits, hone, hdest.1, hhop, hseq, and_self, if_true]

theorem broadcast?_bytes {f : BroadcastFrame} (h : f.sendable = true) : broadcast? f.network
    (BitVec.ofNat 8 (f.group * 4 + f.budget) :: (bytesOf 4 f.seq ++ classByte f.body f.index f.count :: f.body.bytes))
      = some f := by
  obtain ⟨network, group, budget, seq, index, count, body⟩ := f
  simp only [BroadcastFrame.sendable, Bool.and_eq_true, decide_eq_true_eq, validFragment_iff] at h
  obtain ⟨⟨⟨⟨⟨-, hgroup⟩, hbudget⟩, hseq⟩, hfrag⟩, hbody⟩ := h
  dsimp only at *
  have hg : (group * 4 + budget) / 4 = group := by omega
  have hb : (group * 4 + budget) % 4 = budget := by omega
  unfold broadcast?
  dsimp only
  rw [number?_bytesOf 4 _ (validSeq_lt hseq)]
  dsimp only
  rw [fragment?_bytes body index count hbody hfrag.1 hfrag.2.1 hfrag.2.2]
  simp only [hseq, if_true, byte_toNat (by omega : group * 4 + budget < 256), hg, hb]

/-! ## REPLY (R140) -/

theorem bytesOf_four (n : Nat) : bytesOf 4 n
    = [BitVec.ofNat 8 (n / 16777216), BitVec.ofNat 8 (n / 65536), BitVec.ofNat 8 (n / 256), BitVec.ofNat 8 n] := by
  simp [bytesOf]

theorem numberOf_four {n : Nat} (h : n < 2 ^ 32) : numberOf
    [BitVec.ofNat 8 (n / 16777216), BitVec.ofNat 8 (n / 65536), BitVec.ofNat 8 (n / 256), BitVec.ofNat 8 n] = n := by
  rw [← bytesOf_four, numberOf_bytesOf, Nat.mod_eq_of_lt (by omega)]

theorem relayState?_relayCode (r : RelayState) : relayState? (relayCode r) = some r := by cases r <;> rfl

theorem relayCode_le (r : RelayState) : relayCode r ≤ 2 := by cases r <;> simp [relayCode]

theorem reason?_reasonCode (r : Reason) : reason? (reasonCode r) = some r := by cases r <;> rfl

theorem reasonCode_le (r : Reason) : reasonCode r ≤ 4 := by cases r <;> simp [reasonCode]

theorem report?_bytes {f : ReportFields} (h : (LineAnswer.report f).sendable = true) : report? f.bytes = some f := by
  obtain ⟨band, relay1, relay2, clockSet, planIdentity, planVersion, time⟩ := f
  simp only [LineAnswer.sendable, Bool.and_eq_true, decide_eq_true_eq] at h
  obtain ⟨⟨⟨⟨hband1, hband8⟩, hid⟩, hversion⟩, htime⟩ := h
  have h1 := relayCode_le relay1
  have h2 := relayCode_le relay2
  have hflag : (if clockSet = true then 1 else 0) ≤ 1 := by split <;> decide
  have hflag' : ((if clockSet = true then 1 else 0) == 1) = clockSet := by cases clockSet <;> rfl
  simp only [ReportFields.bytes, bytesOf_two, bytesOf_four, List.cons_append, List.nil_append, report?]
  generalize hx : (if clockSet = true then 1 else 0) = x at hflag hflag'
  have e1 : (relayCode relay1 * 64 + relayCode relay2 * 16 + x) / 64 = relayCode relay1 := by omega
  have e2 : (relayCode relay1 * 64 + relayCode relay2 * 16 + x) / 16 % 4 = relayCode relay2 := by omega
  have e3 : (relayCode relay1 * 64 + relayCode relay2 * 16 + x) % 2 = x := by omega
  rw [byte_toNat (by omega : relayCode relay1 * 64 + relayCode relay2 * 16 + x < 256), e1, e2, e3, relayState?_relayCode,
    relayState?_relayCode, byte_toNat (by omega : band < 256), byte_toNat (by omega : planVersion < 256),
    numberOf_two _ (by omega), numberOf_four htime, hflag']
  simp only [hband1, hband8, and_self, if_true]

theorem LineAnswer.detail_lt {a : LineAnswer} (h : a.sendable = true) : a.detail < 256 := by
  cases a with
  | refused r => exact Nat.lt_of_le_of_lt (reasonCode_le r) (by decide)
  | fragmentOk i =>
    simp only [LineAnswer.sendable, Bool.and_eq_true, decide_eq_true_eq] at h
    exact Nat.lt_of_le_of_lt h.2 (by decide)
  | hopFailed k =>
    simp only [LineAnswer.sendable, Bool.and_eq_true, decide_eq_true_eq] at h
    exact Nat.lt_of_le_of_lt h.2 (by decide)
  | _ => exact Nat.zero_lt_succ _

theorem LineAnswer.code_range (a : LineAnswer) : 1 ≤ a.code ∧ a.code ≤ 6 := by cases a <;> simp [LineAnswer.code]

/-- An answer comes back from its code, its detail and its report. -/
theorem answer?_bytes {a : LineAnswer} (h : a.sendable = true) : answer? a.code a.detail a.reportBytes = some a := by
  cases a with
  | applied => rfl
  | alreadyNewer => rfl
  | refused r => simp [answer?, LineAnswer.code, LineAnswer.detail, LineAnswer.reportBytes, reason?_reasonCode]
  | report f => simp [answer?, LineAnswer.code, LineAnswer.detail, LineAnswer.reportBytes, report?_bytes h]
  | fragmentOk i =>
    simp only [LineAnswer.sendable, Bool.and_eq_true, decide_eq_true_eq] at h
    simp [answer?, LineAnswer.code, LineAnswer.detail, LineAnswer.reportBytes, h]
  | hopFailed k =>
    simp only [LineAnswer.sendable, Bool.and_eq_true, decide_eq_true_eq] at h
    simp [answer?, LineAnswer.code, LineAnswer.detail, LineAnswer.reportBytes, h]

theorem reply?_bytes {f : ReplyFrame} (h : f.sendable = true) : reply? f.network
    (bytesOf 2 (f.source * 16 + f.answer.code) ++ (bytesOf 4 f.seq ++ BitVec.ofNat 8 f.answer.detail :: f.answer.reportBytes))
      = some f := by
  obtain ⟨network, source, seq, answer⟩ := f
  simp only [ReplyFrame.sendable, Bool.and_eq_true, validReceiver, decide_eq_true_eq] at h
  obtain ⟨⟨⟨-, hsource⟩, hseq⟩, hanswer⟩ := h
  dsimp only at *
  have hcode := answer.code_range
  have hc : (source * 16 + answer.code) % 16 = answer.code := by omega
  have hs : (source * 16 + answer.code) / 16 = source := by omega
  unfold reply?
  rw [number?_bytesOf 2 _ (by omega)]
  dsimp only
  rw [number?_bytesOf 4 _ (by omega)]
  simp only [hc, hs, byte_toNat (LineAnswer.detail_lt hanswer), answer?_bytes hanswer, hsource.1, if_true]

end Sys2Proof.Machine
end

section
/-! The line frames, settled. -/

namespace Sys2Proof.Machine

/-- Settles O60, kind by kind. -/
theorem framesRoundTrip : Obligations.FramesRoundTrip := by
  intro f h
  cases f with
  | order f =>
    have hn : validNetwork f.network = true := by
      simp only [LineFrame.sendable, OrderFrame.sendable, Bool.and_eq_true] at h
      obtain ⟨⟨⟨⟨⟨⟨⟨hn, -⟩, -⟩, -⟩, -⟩, -⟩, -⟩, -⟩ := h
      exact hn
    have hread := readFrame_order hn (order?_bytes h)
    simpa only [LineFrame.bytes, OrderFrame.bytes, List.append_assoc] using hread
  | broadcast f =>
    have hn : validNetwork f.network = true := by
      simp only [LineFrame.sendable, BroadcastFrame.sendable, Bool.and_eq_true] at h
      obtain ⟨⟨⟨⟨⟨hn, -⟩, -⟩, -⟩, -⟩, -⟩ := h
      exact hn
    exact readFrame_broadcast hn (broadcast?_bytes h)
  | reply f =>
    have hn : validNetwork f.network = true := by
      simp only [LineFrame.sendable, ReplyFrame.sendable, Bool.and_eq_true] at h
      obtain ⟨⟨⟨hn, -⟩, -⟩, -⟩ := h
      exact hn
    have hread := readFrame_reply hn (reply?_bytes h)
    simpa only [LineFrame.bytes, ReplyFrame.bytes, List.append_assoc] using hread

end Sys2Proof.Machine
end

section
/-! SUPPORT. The search for a frame on the serial line: a sound frame, and the four ways in which one is given up (R187). -/

namespace Sys2Proof.Machine

/-! ## One candidate frame -/

theorem isMarker_clean : isMarker ⟨Config.startMarker, false⟩ = true := by simp [isMarker]

/-- What the search makes of a marker, a length and the characters behind them. -/
theorem nextFrame_marker (n : Nat) (len : RxChar) (rest : List RxChar) :
    nextFrame (n + 1) (⟨Config.startMarker, false⟩ :: len :: rest)
      = if len.framingError = true ∨ 240 < len.byte.toNat then nextFrame n rest
        else if len.byte.toNat + 4 ≤ (rest.takeWhile (fun c => !c.framingError)).length then
          match serialFrame? len.byte ((rest.take (len.byte.toNat + 4)).map RxChar.byte) with
          | some f => (some f, rest.drop (len.byte.toNat + 4))
          | none => nextFrame n (rest.drop (len.byte.toNat + 4))
        else if (rest.takeWhile (fun c => !c.framingError)).length = rest.length then
          (none, ⟨Config.startMarker, false⟩ :: len :: rest)
        else nextFrame n (rest.drop ((rest.takeWhile (fun c => !c.framingError)).length + 1)) := by
  rw [nextFrame, List.dropWhile_cons, if_neg (by simp [isMarker_clean])] <;> rfl

/-- Characters without a framing error, up to one with it. -/
theorem takeWhile_clean {a b : List RxChar} (ha : ∀ c ∈ a, c.framingError = false) :
    (a ++ b).takeWhile (fun c => !c.framingError) = a ++ b.takeWhile (fun c => !c.framingError) :=
  List.takeWhile_append_of_pos fun c hc => by rw [ha c hc]; rfl

theorem serialFrame?_none {len : Byte} {l : List Byte} (h : checked? (len :: l) = none) : serialFrame? len l = none := by
  rw [serialFrame?, h]

theorem serialFrame?_built (len kind tag : Byte) (body : List Byte) :
    serialFrame? len ((kind :: tag :: body) ++ bytesOf 2 (checkOf (len :: kind :: tag :: body)).toNat) = some ⟨kind, tag, body⟩ := by
  have h : checked? (len :: ((kind :: tag :: body) ++ bytesOf 2 (checkOf (len :: kind :: tag :: body)).toNat))
      = some (len :: kind :: tag :: body) :=
    checked?_withCheck (len :: kind :: tag :: body)
  rw [serialFrame?, h]

/-! ## A sound frame -/

theorem nextFrame_frameChars (n : Nat) (kind tag : Byte) {body : List Byte} (h : body.length ≤ 240) :
    nextFrame (n + 1) (frameChars kind tag body) = (some ⟨kind, tag, body⟩, []) := by
  let len : Byte := BitVec.ofNat 8 body.length
  have hlen : len.toNat = body.length := byte_toNat (Nat.lt_of_le_of_lt h (by decide))
  let after : List Byte := (kind :: tag :: body) ++ bytesOf 2 (checkOf (len :: kind :: tag :: body)).toNat
  have hafter : after.length = len.toNat + 4 := by rw [hlen]; simp [after]
  let chars : List RxChar := after.map fun b => ⟨b, false⟩
  have hchars : chars.length = len.toNat + 4 := (List.length_map _).trans hafter
  have hclean : chars.takeWhile (fun c => !c.framingError) = chars := List.takeWhile_eq_self_iff.mpr fun c hc => by
    obtain ⟨b, -, rfl⟩ := List.mem_map.mp hc
    rfl
  have hbytes : (chars.take (len.toNat + 4)).map RxChar.byte = after := by
    rw [List.take_of_length_le (Nat.le_of_eq hchars), List.map_map]
    exact List.map_id after
  show nextFrame (n + 1) (⟨Config.startMarker, false⟩ :: ⟨len, false⟩ :: chars) = _
  have hshort : ¬ (false = true ∨ 240 < len.toNat) := by simpa [hlen] using h
  have hframe : serialFrame? len ((chars.take (len.toNat + 4)).map RxChar.byte) = some ⟨kind, tag, body⟩ := by
    rw [hbytes]; exact serialFrame?_built len kind tag body
  rw [nextFrame_marker, if_neg hshort, hclean, if_pos (Nat.le_of_eq hchars.symm), hframe]
  dsimp only
  rw [List.drop_of_length_le (Nat.le_of_eq hchars)]

/-! ## A frame given up -/

/-- The damage that makes the search give a frame up: a bad length, or a framing error in it or behind it, or a wrong check. -/
def Damaged (length : Byte) (rest : List RxChar) (last : RxChar) (damaged : List RxChar) : Prop :=
  (damaged = [⟨Config.startMarker, false⟩, ⟨length, false⟩] ∧ 240 < length.toNat)
  ∨ damaged = [⟨Config.startMarker, false⟩, ⟨length, true⟩]
  ∨ (damaged = ⟨Config.startMarker, false⟩ :: ⟨length, false⟩ :: (rest ++ [last]) ∧ length.toNat ≤ 240
      ∧ (∀ c ∈ rest, c.framingError = false) ∧ last.framingError = true ∧ rest.length < length.toNat + 4)
  ∨ (damaged = ⟨Config.startMarker, false⟩ :: ⟨length, false⟩ :: (rest ++ [last]) ∧ length.toNat ≤ 240
      ∧ (∀ c ∈ rest ++ [last], c.framingError = false) ∧ rest.length + 1 = length.toNat + 4
      ∧ checked? (length :: (rest ++ [last]).map RxChar.byte) = none)

/-- The search goes on behind a frame that was given up. -/
theorem nextFrame_damaged {length : Byte} {rest : List RxChar} {last : RxChar} {damaged : List RxChar}
    (h : Damaged length rest last damaged) (n : Nat) (after : List RxChar) :
    nextFrame (n + 1) (damaged ++ after) = nextFrame n after := by
  rcases h with ⟨rfl, hlong⟩ | rfl | ⟨rfl, hlen, hclean, hlast, hshort⟩ | ⟨rfl, hlen, hclean, hneed, hcheck⟩
  · exact (nextFrame_marker n ⟨length, false⟩ after).trans (if_pos (.inr hlong))
  · exact (nextFrame_marker n ⟨length, true⟩ after).trans (if_pos (.inl rfl))
  · have hok : ¬ (false = true ∨ 240 < length.toNat) := by simpa using hlen
    have hsound : (rest ++ (last :: after)).takeWhile (fun c => !c.framingError) = rest := by
      rw [takeWhile_clean hclean, List.takeWhile_cons_of_neg (by simp [hlast]), List.append_nil]
    show nextFrame (n + 1) (⟨Config.startMarker, false⟩ :: ⟨length, false⟩ :: (rest ++ [last] ++ after)) = _
    rw [List.append_assoc, List.singleton_append, nextFrame_marker, if_neg hok, hsound, if_neg (Nat.not_le.mpr hshort), if_neg (by simp)]
    simp
  · have hok : ¬ (false = true ∨ 240 < length.toNat) := by simpa using hlen
    have hall : (rest ++ [last]).length = length.toNat + 4 := by simpa using hneed
    show nextFrame (n + 1) (⟨Config.startMarker, false⟩ :: ⟨length, false⟩ :: (rest ++ [last] ++ after)) = _
    have hcount : length.toNat + 4 ≤ ((rest ++ [last] ++ after).takeWhile (fun c => !c.framingError)).length := by
      rw [takeWhile_clean hclean, List.length_append, hall]
      exact Nat.le_add_right _ _
    rw [nextFrame_marker, if_neg hok, if_pos hcount]
    dsimp only
    rw [← hall, List.take_left, List.drop_left, serialFrame?_none hcheck]

/-! ## FRAME COMPLETE (R187) -/

theorem execFrameComplete_found {chars : List RxChar} {formed : Bool} {q : Option Request} {s : State} {f : SerialFrame}
    {kept : List RxChar} (h : nextFrame ((s.link.rx ++ chars).length + 1) (s.link.rx ++ chars) = (some f, kept)) :
    execFrameComplete chars formed q s = finish ((s.setLink { s.link with rx := kept }).enqueue (f.inbound formed q)) := by
  simp only [execFrameComplete, h]

theorem execFrameComplete_none {chars : List RxChar} {formed : Bool} {q : Option Request} {s : State}
    {kept : List RxChar} (h : nextFrame ((s.link.rx ++ chars).length + 1) (s.link.rx ++ chars) = (none, kept)) :
    execFrameComplete chars formed q s = finish (s.setLink { s.link with rx := kept }) := by
  simp only [execFrameComplete, h]

/-- Two states that differ in their partial frames alone, and find the same, answer the same. -/
theorem execFrameComplete_same {chars after : List RxChar} {formed : Bool} {q : Option Request} {s : State}
    (h : nextFrame ((s.link.rx ++ chars).length + 1) (s.link.rx ++ chars) = nextFrame (after.length + 1) after) :
    execFrameComplete chars formed q s = execFrameComplete after formed q (s.setLink { s.link with rx := [] }) := by
  have hafter : ∀ r, nextFrame (after.length + 1) after = r →
      nextFrame (((s.setLink { s.link with rx := [] }).link.rx ++ after).length + 1)
        ((s.setLink { s.link with rx := [] }).link.rx ++ after) = r := fun _ hr => hr
  cases hr : nextFrame (after.length + 1) after with
  | mk frame kept =>
    rw [hr] at h
    cases frame with
    | some f => rw [execFrameComplete_found h, execFrameComplete_found (hafter _ hr)]; rfl
    | none => rw [execFrameComplete_none h, execFrameComplete_none (hafter _ hr)]; rfl

theorem State.enqueue_eq (s : State) (i : Inbound) : s.enqueue i = s.setLink { s.link with
    inbound := if s.link.inbound.length < 2 then s.link.inbound ++ [i] else s.link.inbound } := by
  unfold State.enqueue
  show (if s.link.inbound.length < 2 then _ else _) = _
  split <;> rfl

end Sys2Proof.Machine
end

section
/-! Frames of the serial line, settled. -/

namespace Sys2Proof.Machine

/-- Settles O7: what the search finds in a sound frame, and where it goes on behind a damaged one. -/
theorem framesAreReceivedOrDiscarded : Obligations.FramesAreReceivedOrDiscarded := by
  refine ⟨fun s before chars kind tag body formed spelled hlen hbefore heq => ?_,
    fun s before damaged after chars formed spelled length rest last hbefore heq hdamaged => ?_⟩
  · have hfound : nextFrame ((s.link.rx ++ chars).length + 1) (s.link.rx ++ chars) = (some ⟨kind, tag, body⟩, []) := by
      rw [heq, nextFrame_before hbefore, nextFrame_frameChars _ _ _ hlen]
    exact (execFrameComplete_found hfound).trans (congrArg finish (State.enqueue_eq _ _))
  · have hfound : nextFrame ((s.link.rx ++ chars).length + 1) (s.link.rx ++ chars) = nextFrame (after.length + 1) after := by
      have hpos : 0 < damaged.length := by
        rcases hdamaged with ⟨rfl, -⟩ | rfl | ⟨rfl, -⟩ | ⟨rfl, -⟩ <;> exact Nat.succ_pos _
      rw [heq, List.append_assoc, nextFrame_before hbefore, nextFrame_damaged (length := length) hdamaged]
      refine nextFrame_fuel _ _ _ ?_ (Nat.lt_succ_self _)
      rw [List.length_append, List.length_append]
      omega
    refine ⟨execFrameComplete_same hfound, fun hnil => ?_⟩
    subst hnil
    exact execFrameComplete_none (kept := []) hfound

end Sys2Proof.Machine
end

section
/-! SUPPORT. Parameters with a further effect, mains events, the requests that hold, cancel and release, and the ends of the
plan store's operations. -/

namespace Sys2Proof.Machine

/-! ## The silence threshold (R8, R94) -/

theorem State.mem_silencedByThreshold {s : State} {n k : Nat} : k ∈ s.silencedByThreshold n ↔
    ∃ e ∈ s.roster.entries, e.state ≠ .silent ∧ n ≤ e.misses ∧ k ∈ e.pending := by
  simp only [State.silencedByThreshold, mem_setOfList, List.mem_flatMap, List.mem_filter, decide_eq_true_iff, and_assoc]

theorem State.setThreshold_raised {s : State} {n : Nat} (h : s.roster.threshold ≤ n) :
    s.setThreshold n = s.setRoster { s.roster with threshold := n } := if_neg (Nat.not_lt.mpr h)

theorem State.setThreshold_lowered {s : State} {n : Nat} (h : n < s.roster.threshold) : s.setThreshold n
    = ((s.setRoster { s.roster with threshold := n }).setEntries (s.roster.entries.map (fun e =>
        if e.state ≠ .silent ∧ n ≤ e.misses then
          { e with state := .silent, flags := { e.flags with wentSilent := true } }
        else e))).updateAttention := if_pos h

theorem State.applyThreshold_raised {s : State} {n : Nat} (h : s.roster.threshold ≤ n) :
    s.applyThreshold n = s.setRoster { s.roster with threshold := n } := by
  rw [State.applyThreshold, State.setThreshold_raised h, if_neg (Nat.not_lt.mpr h)]
  rfl

theorem State.applyThreshold_lowered {s : State} {n : Nat} (h : n < s.roster.threshold) :
    s.applyThreshold n = (s.setThreshold n).examineSilenced (s.silencedByThreshold n) := by
  rw [State.applyThreshold, if_pos h]

/-- How many entries have a property that is not of their sets does not depend on the sets. -/
theorem filter_length_congr {p : Entry → Bool} (hp : ∀ e, p e.forgetSlots = p e) {l m : List Entry}
    (h : l.map Entry.forgetSlots = m.map Entry.forgetSlots) : (l.filter p).length = (m.filter p).length := by
  have count (l : List Entry) : ((l.map Entry.forgetSlots).filter p).length = (l.filter p).length := by
    rw [List.filter_map, List.length_map]
    exact congrArg List.length (List.filter_congr fun e _ => hp e)
  rw [← count l, ← count m, h]

/-- The examination of the campaigns pending at silenced entries, past their first pass (R94). -/
theorem State.examineSilenced_passes (s : State) (l : List Nat) {must : Campaign → Prop}
    (h : ∀ k c, s.campaign k = some c → must c → k ∈ l ∧ 1 < c.pass.getD 1) : s.PassesExamined (s.examineSilenced l) must := by
  refine Examined.passes (State.examineSilenced_touch s l) (State.examineSilenced_store s l) (State.examineSilenced_ends s l).ended
    fun k => ?_
  obtain ⟨n, -, hagree, hmust⟩ := State.examineSilenced_at l (n := 0) (AgreeAt.refl k s)
  refine ⟨n, hagree, fun c hc hm => ?_⟩
  obtain ⟨hl, hp⟩ := h k c hc hm
  exact hmust hl c hc hp

/-! ## The clock and the mains (R118, R119, R158 to R160) -/

theorem State.retime_eq (s : State) (reference : Option Phase) (param : Source) (cause : SourceCause) :
    s.retime reference param cause = s.clockMoved reference param cause := by
  unfold State.retime State.clockMoved Clock.sourceNotice
  simp only [runningSource_eq]
  cases sourceUnder param reference <;> rfl

/-- A clock whose reference and parameter stay, under the law of the mains, stays. -/
theorem State.clockMoved_self {s : State} (h : s.Powered) (cause : SourceCause) :
    s.clockMoved s.clock.reference s.clock.sourceParam cause = s := by
  unfold State.clockMoved
  dsimp only
  rw [← h.source, if_pos rfl]
  rfl

theorem State.clockMoved_sourceParam (s : State) (reference : Option Phase) (param : Source) (cause : SourceCause) :
    (s.clockMoved reference param cause).clock.sourceParam = param := by
  unfold State.clockMoved
  dsimp only
  split
  · rfl
  · rw [State.notify_clock]
    rfl

theorem State.channelLost_work {s : State} {ph : Phase} {w : Work} (h : (s.channel ph).activity.work = some w) :
    s.channelLost ph = (s.endUnit ph w .interrupted .offline).lineNotice ph .offline := by
  simp [State.channelLost, h]

theorem State.channelLost_idle {s : State} {ph : Phase} (h : (s.channel ph).activity.work = none) :
    s.channelLost ph = (s.setActivity ph .offline).lineNotice ph .offline := by
  simp [State.channelLost, h]

theorem State.channelReturned_offline {s : State} {ph : Phase} (h : (s.channel ph).activity = .offline) :
    s.channelReturned ph = s.setActivity ph (.settling (s.line.settleTime * 1000)) := by
  simp [State.channelReturned, h]

theorem execMainsLost_live {ch : Phase} {s : State} (h : s.pins.mains.get ch = true) : execMainsLost ch s
    = finish (((s.setPins { s.pins with mains := s.pins.mains.set ch false }).channelLost ch).clockMoved
        (lowestWithMains (s.pins.mains.set ch false)) s.clock.sourceParam .noMains) := by
  rw [execMainsLost, if_pos h]
  dsimp only
  rw [State.retime_eq, referenceOf_eq]

theorem execMainsReturned_dead {ch : Phase} {s : State} (h : s.pins.mains.get ch = false) : execMainsReturned ch s
    = finish (((s.setPins { s.pins with mains := s.pins.mains.set ch true }).channelReturned ch).clockMoved
        (lowestWithMains (s.pins.mains.set ch true)) s.clock.sourceParam .mainsReturned) := by
  rw [execMainsReturned, if_neg (by simp [h])]
  dsimp only
  rw [State.retime_eq, referenceOf_eq]

theorem execSettleExpired_settling {ch : Phase} {s : State} {left : Nat} (h : (s.channel ch).activity = .settling left) :
    execSettleExpired ch s = finish ((s.setActivity ch .idle).lineNotice ch .online) := by
  simp [execSettleExpired, h]

/-! ## Auto-suspend (R177, R185) -/

theorem Store.autoSuspendErase_idle {st : Store} (h : st.autoSuspend = false ∨ st.waiting = [] ∨ st.guard ≠ none
    ∨ ∀ k n, st.active ≠ some (.erase k .erasing n)) : st.autoSuspendErase = st := by
  unfold Store.autoSuspendErase
  split
  · rename_i k n ha
    refine if_neg fun ⟨hon, hguard, hwait⟩ => ?_
    rcases h with h | h | h | h
    · rw [hon] at h; cases h
    · exact hwait h
    · exact h hguard
    · exact h _ _ ha
  · rfl

theorem Store.autoSuspendErase_erasing {st : Store} {k n : Nat} (ha : st.active = some (.erase k .erasing n))
    (hon : st.autoSuspend = true) (hguard : st.guard = none) (hwait : st.waiting ≠ []) :
    st.autoSuspendErase = { st with active := some (.erase k (.suspending .snapshot) n) } := by
  simp [Store.autoSuspendErase, ha, hon, hguard, hwait]

/-- A switch that puts no erase into SUSPENDING changes auto-suspend alone. -/
theorem State.applyAutoSuspend_idle {s : State} {on : Bool} (h : on = false ∨ s.store.waiting = [] ∨ s.store.guard ≠ none
    ∨ ∀ k n, s.store.active ≠ some (.erase k .erasing n)) :
    s.applyAutoSuspend on = s.setStore { s.store with autoSuspend := on } := by
  cases on with
  | false => rfl
  | true => exact congrArg s.setStore (Store.autoSuspendErase_idle (st := { s.store with autoSuspend := true })
      (.inr (h.resolve_left (by decide))))

/-! ## HOLD, CANCEL and RELEASE (R62, R64, R65) -/

section
variable {q : SlotRef} {s : State} {c : Campaign}

theorem serveHold_named (h : s.Names q c) : serveHold q s
    = if c.state = .running then accept (s.setCampaignState q.slot .held) .none else refuse s .wrongState := by
  simp only [serveHold, State.named_of_names h]

theorem serveCancel_named (h : s.Names q c) : serveCancel q s
    = if c.state.live then accept (s.endCampaign q.slot .cancelled .host) .none else refuse s .wrongState := by
  simp only [serveCancel, State.named_of_names h]

theorem serveRelease_named (h : s.Names q c) : serveRelease q s = if c.state.live then refuse s .wrongState
    else accept (s.setTable (removeBy Campaign.slot q.slot s.campaigns.table)) .none := by
  simp only [serveRelease, State.named_of_names h]

theorem serveResume_named (h : s.Names q c) : serveResume q s = if c.state = .held then
      accept (((s.setCampaignState q.slot .running).examinePass q.slot).examineRound q.slot) .none
    else refuse s .wrongState := by
  simp only [serveResume, State.named_of_names h]

end

/-- The end of a live campaign that has no request at the store. -/
theorem State.endCampaign_started {s : State} {k : Nat} {c : Campaign} (hc : s.campaign k = some c) (hl : c.state.live = true)
    (hp : c.state ≠ .preparing) (v : CampaignState) (r : EndReason) : s.endCampaign k v r
      = ((s.updateCampaign k (fun d => d.ended v r s.clock.time)).releaseAll k).notify
          (.campaignEnded (c.ended v r s.clock.time).endedNotice) := by
  simp [State.endCampaign, hc, hl, hp]

/-- The end of a PREPARING campaign withdraws its request. -/
theorem State.endCampaign_preparing {s : State} {k : Nat} {c : Campaign} (hc : s.campaign k = some c)
    (hp : c.state = .preparing) (v : CampaignState) (r : EndReason) : s.endCampaign k v r
      = (((s.updateCampaign k (fun d => d.ended v r s.clock.time)).releaseAll k).withdrawSnapshot k).notify
          (.campaignEnded (c.ended v r s.clock.time).endedNotice) := by
  simp [State.endCampaign, hc, hp, CampaignState.live]

theorem findBy_removeBy_same {α : Type} (key : α → Nat) (k : Nat) (l : List α) : findBy key k (removeBy key k l) = none :=
  findBy_none.mpr fun _ ha => (mem_removeBy.mp ha).2

/-! ## Ends and suspensions of the store's operations (R170 to R177) -/

/-- Every waiting request names a PROGRAMMED slot, outside the sector that an erase works on. -/
theorem State.Snapshots.programmed {s : State} (h : s.Snapshots) {r : SnapshotRequest} (hr : r ∈ s.store.waiting) :
    (∃ plan, s.store.slots[r.planSlot]? = some (.programmed plan))
      ∧ ∀ phase n, s.store.active ≠ some (.erase (r.planSlot / 4) phase n) := by
  obtain ⟨c, hc, -, -, hstate, hbody⟩ := h.asked r hr
  obtain ⟨hplan, hactive, -⟩ := h.kept c hc (.inr hstate) r.planSlot hbody
  exact ⟨hplan, hactive⟩

/-- Where every waiting request names a PROGRAMMED slot, taking them empties the list. -/
theorem Store.takeSnapshots_all {st : Store} (h : ∀ r ∈ st.waiting, ∃ plan, st.slots[r.planSlot]? = some (.programmed plan)) :
    st.takeSnapshots = { st with waiting := [], deliveries := st.takeSnapshots.deliveries } := by
  have hnone : st.waiting.filter (fun r => (st.planOf r.planSlot).isNone) = [] := by
    rw [List.filter_eq_nil_iff]
    intro r hr
    obtain ⟨plan, hplan⟩ := h r hr
    rw [Store.planOf_eq_some_iff.mpr hplan]
    exact Bool.false_ne_true
  show Store.mk _ _ _ _ _ _ _ (st.waiting.filter _) _ _ _ = _
  rw [hnone]
  rfl

theorem State.setStore_notify (s : State) (n : Notice) (st : Store) : (s.notify n).setStore st = (s.setStore st).notify n := by
  unfold State.notify
  show _ = if s.link.notices.length < _ then _ else _
  split <;> rfl

/-- The end of an operation: the store is free, and every waiting request is taken behind the notice. -/
theorem State.completeOperation_eq {s : State} {st : Store} (e : StoreEvent)
    (h : ∀ r ∈ st.waiting, ∃ plan, st.slots[r.planSlot]? = some (.programmed plan)) : s.completeOperation st e
      = (s.setStore { st with active := none, waiting := [], deliveries := st.takeSnapshots.deliveries }).notify
          (.storeEvent e s.clock.time) := by
  have hserve : ({ st with active := none } : Store).serve = ({ st with active := none } : Store).takeSnapshots := rfl
  rw [State.completeOperation, State.storeNotice, State.notify_store, State.setStore_notify]
  show ((s.setStore _).setStore ({ st with active := none } : Store).serve).notify _ = _
  rw [hserve, Store.takeSnapshots_all (st := { st with active := none }) h]
  rfl

theorem State.suspendForHost_eq {s : State} (k n : Nat) (h : s.Snapshots) : s.suspendForHost k n
    = (s.setStore { s.store with
        active := none, suspended := some ⟨k, n, .host⟩, waiting := []
        deliveries := s.store.takeSnapshots.deliveries }).notify (.storeEvent (.eraseSuspended k .host) s.clock.time) := by
  rw [State.suspendForHost, State.storeNotice, State.notify_store, State.setStore_notify]
  have hall := Store.takeSnapshots_all (st := { s.store with active := none, suspended := some ⟨k, n, .host⟩ })
    fun r hr => (h.programmed hr).1
  exact congrArg (fun st => (s.setStore st).notify (.storeEvent (.eraseSuspended k .host) s.clock.time)) hall

theorem State.suspendForSnapshot_eq {s : State} (k n : Nat) (h : s.Snapshots) : s.suspendForSnapshot k n
    = s.setStore { s.store with
        active := some (.erase k .erasing n), suspended := none, guard := some 20, waiting := []
        deliveries := s.store.takeSnapshots.deliveries } := by
  have hall := Store.takeSnapshots_all (st := { s.store with active := none, suspended := some ⟨k, n, .snapshot⟩ })
    fun r hr => (h.programmed hr).1
  rw [State.suspendForSnapshot, hall]
  rfl

theorem execResumeGuardExpired_guarded {s : State} {m : Nat} (h : s.store.guard = some m) :
    exec .resumeGuardExpired s = finish (s.setStore ({ s.store with guard := none }).autoSuspendErase) := by
  simp [exec, execResumeGuardExpired, h]

theorem siteWritten_eq (f q : SiteFields) : siteWritten f q = ⟨if q.network = none then f.network else q.network,
    if q.kiosk = none then f.kiosk else q.kiosk, if q.floor = none then f.floor else q.floor⟩ := by
  obtain ⟨_ | _, _ | _, _ | _⟩ := q <;> rfl

end Sys2Proof.Machine
end

section
/-! Parameters, mains events, the ends of the store's operations and the hosts's hold, cancel and release, settled. -/

namespace Sys2Proof.Machine

/-- Settles O18: the threshold with what it silences, the clock source, and auto-suspend. -/
theorem parametersWithAFurtherEffect : Obligations.ParametersWithAFurtherEffect := by
  refine ⟨fun h n s ht h1 h15 => ⟨fun hle => ?_, fun hlt => ?_⟩, fun h s => ⟨fun w ht hp => ?_, fun w ht hw => ?_,
    fun k n ht hoff hwait hguard ha => ?_⟩⟩
  · refine exec_accepted rfl ht (serveParamSet_set (q := ⟨some .silenceThreshold, none, .number n⟩) (s := s.popInbound)
      (r := .plain .silenceThreshold) rfl (within_iff.mpr ⟨h1, h15⟩) (fun _ => State.applyThreshold_raised hle)
      (fun hsame => ?_) rfl)
    cases hsame
    rfl
  · have hlow : n < s.popInbound.roster.threshold := hlt
    have hroster := State.setThreshold_lowered (s := s.popInbound) hlow
    have happly := State.applyThreshold_lowered (s := s.popInbound) hlow
    have hexam := State.examineSilenced_touch (s.popInbound.setThreshold n) (s.popInbound.silencedByThreshold n)
    have hthreshold : (s.popInbound.setThreshold n).roster.threshold = n := by
      rw [hroster, State.updateAttention_roster]
      rfl
    have hentries : (s.popInbound.setThreshold n).roster.entries = s.roster.entries.map (fun e => e.underThreshold n) := by
      rw [hroster, State.updateAttention_roster]
      rfl
    have hcount : (s.popInbound.setThreshold n).roster.attention
        = ((s.popInbound.setThreshold n).roster.entries.filter (fun e => e.flags.any)).length := by
      rw [hroster, State.updateAttention_roster]
      rfl
    refine ⟨s.popInbound.applyThreshold n, exec_accepted rfl ht (serveParamSet_set
      (q := ⟨some .silenceThreshold, none, .number n⟩) (s := s.popInbound) (r := .plain .silenceThreshold) rfl
      (within_iff.mpr ⟨h1, h15⟩) (fun _ => rfl) (fun hsame => ?_) ?_), ?_, ?_, ?_, ?_, ?_⟩
    · exact absurd (ParamValue.number.inj hsame) (Nat.ne_of_gt hlow)
    · exact congrArg ParamValue.number (happly ▸ hexam.threshold.trans hthreshold)
    · exact happly ▸ hexam.threshold.trans hthreshold
    · rw [happly, hexam.entries, hentries, List.map_map]
      rfl
    · rw [happly, hexam.attention, hcount]
      exact filter_length_congr (p := fun e => e.flags.any) (fun _ => rfl) hexam.entries.symm
    · exact hroster ▸ State.setThreshold_touch s.popInbound n
    · refine hroster ▸ happly ▸ State.examineSilenced_passes _ _ fun k c hc hm => ?_
      obtain ⟨⟨p, hp, hlate⟩, e, he, hheard, hmisses, hpending⟩ := hm
      have hslot := (State.campaign_some hc).2
      exact ⟨State.mem_silencedByThreshold.mpr ⟨e, he, hheard, hmisses, hslot ▸ hpending⟩, by rw [hp]; exact hlate⟩
  · refine exec_accepted rfl ht (serveParamSet_set (q := ⟨some .clockSource, none, .source w⟩) (s := s.popInbound)
      (r := .plain .clockSource) rfl rfl (fun _ => State.retime_eq _ _ _ _) (fun hsame => ?_) ?_)
    · cases hsame
      exact (State.clockMoved_self (s := s.popInbound) ⟨hp.reference, hp.source, hp.offline⟩ _).symm
    · exact congrArg ParamValue.source (State.clockMoved_sourceParam _ _ _ _)
  · refine exec_accepted rfl ht (serveParamSet_set (q := ⟨some .autoSuspend, none, .switch w⟩) (s := s.popInbound)
      (r := .plain .autoSuspend) rfl rfl (fun hne => ?_) (fun hsame => ?_) (congrArg ParamValue.switch (switchOf_decide w)))
    · refine State.applyAutoSuspend_idle (s := s.popInbound) ?_
      rcases hw with hw | hw | hw
      · exact .inl (by simp [hw])
      · have hold : switchOf s.store.autoSuspend ≠ w := fun h => hne (congrArg ParamValue.switch h)
        cases w with
        | on => exact absurd (by rw [hw]; rfl) hold
        | off => exact .inl rfl
      · exact .inr hw
    · have hold : switchOf s.store.autoSuspend = w := ParamValue.switch.inj hsame
      rw [← hold, decide_switchOf]
      rfl
  · refine exec_accepted rfl ht (serveParamSet_set (q := ⟨some .autoSuspend, none, .switch .on⟩) (s := s.popInbound)
      (r := .plain .autoSuspend) rfl rfl (fun _ => ?_) (fun hsame => ?_) rfl)
    · exact congrArg s.popInbound.setStore
        (Store.autoSuspendErase_erasing (st := { s.store with autoSuspend := true }) ha rfl hguard hwait)
    · have hold : switchOf s.store.autoSuspend = .on := ParamValue.switch.inj hsame
      rw [hoff] at hold
      cases hold

/-- Settles O21, by what the channel was at. -/
theorem mainsEventsReachChannelAndClock : Obligations.MainsEventsReachChannelAndClock := by
  refine ⟨fun ch s hm => ⟨fun w hw => ?_, fun hw => ?_⟩, fun ch s hm hp => ?_, fun ch left s h => execSettleExpired_settling h⟩
  · have hpins := State.channelLost_work (s := s.setPins { s.pins with mains := s.pins.mains.set ch false }) hw
    exact (execMainsLost_live hm).trans (congrArg (fun t : State => finish (t.clockMoved _ _ _)) hpins)
  · have hpins := State.channelLost_idle (s := s.setPins { s.pins with mains := s.pins.mains.set ch false }) hw
    exact (execMainsLost_live hm).trans (congrArg (fun t : State => finish (t.clockMoved _ _ _)) hpins)
  · have hpins := State.channelReturned_offline (s := s.setPins { s.pins with mains := s.pins.mains.set ch true })
      ((hp.offline ch).mpr hm)
    exact (execMainsReturned_dead hm).trans (congrArg (fun t : State => finish (t.clockMoved _ _ _)) hpins)

/-- Settles O28: the three requests by the state of the campaign they name. -/
theorem holdCancelAndRelease : Obligations.HoldCancelAndRelease := by
  refine ⟨fun h q s c ht hn => ⟨fun hc => ?_, fun hc => ?_⟩, fun h q s c ht hn => ⟨fun hl => ?_, fun hl hp => ?_, fun hp => ?_⟩,
    fun c => ?_, fun h q s c ht hn => ⟨fun hl => ?_, fun hl => ?_⟩⟩
  · exact exec_accepted rfl ht ((serveHold_named (s := s.popInbound) hn).trans (if_pos hc))
  · exact exec_refused rfl ht ((serveHold_named (s := s.popInbound) hn).trans (if_neg hc))
  · exact exec_refused rfl ht ((serveCancel_named (s := s.popInbound) hn).trans (if_neg (by simp [hl])))
  · have ⟨_, hc, _⟩ := hn
    exact exec_accepted rfl ht ((serveCancel_named (s := s.popInbound) hn).trans ((if_pos hl).trans
      (congrArg (accept · _) (State.endCampaign_started (s := s.popInbound) hc hl hp _ _))))
  · have ⟨_, hc, _⟩ := hn
    exact exec_accepted rfl ht ((serveCancel_named (s := s.popInbound) hn).trans ((if_pos (by rw [hp]; rfl)).trans
      (congrArg (accept · _) (State.endCampaign_preparing (s := s.popInbound) hc hp _ _))))
  · obtain ⟨slot, seq, ⟨body, effective⟩, target, terms⟩ := c
    cases terms <;> cases body <;> rfl
  · exact exec_refused rfl ht ((serveRelease_named (s := s.popInbound) hn).trans (if_pos hl))
  · refine ⟨_, exec_accepted rfl ht ((serveRelease_named (s := s.popInbound) hn).trans (if_neg (by simp [hl]))), rfl, ?_⟩
    exact findBy_removeBy_same Campaign.slot q.slot s.campaigns.table

/-- Settles O51, by the operation: what waits names slots that it leaves PROGRAMMED. -/
theorem completionsFreeTheStore : Obligations.CompletionsFreeTheStore := by
  intro s op c done event hcases hactive hs
  have taken : ∀ {st : Store} {e : StoreEvent}, (∀ r ∈ st.waiting, ∃ plan, st.slots[r.planSlot]? = some (.programmed plan)) →
      st.deliveries = s.store.deliveries → exec c s = finish (s.completeOperation st e) →
      exec c s = .next (((s.setStore { st with active := none, waiting := [], deliveries := st.takeSnapshots.deliveries }).notify
          (.storeEvent e s.clock.time)).transmit)
        ∧ st.takeSnapshots.deliveries.Perm (s.store.deliveries ++ st.handedOver)
        ∧ st.takeSnapshots.deliveries.Pairwise (fun a b => a.seq ≤ b.seq) := fun hall hd hexec => by
    refine ⟨hexec.trans (congrArg finish (State.completeOperation_eq _ hall)), hd ▸ Store.takeSnapshots_perm _,
      Store.takeSnapshots_rising (hd ▸ hs.handed)⟩
  rcases hcases with ⟨p, plan, rfl, rfl, rfl, rfl⟩ | ⟨k, phase, n, rfl, rfl, rfl, rfl⟩ | ⟨q, rfl, rfl, rfl, rfl⟩ | ⟨rfl, rfl, rfl, rfl⟩
  · refine ⟨_, taken (st := { s.store with slots := s.store.slots.set p (.programmed plan) }) (fun r hr => ?_) rfl
      (by simp [exec, execProgramComplete, hactive])⟩
    obtain ⟨⟨held, hheld⟩, -⟩ := hs.programmed hr
    by_cases hp : p = r.planSlot
    · exact ⟨plan, by
        rw [List.getElem?_set, if_pos hp, if_pos (hp ▸ (List.getElem?_eq_some_iff.mp hheld).1)]⟩
    · exact ⟨held, by rw [List.getElem?_set, if_neg hp]; exact hheld⟩
  · refine ⟨_, taken (st := { s.store with slots := fillSector k .empty s.store.slots, guard := none }) (fun r hr => ?_) rfl
      (by simp [exec, execEraseComplete, hactive])⟩
    obtain ⟨⟨held, hheld⟩, hoff⟩ := hs.programmed hr
    have hsector : k ≠ r.planSlot / 4 := fun h => hoff phase n (h ▸ hactive)
    exact ⟨held, (fillSector_outside _ _ hsector).trans hheld⟩
  · refine ⟨_, siteWritten_eq s.store.site.fields q ▸ taken
      (st := { s.store with site := { s.store.site with fields := siteWritten s.store.site.fields q } })
      (fun r hr => (hs.programmed hr).1) rfl (by simp [exec, execSiteWriteComplete, hactive])⟩
  · exact ⟨_, taken (st := { s.store with site := { s.store.site with locked := true } })
      (fun r hr => (hs.programmed hr).1) rfl (by simp [exec, execSiteLockComplete, hactive])⟩

/-- Settles O52, by the owner of the suspension and by what waits behind the guard. -/
theorem suspensionsAreTaken : Obligations.SuspensionsAreTaken := by
  refine fun s k n => ⟨fun hs => ⟨s.store.takeSnapshots.deliveries, Store.takeSnapshots_perm _, Store.takeSnapshots_rising hs.handed,
    fun ha => ?_, fun ha => ?_⟩, fun m hm => ⟨fun ha hw hon => ?_, fun hno => ?_⟩⟩
  · have hexec : exec .suspensionTaken s = finish (s.suspendForHost k n) := by simp [exec, execSuspensionTaken, ha]
    rw [hexec, State.suspendForHost_eq k n hs]
    rfl
  · have hexec : exec .suspensionTaken s = finish (s.suspendForSnapshot k n) := by simp [exec, execSuspensionTaken, ha]
    rw [hexec, State.suspendForSnapshot_eq k n hs]
    rfl
  · exact (execResumeGuardExpired_guarded hm).trans (congrArg (fun st => finish (s.setStore st))
      (Store.autoSuspendErase_erasing (st := { s.store with guard := none }) ha hon rfl hw))
  · refine (execResumeGuardExpired_guarded hm).trans (congrArg (fun st => finish (s.setStore st))
      (Store.autoSuspendErase_idle (st := { s.store with guard := none }) ?_))
    rcases hno with hno | hno | hno
    · exact .inr (.inl hno)
    · exact .inl hno
    · exact .inr (.inr (.inr hno))

end Sys2Proof.Machine
end

section
/-! SUPPORT. Acceptance of a SUBMIT, activation and entry into RUNNING, and what supersession leaves pending. -/

namespace Sys2Proof.Machine

/-! ## Tables -/

section
variable {α : Type} {key : α → Nat}

theorem findBy_putBy_other {a : α} {j : Nat} (hj : j ≠ key a) (l : List α) : findBy key j (putBy key a l) = findBy key j l := by
  have ha : (key a == j) = false := beq_eq_false_iff_ne.mpr (Ne.symm hj)
  induction l with
  | nil => simp [putBy, findBy, ha]
  | cons b r ih =>
    unfold findBy at ih ⊢
    unfold putBy
    split
    · rw [List.find?_cons, ha]
    · split
      · rename_i hb
        rw [List.find?_cons, List.find?_cons, ← hb, ha]
      · rw [List.find?_cons, List.find?_cons, ih]

theorem findBy_putBy_absent {a : α} : ∀ {l : List α}, findBy key (key a) l = none → findBy key (key a) (putBy key a l) = some a
  | [], _ => by simp [putBy, findBy]
  | b :: r, h => by
    obtain ⟨hb, hr⟩ := List.forall_mem_cons.mp (findBy_none.mp h)
    unfold putBy
    split
    · simp [findBy]
    · rw [if_neg (Ne.symm hb)]
      unfold findBy
      rw [List.find?_cons, beq_eq_false_iff_ne.mpr hb]
      exact findBy_putBy_absent (findBy_none.mpr hr)

end

/-! ## The record that SUBMIT creates (R49, R50, R52) -/

theorem orderBody?_planLoad {o : OrderReq} {p : Nat} (h : orderBody? o = some (.planLoad p)) : o = .planLoad p := by
  unfold orderBody? at h
  cases o with
  | bandSet b => simp at h
  | loadSwitch r a d => cases a <;> simp at h
  | planLoad q => simp only [Option.ite_none_right_eq_some, Option.some.injEq, OrderBody.planLoad.injEq] at h; rw [h.2]
  | clockSync => cases h
  | statusPoll => cases h
  | other => cases h

theorem submitOrder?_some {q : SubmitReq} {order : Order} (h : submitOrder? q = some order) :
    orderBody? q.order = some order.body ∧ order.effective = q.effective := by
  unfold submitOrder? at h
  split at h
  · rename_i hbody _
    rw [Option.ite_none_right_eq_some] at h
    rw [← Option.some.inj h.2]
    exact ⟨hbody, rfl⟩
  · cases h

theorem State.freeSlot_lowest {s : State} {k : Nat} (h : s.freeSlot = some k) :
    k < 16 ∧ s.campaign k = none ∧ ∀ j, j < k → s.campaign j ≠ none := by
  obtain ⟨h16, hfree⟩ := State.freeSlot_none h
  refine ⟨h16, hfree, fun j hj hnone => ?_⟩
  obtain ⟨-, i, hi, hik, hbefore⟩ := List.find?_eq_some_iff_getElem.mp h
  have hk : i = k := by simpa [allSlots] using hik
  have hno := hbefore j (hk ▸ hj)
  simp [allSlots, hnone] at hno

/-- The record made from the request's parts is the one that R50 describes. -/
theorem newCampaign_creates {s : State} {q : SubmitReq} {order : Order} {target : Target} {terms : Terms}
    {priority seq slot : Nat} (ho : submitOrder? q = some order) (ht : submitTarget? q = some target)
    (hm : submitTerms? q s.campaigns.defaultPassLimit = some terms) (hp : submitPriority? q = some priority)
    (hc : s.campaigns.counter = some seq) (hslot : s.freeSlot = some slot) :
    s.Creates q (newCampaign slot seq order target terms priority q) where
  slot := State.freeSlot_lowest hslot
  seq := hc
  bandSet b hb := by
    have := (submitOrder?_some ho).1
    simp [orderBody?, hb] at this
    exact this.2.symm
  load r a d hb := by
    have := (submitOrder?_some ho).1
    simp [orderBody?, hb] at this
    exact this.2.symm
  planLoad p hb := by
    have := (submitOrder?_some ho).1
    simp [orderBody?, hb] at this
    exact this.2.symm
  clockSync hb := by
    have := (submitOrder?_some ho).1
    simp [orderBody?, hb] at this
    exact this.symm
  poll hb := by
    have := (submitOrder?_some ho).1
    simp [orderBody?, hb] at this
    exact this.symm
  effective := (submitOrder?_some ho).2
  unit u hu := by
    simp [submitTarget?, hu] at ht
    exact ht.2.symm
  group g hg := by
    simp [submitTarget?, hg] at ht
    exact ht.2.symm
  all ha := by
    simp [submitTarget?, ha] at ht
    exact ht.symm
  confirmed hq := by
    simp [submitTerms?, hq] at hm
    exact hm.2.symm
  broadcast hq := by
    simp [submitTerms?, hq] at hm
    exact hm.2.symm
  priority := by
    unfold submitPriority? at hp
    split at hp
    · rw [Option.ite_none_right_eq_some] at hp
      rw [‹q.priority = _›]
      exact hp.2
    · cases hp
  times := ⟨rfl, rfl⟩
  fresh := ⟨rfl, rfl, rfl, rfl, rfl, rfl, rfl, rfl, rfl, rfl, rfl⟩

/-- A SUBMIT that passes its checks creates its record, and the campaign activates unless its start is still ahead. -/
theorem serveSubmit_passed {s : State} {q : SubmitReq} (h : AllPass (s.submitChecks q)) : ∃ c, s.Creates q c
    ∧ orderBody? q.order = some c.order.body
    ∧ serveSubmit q s = accept (s.acceptCampaign c (submitStartsNow q (s.clock.time.getD 0)))
      (.submitted c.slot c.seq ((s.acceptCampaign c (submitStartsNow q (s.clock.time.getD 0))).campaignState c.slot)) := by
  have hnone := (s.submitChecks_follow q).passed h
  have hpass := firstRefusal_none.mp hnone
  obtain ⟨order, ho⟩ := Option.isSome_iff_exists.mp (hpass ((submitOrder? q).isSome, .malformed) (by simp))
  obtain ⟨target, ht⟩ := Option.isSome_iff_exists.mp (hpass ((submitTarget? q).isSome, .malformed) (by simp))
  have hfields := hpass ((submitTerms? q s.campaigns.defaultPassLimit).isSome && (submitPriority? q).isSome, .malformed) (by simp)
  obtain ⟨hterms, hprio⟩ := Bool.and_eq_true_iff.mp hfields
  obtain ⟨terms, hm⟩ := Option.isSome_iff_exists.mp hterms
  obtain ⟨priority, hp⟩ := Option.isSome_iff_exists.mp hprio
  obtain ⟨seq, hc⟩ := Option.isSome_iff_exists.mp (hpass (s.campaigns.counter.isSome, .noSequence) (by simp))
  obtain ⟨slot, hslot⟩ := Option.isSome_iff_exists.mp (hpass (s.freeSlot.isSome, .full) (by simp))
  refine ⟨_, newCampaign_creates ho ht hm hp hc hslot, (submitOrder?_some ho).1, ?_⟩
  rw [serveSubmit, State.submitRefusal, hnone]
  simp only [ho, ht, hm, hp, hc, hslot]
  rfl

/-! ## The host's fields of a record -/

theorem State.campaign_hostFields (s : State) (k : Nat) : (s.campaign k).map Campaign.hostFields
    = (s.campaigns.table.map Campaign.hostFields).find? (fun x => x.1 == k) := by
  rw [List.find?_map]
  rfl

/-- The campaign controller keeps the host's fields of every record. -/
theorem OnlyCampaigns.host {s t : State} (h : OnlyCampaigns s t) {k : Nat} {d : Campaign} (hd : t.campaign k = some d) :
    ∃ c, s.campaign k = some c ∧ c.hostFields = d.hostFields := by
  have hsame : (s.campaign k).map Campaign.hostFields = (t.campaign k).map Campaign.hostFields := by
    rw [State.campaign_hostFields, State.campaign_hostFields, h.table]
  rw [hd] at hsame
  exact Option.map_eq_some_iff.mp hsame

/-! ## What becomes pending -/

/-- Between two moments no slot but those of `may` became pending at an entry. -/
def State.PendsOnly (may : Nat → Prop) (s t : State) : Prop := ∀ e ∈ t.roster.entries, ∃ d ∈ s.roster.entries,
  e.forgetSlots = d.forgetSlots ∧ ∀ j ∈ e.pending, ¬ may j → j ∈ d.pending

theorem State.PendsOnly.trans {may : Nat → Prop} {s t u : State} (h : State.PendsOnly may s t) (g : State.PendsOnly may t u) :
    State.PendsOnly may s u := fun e he => by
  obtain ⟨d, hd, hed, hpending⟩ := g e he
  obtain ⟨b, hb, hdb, hless⟩ := h d hd
  exact ⟨b, hb, hed.trans hdb, fun j hj hne => hless j (hpending j hj hne) hne⟩

/-- An operation on one slot makes nothing pending. -/
theorem OnlySlot.pendsOnly {i : Nat} {may : Nat → Prop} {s t : State} (h : OnlySlot i s t) : State.PendsOnly may s t := fun e he => by
  obtain ⟨d, hd, hed, hothers, hown⟩ := h.entry he
  refine ⟨d, hd, hed, fun j hj _ => ?_⟩
  by_cases hi : j = i
  · exact hi ▸ hown (hi ▸ hj)
  · exact (hothers j hi).1.mp hj

theorem State.supersede_pendsOnly (s : State) (j : Nat) (may : Nat → Prop) : State.PendsOnly may s (s.supersede j) := by
  unfold State.supersede
  split
  · exact (OnlySlot.refl j s).pendsOnly
  · split
    · exact (OnlySlot.refl j s).pendsOnly
    · exact foldl_keeps (fun s => (OnlySlot.refl j s).pendsOnly) .trans _
        (fun t i => (t.supersedeOne_only _ i).pendsOnly) _ _

theorem State.checkWork_only (s : State) (k : Nat) : OnlySlot k s (s.checkWork k) := by
  unfold State.checkWork
  split
  · exact .refl k s
  · split
    · exact s.endCampaign_only k _ _
    · split
      · exact s.endCampaign_only k _ _
      · exact .refl k s

/-- Entry into RUNNING makes its own slot alone pending. -/
theorem State.enterRunning_pendsOnly {s : State} {c : Campaign} (hc : s.campaign c.slot = some c) :
    State.PendsOnly (· = c.slot) s (s.enterRunning c.slot) := by
  have hopen : State.PendsOnly (· = c.slot) s (s.openAccount c.slot) := fun e he => by
    rw [(State.openAccount_opened hc).2, List.mem_map] at he
    obtain ⟨d, hd, rfl⟩ := he
    exact ⟨d, hd, s.owing_forget c d, fun j hj hne => (s.owing_other c d hne).1.mp hj⟩
  exact (hopen.trans (State.supersede_pendsOnly _ _ _)).trans (State.checkWork_only _ _).pendsOnly

/-! ## Entry into RUNNING (R55 to R60) -/

theorem State.Balanced.idle {s : State} (h : s.Balanced) {k : Nat} {c : Campaign} (hc : s.campaign k = some c)
    (ha : c.state.active = false) : ∀ e ∈ s.roster.entries, k ∉ e.pending := fun e he hk => by
  have := h.pending_active he hk hc
  rw [ha] at this
  cases this

theorem State.Balanced.absent {s : State} (h : s.Balanced) {k : Nat} (hc : s.campaign k = none) :
    ∀ e ∈ s.roster.entries, k ∉ e.pending := fun e he hk => by
  obtain ⟨c, hmem, hslot, -⟩ := ((h : Accounts _ _).entries e he).owed k hk
  exact findBy_none.mp hc c hmem hslot

theorem State.Balanced.tried {s : State} (h : s.Balanced) : ∀ e ∈ s.roster.entries, ∀ j ∈ e.tried, j ∈ e.pending :=
  fun e he => ((h : Accounts _ _).entries e he).tried

/-- What entry into RUNNING brings, all of it: the campaign's own record and account, the older campaigns of its class, the
notices of the ends, the sets and the store. -/
structure State.EntersRunning (s t : State) (c d : Campaign) : Prop where
  own        : t.campaign c.slot = some d
  starts     : s.Starts t c d
  superseded : s.Superseded t c
  ends       : s.ActivationEnds t c.slot
  pends      : State.PendsOnly (· = c.slot) s t
  store      : t.store = s.store

theorem State.enterRunning_enters {s : State} {c : Campaign} (hc : s.campaign c.slot = some c) (hl : c.state.live = true)
    (hidle : ∀ e ∈ s.roster.entries, c.slot ∉ e.pending) (htried : ∀ e ∈ s.roster.entries, ∀ j ∈ e.tried, j ∈ e.pending)
    (hslots : ∀ d ∈ s.campaigns.table, d.slot < 16) : ∃ d, s.EntersRunning (s.enterRunning c.slot) c d := by
  obtain ⟨d, hd, hstarts, hover⟩ := State.enterRunning_starts hc hidle htried fun j d hj => by
    obtain ⟨hmem, hslot⟩ := State.campaign_some hj
    exact hslot ▸ hslots d hmem
  exact ⟨d, hd, hstarts, hover, State.enterRunning_activationEnds hc hl, State.enterRunning_pendsOnly hc,
    State.enterRunning_store s c.slot⟩

/-- What a campaign finds on the roster does not depend on the campaigns. -/
theorem State.Starts.of_campaigns {s t : State} {cs : Campaigns} {c d : Campaign} (h : (s.setCampaigns cs).Starts t c d) :
    s.Starts t c d := ⟨h.gone, h.nothing, h.running, h.pending⟩

/-- What a campaign supersedes is read from the others' records. -/
theorem State.Superseded.of_campaigns {s t : State} {cs : Campaigns} {c : Campaign}
    (h : (s.setCampaigns cs).Superseded t c) (hagree : ∀ k, k ≠ c.slot → (s.setCampaigns cs).campaign k = s.campaign k) :
    s.Superseded t c where
  others k old hk hne := h.others k old ((hagree k hne).trans hk) hne
  broadcast k old hk hne := h.broadcast k old ((hagree k hne).trans hk) hne
  untouched k old hk hne := h.untouched k old ((hagree k hne).trans hk) hne
  overtaken k old hk hne := h.overtaken k old ((hagree k hne).trans hk) hne

/-! ## Activation (R52 to R54) -/

theorem State.activate_load {s : State} {c : Campaign} (hc : s.campaign c.slot = some c) {p : Nat}
    (hp : c.order.body = .planLoad p) : s.activate c.slot
      = ((s.updateCampaign c.slot (fun d => { d with activatedAt := s.clock.time })).updateCampaign c.slot
          (fun d => { d with state := .preparing })).joinSnapshots ⟨c.slot, c.seq, p⟩ := by
  simp only [State.activate, hc, hp, OrderBody.planSlot]

theorem State.activate_running {s : State} {c : Campaign} (hc : s.campaign c.slot = some c)
    (hp : ∀ p, c.order.body ≠ .planLoad p) : s.activate c.slot
      = (s.updateCampaign c.slot (fun d => { d with activatedAt := s.clock.time })).enterRunning c.slot := by
  have hnone : c.order.body.planSlot = none := by
    unfold OrderBody.planSlot
    split
    · exact absurd ‹_› (hp _)
    · rfl
  simp only [State.activate, hc, hnone]

theorem State.updateCampaign_own {s : State} {k : Nat} {c : Campaign} (hc : s.campaign k = some c) {f : Campaign → Campaign}
    (hf : ∀ d, (f d).slot = d.slot) : (s.updateCampaign k f).campaign k = some (f c) := by
  rw [State.campaign_update (fun d hd => (hf d).trans hd), hc]
  rfl

theorem State.updateCampaign_other {s : State} {k j : Nat} (hj : j ≠ k) {f : Campaign → Campaign}
    (hf : ∀ d, (f d).slot = d.slot) : (s.updateCampaign k f).campaign j = s.campaign j :=
  findBy_updateBy_other (fun d hd => (hf d).trans hd) hj

theorem State.updateCampaign_slots {s : State} {k : Nat} {f : Campaign → Campaign} (hf : ∀ d, (f d).slot = d.slot)
    (h : ∀ d ∈ s.campaigns.table, d.slot < 16) : ∀ d ∈ (s.updateCampaign k f).campaigns.table, d.slot < 16 := fun d hd => by
  rcases mem_updateBy.mp hd with ⟨b, hb, -, rfl⟩ | ⟨hd, -⟩
  · exact hf b ▸ h b hb
  · exact h d hd

/-- The activation of a WAITING campaign of a class other than PLAN is its entry into RUNNING, activated now (R53). -/
theorem State.activate_enters {s : State} {c : Campaign} (hc : s.campaign c.slot = some c) (hw : c.state = .waiting)
    (hp : ∀ p, c.order.body ≠ .planLoad p) (hidle : ∀ e ∈ s.roster.entries, c.slot ∉ e.pending)
    (htried : ∀ e ∈ s.roster.entries, ∀ j ∈ e.tried, j ∈ e.pending) (hslots : ∀ d ∈ s.campaigns.table, d.slot < 16) :
    ∃ d, s.EntersRunning (s.activate c.slot) { c with activatedAt := s.clock.time } d := by
  have hown := State.updateCampaign_own (f := fun d => { d with activatedAt := s.clock.time }) hc fun _ => rfl
  have hnone : s.Concludes (s.updateCampaign c.slot (fun d => { d with activatedAt := s.clock.time })) [] :=
    State.updateCampaign_concludes (fun _ h => h) fun d hd => by
      rw [hc] at hd
      cases hd
      rw [hw]
      exact ⟨rfl, rfl⟩
  obtain ⟨d, hd⟩ := State.enterRunning_enters (c := { c with activatedAt := s.clock.time }) hown (by rw [hw]; rfl) hidle htried
    (State.updateCampaign_slots (fun _ => rfl) hslots)
  rw [State.activate_running hc hp]
  exact ⟨d, hd.own, hd.starts.of_campaigns, State.Superseded.of_campaigns hd.superseded fun k hk => State.updateCampaign_other hk fun _ => rfl,
    .after_none hnone hd.ends, hd.pends, hd.store⟩

/-- The activation of a WAITING PLAN LOAD: it is PREPARING, its request joins the list, and nothing else changes (R54). -/
theorem State.activate_load_campaign {s : State} {c : Campaign} (hc : s.campaign c.slot = some c) {p : Nat}
    (hp : c.order.body = .planLoad p) :
    (s.activate c.slot).campaign c.slot = some { c with state := .preparing, activatedAt := s.clock.time } := by
  rw [State.activate_load hc hp]
  have hown := State.updateCampaign_own (f := fun d => { d with activatedAt := s.clock.time }) hc fun _ => rfl
  exact State.updateCampaign_own (c := { c with activatedAt := s.clock.time })
    (f := fun d => { d with state := .preparing }) hown fun _ => rfl

theorem State.activate_load_other {s : State} {c : Campaign} (hc : s.campaign c.slot = some c) {p k : Nat}
    (hp : c.order.body = .planLoad p) (hk : k ≠ c.slot) : (s.activate c.slot).campaign k = s.campaign k := by
  rw [State.activate_load hc hp]
  have hfirst := State.updateCampaign_other (s := s) (f := fun d => { d with activatedAt := s.clock.time }) hk fun _ => rfl
  exact (State.updateCampaign_other (f := fun d => { d with state := .preparing }) hk fun _ => rfl).trans hfirst

/-! ## The snapshot delivery (R54) -/

theorem State.takeDelivery_other {s : State} {snap : Delivery}
    (h : ∀ c, s.campaign snap.slot = some c → c.state ≠ .preparing ∨ c.seq ≠ snap.seq) : s.takeDelivery snap = s := by
  unfold State.takeDelivery
  split
  · rfl
  · exact if_neg fun ⟨hp, hq⟩ => (h _ ‹_›).elim (· hp) (· hq)

theorem State.takeDelivery_meets {s : State} {snap : Delivery} {c : Campaign} (hc : s.campaign snap.slot = some c)
    (hstate : c.state = .preparing) (hseq : c.seq = snap.seq) : s.takeDelivery snap
      = ((s.withdrawSnapshot snap.slot).updateCampaign snap.slot (fun c => { c with snapshot := some snap.plan })).enterRunning
          snap.slot := by
  simp only [State.takeDelivery, hc, hstate, hseq, and_self, if_true]

/-- A delivery that meets its campaign: the snapshot is stored, and the campaign enters RUNNING on the roster as it stands. -/
theorem State.takeDelivery_enters {s : State} {snap : Delivery} {c : Campaign} (hc : s.campaign snap.slot = some c)
    (hstate : c.state = .preparing) (hseq : c.seq = snap.seq) (hidle : ∀ e ∈ s.roster.entries, snap.slot ∉ e.pending)
    (htried : ∀ e ∈ s.roster.entries, ∀ j ∈ e.tried, j ∈ e.pending) (hslots : ∀ d ∈ s.campaigns.table, d.slot < 16) :
    ∃ d, (s.takeDelivery snap).campaign snap.slot = some d
      ∧ s.Starts (s.takeDelivery snap) { c with snapshot := some snap.plan } d
      ∧ s.Superseded (s.takeDelivery snap) { c with snapshot := some snap.plan }
      ∧ s.ActivationEnds (s.takeDelivery snap) snap.slot
      ∧ (s.takeDelivery snap).store
        = { s.store with waiting := s.store.waiting.filter (fun r => r.slot != snap.slot) } := by
  obtain ⟨hmem, hslot⟩ := State.campaign_some hc
  rw [State.takeDelivery_meets hc hstate hseq]
  rw [← hslot] at hc hidle ⊢
  have hown := State.updateCampaign_own (s := s.withdrawSnapshot c.slot)
    (f := fun c => { c with snapshot := some snap.plan }) hc fun _ => rfl
  have hnone : s.Concludes ((s.withdrawSnapshot c.slot).updateCampaign c.slot
      (fun c => { c with snapshot := some snap.plan })) [] :=
    .trans (l := []) (.of_same (t := s.withdrawSnapshot c.slot) rfl rfl)
      (State.updateCampaign_concludes (fun _ h => h) fun d hd => by
        cases Option.some.inj ((show s.campaign c.slot = some d from hd).symm.trans hc)
        rw [hstate]
        exact ⟨rfl, rfl⟩)
  obtain ⟨d, hd⟩ := State.enterRunning_enters (c := { c with snapshot := some snap.plan }) hown (by rw [hstate]; rfl) hidle
    htried (State.updateCampaign_slots (s := s.withdrawSnapshot c.slot) (fun _ => rfl) hslots)
  obtain ⟨hgone, hnothing, hrunning, hpending⟩ := hd.starts.of_campaigns
  obtain ⟨hothers, hbroadcast, huntouched, hovertaken⟩ := State.Superseded.of_campaigns hd.superseded
    fun k hk => State.updateCampaign_other (s := s.withdrawSnapshot c.slot) hk fun _ => rfl
  exact ⟨d, hd.own, ⟨hgone, hnothing, hrunning, hpending⟩, ⟨hothers, hbroadcast, huntouched, hovertaken⟩,
    .after_none hnone hd.ends, hd.store⟩

/-! ## Acceptance (R43, R44, R52) -/

theorem State.acceptCampaign_own {s : State} {c : Campaign} (h : s.campaign c.slot = none) :
    (s.acceptCampaign c false).campaign c.slot = some c := findBy_putBy_absent h

theorem State.acceptCampaign_other {s : State} {c : Campaign} {k : Nat} (hk : k ≠ c.slot) :
    (s.acceptCampaign c false).campaign k = s.campaign k := findBy_putBy_other hk _

theorem State.campaignState_of {s : State} {k : Nat} {c : Campaign} (h : s.campaign k = some c) :
    s.campaignState k = c.state := by
  rw [State.campaignState, h]

/-- A campaign other than a PLAN LOAD that activates at acceptance, told from the state before it. -/
theorem State.acceptCampaign_enters {s : State} {c : Campaign} (hfree : s.campaign c.slot = none) (h16 : c.slot < 16)
    (hw : c.state = .waiting) (hp : ∀ p, c.order.body ≠ .planLoad p) (hs : s.campaigns.Sound) (hb : s.Balanced) :
    ∃ d, s.Starts (s.acceptCampaign c true) { c with activatedAt := s.clock.time } d
      ∧ s.Superseded (s.acceptCampaign c true) { c with activatedAt := s.clock.time }
      ∧ (s.acceptCampaign c false).EntersRunning (s.acceptCampaign c true) { c with activatedAt := s.clock.time } d := by
  obtain ⟨d, hd⟩ := State.activate_enters (s := s.acceptCampaign c false) (State.acceptCampaign_own hfree) hw hp
    (hb.absent hfree) hb.tried fun b hmem => by
      rcases putBy_mem hmem with rfl | hmem
      · exact h16
      · exact hs.slots b hmem
  exact ⟨d, hd.starts.of_campaigns, State.Superseded.of_campaigns hd.superseded fun k hk => State.acceptCampaign_other hk, hd⟩

/-! ## Behind the request (R188) -/

theorem State.Creates.of_popInbound {s : State} {q : SubmitReq} {c : Campaign} (h : s.popInbound.Creates q c) :
    s.Creates q c := ⟨h.slot, h.seq, h.bandSet, h.load, h.planLoad, h.clockSync, h.poll, h.effective, h.unit, h.group, h.all,
      h.confirmed, h.broadcast, h.priority, h.times, h.fresh⟩

theorem State.Starts.of_popInbound {s t : State} {c d : Campaign} (h : s.popInbound.Starts t c d) : s.Starts t c d :=
  ⟨h.gone, h.nothing, h.running, h.pending⟩

theorem State.Superseded.of_popInbound {s t : State} {c : Campaign} (h : s.popInbound.Superseded t c) : s.Superseded t c :=
  ⟨h.others, h.broadcast, h.untouched, h.overtaken⟩

/-- The accepted SUBMIT, with its record and the state of its campaign in the reply. -/
theorem exec_submit_passed {h : Header} {q : SubmitReq} {s : State} {now : Nat} (ht : s.Takes h (.submit q))
    (hp : AllPass (s.submitChecks q)) (hnow : s.clock.time = some now) : ∃ c, s.Creates q c
    ∧ orderBody? q.order = some c.order.body
    ∧ exec (.submit h q) s = .next ((s.popInbound.acceptCampaign c (submitStartsNow q now)).replied h (.submit q) .ok
        (.submitted c.slot c.seq ((s.popInbound.acceptCampaign c (submitStartsNow q now)).campaignState c.slot))) := by
  obtain ⟨c, hc, hbody, hserve⟩ := serveSubmit_passed (s := s.popInbound) hp
  have hgetD : s.popInbound.clock.time.getD 0 = now := congrArg (Option.getD · 0) hnow
  rw [hgetD] at hserve
  exact ⟨c, hc.of_popInbound, hbody, exec_accepted rfl ht hserve⟩

theorem submitStartsNow_of_come {q : SubmitReq} {now : Nat} (h : ∀ t, q.start = some t → t ≤ now) :
    submitStartsNow q now = true := by
  unfold submitStartsNow
  split
  · rfl
  · exact decide_eq_true (h _ ‹_›)

/-! ## Supersession (R58, R59) -/

/-- No receiver is pending both for a campaign that entered RUNNING and for an older one of its class, and no older broadcast of
its class and target goes on. -/
theorem State.EntersRunning.older {s t : State} {c d old : Campaign} (h : s.EntersRunning t c d) (hb : s.Balanced)
    (hold : s.campaign old.slot = some old) (hne : old.slot ≠ c.slot) (hseq : old.seq < c.seq)
    (hclass : old.order.body.superClass = c.order.body.superClass) (hsome : c.order.body.superClass ≠ none) :
    (old.mode = .broadcast → old.target = c.target → ∀ now, t.campaign old.slot = some now → now.state.active = false)
    ∧ (old.mode = .confirmed → c.mode = .confirmed → ∀ e ∈ t.roster.entries, c.slot ∈ e.pending → old.slot ∉ e.pending) := by
  refine ⟨fun hmode htarget now hnow => ?_, fun hmode hcm e he hpend hboth => ?_⟩
  · by_cases ha : old.state.active = true
    · rw [(h.superseded.broadcast _ old hold hne ⟨hseq, ha, hclass, hsome⟩ hmode).1 htarget] at hnow
      cases hnow
      rfl
    · rw [h.superseded.others _ old hold hne fun hs => ha hs.2.1] at hnow
      cases hnow
      exact Bool.eq_false_iff.mpr ha
  · obtain ⟨-, -, hreach⟩ := (h.starts.pending e he).mp hpend
    obtain ⟨b, hmem, hsame, hpending⟩ := h.pends e he
    have hheld := hpending _ hboth hne
    have hsup : c.Supersedes old := ⟨hseq, hb.pending_active hmem hheld hold, hclass, hsome⟩
    have hshared : s.shared c old ≠ [] := List.ne_nil_of_mem (List.mem_filter.mpr ⟨hmem, by
      rw [← s.reaches_forget c hsame, hreach]
      simpa using hheld⟩)
    obtain ⟨-, -, -, -, hgone⟩ := h.superseded.overtaken _ old hold hne hsup hmode hcm hshared
    exact (hgone e he hreach).1 hboth

end Sys2Proof.Machine
end

section
/-! SUBMIT and the snapshot delivery, settled. -/

namespace Sys2Proof.Machine

/-- Settles O24: the campaign is accepted, and its start is still ahead. -/
theorem submitWithALaterStartWaits : Obligations.SubmitWithALaterStartWaits := by
  intro h q s now start ht hp hnow hstart hlate
  obtain ⟨c, hc, -, hexec⟩ := exec_submit_passed ht hp hnow
  have hwaits : submitStartsNow q now = false := by
    rw [submitStartsNow, hstart]
    exact decide_eq_false (Nat.not_le.mpr hlate)
  obtain ⟨hstate, -⟩ := hc.fresh
  rw [hwaits, State.campaignState_of (State.acceptCampaign_own (s := s.popInbound) hc.slot.2.1), hstate] at hexec
  exact ⟨c, hc, hexec⟩

/-- Settles O25: a PLAN LOAD joins its request, and any other class enters RUNNING from acceptance. -/
theorem submitWithoutALaterStartActivates : Obligations.SubmitWithoutALaterStartActivates := by
  intro h q s now ht hp hnow hstart hsound hb
  obtain ⟨c, hc, hbody, hexec⟩ := exec_submit_passed ht hp hnow
  rw [submitStartsNow_of_come hstart] at hexec
  obtain ⟨h16, hfree, -⟩ := hc.slot
  obtain ⟨hstate, -⟩ := hc.fresh
  have hown := State.acceptCampaign_own (s := s.popInbound) hfree
  have htouch : OnlyCampaigns (s.popInbound.acceptCampaign c false) (s.popInbound.acceptCampaign c true) :=
    State.activate_touch _ _
  have htime : s.popInbound.clock.time = some now := hnow
  by_cases hload : ∃ p, q.order = .planLoad p
  · obtain ⟨p, hq⟩ := hload
    have hplan := hc.planLoad p hq
    have hnew : (s.popInbound.acceptCampaign c true).campaign c.slot
        = some { c with state := .preparing, activatedAt := some now } :=
      htime ▸ State.activate_load_campaign hown hplan
    have hactivate : s.popInbound.acceptCampaign c true = _ := State.activate_load hown hplan
    have hjoin := Store.join_gathers s.store ⟨c.slot, c.seq, p⟩
    rw [State.campaignState_of hnew] at hexec
    refine ⟨c, _, _, hc, hexec, hnew, htouch, fun p' hq' => ?_, fun hno => absurd hq (hno p)⟩
    cases hq.symm.trans hq'
    refine ⟨rfl, fun k hk => (State.activate_load_other hown hplan hk).trans (State.acceptCampaign_other hk),
      by rw [hactivate]; rfl, by rw [hactivate]; rfl, by rw [hactivate]; exact hjoin, fun ha => ?_, fun ha => ?_⟩
    · rw [hactivate]
      exact (hjoin.waits ha).2.mem_iff.mpr List.mem_cons_self
    · obtain ⟨plan, hslot⟩ := State.planPresent_iff.mp (firstRefusal_none.mp ((s.submitChecks_follow q).passed hp)
        (s.planPresent q.order, .notFound) (by simp)) p hq
      refine ⟨plan, hslot, ?_⟩
      rw [hactivate]
      refine (hjoin.free ha (List.cons_ne_nil _ _)).1.mem_iff.mpr (List.mem_append_right _ ?_)
      exact List.mem_filterMap.mpr ⟨_, List.mem_cons_self, congrArg (Option.map _) (Store.planOf_eq_some_iff.mpr hslot)⟩
  · have hp' : ∀ p, c.order.body ≠ .planLoad p := fun p hx => hload ⟨p, orderBody?_planLoad (hx ▸ hbody)⟩
    obtain ⟨d, hstarts, -, hd⟩ := State.acceptCampaign_enters (s := s.popInbound) hfree h16 hstate hp' hsound hb
    rw [htime] at hstarts hd
    rw [State.campaignState_of hd.own] at hexec
    exact ⟨c, d, _, hc, hexec, hd.own, htouch, fun p hq => absurd ⟨p, hq⟩ hload,
      fun _ => ⟨hstarts.of_popInbound, hd.store, hd.ends⟩⟩

/-- Settles O26: the entry into RUNNING from acceptance, read for the older campaigns of the class. -/
theorem newerCampaignsSupersede : Obligations.NewerCampaignsSupersede := by
  intro h q s now ht hp hnow hstart hload hsound hb
  obtain ⟨c, hc, hbody, hexec⟩ := exec_submit_passed ht hp hnow
  rw [submitStartsNow_of_come hstart] at hexec
  obtain ⟨h16, hfree, -⟩ := hc.slot
  obtain ⟨hstate, -, -, -, -, htargets, hcounts, hreasons, -⟩ := hc.fresh
  have hp' : ∀ p, c.order.body ≠ .planLoad p := fun p hx => hload p (orderBody?_planLoad (hx ▸ hbody))
  obtain ⟨d, -, hover, hd⟩ := State.acceptCampaign_enters (s := s.popInbound) hfree h16 hstate hp' hsound hb
  rw [State.campaignState_of hd.own] at hexec
  obtain ⟨hothers, hbroadcast, huntouched, hovertaken⟩ := hover
  refine ⟨c, d, _, hc, hexec, hd.own, ⟨hothers, hbroadcast, huntouched, hovertaken⟩, hd.store, hd.ends,
    fun old hmem hne hclass hsome => ?_⟩
  have hnumbered : (s.popInbound.acceptCampaign c false).Numbered :=
    State.acceptCampaign_numbered (s := s.popInbound) hsound hfree h16 hc.seq false
  have hbalanced : (s.popInbound.acceptCampaign c false).Balanced :=
    State.acceptCampaign_balanced (s := s.popInbound) hb hfree hstate htargets hcounts hreasons false
  have htouch : OnlyCampaigns (s.popInbound.acceptCampaign c false) (s.popInbound.acceptCampaign c true) :=
    State.activate_touch _ _
  have hnow : (s.popInbound.acceptCampaign c true).campaign old.slot = some old :=
    (hnumbered.of_touch htouch).order.findBy_of_mem hmem
  obtain ⟨before, hbefore, hfields⟩ := htouch.host hnow
  obtain ⟨hslot, hseq, horder, htarget, hterms, -⟩ := (by simpa [Campaign.hostFields] using hfields :
    before.slot = old.slot ∧ before.seq = old.seq ∧ before.order = old.order ∧ before.target = old.target
      ∧ before.terms = old.terms ∧ _)
  have hmode : before.mode = old.mode := by rw [Campaign.mode, Campaign.mode, hterms]
  have hlower : before.seq < c.seq := by
    rw [State.acceptCampaign_other hne] at hbefore
    obtain ⟨n, hn, hlt⟩ := hsound.below before (State.campaign_some hbefore).1
    rw [hc.seq] at hn
    exact Option.some.inj hn ▸ hlt
  obtain ⟨hbroad, hconf⟩ := hd.older (old := before) hbalanced (hslot ▸ hbefore) (hslot ▸ hne) hlower (horder ▸ hclass)
    (hclass ▸ hsome)
  rw [hmode, hslot] at hconf
  rw [hmode, hslot, htarget] at hbroad
  exact ⟨fun hm ht => hbroad hm ht old hnow, hconf⟩

/-- Settles O30, by the campaign that the delivery meets. -/
theorem snapshotDeliveriesStartPlanLoads : Obligations.SnapshotDeliveriesStartPlanLoads := by
  intro s snap rest hrest
  have hexec : exec .snapshotDelivery s = finish ((s.setStore { s.store with deliveries := rest }).takeDelivery snap) := by
    simp [exec, execSnapshotDelivery, hrest]
  refine ⟨fun hno => hexec.trans (congrArg finish (State.takeDelivery_other hno)), fun c hc hstate hseq hsound hb => ?_⟩
  obtain ⟨d, hd⟩ := State.takeDelivery_enters (s := s.setStore { s.store with deliveries := rest }) (snap := snap) hc hstate hseq
    (hb.idle hc (by rw [hstate]; rfl)) hb.tried hsound.slots
  obtain ⟨hown, hstarts, hover, hends, hstore⟩ := hd
  exact ⟨_, d, hexec, State.takeDelivery_touch _ snap, hstore, hown, hstarts, hover, hends⟩

end Sys2Proof.Machine
end

section
/-! SUPPORT. Taking a line time: the deadlines it reaches, then the starts (R53, R68, R73). -/

namespace Sys2Proof.Machine

theorem reached_eq_any (t : Option Nat) (now : Nat) : reached t now = t.any (fun v => decide (v ≤ now)) := by
  cases t <;> rfl

theorem reached_iff {t : Option Nat} {now : Nat} : reached t now = true ↔ ∃ v, t = some v ∧ v ≤ now := by
  cases t <;> simp [reached]

/-- A time not reached is still ahead. -/
theorem not_reached {t : Option Nat} {now : Nat} (h : reached t now ≠ true) : ∀ v, t = some v → now < v := fun v hv => by
  rw [hv] at h
  exact Nat.lt_of_not_le fun hle => h (decide_eq_true hle)

/-! ## Deadlines -/

/-- What a line time makes of a campaign by its deadline (R68). -/
def Campaign.atDeadline (c : Campaign) (now : Nat) (time : Option Nat) : Campaign :=
  if c.state.live = true ∧ reached c.deadline now = true then
    c.ended (if c.state = .resting then .complete else .expired) .deadline time
  else c

/-- The deadlines of a list of slots, taken one after another. -/
def State.takeDeadlines (s : State) (now : Nat) (l : List Nat) : State := l.foldl (fun t k => t.takeDeadline now k) s

/-- The starts of a list of slots, taken one after another. -/
def State.takeStarts (s : State) (now : Nat) (l : List Nat) : State := l.foldl (fun t k => t.takeStart now k) s

theorem State.timeReached_eq (s : State) (now : Nat) :
    s.timeReached now = (s.takeDeadlines now allSlots).takeStarts now allSlots := rfl

theorem State.takeDeadline_due {s : State} {now k : Nat} {c : Campaign} (hc : s.campaign k = some c)
    (h : c.state.live = true ∧ reached c.deadline now = true) : s.takeDeadline now k
      = s.endCampaign k (if c.state = .resting then .complete else .expired) .deadline := by
  simp only [State.takeDeadline, hc, if_pos h]
  split <;> rfl

theorem State.takeDeadline_ahead {s : State} {now k : Nat}
    (h : ∀ c, s.campaign k = some c → ¬ (c.state.live = true ∧ reached c.deadline now = true)) : s.takeDeadline now k = s := by
  unfold State.takeDeadline
  split
  · rfl
  · exact if_neg (h _ ‹_›)

theorem State.takeDeadline_own {s : State} {now k : Nat} {c : Campaign} (hc : s.campaign k = some c) :
    (s.takeDeadline now k).campaign k = some (c.atDeadline now s.clock.time) := by
  unfold Campaign.atDeadline
  split
  · rw [State.takeDeadline_due hc ‹_›]
    exact (State.endCampaign_live hc (‹_ ∧ _›).1 _ _).1
  · rw [State.takeDeadline_ahead fun d hd => by cases hc.symm.trans hd; assumption]
    exact hc

theorem State.takeDeadline_only (s : State) (now k : Nat) : OnlySlot k s (s.takeDeadline now k) := by
  unfold State.takeDeadline
  split
  · exact .refl k s
  · split
    · split
      · exact s.endCampaign_only k _ _
      · exact s.endCampaign_only k _ _
    · exact .refl k s

theorem State.takeDeadlines_touch (s : State) (now : Nat) (l : List Nat) : OnlyCampaigns s (s.takeDeadlines now l) :=
  .foldl _ (fun t k => t.takeDeadline_touch now k) l s

theorem State.takeStarts_touch (s : State) (now : Nat) (l : List Nat) : OnlyCampaigns s (s.takeStarts now l) :=
  .foldl _ (fun t k => t.takeStart_touch now k) l s

theorem State.takeDeadlines_other {s : State} {now k : Nat} {l : List Nat} (hk : k ∉ l) :
    (s.takeDeadlines now l).campaign k = s.campaign k :=
  List.foldlRecOn (motive := fun t : State => t.campaign k = s.campaign k) l _ rfl fun t ht j hj =>
    ((t.takeDeadline_only now j).others k fun h => hk (h ▸ hj)).trans ht

theorem allSlots_split {k : Nat} (hk : k < 16) : ∃ l m, allSlots = l ++ k :: m ∧ k ∉ l ∧ k ∉ m := by
  obtain ⟨l, m, hlm⟩ := List.append_of_mem (show k ∈ allSlots from List.mem_range.mpr hk)
  have hnodup : allSlots.Nodup := List.nodup_range
  rw [hlm] at hnodup
  obtain ⟨-, hcons, hdisj⟩ := List.nodup_append.mp hnodup
  exact ⟨l, m, hlm, fun h => hdisj k h k List.mem_cons_self rfl, (List.nodup_cons.mp hcons).1⟩

/-- The record of a slot after the deadlines were taken. -/
theorem State.takeDeadlines_campaign {s : State} {now k : Nat} {c : Campaign} (hk : k < 16) (hc : s.campaign k = some c) :
    (s.takeDeadlines now allSlots).campaign k = some (c.atDeadline now s.clock.time) := by
  obtain ⟨l, m, hlm, hl, hm⟩ := allSlots_split hk
  have hbefore := (State.takeDeadlines_other (s := s) (now := now) hl).trans hc
  have htime : (s.takeDeadlines now l).clock.time = s.clock.time := by rw [(s.takeDeadlines_touch now l).clock]
  have hown := State.takeDeadline_own (now := now) hbefore
  rw [htime] at hown
  have hsplit : s.takeDeadlines now (l ++ k :: m) = ((s.takeDeadlines now l).takeDeadline now k).takeDeadlines now m := by
    rw [State.takeDeadlines, List.foldl_append]
    rfl
  rw [hlm, hsplit]
  exact (State.takeDeadlines_other hm).trans hown

/-- A campaign is PREPARING, and a line time reaches its deadline. -/
def State.expiring (s : State) (now k : Nat) : Bool :=
  (s.campaign k).any (fun c => decide (c.state = .preparing) && c.deadline.any (fun d => decide (d ≤ now)))

/-- A deadline withdraws the request of a campaign that is PREPARING, and does no more to the store (R178). -/
theorem State.takeDeadline_store (s : State) (now k : Nat) : (s.takeDeadline now k).store
    = { s.store with waiting := s.store.waiting.filter (fun r => !(r.slot == k && s.expiring now k)) } := by
  have hkeep : s.expiring now k = false → { s.store with
      waiting := s.store.waiting.filter (fun r => !(r.slot == k && s.expiring now k)) } = s.store := fun h => by
    rw [h]
    simp
  cases hc : s.campaign k with
  | none =>
    rw [hkeep (by rw [State.expiring, hc]; rfl), State.takeDeadline_ahead fun c hx => by rw [hc] at hx; cases hx]
  | some c =>
    have hexp : s.expiring now k = (decide (c.state = .preparing) && reached c.deadline now) := by
      rw [State.expiring, hc, reached_eq_any]
      rfl
    by_cases hdue : c.state.live = true ∧ reached c.deadline now = true
    · rw [State.takeDeadline_due hc hdue]
      by_cases hp : c.state = .preparing
      · rw [hexp, hdue.2, decide_eq_true hp, State.endCampaign_preparing hc hp, State.notify_store]
        simp only [Bool.and_self, Bool.and_true]
        rfl
      · rw [hkeep (by rw [hexp, decide_eq_false hp, Bool.false_and]), State.endCampaign_store fun d hd => by
          cases hc.symm.trans hd
          exact hp]
    · rw [State.takeDeadline_ahead fun d hd => by cases hc.symm.trans hd; exact hdue, hkeep]
      rw [hexp, Bool.and_eq_false_iff, decide_eq_false_iff_not]
      refine or_iff_not_imp_left.mpr fun hp => ?_
      rw [not_not] at hp
      exact Bool.eq_false_iff.mpr fun hr => hdue ⟨by rw [hp]; rfl, hr⟩

theorem State.takeDeadlines_store (now : Nat) : ∀ {l : List Nat} (s : State), l.Nodup → (s.takeDeadlines now l).store
    = { s.store with waiting := s.store.waiting.filter (fun r => !(l.contains r.slot && s.expiring now r.slot)) }
  | [], s, _ => by simp [State.takeDeadlines]
  | k :: l, s, h => by
    obtain ⟨hk, hl⟩ := List.nodup_cons.mp h
    have ih := State.takeDeadlines_store now (s.takeDeadline now k) hl
    have hstep : s.takeDeadlines now (k :: l) = (s.takeDeadline now k).takeDeadlines now l := rfl
    rw [hstep, ih, s.takeDeadline_store now k]
    dsimp only
    congr 1
    rw [List.filter_filter]
    refine List.filter_congr fun r _ => ?_
    by_cases hr : r.slot = k
    · simp [hr, hk]
    · have hsame : (s.takeDeadline now k).expiring now r.slot = s.expiring now r.slot := by
        rw [State.expiring, State.expiring, (s.takeDeadline_only now k).others r.slot hr]
      simp [hsame, hr]

/-! ## Starts: what one activation leaves alone -/

theorem State.takeStart_due {s : State} {now k : Nat} {c : Campaign} (hc : s.campaign k = some c)
    (h : c.state = .waiting ∧ reached c.start now = true) : s.takeStart now k = s.activate k := by
  simp only [State.takeStart, hc, if_pos h]

theorem State.takeStart_ahead {s : State} {now k : Nat}
    (h : ∀ c, s.campaign k = some c → ¬ (c.state = .waiting ∧ reached c.start now = true)) : s.takeStart now k = s := by
  unfold State.takeStart
  split
  · rfl
  · exact if_neg (h _ ‹_›)

/-- A start taken is not due, or is the activation of a WAITING campaign. -/
theorem State.takeStart_cases (s : State) (now k : Nat) : s.takeStart now k = s
    ∨ ∃ c, s.campaign k = some c ∧ c.slot = k ∧ c.state = .waiting ∧ s.takeStart now k = s.activate k := by
  unfold State.takeStart
  split
  · exact .inl rfl
  · rename_i c hc
    split
    · exact .inr ⟨c, hc, (State.campaign_some hc).2, (‹_ ∧ _›).1, rfl⟩
    · exact .inl rfl

/-- An activation is that of a PLAN LOAD, or entry into RUNNING. -/
theorem State.activate_cases {s : State} {c : Campaign} (hc : s.campaign c.slot = some c) :
    (∃ p, c.order.body = .planLoad p) ∨ (∀ p, c.order.body ≠ .planLoad p) ∧ s.activate c.slot
      = (s.updateCampaign c.slot (fun d => { d with activatedAt := s.clock.time })).enterRunning c.slot := by
  by_cases h : ∃ p, c.order.body = .planLoad p
  · exact .inl h
  · exact .inr ⟨fun p hp => h ⟨p, hp⟩, State.activate_running hc fun p hp => h ⟨p, hp⟩⟩

/-- Supersession leaves what is neither RUNNING nor HELD. -/
theorem State.supersede_inactive {s : State} {j k : Nat} {c : Campaign} (hc : s.campaign k = some c)
    (ha : c.state.active = false) : (s.supersede j).campaign k = some c := by
  unfold State.supersede
  split
  · exact hc
  · split
    · exact hc
    · refine List.foldlRecOn (motive := fun t : State => t.campaign k = some c) allSlots _ hc fun t ht i _ => ?_
      by_cases hi : k = i
      · subst hi
        unfold State.supersedeOne
        simp only [ht, ha, Bool.false_eq_true, false_and, and_false, if_false]
      · exact ((t.supersedeOne_only _ i).others k hi).trans ht

theorem State.enterRunning_inactive {s : State} {j k : Nat} (hj : k ≠ j) {b c : Campaign} (hb : s.campaign j = some b)
    (hc : s.campaign k = some c) (ha : c.state.active = false) : (s.enterRunning j).campaign k = some c := by
  have hopen := ((State.openAccount_untouched hb).campaign k hj).trans hc
  exact ((State.checkWork_only _ j).others k hj).trans (State.supersede_inactive hopen ha)

theorem State.takeStart_inactive {s : State} {now j k : Nat} (hj : k ≠ j) {c : Campaign} (hc : s.campaign k = some c)
    (ha : c.state.active = false) : (s.takeStart now j).campaign k = some c := by
  rcases s.takeStart_cases now j with h | ⟨b, hb, rfl, -, h⟩
  · rw [h]
    exact hc
  · rw [h]
    rcases State.activate_cases hb with ⟨p, hp⟩ | ⟨-, hrun⟩
    · exact (State.activate_load_other hb hp hj).trans hc
    · rw [hrun]
      exact State.enterRunning_inactive hj (State.updateCampaign_own hb fun _ => rfl)
        ((State.updateCampaign_other (f := fun d => { d with activatedAt := s.clock.time }) hj fun _ => rfl).trans hc) ha

theorem Campaign.Unstarted.inactive {c : Campaign} (h : c.Unstarted) : c.state.active = false := by
  rcases h with h | h <;> rw [h] <;> rfl

/-- An activation makes no other campaign WAITING or PREPARING. -/
theorem State.takeStart_back {s : State} {now j k : Nat} (hj : k ≠ j) {d : Campaign}
    (hd : (s.takeStart now j).campaign k = some d) (hu : d.Unstarted) : s.campaign k = some d := by
  rcases s.takeStart_cases now j with h | ⟨b, hb, rfl, hw, h⟩
  · rwa [h] at hd
  · rw [h] at hd
    rcases State.activate_cases hb with ⟨p, hp⟩ | ⟨-, hrun⟩
    · rwa [State.activate_load_other hb hp hj] at hd
    · have hown := State.updateCampaign_own (f := fun d => { d with activatedAt := s.clock.time }) hb fun _ => rfl
      rw [hrun] at hd
      obtain ⟨c, hc, hcu, -⟩ := (State.enterRunning_calm _ b.slot fun e he hp => by
        cases hown.symm.trans he
        rw [hw] at hp
        cases hp).back k d hd hu
      cases (State.enterRunning_inactive hj hown hc hcu.inactive).symm.trans hd
      rwa [State.updateCampaign_other (f := fun d => { d with activatedAt := s.clock.time }) hj fun _ => rfl] at hc

theorem State.takeStarts_inactive {s : State} {now k : Nat} {l : List Nat} (hk : k ∉ l) {c : Campaign}
    (hc : s.campaign k = some c) (ha : c.state.active = false) : (s.takeStarts now l).campaign k = some c :=
  List.foldlRecOn (motive := fun t : State => t.campaign k = some c) l _ hc fun _ ht _ hj =>
    State.takeStart_inactive (ne_of_mem_of_not_mem hj hk).symm ht ha

theorem State.takeStarts_back {s : State} {now k : Nat} {l : List Nat} (hk : k ∉ l) {d : Campaign} :
    (s.takeStarts now l).campaign k = some d → d.Unstarted → s.campaign k = some d := fun hd hu =>
  List.foldlRecOn (motive := fun t : State => t.campaign k = some d → s.campaign k = some d) l _ id
    (fun _ ht _ hj hd => ht (State.takeStart_back (ne_of_mem_of_not_mem hj hk).symm hd hu)) hd

/-! ## Starts: what a campaign keeps of its own -/

/-- What a campaign keeps of its entry into RUNNING, whatever later activations take from it. -/
structure Campaign.KeepsOpening (c d : Campaign) : Prop where
  host      : d.hostFields = c.hostFields
  activated : d.activatedAt = c.activatedAt
  targets   : d.targets = c.targets
  barred    : d.counts.barred = c.counts.barred

def State.OpeningKept (k : Nat) (s t : State) : Prop :=
  ∀ c, s.campaign k = some c → ∃ d, t.campaign k = some d ∧ c.KeepsOpening d

theorem State.OpeningKept.refl (k : Nat) (s : State) : State.OpeningKept k s s := fun c hc => ⟨c, hc, rfl, rfl, rfl, rfl⟩

theorem State.OpeningKept.trans {k : Nat} {s t u : State} (h : State.OpeningKept k s t) (g : State.OpeningKept k t u) :
    State.OpeningKept k s u := fun c hc => by
  obtain ⟨d, hd, h1, h2, h3, h4⟩ := h c hc
  obtain ⟨e, he, g1, g2, g3, g4⟩ := g d hd
  exact ⟨e, he, g1.trans h1, g2.trans h2, g3.trans h3, g4.trans h4⟩

theorem Unsettled.openingKept {k : Nat} {s t : State} (h : Unsettled k s t) : State.OpeningKept k s t := fun c hc => by
  obtain ⟨d, hd, hcounts, -, hhost, htargets, -, hact, -⟩ := h.present c hc
  exact ⟨d, hd, hhost, hact, htargets, by rw [hcounts]⟩

theorem State.OpeningKept.of_same {k : Nat} {s t : State} (h : t.campaign k = s.campaign k) : State.OpeningKept k s t :=
  fun c hc => ⟨c, h.trans hc, rfl, rfl, rfl, rfl⟩

theorem State.overtake_openingKept (s : State) (old new : Nat) : State.OpeningKept old s (s.overtake old new) := by
  unfold State.overtake
  dsimp only
  split
  · exact .refl old s
  · refine .trans (fun c hc => ?_) ((State.completeIfSettled_unsettled _ old .overtaken).trans
      (State.examinePass_unsettled _ old)).openingKept
    obtain ⟨-, rfl⟩ := State.campaign_some hc
    exact ⟨_, State.updateCampaign_own (s := s.setEntries _) hc fun _ => rfl, rfl, rfl, rfl, rfl⟩

theorem State.supersedeOne_openingKept (s : State) (new : Campaign) (i k : Nat) :
    State.OpeningKept k s (s.supersedeOne new i) := by
  by_cases hi : k = i
  · subst hi
    unfold State.supersedeOne
    split
    · exact .refl k s
    · rename_i c hc
      have hslot := (State.campaign_some hc).2
      split
      · split
        · exact hslot ▸ State.overtake_openingKept s c.slot new.slot
        · exact .refl k s
        · split
          · exact (State.endCampaign_unsettled s k rfl .newer).openingKept
          · exact .refl k s
      · exact .refl k s
  · exact .of_same ((s.supersedeOne_only new i).others k hi)

theorem State.supersede_openingKept (s : State) (j k : Nat) : State.OpeningKept k s (s.supersede j) := by
  unfold State.supersede
  split
  · exact .refl k s
  · split
    · exact .refl k s
    · exact foldl_keeps (.refl k) .trans _ (fun t i => t.supersedeOne_openingKept _ i k) _ _

theorem State.checkWork_unsettled (s : State) (k : Nat) : Unsettled k s (s.checkWork k) := by
  unfold State.checkWork
  split
  · exact .refl k s
  · split
    · exact State.endCampaign_unsettled s k rfl _
    · split
      · exact State.endCampaign_unsettled s k rfl _
      · exact .refl k s

theorem State.enterRunning_openingKept {s : State} {j k : Nat} (hj : k ≠ j) {b : Campaign} (hb : s.campaign j = some b) :
    State.OpeningKept k s (s.enterRunning j) :=
  (State.OpeningKept.of_same ((State.openAccount_untouched hb).campaign k hj)).trans
    ((State.supersede_openingKept _ j k).trans (.of_same ((State.checkWork_only _ j).others k hj)))

theorem State.takeStart_openingKept {s : State} {now j k : Nat} (hj : k ≠ j) : State.OpeningKept k s (s.takeStart now j) := by
  rcases s.takeStart_cases now j with h | ⟨b, hb, rfl, -, h⟩
  · rw [h]
    exact .refl k s
  · rw [h]
    rcases State.activate_cases hb with ⟨p, hp⟩ | ⟨-, hrun⟩
    · exact .of_same (State.activate_load_other hb hp hj)
    · rw [hrun]
      exact (State.OpeningKept.of_same (State.updateCampaign_other (f := fun d => { d with activatedAt := s.clock.time }) hj
        fun _ => rfl)).trans
        (State.enterRunning_openingKept hj (State.updateCampaign_own hb fun _ => rfl))

theorem State.takeStarts_openingKept {s : State} {now k : Nat} {l : List Nat} (hk : k ∉ l) :
    State.OpeningKept k s (s.takeStarts now l) :=
  List.foldlRecOn (motive := fun t : State => State.OpeningKept k s t) l _ (.refl k s) fun _ ht _ hj =>
    ht.trans (State.takeStart_openingKept (ne_of_mem_of_not_mem hj hk).symm)

/-- A campaign's own record after its entry into RUNNING: what its account opened with, and no longer WAITING. -/
theorem State.enterRunning_own {s : State} {c : Campaign} (hc : s.campaign c.slot = some c) :
    ∃ d, (s.enterRunning c.slot).campaign c.slot = some d ∧ (s.opened c).KeepsOpening d ∧ ¬ d.Unstarted := by
  obtain ⟨hown, -⟩ := State.openAccount_opened hc
  obtain ⟨d, hd, hkeeps⟩ := ((State.supersede_openingKept (s.openAccount c.slot) c.slot c.slot).trans
    (State.checkWork_unsettled _ c.slot).openingKept) _ hown
  refine ⟨d, hd, hkeeps, fun hu => ?_⟩
  obtain ⟨b, hb, hbu, -⟩ := ((State.supersede_calm (s.openAccount c.slot) c.slot).trans
    (State.checkWork_calm _ c.slot)).back c.slot d hd hu
  cases hown.symm.trans hb
  have := hbu.inactive
  rw [(s.opened_fields c).2.1] at this
  cases this

theorem State.opened_account (s : State) (c : Campaign) :
    (s.opened c).targets = some (s.roster.entries.filter (s.reaches c)).length
      ∧ (s.opened c).counts.barred = (s.roster.entries.filter (fun e => c.target.names e && s.barred e)).length
      ∧ (s.opened c).activatedAt = c.activatedAt := by
  unfold State.opened
  split
  · exact ⟨rfl, rfl, rfl⟩
  · exact ⟨rfl, rfl, rfl⟩

/-! ## Starts: the whole of them -/

/-- A start reached: the campaign is WAITING and its start time has come. -/
def Campaign.Due (c : Campaign) (now : Nat) : Prop := c.state = .waiting ∧ reached c.start now = true

theorem Campaign.Due.inactive {c : Campaign} {now : Nat} (h : c.Due now) : c.state.active = false := by rw [h.1]; rfl

theorem State.takeStarts_split {s : State} {now k : Nat} (hk : k < 16) : ∃ l m, k ∉ l ∧ k ∉ m
    ∧ s.takeStarts now allSlots = ((s.takeStarts now l).takeStart now k).takeStarts now m := by
  obtain ⟨l, m, hlm, hl, hm⟩ := allSlots_split hk
  refine ⟨l, m, hl, hm, ?_⟩
  rw [hlm, State.takeStarts, List.foldl_append]
  rfl

/-- A start taken is due no more. -/
theorem State.takeStart_own {s : State} {now k : Nat} {d : Campaign} (hd : (s.takeStart now k).campaign k = some d) :
    ¬ d.Due now := by
  by_cases h : ∃ c, s.campaign k = some c ∧ c.Due now
  · obtain ⟨c, hc, hdue⟩ := h
    obtain ⟨-, rfl⟩ := State.campaign_some hc
    rw [State.takeStart_due hc hdue] at hd
    rintro ⟨hw, -⟩
    rcases State.activate_cases hc with ⟨p, hp⟩ | ⟨-, hrun⟩
    · cases (State.activate_load_campaign hc hp).symm.trans hd
      cases hw
    · rw [hrun] at hd
      obtain ⟨b, hb, -, hstarted⟩ := State.enterRunning_own (c := { c with activatedAt := s.clock.time })
        (State.updateCampaign_own (f := fun d => { d with activatedAt := s.clock.time }) hc fun _ => rfl)
      cases hb.symm.trans hd
      exact hstarted (.inl hw)
  · rw [State.takeStart_ahead fun c hc hdue => h ⟨c, hc, hdue⟩] at hd
    exact fun hdue => h ⟨d, hd, hdue⟩

theorem State.takeStarts_none_due {s : State} {now k : Nat} (hk : k < 16) {d : Campaign}
    (hd : (s.takeStarts now allSlots).campaign k = some d) : ¬ d.Due now := fun hdue => by
  obtain ⟨l, m, -, hm, hsplit⟩ := State.takeStarts_split (s := s) (now := now) hk
  rw [hsplit] at hd
  exact State.takeStart_own (State.takeStarts_back hm hd (.inl hdue.1)) hdue

/-- What a start does to the plan store: the request of a PLAN LOAD joins the list (R54, R176). -/
theorem State.takeStart_gathers (s : State) (now k : Nat) : ∃ rs, Store.Gathers s.store (s.takeStart now k).store rs
    ∧ ∀ r, r ∈ rs ↔ r.slot = k ∧ ∃ c, s.campaign k = some c ∧ c.Due now ∧ c.order.body = .planLoad r.planSlot
      ∧ c.seq = r.seq := by
  by_cases h : ∃ c, s.campaign k = some c ∧ c.Due now
  · obtain ⟨c, hc, hdue⟩ := h
    obtain ⟨-, rfl⟩ := State.campaign_some hc
    rw [State.takeStart_due hc hdue]
    rcases State.activate_cases hc with ⟨p, hp⟩ | ⟨hno, hrun⟩
    · refine ⟨[⟨c.slot, c.seq, p⟩], State.activate_load hc hp ▸ Store.join_gathers s.store _, fun ⟨slot, seq, plan⟩ => ?_⟩
      rw [List.mem_singleton]
      constructor
      · intro h
        cases h
        exact ⟨rfl, c, hc, hdue, hp, rfl⟩
      · rintro ⟨rfl, b, hb, -, hbp, rfl⟩
        cases hc.symm.trans hb
        cases hp.symm.trans hbp
        rfl
    · refine ⟨[], ?_, fun r => ⟨fun h => (List.not_mem_nil h).elim, ?_⟩⟩
      · rw [hrun, State.enterRunning_store]
        exact .refl _
      · rintro ⟨-, b, hb, -, hbp, -⟩
        cases hc.symm.trans hb
        exact absurd hbp (hno _)
  · rw [State.takeStart_ahead fun c hc hdue => h ⟨c, hc, hdue⟩]
    refine ⟨[], .refl _, fun r => ⟨fun h => (List.not_mem_nil h).elim, ?_⟩⟩
    rintro ⟨-, c, hc, hdue, -⟩
    exact absurd ⟨c, hc, hdue⟩ h

/-- What the starts of a list of slots do to the plan store, each by the record that it found. -/
theorem State.takeStarts_gathers (now : Nat) : ∀ {l : List Nat} (s : State), l.Nodup → ∃ rs,
    Store.Gathers s.store (s.takeStarts now l).store rs
    ∧ ∀ r, r ∈ rs ↔ r.slot ∈ l ∧ ∃ c, s.campaign r.slot = some c ∧ c.Due now ∧ c.order.body = .planLoad r.planSlot
      ∧ c.seq = r.seq
  | [], s, _ => ⟨[], .refl _, fun r => by simp⟩
  | k :: l, s, h => by
    obtain ⟨hk, hl⟩ := List.nodup_cons.mp h
    obtain ⟨first, hfirst, hin⟩ := s.takeStart_gathers now k
    obtain ⟨rest, hrest, hothers⟩ := State.takeStarts_gathers now (s.takeStart now k) hl
    refine ⟨first ++ rest, hfirst.trans hrest, fun r => ?_⟩
    have hsame : r.slot ∈ l → ((∃ c, (s.takeStart now k).campaign r.slot = some c ∧ c.Due now
        ∧ c.order.body = .planLoad r.planSlot ∧ c.seq = r.seq) ↔ ∃ c, s.campaign r.slot = some c ∧ c.Due now
        ∧ c.order.body = .planLoad r.planSlot ∧ c.seq = r.seq) := fun hr => by
      have hne : r.slot ≠ k := ne_of_mem_of_not_mem hr hk
      exact exists_congr fun c => ⟨fun ⟨hc, hdue, hrest⟩ => ⟨State.takeStart_back hne hc (.inl hdue.1), hdue, hrest⟩,
        fun ⟨hc, hdue, hrest⟩ => ⟨State.takeStart_inactive hne hc hdue.inactive, hdue, hrest⟩⟩
    rw [List.mem_append, hin, hothers, List.mem_cons]
    constructor
    · rintro (⟨hr, hc⟩ | ⟨hr, hc⟩)
      · exact ⟨.inl hr, hr ▸ hc⟩
      · exact ⟨.inr hr, (hsame hr).mp hc⟩
    · rintro ⟨hr | hr, hc⟩
      · exact .inl ⟨hr, hr ▸ hc⟩
      · exact .inr ⟨hr, (hsame hr).mpr hc⟩

/-- A PLAN LOAD whose start was taken. -/
theorem State.takeStarts_load {s : State} {now : Nat} {c : Campaign} (hk : c.slot < 16) (hc : s.campaign c.slot = some c)
    (hdue : c.Due now) {p : Nat} (hp : c.order.body = .planLoad p) : (s.takeStarts now allSlots).campaign c.slot
      = some { c with state := .preparing, activatedAt := s.clock.time } := by
  obtain ⟨l, m, hl, hm, hsplit⟩ := State.takeStarts_split (s := s) (now := now) hk
  have hbefore := State.takeStarts_inactive (now := now) hl hc hdue.inactive
  have htime : (s.takeStarts now l).clock.time = s.clock.time := by rw [(s.takeStarts_touch now l).clock]
  have hown := State.activate_load_campaign hbefore hp
  rw [htime] at hown
  rw [hsplit, State.takeStart_due hbefore hdue]
  exact State.takeStarts_inactive hm hown rfl

/-- A campaign of any other class whose start was taken: it entered RUNNING, whatever the later starts took from it. -/
theorem State.takeStarts_running {s : State} {now : Nat} {c : Campaign} (hk : c.slot < 16) (hc : s.campaign c.slot = some c)
    (hdue : c.Due now) (hp : ∀ p, c.order.body ≠ .planLoad p) : ∃ t d, OnlyCampaigns s t
      ∧ (s.takeStarts now allSlots).campaign c.slot = some d ∧ ¬ d.Unstarted
      ∧ (t.opened { c with activatedAt := s.clock.time }).KeepsOpening d := by
  obtain ⟨l, m, hl, hm, hsplit⟩ := State.takeStarts_split (s := s) (now := now) hk
  have hbefore := State.takeStarts_inactive (now := now) hl hc hdue.inactive
  have htouch := s.takeStarts_touch now l
  have htime : (s.takeStarts now l).clock.time = s.clock.time := by rw [htouch.clock]
  rw [hsplit, State.takeStart_due hbefore hdue, State.activate_running hbefore hp, htime]
  have hstamp := State.updateCampaign_own (f := fun d => { d with activatedAt := s.clock.time }) hbefore fun _ => rfl
  obtain ⟨b, hb, hkeeps, hstarted⟩ := State.enterRunning_own (c := { c with activatedAt := s.clock.time }) hstamp
  obtain ⟨d, hd, hlater⟩ := State.takeStarts_openingKept (now := now) hm _ hb
  have hstamped := htouch.trans (.of_updateCampaign (k := c.slot) (f := fun d => { d with activatedAt := s.clock.time })
    fun _ _ _ => rfl)
  refine ⟨_, d, hstamped, hd, fun hu => ?_, ?_⟩
  · cases hb.symm.trans (State.takeStarts_back hm hd hu)
    exact hstarted hu
  · exact ⟨hlater.host.trans hkeeps.host, hlater.activated.trans hkeeps.activated, hlater.targets.trans hkeeps.targets,
      hlater.barred.trans hkeeps.barred⟩

/-- Where one start alone is due, its activation is all that the starts bring. -/
theorem State.takeStarts_alone {s : State} {now : Nat} {c : Campaign} (hk : c.slot < 16) (hc : s.campaign c.slot = some c)
    (hdue : c.Due now) (h : ∀ k d, s.campaign k = some d → d.Due now → d = c) :
    s.takeStarts now allSlots = s.activate c.slot := by
  obtain ⟨l, m, hl, hm, hsplit⟩ := State.takeStarts_split (s := s) (now := now) hk
  have hnone : ∀ {t : State} {j : Nat}, j ≠ c.slot → (∀ d, t.campaign j = some d → d.Due now → s.campaign j = some d) →
      t.takeStart now j = t := fun hj hback => State.takeStart_ahead fun d hd hx => by
    have hold := hback d hd hx
    cases h _ d hold hx
    exact hj (State.campaign_some hold).2.symm
  have hbefore : s.takeStarts now l = s := List.foldlRecOn (motive := fun t : State => t = s) l _ rfl fun t ht j hj => by
    subst ht
    exact hnone (ne_of_mem_of_not_mem hj hl) fun d hd _ => hd
  have hown : s.takeStart now c.slot = s.activate c.slot := State.takeStart_due hc hdue
  rw [hsplit, hbefore, hown]
  refine List.foldlRecOn (motive := fun t : State => t = s.activate c.slot) m _ rfl fun t ht j hj => ?_
  subst ht
  have hj : j ≠ c.slot := ne_of_mem_of_not_mem hj hm
  exact hnone hj fun d hd hx => State.takeStart_back (now := now) hj (by rw [hown]; exact hd) (.inl hx.1)

/-! ## The line time taken -/

/-- The starts that remain after the deadlines are those of the campaigns that no deadline takes. -/
theorem State.takeDeadlines_due {s : State} (hn : s.Numbered) {now k : Nat} {c : Campaign} :
    (s.takeDeadlines now allSlots).campaign k = some c ∧ c.Due now ↔ s.campaign k = some c ∧ c.StartsAt now := by
  constructor
  · rintro ⟨hc, hw, hr⟩
    obtain ⟨b, hb, -⟩ := (s.takeDeadlines_touch now allSlots).host hc
    obtain ⟨hmem, rfl⟩ := State.campaign_some hb
    cases (State.takeDeadlines_campaign (now := now) (hn.slots b hmem) hb).symm.trans hc
    unfold Campaign.atDeadline at hw hr ⊢
    split at hw
    · split at hw <;> cases hw
    · rename_i hahead
      rw [if_neg hahead] at hr ⊢
      exact ⟨hb, hw, reached_iff.mp hr, not_reached fun h => hahead ⟨by rw [hw]; rfl, h⟩⟩
  · rintro ⟨hc, hw, hs, hd⟩
    obtain ⟨hmem, rfl⟩ := State.campaign_some hc
    have hsame : c.atDeadline now s.clock.time = c := if_neg fun ⟨_, h⟩ => by
      obtain ⟨v, hv, hle⟩ := reached_iff.mp h
      exact absurd hle (Nat.not_le.mpr (hd v hv))
    refine ⟨?_, hw, reached_iff.mpr hs⟩
    rw [State.takeDeadlines_campaign (hn.slots c hmem) hc, hsame]

theorem State.takeDeadlines_allSlots_store {s : State} (hn : s.Numbered) (now : Nat) :
    (s.takeDeadlines now allSlots).store = { s.store with waiting := s.requestsLeft now } := by
  rw [State.takeDeadlines_store now s (show allSlots.Nodup from List.nodup_range)]
  refine congrArg (fun l => { s.store with waiting := l }) (List.filter_congr fun r _ => congrArg not ?_)
  show (allSlots.contains r.slot && s.expiring now r.slot) = s.expiring now r.slot
  cases hc : s.campaign r.slot with
  | none => rw [State.expiring, hc, Option.any_none, Bool.and_false]
  | some c =>
    obtain ⟨hmem, hslot⟩ := State.campaign_some hc
    have hin : allSlots.contains r.slot = true :=
      List.contains_iff_mem.mpr (List.mem_range.mpr (hslot ▸ hn.slots c hmem))
    rw [hin, Bool.true_and]

theorem State.mem_table_iff {s : State} (hn : s.Numbered) {c : Campaign} :
    c ∈ s.campaigns.table ↔ s.campaign c.slot = some c :=
  ⟨fun h => hn.order.findBy_of_mem h, fun h => (State.campaign_some h).1⟩

/-- The members of a target, and the barred among them, are counted alike while only the campaigns act. -/
theorem OnlyCampaigns.counts_reached {s t : State} (h : OnlyCampaigns s t) (c : Campaign) :
    (t.roster.entries.filter (t.reaches c)).length = (s.roster.entries.filter (s.reaches c)).length
      ∧ (t.roster.entries.filter (fun e => c.target.names e && t.barred e)).length
        = (s.roster.entries.filter (fun e => c.target.names e && s.barred e)).length := by
  have hreach : t.reaches c = s.reaches c := by
    funext e
    unfold State.reaches State.barred
    rw [h.segments]
  have hbar : t.barred = s.barred := by
    funext e
    unfold State.barred
    rw [h.segments]
  have hnames (e : Entry) : c.target.names e.forgetSlots = c.target.names e := by cases c.target <;> rfl
  rw [hreach, hbar]
  refine ⟨filter_length_congr (fun e => ?_) h.entries, filter_length_congr (fun e => ?_) h.entries⟩
  · exact congrArg (· && !s.barred e) (hnames e)
  · exact congrArg (· && s.barred e) (hnames e)

/-- A campaign once terminal stays as it was. -/
theorem State.takeStarts_frozen {s : State} {now k : Nat} {l : List Nat} {c : Campaign} (hc : s.campaign k = some c)
    (hl : c.state.live = false) : (s.takeStarts now l).campaign k = some c :=
  List.foldlRecOn (motive := fun t : State => t.campaign k = some c) l _ hc fun t ht j _ => by
    obtain ⟨_, hconcludes, -⟩ := t.takeStart_ends now j
    exact hconcludes.frozen k c ht hl

/-- No deadline that a line time reaches is left to a live campaign. -/
theorem State.timeReached_deadlines {s : State} (hn : s.Numbered) (now : Nat) : ∀ c ∈ (s.timeReached now).campaigns.table,
    c.state.live = true → ∀ d, c.deadline = some d → now < d := by
  intro c hmem hl
  have hfinal := (State.mem_table_iff (State.Numbered.of_touch hn (s.timeReached_touch now))).mp hmem
  rw [State.timeReached_eq] at hfinal
  have htouch := (s.takeDeadlines now allSlots).takeStarts_touch now allSlots
  obtain ⟨b, hb, hfields⟩ := htouch.host hfinal
  obtain ⟨a, ha, -⟩ := (s.takeDeadlines_touch now allSlots).host hb
  obtain ⟨hamem, haslot⟩ := State.campaign_some ha
  have hk : c.slot < 16 := haslot ▸ hn.slots a hamem
  have hfrozen : b.state.live = true := by
    by_contra hdead
    have hdead := Bool.eq_false_iff.mpr hdead
    cases (State.takeStarts_frozen (now := now) (l := allSlots) hb hdead).symm.trans hfinal
    rw [hl] at hdead
    cases hdead
  have hdeadline : b.deadline = c.deadline := congrArg (fun x => x.2.2.2.2.2.2.2) hfields
  cases (State.takeDeadlines_campaign (now := now) hk ha).symm.trans hb
  rw [← hdeadline]
  unfold Campaign.atDeadline at hfrozen ⊢
  split at hfrozen
  · split at hfrozen <;> cases hfrozen
  · rename_i hahead
    rw [if_neg hahead]
    exact not_reached fun h => hahead ⟨hfrozen, h⟩

/-- No start that a line time reaches is left to a WAITING campaign. -/
theorem State.timeReached_starts {s : State} (hn : s.Numbered) (now : Nat) : ∀ c ∈ (s.timeReached now).campaigns.table,
    c.state = .waiting → ∀ d, c.start = some d → now < d := by
  intro c hmem hw
  have ht := State.Numbered.of_touch hn (s.timeReached_touch now)
  have hfinal := (State.mem_table_iff ht).mp hmem
  rw [State.timeReached_eq] at hfinal
  exact not_reached fun h => State.takeStarts_none_due (ht.slots c hmem) hfinal ⟨hw, h⟩

/-- What such a campaign keeps, on the roster as it stands before the starts. -/
theorem State.takeStarts_opened {s : State} {now : Nat} {c : Campaign} (hk : c.slot < 16) (hc : s.campaign c.slot = some c)
    (hdue : c.Due now) (hp : ∀ p, c.order.body ≠ .planLoad p) : ∃ d, (s.takeStarts now allSlots).campaign c.slot = some d
      ∧ d.hostFields = c.hostFields ∧ d.activatedAt = s.clock.time ∧ d.state ≠ .waiting ∧ d.state ≠ .preparing
      ∧ d.targets = some (s.roster.entries.filter (s.reaches c)).length
      ∧ d.counts.barred = (s.roster.entries.filter (fun e => c.target.names e && s.barred e)).length := by
  obtain ⟨m, d, hm, hfinal, hstarted, hkeeps⟩ := State.takeStarts_running hk hc hdue hp
  obtain ⟨htargets, hbarred, hact⟩ := m.opened_account { c with activatedAt := s.clock.time }
  obtain ⟨hreached, hbars⟩ := hm.counts_reached c
  exact ⟨d, hfinal, hkeeps.host.trans (m.opened_fields _).1, hkeeps.activated.trans hact, fun h => hstarted (.inl h),
    fun h => hstarted (.inr h), (hkeeps.targets.trans htargets).trans (congrArg some hreached),
    (hkeeps.barred.trans hbarred).trans hbars⟩

/-- The line time taken, start by start. -/
theorem State.timeReached_startsTaken {s : State} {now : Nat} (hn : s.Numbered) (hb : s.Balanced)
    (hnow : s.clock.time = some now) : s.StartsTaken (s.timeReached now) now := by
  have htouch := s.takeDeadlines_touch now allSlots
  have htime : (s.takeDeadlines now allSlots).clock.time = some now := by rw [htouch.clock, hnow]
  have hdue : ∀ c ∈ s.campaigns.table, c.StartsAt now → c.slot < 16
      ∧ (s.takeDeadlines now allSlots).campaign c.slot = some c ∧ c.Due now := fun c hmem hs =>
    ⟨hn.slots c hmem, (State.takeDeadlines_due hn).mpr ⟨(State.mem_table_iff hn).mp hmem, hs⟩⟩
  rw [State.timeReached_eq]
  refine ⟨?_, fun c hmem hs p hp => ?_, fun c hmem hs hp => ?_, fun c hmem hs hp hdead honly => ?_⟩
  · obtain ⟨rs, hrs, hin⟩ := State.takeStarts_gathers now (s.takeDeadlines now allSlots) (l := allSlots) List.nodup_range
    rw [State.takeDeadlines_allSlots_store hn] at hrs
    refine ⟨rs, hrs, fun r => (hin r).trans ⟨?_, ?_⟩⟩
    · rintro ⟨-, c, hc, hd, hbody, hseq⟩
      obtain ⟨hold, hs⟩ := (State.takeDeadlines_due hn).mp ⟨hc, hd⟩
      obtain ⟨hmem, hslot⟩ := State.campaign_some hold
      exact ⟨c, hmem, hs, hbody, hslot, hseq⟩
    · rintro ⟨c, hmem, hs, hbody, hslot, hseq⟩
      obtain ⟨h16, hc, hd⟩ := hdue c hmem hs
      exact ⟨List.mem_range.mpr (hslot ▸ h16), c, hslot ▸ hc, hd, hbody, hseq⟩
  · obtain ⟨h16, hc, hd⟩ := hdue c hmem hs
    exact htime ▸ State.takeStarts_load h16 hc hd hp
  · obtain ⟨h16, hc, hd⟩ := hdue c hmem hs
    obtain ⟨d, hfinal, hhost, hact, hw, hpr, htargets, hbarred⟩ := State.takeStarts_opened h16 hc hd hp
    obtain ⟨hreached, hbars⟩ := htouch.counts_reached c
    exact ⟨d, hfinal, hhost, hact.trans htime, hw, hpr, htargets.trans (congrArg some hreached), hbarred.trans hbars⟩
  · obtain ⟨h16, hc, hd⟩ := hdue c hmem hs
    have hnone : s.takeDeadlines now allSlots = s :=
      List.foldlRecOn (motive := fun t : State => t = s) allSlots _ rfl fun t ht j _ => by
        subst ht
        refine State.takeDeadline_ahead fun d hd ⟨hl, hr⟩ => ?_
        obtain ⟨v, hv, hle⟩ := reached_iff.mp hr
        exact absurd hle (Nat.not_le.mpr (hdead d (State.campaign_some hd).1 hl v hv))
    rw [hnone] at hc ⊢
    rw [State.takeStarts_alone h16 hc hd fun k d hd hx => by
      obtain ⟨v, hv, hle⟩ := reached_iff.mp hx.2
      exact honly d (State.campaign_some hd).1 hx.1 v hv hle]
    obtain ⟨d, hd⟩ := State.activate_enters hc hs.1 hp (hb.idle hc (by rw [hs.1]; rfl)) hb.tried hn.slots
    rw [hnow] at hd
    exact ⟨d, hd.own, hd.starts, hd.superseded, hd.ends⟩

end Sys2Proof.Machine
end

section
/-! CLOCK SET and the completed second, settled. -/

namespace Sys2Proof.Machine

theorem serveClockSet_running {s : State} {time now : Nat} (h : time ≤ 4294967295) (hnow : s.clock.time = some now) :
    serveClockSet time s = accept ((s.setClock { s.clock with time := some time, part := 0 }).timeReached time)
      (.clock time true) := by
  have hmax : ¬ Config.maxTime < time := Nat.not_lt.mpr h
  simp only [serveClockSet, if_neg hmax, hnow]

theorem execSecondComplete_running {s : State} {now : Nat} (hnow : s.clock.time = some now) (h : now < 4294967295) :
    exec .secondComplete s
      = finish ((s.setClock { s.clock with time := some (now + 1), part := 0 }).timeReached (now + 1)) := by
  have hmax : now < Config.maxTime := h
  simp only [exec, execSecondComplete, hnow, if_pos hmax]
  rfl

theorem execSecondComplete_stopped {s : State} (h : s.clock.time = none ∨ s.clock.time = some 4294967295) :
    exec .secondComplete s = finish (s.setClock { s.clock with part := 0 }) := by
  rcases h with h | h
  · simp only [exec, execSecondComplete, h]
  · have hmax : ¬ 4294967295 < Config.maxTime := Nat.lt_irrefl _
    simp only [exec, execSecondComplete, h, if_neg hmax]

/-- Settles O19: the clock is set or advances, and the campaigns take the line time. -/
theorem lineTimeIsSetAndCounts : Obligations.LineTimeIsSetAndCounts := by
  refine ⟨fun h time s ht => ⟨fun hbig => ?_, fun hle hunset => ?_, fun hle hset hsound => ?_⟩,
    fun s => ⟨fun hstop => execSecondComplete_stopped hstop, fun now hnow hlt hsound => ?_⟩⟩
  · exact exec_refused rfl ht (if_pos hbig)
  · have hmax : ¬ Config.maxTime < time := Nat.not_lt.mpr hle
    have hclock : s.popInbound.clock.time = none := hunset
    refine exec_accepted rfl ht ?_
    show serveClockSet time s.popInbound = _
    simp only [serveClockSet, if_neg hmax, hclock]
    rfl
  · obtain ⟨now, hnow⟩ := Option.ne_none_iff_exists'.mp hset
    have hn : (s.popInbound.setClock { s.clock with time := some time, part := 0 }).Numbered := hsound
    exact ⟨(s.popInbound.setClock { s.clock with time := some time, part := 0 }).timeReached time,
      exec_accepted rfl ht (serveClockSet_running (s := s.popInbound) hle hnow), State.timeReached_touch _ _,
      State.timeReached_deadlines hn time, State.timeReached_starts hn time,
      (State.timeReached_deadlinesFirst _ time).imp fun _ h => h.1, fun hb => State.timeReached_startsTaken hn hb rfl⟩
  · have hn : (s.setClock { s.clock with time := some (now + 1), part := 0 }).Numbered := hsound
    exact ⟨(s.setClock { s.clock with time := some (now + 1), part := 0 }).timeReached (now + 1),
      execSecondComplete_running hnow hlt, State.timeReached_touch _ _, State.timeReached_deadlines hn (now + 1),
      State.timeReached_starts hn (now + 1), (State.timeReached_deadlinesFirst _ (now + 1)).imp fun _ h => h.1,
      fun hb => State.timeReached_startsTaken hn hb rfl⟩

/-- A live campaign whose deadline a line time reaches ends by it, before any start. -/
theorem State.timeReached_ended {s : State} (hn : s.Numbered) {time deadline : Nat} {c : Campaign}
    (hmem : c ∈ s.campaigns.table) (hl : c.state.live = true) (hd : c.deadline = some deadline) (hle : deadline ≤ time)
    (hnow : s.clock.time = some time) : ∃ first, (s.timeReached time).campaign c.slot
        = some (c.ended (if c.state = .resting then .complete else .expired) .deadline (some time))
      ∧ c.ended (if c.state = .resting then .complete else .expired) .deadline (some time) ∈ first
      ∧ s.DeadlinesFirst (s.timeReached time) first := by
  have hc := (State.mem_table_iff hn).mp hmem
  have hdead : (c.ended (if c.state = .resting then .complete else .expired) .deadline (some time)).state.live = false := by
    show CampaignState.live (if _ then _ else _) = false
    split <;> rfl
  have hended := State.takeDeadlines_campaign (now := time) (hn.slots c hmem) hc
  rw [Campaign.atDeadline, if_pos ⟨hl, reached_iff.mpr ⟨deadline, hd, hle⟩⟩, hnow] at hended
  obtain ⟨first, hfirst, hconcludes⟩ := s.timeReached_deadlinesFirst time
  exact ⟨first, State.takeStarts_frozen (now := time) (l := allSlots) hended hdead,
    (hconcludes.exact _).mpr ⟨hended, hdead, c, hc, hl⟩, hfirst⟩

/-- Settles O20: the deadline phase ends the campaign, and the starts leave it. -/
theorem deadlinesEndCampaignsBeforeStarts : Obligations.DeadlinesEndCampaignsBeforeStarts := by
  refine fun time deadline s c hsound hmem hl hd hle hmax => ⟨fun h ht hset => ?_, fun now hnow htime => ?_⟩
  · obtain ⟨now, hnow⟩ := Option.ne_none_iff_exists'.mp hset
    obtain ⟨first, hended, hin, hfirst⟩ := State.timeReached_ended
      (s := s.popInbound.setClock { s.clock with time := some time, part := 0 }) hsound hmem hl hd hle rfl
    exact ⟨_, first, exec_accepted rfl ht (serveClockSet_running (s := s.popInbound) hmax hnow), hended, hin, hfirst⟩
  · subst htime
    obtain ⟨first, hended, hin, hfirst⟩ := State.timeReached_ended
      (s := s.setClock { s.clock with time := some (now + 1), part := 0 }) hsound hmem hl hd hle rfl
    exact ⟨_, first, execSecondComplete_running hnow (Nat.lt_of_succ_le hmax), hended, hin, hfirst⟩

end Sys2Proof.Machine
end

section
/-! SUPPORT. The examinations of one campaign's pass and round (R94 to R97, R108). -/

namespace Sys2Proof.Machine

theorem BroadcastRun.spent_iff (r : BroadcastRun) : r.spent = true ↔ ∀ ph, r.remaining.get ph = 0 := by
  simp only [BroadcastRun.spent, List.all_eq_true, PerPhase.mem_toList, beq_iff_eq, forall_exists_index,
    forall_apply_eq_imp_iff]

/-- The round of a campaign that has not ended goes on. -/
theorem State.examineRound_open {s : State} {k : Nat} (h : ∀ c, s.campaign k = some c → c.mode = .broadcast →
    ∀ r, c.run = some r → c.state = .running → r.spent = false) : s.examineRound k = s := by
  unfold State.examineRound
  split
  · rfl
  · rename_i c hc
    split
    · rename_i hterms hrun
      refine if_neg fun ⟨hr, hspent⟩ => ?_
      rw [h c hc (Campaign.mode_broadcast hterms) _ hrun hr] at hspent
      cases hspent
    · rfl

/-- The round of a broadcast that is not standing ends it (R108). -/
theorem State.examineRound_single {s : State} {k base budget : Nat} {c : Campaign} {r : BroadcastRun}
    (hc : s.campaign k = some c) (ht : c.terms = .broadcast base budget none) (hr : c.run = some r)
    (hs : c.state = .running) (hspent : r.spent = true) : s.examineRound k = s.endCampaign k .complete .roundDone := by
  simp only [State.examineRound, hc, ht, hr, hs, hspent, and_self, if_true]

/-- The round of a standing broadcast is counted, and it rests (R108). -/
theorem State.examineRound_standing {s : State} {k base budget seconds : Nat} {c : Campaign} {r : BroadcastRun}
    (hc : s.campaign k = some c) (ht : c.terms = .broadcast base budget (some seconds)) (hr : c.run = some r)
    (hs : c.state = .running) (hspent : r.spent = true) : s.examineRound k = s.updateCampaign k (fun d =>
      { d with state := .resting, run := some r.countRound, intervalTimer := some (seconds * 1000) }) := by
  simp only [State.examineRound, hc, ht, hr, hs, hspent, and_self, if_true]

/-- A broadcast has no pass. -/
theorem State.examinePass_broadcast {s : State} {k : Nat} {c : Campaign} (hc : s.campaign k = some c)
    (hm : c.mode = .broadcast) : s.examinePass k = s := State.examinePass_open fun d hd => by
  cases hc.symm.trans hd
  refine Bool.eq_false_iff.mpr fun he => ?_
  obtain ⟨-, hconf, -⟩ := (s.passEnded_iff c).mp he
  rw [hm] at hconf
  cases hconf

/-- The last pass that has ended ends the campaign (R97). -/
theorem State.examinePass_limit {s : State} {k limit : Nat} {c : Campaign} (hc : s.campaign k = some c)
    (ht : c.terms = .confirmed limit) (hp : c.pass = some limit) (he : s.passEnded c = true) :
    s.examinePass k = s.endCampaign k .exhausted .passLimit := by
  unfold State.examinePass
  rw [State.runPasses_confirmed hc ht, if_pos he, hp, Option.getD_some, if_neg (Nat.lt_irrefl limit)]

/-- A campaign with passes has no round. -/
theorem State.examineRound_confirmed {s : State} {k : Nat} (h : ∀ c, s.campaign k = some c → c.mode = .confirmed) :
    s.examineRound k = s := State.examineRound_open fun c hc hm => by
  rw [h c hc] at hm
  cases hm

/-- The examination of a pass keeps the mode. -/
theorem State.examinePass_mode {s : State} {k : Nat} {c d : Campaign} (hc : s.campaign k = some c)
    (hd : (s.examinePass k).campaign k = some d) : d.mode = c.mode := by
  obtain ⟨b, hb, -, -, hhost, -⟩ := (s.examinePass_unsettled k).present c hc
  cases hb.symm.trans hd
  have hterms : d.terms = c.terms := congrArg (fun x => x.2.2.2.2.1) hhost
  rw [Campaign.mode, Campaign.mode, hterms]

end Sys2Proof.Machine
end

section
/-! RESUME, settled. -/

namespace Sys2Proof.Machine

/-- Settles O29: the campaign is RUNNING, and then its pass and its round are examined. -/
theorem resumeTakesAnEndedPassOrRound : Obligations.ResumeTakesAnEndedPassOrRound := by
  intro h q s c ht hn hsound
  obtain ⟨-, hc, -⟩ := id hn
  refine ⟨fun hno => exec_refused rfl ht ((serveResume_named (s := s.popInbound) hn).trans (if_neg hno)), fun hheld => ?_⟩
  intro a
  have ha : a.campaign q.slot = some { c with state := .running } :=
    State.updateCampaign_own (s := s.popInbound) (f := fun d => { d with state := .running }) hc fun _ => rfl
  have hpass := a.examinePass_only q.slot
  have hround := (a.examinePass q.slot).examineRound_only q.slot
  have hother : ∀ k, k ≠ q.slot → a.campaign k = s.campaign k := fun k hk =>
    State.updateCampaign_other (s := s.popInbound) (f := fun d => { d with state := .running }) hk fun _ => rfl
  have hconfirmed : c.mode = .confirmed → (a.examinePass q.slot).examineRound q.slot = a.examinePass q.slot := fun hm =>
    State.examineRound_confirmed fun d hd => (State.examinePass_mode ha hd).trans hm
  have hbroadcast : c.mode = .broadcast → a.examinePass q.slot = a := fun hm => State.examinePass_broadcast ha hm
  refine ⟨(a.examinePass q.slot).examineRound q.slot, exec_accepted rfl ht
      ((serveResume_named (s := s.popInbound) hn).trans (if_pos hheld)),
    (a.examinePass_touch q.slot).trans (State.examineRound_touch _ _),
    (State.examineRound_store _ _).trans (State.examinePass_store _ _), ?_, fun k hk => ?_,
    (hpass.trans hround).setsKept, fun hopen hgoes => ?_, fun limit hterms hlast hflight hnone => ?_, fun hm => ?_,
    fun base budget r hterms hr hspent => ?_, fun base budget seconds r n hterms hr hspent hrounds => ?_⟩
  · obtain ⟨first, hfirst, -⟩ := a.examinePass_ends q.slot
    obtain ⟨second, hsecond, -⟩ := (a.examinePass q.slot).examineRound_ends q.slot
    exact ⟨_, hfirst.trans hsecond⟩
  · exact ((hpass.trans hround).others k hk).trans (hother k hk)
  · cases hterms : c.terms with
    | confirmed limit =>
      have hm := Campaign.mode_confirmed hterms
      rw [hconfirmed hm]
      refine State.examinePass_open fun d hd => ?_
      cases ha.symm.trans hd
      refine Bool.eq_false_iff.mpr fun he => ?_
      obtain ⟨-, -, howes, hflight⟩ := (a.passEnded_iff _).mp he
      rcases hopen limit hterms with ⟨e, hmem, ho⟩ | hf
      · exact howes e hmem ((c.owes_iff e).mp ho)
      · cases hf.symm.trans hflight
    | broadcast base budget interval =>
      have hm := Campaign.mode_broadcast hterms
      rw [hbroadcast hm]
      refine State.examineRound_open fun d hd _ r hr _ => ?_
      cases ha.symm.trans hd
      obtain ⟨ph, hph⟩ := hgoes hm r hr
      exact Bool.eq_false_iff.mpr fun hspent => hph ((r.spent_iff).mp hspent ph)
  · have hm := Campaign.mode_confirmed hterms
    have hnobody : ∀ e ∈ s.roster.entries, ¬ c.Owed e := fun e hmem ho => by
      cases (hnone e hmem).symm.trans ((c.owes_iff e).mpr ho)
    have hended : a.passEnded { c with state := .running } = true :=
      (a.passEnded_iff _).mpr ⟨rfl, hm, hnobody, hflight⟩
    rw [hconfirmed hm, State.examinePass_limit ha hterms hlast hended]
    obtain ⟨hrecord, hentries, -⟩ := State.endCampaign_live ha rfl .exhausted .passLimit
    refine ⟨hrecord, fun e he => ?_⟩
    rw [hentries] at he
    obtain ⟨d, -, rfl⟩ := List.mem_map.mp he
    exact d.release_at q.slot
  · rw [hconfirmed hm]
    exact State.examinePass_taken ha
  · rw [hbroadcast (Campaign.mode_broadcast hterms),
      State.examineRound_single ha hterms hr rfl ((r.spent_iff).mpr hspent)]
    exact (State.endCampaign_live ha rfl .complete .roundDone).1
  · have hcount : r.countRound = { r with rounds := some (min 65535 (n + 1)) } := by
      rw [BroadcastRun.countRound, hrounds]
      rfl
    rw [hbroadcast (Campaign.mode_broadcast hterms),
      State.examineRound_standing ha hterms hr rfl ((r.spent_iff).mpr hspent), hcount]
    exact State.updateCampaign_own ha fun _ => rfl

end Sys2Proof.Machine
end

section
/-! SUPPORT. Receivers dropped from their campaigns (R71): one campaign, one receiver, and all that a segment bars. -/

namespace Sys2Proof.Machine

/-! ## What stays pending -/

/-- A campaign that stays pending somewhere stays pending at every entry but that of the unit. -/
def State.StaysPending (k u : Nat) (s t : State) : Prop := List.Forall₂
  (fun e d => d.unit = e.unit ∧ (e.unit ≠ u → k ∈ e.pending → k ∈ d.pending)) s.roster.entries t.roster.entries

theorem State.StaysPending.trans {k u : Nat} {s t r : State} (h : State.StaysPending k u s t) (g : State.StaysPending k u t r) :
    State.StaysPending k u s r :=
  forall₂_trans h g fun _ _ _ ⟨hunit, hkeep⟩ ⟨gunit, gkeep⟩ =>
    ⟨gunit.trans hunit, fun hu hk => gkeep (hunit ▸ hu) (hkeep hu hk)⟩

theorem AgreeAt.staysPending {k u : Nat} {s t : State} (h : AgreeAt k s t) : State.StaysPending k u s t :=
  h.entries.imp fun _ _ hab => ⟨hab.unit, fun _ hk => hab.2.1.mpr hk⟩

theorem State.settleReceiver_staysPending (s : State) (k u : Nat) (f : Campaign → Campaign) :
    State.StaysPending k u s (s.settleReceiver k u f) := by
  show List.Forall₂ _ s.roster.entries (s.roster.entries.map (fun e => if e.unit = u then e.release k else e))
  rw [List.forall₂_map_right_iff]
  refine List.forall₂_same.mpr fun e _ => ⟨?_, fun hu hk => ?_⟩
  · split <;> rfl
  · rw [if_neg hu]
    exact hk

theorem State.StaysPending.entry {k u v : Nat} {s t : State} (h : State.StaysPending k u s t) (hv : v ≠ u) {x y : Entry}
    (hx : s.entry v = some x) (hy : t.entry v = some y) (hk : k ∈ x.pending) : k ∈ y.pending := by
  rcases forall₂_findBy (key := Entry.unit) h (fun _ _ hab => hab.1) v with ⟨hnone, -⟩ | ⟨a, b, ha, hb, -, hkeep⟩
  · cases hnone.symm.trans hx
  · cases ha.symm.trans hx
    cases hb.symm.trans hy
    exact hkeep ((State.entry_some hx).2 ▸ hv) hk

/-- Where nothing becomes pending, an entry's pending set only loses. -/
theorem State.PendsOnly.entry {s t : State} (h : State.PendsOnly (fun _ => False) s t)
    (hu : InOrder Entry.unit s.roster.entries) {v : Nat} {x y : Entry} (hx : s.entry v = some x) (hy : t.entry v = some y) :
    ∀ j ∈ y.pending, j ∈ x.pending := fun j hj => by
  obtain ⟨hymem, hyunit⟩ := State.entry_some hy
  obtain ⟨hxmem, hxunit⟩ := State.entry_some hx
  obtain ⟨d, hd, hsame, hpending⟩ := h y hymem
  have hunit : d.unit = x.unit := by
    rw [hxunit, ← hyunit]
    exact (congrArg Entry.unit hsame).symm
  exact hu.eq_of_key hd hxmem hunit ▸ hpending j hj id

/-! ## The examination of a pass, once more -/

/-- An examination leaves a campaign's state, or makes a RUNNING one EXHAUSTED. -/
theorem State.runPasses_state : ∀ (n : Nat) {s : State} {k : Nat} {c : Campaign}, s.campaign k = some c →
    ∃ d, (State.runPasses n k s).campaign k = some d ∧ (d.state = c.state ∨ d.state = .exhausted)
  | 0, _, _, c, hc => ⟨c, hc, .inl rfl⟩
  | n + 1, s, k, c, hc => by
    cases hterms : c.terms with
    | broadcast base budget interval =>
      refine ⟨c, ?_, .inl rfl⟩
      unfold State.runPasses
      simp only [hc, hterms]
    | confirmed limit =>
      rw [State.runPasses_confirmed hc hterms]
      split
      · rename_i he
        split
        · exact State.runPasses_state n (c := { c with pass := some (c.pass.getD 1 + 1) })
            (State.nextPass_campaign hc (c.pass.getD 1))
        · have hl : c.state.live = true := by rw [((s.passEnded_iff c).mp he).1]; rfl
          exact ⟨_, (State.endCampaign_live hc hl .exhausted .passLimit).1, .inr rfl⟩
      · exact ⟨c, hc, .inl rfl⟩

/-- While the campaign goes on, an examination leaves it pending where it is. -/
theorem State.examinePass_staysPending {s : State} {k u : Nat} {d : Campaign} (hd : (s.examinePass k).campaign k = some d)
    (hs : d.state ≠ .exhausted) : State.StaysPending k u s (s.examinePass k) := by
  obtain ⟨f, hf, hunit⟩ := (s.examinePass_only k).entries
  rcases State.runPasses_lost 17 k s with ⟨-, b, -, hb, -, hex⟩ | hkeep
  · cases (show (s.examinePass k).campaign k = some b from hb).symm.trans hd
    exact absurd hex hs
  · have hkeep : List.Forall₂ _ s.roster.entries (s.examinePass k).roster.entries := hkeep
    unfold State.StaysPending
    rw [hf, List.forall₂_map_right_iff] at hkeep ⊢
    refine List.forall₂_same.mpr fun e he => ⟨?_, fun _ => List.forall₂_same.mp hkeep e he⟩
    exact (congrArg Entry.unit (hunit e).1 : (f e).forgetSlots.unit = e.forgetSlots.unit)

/-! ## One campaign -/

/-- The record with one receiver more dropped and one fewer outstanding (R71). -/
def Campaign.lessOne (c : Campaign) : Campaign :=
  { c with counts := { c.counts with dropped := c.counts.dropped + 1, outstanding := c.counts.outstanding - 1 } }

theorem AgreeAt.settleReceiver {k : Nat} {s t : State} (h : AgreeAt k s t) (u : Nat) {f : Campaign → Campaign}
    (hf : ∀ c, (f c).slot = c.slot) : AgreeAt k (s.settleReceiver k u f) (t.settleReceiver k u f) where
  campaign := by
    have hslot : ∀ c : Campaign, c.slot = k → ({ f c with counts :=
        { (f c).counts with outstanding := (f c).counts.outstanding - 1 } } : Campaign).slot = k := fun c hc => (hf c).trans hc
    refine (State.campaign_update (s := t.updateEntry u (fun e => e.release k)) hslot).trans
      (Eq.trans ?_ (State.campaign_update (s := s.updateEntry u (fun e => e.release k)) hslot).symm)
    exact congrArg (Option.map _) h.campaign
  line := h.line
  time := h.time
  entries := forall₂_map_both h.entries fun a b hab => by
    rw [hab.unit]
    split
    · exact AgreeAt.release hab
    · exact hab

/-- A receiver dropped from a campaign: one more dropped and one fewer outstanding; at 0 it is COMPLETE with SETTLED, and
otherwise its pass may end (R71, R94). -/
structure State.DropTaken (s t : State) (u k : Nat) (c d : Campaign) : Prop where
  record   : t.campaign k = some d
  counts   : d.counts = c.lessOne.counts
  complete : c.counts.outstanding - 1 = 0 → d = c.lessOne.ended .complete .settled s.clock.time
  pass     : c.counts.outstanding - 1 ≠ 0 → (s.settleReceiver k u Campaign.addDropped).PassTaken t c.lessOne d
    ∧ (d.state = c.state ∨ d.state = .exhausted) ∧ (d.state ≠ .exhausted → State.StaysPending k u s t)

theorem State.dropFrom_taken {s : State} {k : Nat} {c : Campaign} (u : Nat) (hc : s.campaign k = some c)
    (ha : c.state.active = true) : ∃ d, s.DropTaken (s.dropFrom u k) u k c d := by
  have hleft : (s.settleReceiver k u Campaign.addDropped).campaign k = some c.lessOne :=
    State.updateCampaign_own (s := s.updateEntry u (fun e => e.release k)) (f := fun c =>
      { c.addDropped with counts := { c.addDropped.counts with outstanding := c.addDropped.counts.outstanding - 1 } }) hc
      fun _ => rfl
  have hdrop : s.dropFrom u k
      = ((s.settleReceiver k u Campaign.addDropped).completeIfSettled k .settled).examinePass k := rfl
  by_cases hzero : c.counts.outstanding - 1 = 0
  · have hdone : (s.settleReceiver k u Campaign.addDropped).completeIfSettled k .settled
        = (s.settleReceiver k u Campaign.addDropped).endCampaign k .complete .settled := by
      simp only [State.completeIfSettled, hleft]
      exact if_pos ⟨ha, hzero⟩
    have hended := (State.endCampaign_live hleft (active_live ha) .complete .settled).1
    have hopen : s.dropFrom u k = (s.settleReceiver k u Campaign.addDropped).endCampaign k .complete .settled := by
      rw [hdrop, hdone]
      refine State.examinePass_open fun b hb => Bool.eq_false_iff.mpr fun he => ?_
      cases hended.symm.trans hb
      cases ((State.passEnded_iff _ _).mp he).1
    exact ⟨c.lessOne.ended .complete .settled s.clock.time, hopen ▸ hended, rfl, fun _ => rfl, fun h => absurd hzero h⟩
  · have hgoes : (s.settleReceiver k u Campaign.addDropped).completeIfSettled k .settled
        = s.settleReceiver k u Campaign.addDropped := by
      simp only [State.completeIfSettled, hleft]
      exact if_neg fun h => hzero h.2
    rw [hdrop, hgoes]
    obtain ⟨d, hd, htaken⟩ := State.examinePass_taken hleft
    obtain ⟨b, hb, hcounts, -⟩ := (State.examinePass_unsettled _ k).present _ hleft
    obtain ⟨b', hb', hstate⟩ := State.runPasses_state 17 hleft
    cases hd.symm.trans hb
    cases hd.symm.trans (show (State.examinePass _ k).campaign k = some b' from hb')
    exact ⟨d, hd, hcounts, fun h => absurd h hzero, fun _ => ⟨htaken, hstate, fun hx =>
      (s.settleReceiver_staysPending k u _).trans (State.examinePass_staysPending hd hx)⟩⟩

/-! ## One receiver -/

theorem State.dropAll_agreeAt (u : Nat) {k : Nat} : ∀ {l : List Nat} {s : State}, k ∉ l →
    AgreeAt k s (l.foldl (fun t j => t.dropFrom u j) s)
  | [], s, _ => .refl k s
  | j :: l, s, h => by
    obtain ⟨hj, hl⟩ := List.ne_and_not_mem_of_not_mem_cons h
    exact ((s.dropFrom_only u j).agreeAt (s.dropFrom_touch u j) hj).trans (State.dropAll_agreeAt u hl)

/-- A receiver dropped leaves every campaign that is not pending at it. -/
theorem State.dropReceiver_agreeAt {s : State} {u k : Nat} (h : ∀ e, s.entry u = some e → k ∉ e.pending) :
    AgreeAt k s (s.dropReceiver u) := by
  unfold State.dropReceiver
  split
  · exact .refl k s
  · exact State.dropAll_agreeAt u (h _ ‹_›)

theorem State.dropReceiver_taken {s : State} (hb : s.Balanced) {u k : Nat} {e : Entry} {c : Campaign}
    (he : s.entry u = some e) (hk : k ∈ e.pending) (hc : s.campaign k = some c) :
    ∃ d, s.DropTaken (s.dropReceiver u) u k c d := by
  obtain ⟨hmem, -⟩ := State.entry_some he
  have ha := hb.pending_active hmem hk hc
  obtain ⟨l, m, hlm⟩ := List.append_of_mem hk
  have hnodup : e.pending.Nodup := nodup_of_rising ((hb : Accounts _ _).entries e hmem).order
  rw [hlm] at hnodup
  obtain ⟨-, hcons, hdisj⟩ := List.nodup_append.mp hnodup
  have hl : k ∉ l := fun h => hdisj k h k List.mem_cons_self rfl
  have hbefore := State.dropAll_agreeAt u (s := s) hl
  have hsplit : s.dropReceiver u
      = m.foldl (fun t j => t.dropFrom u j) ((l.foldl (fun t j => t.dropFrom u j) s).dropFrom u k) := by
    simp only [State.dropReceiver, he, hlm, List.foldl_append, List.foldl_cons]
  have hafter := State.dropAll_agreeAt u (s := (l.foldl (fun t j => t.dropFrom u j) s).dropFrom u k)
    (List.nodup_cons.mp hcons).1
  rw [← hsplit] at hafter
  obtain ⟨d, hd⟩ := State.dropFrom_taken u (hbefore.campaign.trans hc) ha
  refine ⟨d, hafter.campaign.trans hd.record, hd.counts, fun hz => (hd.complete hz).trans ?_, fun hz => ?_⟩
  · rw [hbefore.time]
  · obtain ⟨htaken, hstate, hstays⟩ := hd.pass hz
    refine ⟨(hbefore.settleReceiver u fun _ => rfl).passTaken hafter (State.campaign_some hc).2 htaken, hstate, fun hx => ?_⟩
    exact (hbefore.staysPending.trans (hstays hx)).trans hafter.staysPending

/-- A receiver dropped makes nothing pending. -/
theorem State.dropReceiver_pendsOnly (s : State) (u : Nat) (may : Nat → Prop) : State.PendsOnly may s (s.dropReceiver u) := by
  unfold State.dropReceiver
  split
  · exact (OnlySlot.refl 0 s).pendsOnly
  · exact foldl_keeps (fun s => (OnlySlot.refl 0 s).pendsOnly) .trans _ (fun t k => (t.dropFrom_only u k).pendsOnly) _ _

theorem Campaign.PassTaken.subset {l after less : List Entry} {flying : Bool} {now : Option Nat} {c d : Campaign}
    (h : Campaign.PassTaken l flying now after c d) (hsub : ∀ e ∈ less, e ∈ after) :
    Campaign.PassTaken l flying now less c d where
  goesOn := h.goesOn
  next limit p a1 a2 a3 a4 a5 a6 a7 a8 := by
    obtain ⟨hd, hnone⟩ := h.next limit p a1 a2 a3 a4 a5 a6 a7 a8
    exact ⟨hd, fun e he => hnone e (hsub e he)⟩
  last limit p a1 a2 a3 a4 a5 a6 a7 a8 a9 := by
    obtain ⟨hd, hnone⟩ := h.last limit p a1 a2 a3 a4 a5 a6 a7 a8 a9
    exact ⟨hd, fun e he => hnone e (hsub e he)⟩

/-- The pass of a campaign that lost a receiver is taken on the others. -/
theorem State.DropTaken.others {s t : State} {u k : Nat} {c d : Campaign} (h : s.DropTaken t u k c d) (hk : c.slot = k)
    (hz : c.counts.outstanding - 1 ≠ 0) : Campaign.PassTaken (s.roster.entries.filter (fun x => x.unit != u)) (s.inFlight c)
      s.clock.time t.roster.entries c.lessOne d := by
  obtain ⟨htaken, -⟩ := h.pass hz
  refine Campaign.PassTaken.of_map (F := fun e => if e.unit = u then e.release k else e) rfl (fun e _ => ?_) htaken
  have hslot : c.lessOne.slot = k := hk
  rw [hslot]
  by_cases hu : e.unit = u
  · rw [if_pos hu]
    exact ⟨rfl, fun h => by simp [hu] at h, fun _ => (e.release_at k).1⟩
  · rw [if_neg hu]
    exact ⟨rfl, fun _ => ⟨Iff.rfl, Iff.rfl⟩, fun h => by simp [hu] at h⟩

/-! ## A list of receivers -/

def State.dropReceivers (s : State) (l : List Entry) : State := l.foldl (fun t e => t.dropReceiver e.unit) s

theorem State.dropReceivers_pendsOnly (s : State) (l : List Entry) (may : Nat → Prop) :
    State.PendsOnly may s (s.dropReceivers l) :=
  foldl_keeps (fun s => (OnlySlot.refl 0 s).pendsOnly) .trans _ (fun t (e : Entry) => t.dropReceiver_pendsOnly e.unit may) _ _

/-- A campaign pending at nobody is left by every drop. -/
theorem State.dropReceivers_idle {k : Nat} : ∀ (l : List Entry) {s : State}, (∀ e ∈ s.roster.entries, k ∉ e.pending) →
    (s.dropReceivers l).campaign k = s.campaign k
  | [], _, _ => rfl
  | e :: l, s, h => by
    have hagree := State.dropReceiver_agreeAt (s := s) (u := e.unit) (k := k) fun x hx => h x (State.entry_some hx).1
    refine (State.dropReceivers_idle l (s := s.dropReceiver e.unit) fun y hy hk => ?_).trans hagree.campaign
    obtain ⟨x, hx, -, hpending⟩ := s.dropReceiver_pendsOnly e.unit (fun _ => False) y hy
    exact h x hx (hpending k hk id)

/-- The list names entries of the roster, each as pending for the slot as it stands there. -/
def State.Mirrors (s : State) (k : Nat) (l : List Entry) : Prop :=
  ∀ e ∈ l, ∃ x, s.entry e.unit = some x ∧ (k ∈ x.pending ↔ k ∈ e.pending)

/-- What the drops of a list of receivers make of a campaign pending at some of them. -/
def Campaign.DropsTaken (c d : Campaign) (n : Nat) : Prop := ∃ m, 1 ≤ m ∧ m ≤ n
  ∧ d.counts = { c.counts with dropped := c.counts.dropped + m, outstanding := c.counts.outstanding - m }
  ∧ (m = n ∨ d.state = .exhausted) ∧ (m = c.counts.outstanding → d.state = .complete ∧ d.reason = some .settled)

/-- The drop of one receiver of the list, where the campaign goes on: the rest mirrors the roster still. -/
theorem State.Mirrors.after_drop {s : State} (hb : s.Balanced) {k : Nat} {e : Entry} {l : List Entry}
    (h : s.Mirrors k (e :: l)) (hnodup : (e :: l).Pairwise (fun a b => a.unit ≠ b.unit))
    (hstays : State.StaysPending k e.unit s (s.dropReceiver e.unit)) : (s.dropReceiver e.unit).Mirrors k l := fun b hmem => by
  obtain ⟨x, hx, hiff⟩ := h b (List.mem_cons_of_mem _ hmem)
  obtain ⟨y, hy⟩ := (s.dropReceiver_touch e.unit).entry hx
  have hne : b.unit ≠ e.unit := ((List.pairwise_cons.mp hnodup).1 b hmem).symm
  exact ⟨y, hy, Iff.trans ⟨(s.dropReceiver_pendsOnly e.unit fun _ => False).entry (hb : Accounts _ _).units hx hy k,
    hstays.entry hne hx hy⟩ hiff⟩

/-- The drops of a list of receivers, for one campaign (R71). -/
theorem State.dropReceivers_taken {k : Nat} : ∀ (l : List Entry) {s : State} {c : Campaign}, s.Balanced →
    s.campaign k = some c → s.Mirrors k l → l.Pairwise (fun a b => a.unit ≠ b.unit) →
    pendingAt k l ≤ c.counts.outstanding → (pendingAt k l = 0 → (s.dropReceivers l).campaign k = some c)
      ∧ (pendingAt k l ≠ 0 → ∃ d, (s.dropReceivers l).campaign k = some d ∧ c.DropsTaken d (pendingAt k l))
  | [], _, _, _, hc, _, _, _ => ⟨fun _ => hc, fun h => absurd rfl h⟩
  | e :: l, s, c, hb, hc, hmirror, hnodup, hle => by
    obtain ⟨x, hx, hiff⟩ := hmirror e List.mem_cons_self
    have hb' := (s.dropReceiver_balanced hb e.unit).1
    have hrest := (List.pairwise_cons.mp hnodup).2
    have hfold : s.dropReceivers (e :: l) = (s.dropReceiver e.unit).dropReceivers l := rfl
    rw [pendingAt_cons] at hle ⊢
    rw [hfold]
    by_cases hk : k ∈ e.pending
    · rw [if_pos hk] at hle ⊢
      obtain ⟨d, hd⟩ := State.dropReceiver_taken hb hx (hiff.mpr hk) hc
      have hcounts : d.counts = _ := hd.counts
      refine ⟨fun h => absurd h (by omega), fun _ => ?_⟩
      by_cases ha : d.state.active = true
      · have hzero : c.counts.outstanding - 1 ≠ 0 := fun hz => by
          rw [hd.complete hz] at ha
          cases ha
        obtain ⟨-, -, hstays⟩ := hd.pass hzero
        have hstays := hstays fun hx => by
          rw [hx] at ha
          cases ha
        have hout : d.counts.outstanding = c.counts.outstanding - 1 := by rw [hcounts]; rfl
        have hdropped : d.counts.dropped = c.counts.dropped + 1 := by rw [hcounts]; rfl
        obtain ⟨hnone, hsome⟩ := State.dropReceivers_taken l hb' hd.record (hmirror.after_drop hb hnodup hstays) hrest (by omega)
        by_cases hn : pendingAt k l = 0
        · exact ⟨d, hnone hn, 1, Nat.le_refl 1, by omega, hcounts, .inl (by omega), fun h => absurd h (by omega)⟩
        · obtain ⟨b, hbrec, m, h1, hm, hbcounts, hor, hdone⟩ := hsome hn
          refine ⟨b, hbrec, m + 1, by omega, by omega, ?_, hor.imp_left (by omega), fun h => hdone (by omega)⟩
          rw [hbcounts, hdropped, hout, hcounts, show c.counts.dropped + 1 + m = c.counts.dropped + (m + 1) by omega,
            show c.counts.outstanding - 1 - m = c.counts.outstanding - (m + 1) by omega]
          rfl
      · have hidle := hb'.idle hd.record (Bool.eq_false_iff.mpr ha)
        refine ⟨d, (State.dropReceivers_idle l hidle).trans hd.record, 1, Nat.le_refl 1, by omega, hcounts, ?_, fun h => ?_⟩
        · by_cases hzero : c.counts.outstanding - 1 = 0
          · exact .inl (by omega)
          · obtain ⟨-, hstate, -⟩ := hd.pass hzero
            refine .inr (hstate.resolve_left fun hsame => ha ?_)
            rw [hsame]
            exact hb.pending_active (State.entry_some hx).1 (hiff.mpr hk) hc
        · rw [hd.complete (by omega)]
          exact ⟨rfl, rfl⟩
    · rw [if_neg hk, Nat.zero_add] at hle ⊢
      have hagree := State.dropReceiver_agreeAt (s := s) (u := e.unit) (k := k) fun y hy hky => by
        cases hx.symm.trans hy
        exact hk (hiff.mp hky)
      exact State.dropReceivers_taken l hb' (hagree.campaign.trans hc) (hmirror.after_drop hb hnodup hagree.staysPending) hrest hle

/-- Nothing is pending afterwards at a receiver of the list. -/
theorem State.dropReceivers_emptied : ∀ (l : List Entry) {s : State}, s.Balanced → ∀ e ∈ l, ∀ y,
    (s.dropReceivers l).entry e.unit = some y → y.pending = []
  | [], _, _, _, hmem, _, _ => (List.not_mem_nil hmem).elim
  | b :: l, s, hb, e, hmem, y, hy => by
    obtain ⟨hb', hempty⟩ := s.dropReceiver_balanced hb b.unit
    rcases List.mem_cons.mp hmem with rfl | hmem
    · obtain ⟨hymem, hyunit⟩ := State.entry_some hy
      obtain ⟨d, hd, hsame, hless⟩ := (s.dropReceiver e.unit).dropReceivers_pendsOnly l (fun _ => False) y hymem
      have hunit : d.unit = e.unit := (congrArg Entry.unit hsame).symm.trans hyunit
      have hnone := hempty d (hunit ▸ (hb' : Accounts _ _).units.findBy_of_mem hd)
      refine List.eq_nil_iff_forall_not_mem.mpr fun j hj => ?_
      have := hless j hj id
      rw [hnone] at this
      exact List.not_mem_nil this
    · exact State.dropReceivers_emptied l hb' e hmem y hy

end Sys2Proof.Machine
end

section
/-! ROSTER REMOVE and SEGMENT SET, settled. -/

namespace Sys2Proof.Machine

theorem State.routed_false_iff {s : State} {u : Nat} : (!s.routed u) = true ↔ ∀ e ∈ s.roster.entries, u ∉ e.route := by
  simp [State.routed]

theorem State.removeChecks_follow (s : State) (u : Nat) : ChecksFollow
    [(1 ≤ u ∧ u ≤ 4095, .malformed), (s.entry u ≠ none, .notFound), (∀ e ∈ s.roster.entries, u ∉ e.route, .inUse)]
    [(validUnit u, .malformed), ((s.entry u).isSome, .notFound), (!s.routed u, .inUse)] :=
  .cons validUnit_iff fun _ => .cons Option.isSome_iff_ne_none fun _ => .cons State.routed_false_iff fun _ => trivial

theorem serveRosterRemove_passed {s : State} {u : Nat} (h : AllPass
    [(1 ≤ u ∧ u ≤ 4095, .malformed), (s.entry u ≠ none, .notFound), (∀ e ∈ s.roster.entries, u ∉ e.route, .inUse)]) :
    serveRosterRemove u s = accept (((s.dropReceiver u).setEntries
      ((s.dropReceiver u).roster.entries.filter (fun d => d.unit != u))).updateAttention) .none := by
  rw [serveRosterRemove, (s.removeChecks_follow u).passed h]
  rfl

/-- A live campaign pending at an entry has that receiver outstanding. -/
theorem State.Balanced.outstanding_pos {s : State} (h : s.Balanced) {e : Entry} (he : e ∈ s.roster.entries) {c : Campaign}
    (hc : c ∈ s.campaigns.table) (hk : c.slot ∈ e.pending) : 1 ≤ c.counts.outstanding := by
  have hcamp : s.campaign c.slot = some c := (h : Accounts _ _).slots.findBy_of_mem hc
  rw [((h : Accounts _ _).records c hc).outstanding (active_live (h.pending_active he hk hcamp))]
  exact List.length_pos_of_mem (List.mem_filter.mpr ⟨he, List.contains_iff_mem.mpr hk⟩)

/-- Settles O32, by whether a campaign is pending at the receiver. -/
theorem rosterRemoveDropsTheReceiver : Obligations.RosterRemoveDropsTheReceiver := by
  intro h u s ht
  refine ⟨fun code hf => exec_refused rfl ht ?_, fun e h1 h2 he hroute hb => ?_⟩
  · show serveRosterRemove u s.popInbound = _
    rw [serveRosterRemove, (s.popInbound.removeChecks_follow u).refusal hf]
  obtain ⟨hmem, -⟩ := State.entry_some he
  have hpass : AllPass [(1 ≤ u ∧ u ≤ 4095, .malformed), (s.popInbound.entry u ≠ none, ResultCode.notFound),
      (∀ e ∈ s.popInbound.roster.entries, u ∉ e.route, .inUse)] := by
    intro check hcheck
    simp only [List.mem_cons, List.not_mem_nil, or_false] at hcheck
    rcases hcheck with rfl | rfl | rfl
    · exact ⟨h1, h2⟩
    · exact Option.ne_none_iff_exists'.mpr ⟨e, he⟩
    · exact hroute
  obtain ⟨ended, hended, hslots, -⟩ := State.dropReceiver_ends (s := s.popInbound) hb he
  have hrising : e.pending.Pairwise (· < ·) := ((hb : Accounts _ _).entries e hmem).order
  refine ⟨s.popInbound.dropReceiver u, _, exec_accepted rfl ht (serveRosterRemove_passed (s := s.popInbound) hpass),
    State.dropReceiver_touch _ u, rfl, State.dropReceiver_store _ u, State.dropReceiver_setsKept (s := s.popInbound) he,
    ⟨ended, hended, List.pairwise_map.mp (hrising.sublist hslots)⟩, findBy_removeBy_same Entry.unit u _,
    fun c hc => ⟨fun hno => ?_, fun hk => ?_⟩⟩
  · have hagree := State.dropReceiver_agreeAt (s := s.popInbound) (u := u) (k := c.slot) fun x hx => by
      cases he.symm.trans hx
      exact hno
    exact hagree.campaign.trans ((hb : Accounts _ _).slots.findBy_of_mem hc)
  · have hpos := hb.outstanding_pos hmem hc hk
    obtain ⟨d, hd⟩ := State.dropReceiver_taken (s := s.popInbound) hb he hk ((hb : Accounts _ _).slots.findBy_of_mem hc)
    exact ⟨d, hd.record, hd.counts, fun hone => hd.complete (by omega), fun hmore =>
      (hd.others rfl (by omega)).subset fun x hx => (List.mem_filter.mp hx).1⟩

theorem segmentRange?_valid {q : SegmentSetReq} {phase : Option Phase} {barred enabled : Bool} (hindex : q.index < 8)
    (h1 : 1 ≤ q.first) (hle : q.first ≤ q.last) (hlast : q.last ≤ 4095) (hp : q.phase = some phase)
    (hb : q.barred = some barred) (he : q.enabled = some enabled) :
    segmentRange? q = some ⟨q.first, q.last, phase, barred, enabled⟩ := by
  simp only [segmentRange?, hp, hb, he]
  exact if_pos ⟨hindex, validUnit_iff.mpr ⟨h1, by omega⟩, validUnit_iff.mpr ⟨by omega, hlast⟩, hle⟩

theorem segmentRange?_invalid {q : SegmentSetReq} (h : 8 ≤ q.index ∨ q.first < 1 ∨ 4095 < q.first ∨ q.last < 1
    ∨ 4095 < q.last ∨ q.last < q.first ∨ q.phase = none ∨ q.barred = none ∨ q.enabled = none) : segmentRange? q = none := by
  unfold segmentRange?
  split
  · rename_i hp hb he
    refine if_neg fun ⟨hindex, hfirst, hlast, hle⟩ => ?_
    obtain ⟨hf1, hf2⟩ := validUnit_iff.mp hfirst
    obtain ⟨hl1, hl2⟩ := validUnit_iff.mp hlast
    simp only [hp, hb, he, reduceCtorEq, or_false] at h
    omega
  · rfl

theorem serveSegmentSet_replaced {s : State} {q : SegmentSetReq} {g : Segment} (hlock : s.roster.locked = false)
    (hg : segmentRange? q = some g) : serveSegmentSet q s
      = accept (s.setRoster { s.roster with segments := s.roster.segments.set q.index g }).dropBarred .none := by
  simp only [serveSegmentSet, hlock, hg, Bool.false_eq_true, if_false]

/-- The receivers that are barred and pending. -/
def State.barredPending (s : State) : List Entry := s.roster.entries.filter (fun e => s.barred e && !e.pending.isEmpty)

theorem State.dropBarred_eq (s : State) : s.dropBarred = s.dropReceivers s.barredPending := rfl

theorem State.pendingAt_barredPending (s : State) (k : Nat) : pendingAt k s.barredPending
    = (s.roster.entries.filter (fun e => s.barred e && e.pending.contains k)).length := by
  rw [pendingAt, State.barredPending, List.filter_filter]
  refine congrArg List.length (List.filter_congr fun e _ => ?_)
  cases e.pending with
  | nil => simp
  | cons j l => simp [Bool.and_comm]

theorem State.barredPending_mirrors {s : State} (hb : s.Balanced) (k : Nat) : s.Mirrors k s.barredPending := fun e he =>
  ⟨e, (hb : Accounts _ _).units.findBy_of_mem (List.mem_filter.mp he).1, Iff.rfl⟩

theorem State.barredPending_distinct {s : State} (hb : s.Balanced) :
    s.barredPending.Pairwise (fun a b => a.unit ≠ b.unit) :=
  ((hb : Accounts _ _).units.imp fun hab => Nat.ne_of_lt hab).sublist List.filter_sublist

theorem State.pendingAt_barredPending_le {s : State} (hb : s.Balanced) {c : Campaign} (hc : c ∈ s.campaigns.table) :
    pendingAt c.slot s.barredPending ≤ c.counts.outstanding := by
  by_cases hnone : ∀ e ∈ s.barredPending, c.slot ∉ e.pending
  · rw [pendingAt_zero hnone]
    exact Nat.zero_le _
  · push Not at hnone
    obtain ⟨e, he, hk⟩ := hnone
    have hcamp : s.campaign c.slot = some c := (hb : Accounts _ _).slots.findBy_of_mem hc
    have hl := active_live (hb.pending_active (List.mem_filter.mp he).1 hk hcamp)
    rw [((hb : Accounts _ _).records c hc).outstanding hl]
    exact (List.filter_sublist.filter _).length_le

/-- After the drops no barred receiver is pending for anything. -/
theorem State.dropBarred_emptied {s : State} (hb : s.Balanced) : ∀ e ∈ s.dropBarred.roster.entries,
    s.dropBarred.barred e = true → e.pending = [] := fun e he hbar => by
  have htouch := s.dropBarred_touch
  obtain ⟨d, hd, hsame, hless⟩ := s.dropReceivers_pendsOnly s.barredPending (fun _ => False) e he
  have hunit : e.unit = d.unit := (congrArg Entry.unit hsame : e.forgetSlots.unit = d.forgetSlots.unit)
  cases hpending : d.pending with
  | nil =>
    refine List.eq_nil_iff_forall_not_mem.mpr fun j hj => ?_
    have := hless j hj id
    rw [hpending] at this
    exact List.not_mem_nil this
  | cons j l =>
    have hbarred : s.barred d = true := by
      rw [State.barred, htouch.segments, hunit] at hbar
      exact hbar
    have hin : d ∈ s.barredPending := List.mem_filter.mpr ⟨hd, by rw [hbarred, hpending]; rfl⟩
    have hunits : InOrder Entry.unit s.dropBarred.roster.entries := by
      have hmap := congrArg (List.map Entry.unit) htouch.entries
      rw [List.map_map, List.map_map] at hmap
      exact InOrder.of_map (show (s.dropBarred.roster.entries.map Entry.unit).Pairwise (· < ·) from
        hmap ▸ (hb : Accounts _ _).units.map_lt)
    exact State.dropReceivers_emptied s.barredPending hb d hin e (hunit ▸ hunits.findBy_of_mem he)

/-- Settles O34: the range is replaced, and the barred are dropped one after another. -/
theorem segmentSetReplacesARangeAndDropsTheBarred : Obligations.SegmentSetReplacesARangeAndDropsTheBarred := by
  refine fun h q s => ⟨fun ht => ⟨fun hlock => ?_, fun hlock hbad => ?_, fun phase barred enabled hlock hindex h1 hle hlast hp
    hbar hen hb => ?_⟩, fun ht => exec_accepted rfl ht rfl⟩
  · exact exec_refused rfl ht (if_pos hlock)
  · refine exec_refused rfl ht ?_
    have hlock' : s.popInbound.roster.locked = false := hlock
    show serveSegmentSet q s.popInbound = _
    simp only [serveSegmentSet, hlock', segmentRange?_invalid hbad, Bool.false_eq_true, if_false]
  · intro a
    have ha : a.Balanced := hb
    refine ⟨a.dropBarred, exec_accepted rfl ht (serveSegmentSet_replaced (s := s.popInbound) hlock
        (segmentRange?_valid hindex h1 hle hlast hp hbar hen)), a.dropBarred_touch, a.dropBarred_store,
      State.dropReceivers_concludes _ ha, State.dropBarred_emptied ha, fun hnone => ?_, fun c hc => ?_⟩
    · have hnil : a.barredPending = [] := List.filter_eq_nil_iff.mpr fun e he hx => by
        obtain ⟨hbarred, hsome⟩ := Bool.and_eq_true_iff.mp hx
        rw [hnone e he hbarred] at hsome
        cases hsome
      rw [State.dropBarred_eq, hnil]
      rfl
    · obtain ⟨hzero, hsome⟩ := State.dropReceivers_taken a.barredPending ha
        ((hb : Accounts _ _).slots.findBy_of_mem hc : a.campaign c.slot = some c) (State.barredPending_mirrors ha _)
        (State.barredPending_distinct ha) (State.pendingAt_barredPending_le ha hc)
      rw [State.pendingAt_barredPending] at hzero hsome
      refine ⟨hzero, fun hn => ?_⟩
      obtain ⟨d, hd, m, hone, hmn, hcounts, hor, hdone⟩ := hsome hn
      exact ⟨d, m, hd, hone, hmn, hcounts, hor, hdone⟩

end Sys2Proof.Machine
end

section
/-! SUPPORT. The reports of a broadcast's units, and the interval of a standing one (R102, R105, R108, R110). -/

namespace Sys2Proof.Machine

theorem updateBy_congr {α : Type} {key : α → Nat} {k : Nat} {f g : α → α} {l : List α}
    (h : ∀ a ∈ l, key a = k → f a = g a) : updateBy key k f l = updateBy key k g l := by
  unfold updateBy
  refine List.map_congr_left fun a ha => ?_
  split
  · exact h a ha ‹_›
  · rfl

/-- An update of one slot's campaign writes its record. -/
theorem State.updateCampaign_record {s : State} (hn : s.Numbered) {k : Nat} {c : Campaign} (hc : s.campaign k = some c)
    {f g : Campaign → Campaign} (h : f c = g c) : s.updateCampaign k f = s.updateCampaign k g := by
  refine congrArg s.setTable (updateBy_congr fun d hd hk => ?_)
  have hd' := (State.mem_table_iff hn).mp hd
  rw [hk, hc] at hd'
  cases hd'
  exact h

theorem State.countTransmission_other {s : State} {ch : Phase} {k seq : Nat}
    (h : ∀ c, s.campaign k = some c → c.seq ≠ seq ∨ c.state.active = false) : s.countTransmission ch k seq = s := by
  unfold State.countTransmission
  split
  · rfl
  · refine if_neg fun ⟨hs, ha⟩ => (h _ ‹_›).elim (· hs) fun hno => ?_
    rw [ha] at hno
    cases hno

/-- A transmission of the same campaign is counted, and the round examined (R105). -/
theorem State.countTransmission_counts {s : State} (hn : s.Numbered) {ch : Phase} {k : Nat} {c : Campaign}
    {r : BroadcastRun} (hc : s.campaign k = some c) (ha : c.state.active = true) (hr : c.run = some r) :
    s.countTransmission ch k c.seq
      = (s.updateCampaign k (fun d => { d with run := some (r.count ch) })).examineRound k := by
  have hrecord := State.updateCampaign_record hn hc (f := fun d => { d with run := d.run.map (fun r => r.count ch) })
    (g := fun d => { d with run := some (r.count ch) }) (by simp only [hr]; rfl)
  simp only [State.countTransmission, hc, ha, and_self, if_true, hrecord]

/-- The interval of a RESTING standing broadcast is over (R110). -/
theorem execIntervalExpired_resting {s : State} {k base budget : Nat} {interval : Option Nat} {c : Campaign} {r : BroadcastRun}
    (hc : s.campaign k = some c) (hs : c.state = .resting) (ht : c.terms = .broadcast base budget interval)
    (hr : c.run = some r) : exec (.intervalExpired k) s = finish (s.updateCampaign k (fun d =>
      { d with state := .running, run := some { r with remaining := loadRemaining r.phases base }, intervalTimer := none })) := by
  simp only [exec, execIntervalExpired, hc, hs, ht, hr]

end Sys2Proof.Machine
end

section
/-! The reports of a broadcast, settled. -/

namespace Sys2Proof.Machine

/-- Settles O46: a transmission is counted and the round examined, a tail changes nothing, and an interval loads the next
round. -/
theorem transmissionsAreCountedByRound : Obligations.TransmissionsAreCountedByRound := by
  refine ⟨fun ch s slot seq rest => ⟨fun hfirst => ⟨fun hother => ?_,
    fun c base budget interval r hsound hc hseq ha hterms hr => ?_⟩, fun report hfirst => ?_⟩,
    fun s c base budget interval r hsound hmem hs hterms hr => ?_⟩
  · have hexec : exec (.transmissionEndedTaken ch) s = finish ((s.setReports ch rest).countTransmission ch slot seq) := by
      simp only [exec, execTransmissionEndedTaken, hfirst]
    exact hexec.trans (congrArg finish (State.countTransmission_other (s := s.setReports ch rest) hother))
  · intro counted
    have hcount : (s.setReports ch rest).countTransmission ch slot seq
        = ((s.setReports ch rest).updateCampaign slot (fun d => { d with run := some counted })).examineRound slot :=
      hseq ▸ State.countTransmission_counts (s := s.setReports ch rest) hsound hc ha hr
    have hexec : exec (.transmissionEndedTaken ch) s
        = finish (((s.setReports ch rest).updateCampaign slot (fun d => { d with run := some counted })).examineRound slot) := by
      rw [← hcount]
      simp only [exec, execTransmissionEndedTaken, hfirst]
    have hown : ((s.setReports ch rest).updateCampaign slot (fun d => { d with run := some counted })).campaign slot
        = some { c with run := some counted } :=
      State.updateCampaign_own (s := s.setReports ch rest) (f := fun d => { d with run := some counted }) hc fun _ => rfl
    have hmode : c.mode = .broadcast := Campaign.mode_broadcast hterms
    refine ⟨fun hgoes => hexec.trans (congrArg finish (State.examineRound_open fun d hd _ b hb hrun => ?_)),
      fun hrun hdone => ?_⟩
    · cases hown.symm.trans hd
      cases hb
      rcases hgoes with hheld | ⟨ph, hph⟩
      · cases hheld.symm.trans hrun
      · exact Bool.eq_false_iff.mpr fun hspent => hph ((BroadcastRun.spent_iff counted).mp hspent ph)
    · have hspent : counted.spent = true := (BroadcastRun.spent_iff counted).mpr hdone
      have hupdated := OnlySlot.of_updateCampaign (s.setReports ch rest) slot
        (f := fun d => { d with run := some counted }) fun _ h => h
      have honly := hupdated.trans (State.examineRound_only _ slot)
      obtain ⟨ended, hended, -⟩ := (s.setReports ch rest).countTransmission_ends ch slot seq
      rw [hcount] at hended
      refine ⟨_, hexec, hcount ▸ State.countTransmission_touch (s.setReports ch rest) ch slot seq,
        State.examineRound_store _ slot, ⟨ended, hended⟩, fun k hk => honly.others k hk, honly.setsKept, fun hnone => ?_,
        fun seconds hseconds => ?_⟩
      · subst hnone
        rw [State.examineRound_single hown hterms rfl hrun hspent]
        exact (State.endCampaign_live hown (by rw [hrun]; rfl) .complete .roundDone).1
      · subst hseconds
        rw [State.examineRound_standing hown hterms rfl hrun hspent]
        exact State.updateCampaign_own (f := fun d => { d with
          state := .resting, run := some counted.countRound, intervalTimer := some (seconds * 1000) }) hown fun _ => rfl
  · have hexec : exec (.tailEndedTaken ch) s = finish (s.setReports ch rest) := by
      simp only [exec, execTailEndedTaken, hfirst]
    exact hexec
  · have hc := (State.mem_table_iff (s := s) hsound).mp hmem
    refine (execIntervalExpired_resting hc hs hterms hr).trans (congrArg finish ?_)
    exact State.updateCampaign_record hsound hc rfl

end Sys2Proof.Machine
end

section
/-! SUPPORT. An outcome taken (R85 to R94): the account, what the roster is told, and the examinations that follow. -/

namespace Sys2Proof.Machine

/-! ## What the roster is told (R93) -/

theorem State.learn_eq_told (s : State) (ch : Phase) (seq dest : Nat) (route : List Nat) (v : Verdict) :
    s.learn ch seq dest route v = s.told ch seq dest route v := by
  cases v with
  | hopFailed k =>
    unfold State.learn State.told State.relayContact
    rfl
  | _ => rfl

theorem State.told_touch (s : State) (ch : Phase) (seq dest : Nat) (route : List Nat) (v : Verdict) :
    OnlyRoster s (s.told ch seq dest route v) := by
  cases v with
  | applied => exact s.contact_touch dest ch _
  | report f heardAt => exact s.contact_touch dest ch _
  | alreadyNewer => exact s.contact_touch dest ch _
  | refused r => exact s.contact_touch dest ch _
  | noReply => exact s.miss_touch dest false
  | garbled => exact s.miss_touch dest false
  | hopFailed k =>
    refine OnlyRoster.trans ?_ (State.miss_touch _ dest true)
    split
    · exact s.contact_touch _ ch .nothing
    · exact .refl s
  | interrupted => exact .refl s
  | deferred => exact .refl s

theorem State.told_sets (s : State) (ch : Phase) (seq dest : Nat) (route : List Nat) (v : Verdict) :
    (s.told ch seq dest route v).roster.entries.map Entry.sets = s.roster.entries.map Entry.sets := by
  cases v with
  | applied => exact s.contact_sets dest ch _
  | report f heardAt => exact s.contact_sets dest ch _
  | alreadyNewer => exact s.contact_sets dest ch _
  | refused r => exact s.contact_sets dest ch _
  | noReply => exact s.miss_sets dest false
  | garbled => exact s.miss_sets dest false
  | hopFailed k =>
    refine (State.miss_sets _ dest true).trans ?_
    split
    · exact s.contact_sets _ ch .nothing
    · rfl
  | interrupted => rfl
  | deferred => rfl

/-! ## Who becomes SILENT by it (R94) -/

theorem State.updateEntry_entry {s : State} {u v : Nat} {f : Entry → Entry} (hf : ∀ e, (f e).unit = e.unit) :
    (s.updateEntry u f).entry v = (s.entry v).map (fun e => if e.unit = u then f e else e) :=
  findBy_map_unit (fun e => by split <;> simp [hf]) v _

theorem State.updateAttention_entry (s : State) (v : Nat) : s.updateAttention.entry v = s.entry v := by
  unfold State.entry
  rw [State.updateAttention_entries]

theorem Entry.contacted_state (e : Entry) (ch : Phase) (x : Extra) (now : Option Nat) : (e.contacted ch x now).state = .active := by
  rw [Entry.contacted_eq]

/-- A contact leaves the entry that it names heard, and any other as it was. -/
theorem State.contact_entry {s : State} {u v : Nat} {ch : Phase} {x : Extra} {e y : Entry} (he : s.entry v = some e)
    (hy : (s.contact u ch x).entry v = some y) : y.pending = e.pending ∧ (y.state = .active ∨ v ≠ u ∧ y = e) := by
  obtain ⟨-, hunit⟩ := State.entry_some he
  by_cases hu : s.entry u = none
  · rw [State.contact_absent hu, he] at hy
    cases hy
    exact ⟨rfl, .inr ⟨fun hvu => Option.some_ne_none e (he.symm.trans (hvu ▸ hu)), rfl⟩⟩
  · rw [State.contact_present hu, State.updateAttention_entry,
      State.updateEntry_entry (fun e => congrArg Prod.fst (e.contacted_sets ch x _)), he] at hy
    cases hy
    dsimp only
    split
    · exact ⟨congrArg (fun t => t.2.1) (e.contacted_sets ch x _), .inl (e.contacted_state ch x _)⟩
    · rename_i hne
      exact ⟨rfl, .inr ⟨fun hvu => hne (hunit.trans hvu), rfl⟩⟩

/-- A miss report that makes its entry SILENT. -/
theorem State.mem_silencedBy {s : State} {u k : Nat} {mark : Bool} {e y : Entry} (he : s.entry u = some e)
    (hy : (s.miss u mark).entry u = some y) (hheard : e.state ≠ .silent) (hsilent : y.state = .silent) (hk : k ∈ e.pending) :
    k ∈ s.silencedBy u mark := by
  obtain ⟨-, hunit⟩ := State.entry_some he
  have hne : s.entry u ≠ none := fun h => by rw [h] at he; cases he
  rw [State.miss_present hne, State.updateAttention_entry,
    State.updateEntry_entry (fun e => congrArg Prod.fst (s.missed_sets e mark)), he] at hy
  cases hy
  have hsilent : (if e.unit = u then s.missed e mark else e).state = .silent := hsilent
  rw [if_pos hunit] at hsilent
  simp only [State.silencedBy, he]
  rw [if_pos ⟨hheard, hsilent⟩]
  exact hk

/-- The campaigns pending at a destination that the report made SILENT are those that the model examines. -/
theorem State.mem_silencedByVerdict {s : State} {ch : Phase} {seq dest k : Nat} {route : List Nat} {v : Verdict} {x y : Entry}
    (hx : s.entry dest = some x) (hy : (s.told ch seq dest route v).entry dest = some y) (hheard : x.state ≠ .silent)
    (hsilent : y.state = .silent) (hk : k ∈ x.pending) : k ∈ s.silencedByVerdict ch dest route v := by
  have hcontact : ∀ extra : Extra, (s.contact dest ch extra).entry dest ≠ some y := fun extra h => by
    obtain ⟨-, hactive | ⟨hne, -⟩⟩ := State.contact_entry hx h
    · rw [hactive] at hsilent
      cases hsilent
    · exact hne rfl
  have hsame : s.entry dest ≠ some y := fun h => by
    cases hx.symm.trans h
    exact hheard hsilent
  cases v with
  | applied => exact absurd hy (hcontact _)
  | report f heardAt => exact absurd hy (hcontact _)
  | alreadyNewer => exact absurd hy (hcontact _)
  | refused r => exact absurd hy (hcontact _)
  | noReply => exact State.mem_silencedBy hx hy hheard hsilent hk
  | garbled => exact State.mem_silencedBy hx hy hheard hsilent hk
  | hopFailed j =>
    have hmiss : ((s.relayContact ch route j).miss dest true).entry dest = some y := hy
    show k ∈ (s.relayContact ch route j).silencedBy dest true
    unfold State.relayContact at hmiss ⊢
    split at hmiss
    · rename_i relay _
      cases hm : (s.contact relay ch .nothing).entry dest with
      | none =>
        rw [State.miss_absent hm, hm] at hmiss
        cases hmiss
      | some m =>
        obtain ⟨hpending, hstate⟩ := State.contact_entry hx hm
        refine State.mem_silencedBy hm hmiss (fun hm' => ?_) hsilent (hpending ▸ hk)
        rcases hstate with hactive | ⟨-, rfl⟩
        · rw [hactive] at hm'
          cases hm'
        · exact hheard hm'
    · exact State.mem_silencedBy hx hmiss hheard hsilent hk
  | interrupted => exact absurd hy hsame
  | deferred => exact absurd hy hsame

/-! ## The examinations after it (R94) -/

/-- The outcome's own campaign is examined, and then those of the silenced, past their first pass (R94). -/
theorem State.examinations_pass (s : State) (w : Work) (l : List Nat) {must : Campaign → Prop}
    (h : ∀ c, must c → (c.slot = w.slot ∧ c.seq = w.seq) ∨ (c.slot ∈ l ∧ 1 < c.pass.getD 1)) :
    s.PassesExamined ((s.examineOwn w).examineSilenced l) must := by
  obtain ⟨first, hfirst, -⟩ := s.examineOwn_ends w
  obtain ⟨second, hsecond, -⟩ := (s.examineOwn w).examineSilenced_ends l
  refine Examined.passes ((s.examineOwn_touch w).trans (State.examineSilenced_touch _ l))
    ((State.examineSilenced_store _ l).trans (State.examineOwn_store s w)) ⟨_, hfirst.trans hsecond⟩ fun k => ?_
  have hown : ∃ n, AgreeAt k (State.examineTimes k n s) (s.examineOwn w)
      ∧ ∀ c, s.campaign k = some c → c.slot = w.slot ∧ c.seq = w.seq → 1 ≤ n := by
    unfold State.examineOwn
    split
    · rename_i c hc
      split
      · refine ⟨_, Examined.examine (k := w.slot) (n := 0) (AgreeAt.refl k s), fun d hd hthis => ?_⟩
        rw [if_pos ((State.campaign_some hd).2.symm.trans hthis.1)]
      · rename_i hother
        refine ⟨0, .refl k s, fun d hd hthis => ?_⟩
        obtain ⟨hslot, hseq⟩ := hthis
        rw [(State.campaign_some hd).2] at hslot
        subst hslot
        cases hc.symm.trans hd
        exact absurd hseq hother
    · rename_i hc
      refine ⟨0, .refl k s, fun d hd hthis => ?_⟩
      obtain ⟨hslot, -⟩ := hthis
      rw [(State.campaign_some hd).2] at hslot
      subst hslot
      cases hc.symm.trans hd
  obtain ⟨n, hn, hownmust⟩ := hown
  obtain ⟨m, hm, hagree, hsilenced⟩ := State.examineSilenced_at l hn
  refine ⟨m, hagree, fun c hc hmust => ?_⟩
  rcases h c hmust with hthis | ⟨hl, hlate⟩
  · exact (hownmust c hc hthis).trans hm
  · exact hsilenced ((State.campaign_some hc).2 ▸ hl) c hc hlate

/-- What follows the account: the roster is told, and the controller examines. -/
theorem State.outcome_examined {a : State} {ch : Phase} {w : Work} {dest : Nat} {route : List Nat} {v : Verdict} :
    (a.told ch w.seq dest route v).PassesExamined
      (((a.learn ch w.seq dest route v).examineOwn w).examineSilenced (a.silencedByVerdict ch dest route v))
      (fun d => (d.slot = w.slot ∧ d.seq = w.seq) ∨ ((∃ p, d.pass = some p ∧ 1 < p)
        ∧ ∃ x y, a.entry dest = some x ∧ (a.told ch w.seq dest route v).entry dest = some y ∧ x.state ≠ .silent
          ∧ y.state = .silent ∧ d.slot ∈ x.pending)) := by
  rw [State.learn_eq_told]
  refine State.examinations_pass _ w _ fun c hc => hc.imp_right ?_
  rintro ⟨⟨p, hp, hlate⟩, x, y, hx, hy, hheard, hsilent, hk⟩
  exact ⟨State.mem_silencedByVerdict hx hy hheard hsilent hk, by rw [hp]; exact hlate⟩

/-! ## The counts while passes are examined -/

def State.CountsKept (s t : State) : Prop :=
  t.campaigns.table.map Campaign.counts = s.campaigns.table.map Campaign.counts

theorem State.CountsKept.trans {s t u : State} (h : State.CountsKept s t) (g : State.CountsKept t u) : State.CountsKept s u :=
  Eq.trans g h

theorem updateBy_counts {k : Nat} {f : Campaign → Campaign} (hf : ∀ c, (f c).counts = c.counts) (l : List Campaign) :
    (updateBy Campaign.slot k f l).map Campaign.counts = l.map Campaign.counts := by
  rw [updateBy, List.map_map]
  refine List.map_congr_left fun c _ => ?_
  rw [Function.comp]
  split
  · exact hf c
  · rfl

theorem State.endCampaign_counts (s : State) (k : Nat) (v : CampaignState) (r : EndReason) :
    State.CountsKept s (s.endCampaign k v r) := by
  unfold State.endCampaign
  split
  · rfl
  · split
    · unfold State.CountsKept
      rw [State.notify_campaigns]
      split
      · exact updateBy_counts (f := fun c => c.ended v r s.clock.time) (fun _ => rfl) _
      · exact updateBy_counts (f := fun c => c.ended v r s.clock.time) (fun _ => rfl) _
    · rfl

theorem State.runPasses_counts : ∀ (n k : Nat) (s : State), State.CountsKept s (State.runPasses n k s)
  | 0, _, _ => rfl
  | n + 1, k, s => by
    unfold State.runPasses
    split
    · rfl
    · rename_i c _
      split
      · rfl
      · split
        · split
          · refine State.CountsKept.trans ?_ (State.runPasses_counts n k _)
            exact updateBy_counts (f := fun d => { d with pass := some (c.pass.getD 1 + 1) }) (fun _ => rfl) _
          · exact s.endCampaign_counts k _ _
        · rfl

theorem State.examinations_counts (s : State) (w : Work) (l : List Nat) :
    State.CountsKept s ((s.examineOwn w).examineSilenced l) := by
  have hown : State.CountsKept s (s.examineOwn w) := by
    unfold State.examineOwn
    split
    · split
      · exact State.runPasses_counts 17 w.slot s
      · rfl
    · rfl
  refine hown.trans (foldl_keeps (R := State.CountsKept) (fun _ => rfl) .trans _ (fun t k => ?_) l _)
  split
  · split
    · exact State.runPasses_counts 17 k t
    · rfl
  · rfl

/-! ## The account (R85 to R92) -/

theorem State.account_uncredited {s : State} {w : Work} {dest : Nat} {v : Verdict} (h :
    (∀ c, s.campaign w.slot = some c → c.seq ≠ w.seq ∨ c.state.active = false)
      ∨ (∀ e, s.entry dest = some e → w.slot ∉ e.pending)) : s.account w dest v = s := by
  unfold State.account
  refine if_neg fun hcredits => ?_
  obtain ⟨c, e, hc, hseq, ha, he, hk⟩ := State.credits_iff hcredits
  rcases h with h | h
  · rcases h c hc with h | h
    · exact h hseq
    · rw [ha] at h
      cases h
  · exact h e he hk

theorem State.account_credited {s : State} {w : Work} {dest : Nat} {v : Verdict} {c : Campaign} {e : Entry}
    (hc : s.campaign w.slot = some c) (hseq : c.seq = w.seq) (ha : c.state.active = true) (he : s.entry dest = some e)
    (hk : w.slot ∈ e.pending) : s.account w dest v = (s.credit w.slot dest v).completeIfSettled w.slot .settled := by
  refine if_pos ?_
  simp [State.credits, hc, hseq, ha, he, hk]

/-- A verdict that settles its receiver; a failure marks the receiver tried, and the others do nothing (R86 to R91). -/
def Verdict.Settles (v : Verdict) : Prop :=
  v = .applied ∨ (∃ f n, v = .report f n) ∨ v = .alreadyNewer ∨ ∃ r, v = .refused r

/-- A verdict of a failed exchange (R90). -/
def Verdict.Fails (v : Verdict) : Prop := v = .noReply ∨ v = .garbled ∨ ∃ j, v = .hopFailed j

def Campaign.lessOutstanding (c : Campaign) : Campaign :=
  { c with counts := { c.counts with outstanding := c.counts.outstanding - 1 } }

/-- The record of a campaign credited with a verdict. -/
def Campaign.credited (c : Campaign) : Verdict → Campaign
  | .applied => c.addApplied.lessOutstanding
  | .report _ _ => c.addApplied.lessOutstanding
  | .alreadyNewer => c.addDeclined.lessOutstanding
  | .refused r => (c.addRefused r).lessOutstanding
  | _ => c

/-- The entry of a receiver credited with a verdict at slot `k`. -/
def Entry.credited (e : Entry) (k : Nat) : Verdict → Entry
  | .applied => e.release k
  | .report _ _ => e.release k
  | .alreadyNewer => e.release k
  | .refused _ => e.release k
  | .noReply => e.markTried k
  | .garbled => e.markTried k
  | .hopFailed _ => e.markTried k
  | _ => e

theorem Campaign.credited_eq (c : Campaign) (v : Verdict) :
    c.credited v = { c with counts := (c.credited v).counts, byReason := (c.credited v).byReason } := by
  cases v <;> rfl

theorem Campaign.credited_state (c : Campaign) (v : Verdict) : (c.credited v).state = c.state := by
  rw [Campaign.credited_eq]

theorem Verdict.Settles.outstanding {v : Verdict} (h : v.Settles) (c : Campaign) :
    (c.credited v).counts.outstanding = c.counts.outstanding - 1 := by
  rcases h with rfl | ⟨_, _, rfl⟩ | rfl | ⟨_, rfl⟩ <;> rfl

theorem Verdict.Settles.entry {v : Verdict} (h : v.Settles) (e : Entry) (k : Nat) : e.credited k v = e.release k := by
  rcases h with rfl | ⟨_, _, rfl⟩ | rfl | ⟨_, rfl⟩ <;> rfl

theorem Verdict.Fails.entry {v : Verdict} (h : v.Fails) (e : Entry) (k : Nat) : e.credited k v = e.markTried k := by
  rcases h with rfl | rfl | ⟨_, rfl⟩ <;> rfl

theorem Verdict.Fails.campaign {v : Verdict} (h : v.Fails) (c : Campaign) : c.credited v = c := by
  rcases h with rfl | rfl | ⟨_, rfl⟩ <;> rfl

/-- The verdicts by what they do to an account: settle a receiver in a column, mark it tried, or nothing. -/
theorem State.credit_cases (s : State) (k dest : Nat) (v : Verdict) :
    (∃ f, Column f ∧ s.credit k dest v = s.settleReceiver k dest f)
      ∨ s.credit k dest v = s.updateEntry dest (fun e => e.markTried k) ∨ s.credit k dest v = s := by
  cases v with
  | applied => exact .inl ⟨_, addApplied_column, rfl⟩
  | report f n => exact .inl ⟨_, addApplied_column, rfl⟩
  | alreadyNewer => exact .inl ⟨_, addDeclined_column, rfl⟩
  | refused r => exact .inl ⟨_, addRefused_column r, rfl⟩
  | noReply => exact .inr (.inl rfl)
  | garbled => exact .inr (.inl rfl)
  | hopFailed j => exact .inr (.inl rfl)
  | interrupted => exact .inr (.inr rfl)
  | deferred => exact .inr (.inr rfl)

theorem State.markTried_only (s : State) (k u : Nat) : OnlySlot k s (s.updateEntry u (fun e => e.markTried k)) := by
  refine ⟨fun _ _ => rfl, fun e => if e.unit = u then e.markTried k else e, rfl, fun e => ?_⟩
  dsimp only
  split
  · exact ⟨rfl, fun j hj => ⟨Iff.rfl, mem_insertNat.trans (or_iff_right hj)⟩, id⟩
  · exact ⟨rfl, fun _ _ => ⟨Iff.rfl, Iff.rfl⟩, id⟩

theorem State.credit_only (s : State) (k dest : Nat) (v : Verdict) : OnlySlot k s (s.credit k dest v) := by
  rcases s.credit_cases k dest v with ⟨f, hf, h⟩ | h | h
  · exact h ▸ s.settleReceiver_only k dest hf.slot
  · exact h ▸ s.markTried_only k dest
  · rw [h]; exact .refl k s

theorem State.credit_balanced {s : State} (hb : s.Balanced) {k dest : Nat} {e : Entry} (he : s.entry dest = some e)
    (hk : k ∈ e.pending) (v : Verdict) : (s.credit k dest v).Balanced := by
  rcases s.credit_cases k dest v with ⟨f, hf, h⟩ | h | h
  · exact h ▸ State.settleReceiver_balanced hb he hk hf
  · exact h ▸ State.markTried_balanced hb he hk
  · rw [h]; exact hb

theorem State.markTried_entry {s : State} {u v k : Nat} {d : Entry} (hd : s.entry v = some d) :
    (s.updateEntry u (fun e => e.markTried k)).entry v = some (if d.unit = u then d.markTried k else d) := by
  rw [State.updateEntry_entry (f := fun e => e.markTried k) (fun _ => rfl), hd]
  rfl

theorem State.markTried_setsKept (s : State) (k u : Nat) :
    s.SetsKept (s.updateEntry u (fun e => e.markTried k)) (fun v j => v = u ∧ j = k) := fun v d e j hd he hn => by
  rw [State.markTried_entry hd] at he
  cases he
  split
  · rename_i hu
    exact ⟨Iff.rfl, mem_insertNat.trans (or_iff_right fun hj => hn ⟨(State.entry_some hd).2.symm.trans hu, hj⟩)⟩
  · exact ⟨Iff.rfl, Iff.rfl⟩

theorem State.credit_setsKept (s : State) (k dest : Nat) (v : Verdict) :
    s.SetsKept (s.credit k dest v) (fun u j => u = dest ∧ j = k) := by
  rcases s.credit_cases k dest v with ⟨f, -, h⟩ | h | h
  · exact h ▸ s.settleReceiver_setsKept k dest f
  · exact h ▸ s.markTried_setsKept k dest
  · rw [h]; exact .refl s _

/-- No set but the receiver's own at this slot moves when an outcome is credited (R92). -/
theorem State.credited_setsKept {s : State} (hb : s.Balanced) {k dest : Nat} {e : Entry} (he : s.entry dest = some e)
    (hk : k ∈ e.pending) (v : Verdict) (r : EndReason) :
    s.SetsKept ((s.credit k dest v).completeIfSettled k r) (fun u j => u = dest ∧ j = k) :=
  (s.credit_setsKept k dest v).trans
    ((State.completeIfSettled_setsKept (State.credit_balanced hb he hk v) k r).mono fun _ _ h => h.elim)
    (s.credit_touch k dest v)

theorem State.settleReceiver_campaign {s : State} {k dest : Nat} {c : Campaign} (hc : s.campaign k = some c)
    {f : Campaign → Campaign} (hf : ∀ d, (f d).slot = d.slot) :
    (s.settleReceiver k dest f).campaign k = some (f c).lessOutstanding :=
  State.updateCampaign_own (s := s.updateEntry dest (fun e => e.release k)) (f := fun d => (f d).lessOutstanding) hc hf

theorem State.settleReceiver_entry {s : State} {k dest : Nat} {e : Entry} (he : s.entry dest = some e)
    (f : Campaign → Campaign) : (s.settleReceiver k dest f).entry dest = some (e.release k) := by
  have h : (s.settleReceiver k dest f).entry dest = (s.updateEntry dest (fun e => e.release k)).entry dest := rfl
  rw [h, State.updateEntry_entry (f := fun e => e.release k) (fun _ => rfl), he, Option.map_some, if_pos (State.entry_some he).2]

theorem State.credit_campaign {s : State} {k dest : Nat} {c : Campaign} (hc : s.campaign k = some c) (v : Verdict) :
    (s.credit k dest v).campaign k = some (c.credited v) := by
  cases v with
  | applied => exact State.settleReceiver_campaign hc fun _ => rfl
  | report f n => exact State.settleReceiver_campaign hc fun _ => rfl
  | alreadyNewer => exact State.settleReceiver_campaign hc fun _ => rfl
  | refused r => exact State.settleReceiver_campaign hc fun _ => rfl
  | _ => exact hc

theorem State.credit_entry {s : State} {k dest : Nat} {e : Entry} (he : s.entry dest = some e) (v : Verdict) :
    (s.credit k dest v).entry dest = some (e.credited k v) := by
  have htried : (s.updateEntry dest (fun e => e.markTried k)).entry dest = some (e.markTried k) := by
    rw [State.markTried_entry he, if_pos (State.entry_some he).2]
  cases v with
  | applied => exact State.settleReceiver_entry he _
  | report f n => exact State.settleReceiver_entry he _
  | alreadyNewer => exact State.settleReceiver_entry he _
  | refused r => exact State.settleReceiver_entry he _
  | noReply => exact htried
  | garbled => exact htried
  | hopFailed j => exact htried
  | interrupted => exact he
  | deferred => exact he

theorem State.credit_clock (s : State) (k dest : Nat) (v : Verdict) : (s.credit k dest v).clock = s.clock :=
  (s.credit_touch k dest v).clock

theorem State.completeIfSettled_done {s : State} {k : Nat} {c : Campaign} (hc : s.campaign k = some c)
    (ha : c.state.active = true) (h : c.counts.outstanding = 0) (r : EndReason) :
    s.completeIfSettled k r = s.endCampaign k .complete r := by
  simp only [State.completeIfSettled, hc, ha, h, and_self, if_true]

theorem State.completeIfSettled_goes {s : State} {k : Nat} {c : Campaign} (hc : s.campaign k = some c)
    (h : c.counts.outstanding ≠ 0) (r : EndReason) : s.completeIfSettled k r = s := by
  simp only [State.completeIfSettled, hc, h, and_false, if_false]

theorem State.endCampaign_entry {s : State} {k u : Nat} {c : Campaign} (hc : s.campaign k = some c) (hl : c.state.live = true)
    (v : CampaignState) (r : EndReason) {e : Entry} (he : s.entry u = some e) :
    (s.endCampaign k v r).entry u = some (e.release k) := by
  obtain ⟨-, hentries, -⟩ := State.endCampaign_live hc hl v r
  unfold State.entry at he ⊢
  rw [hentries, findBy_map_unit (f := fun e => e.release k) (fun _ => rfl), he]
  rfl

/-- An outcome credited where its receiver is the last outstanding completes the campaign. -/
theorem State.credited_last {s : State} {k dest : Nat} {v : Verdict} {c : Campaign} {e : Entry} (hc : s.campaign k = some c)
    (ha : c.state.active = true) (he : s.entry dest = some e) (h : (c.credited v).counts.outstanding = 0) :
    ((s.credit k dest v).completeIfSettled k .settled).campaign k = some ((c.credited v).ended .complete .settled s.clock.time)
      ∧ ((s.credit k dest v).completeIfSettled k .settled).entry dest = some ((e.credited k v).release k) := by
  have hcamp := State.credit_campaign (dest := dest) hc v
  have hactive : (c.credited v).state.active = true := (c.credited_state v).symm ▸ ha
  rw [State.completeIfSettled_done hcamp hactive h, ← s.credit_clock k dest v]
  exact ⟨(State.endCampaign_live hcamp (active_live hactive) _ _).1,
    State.endCampaign_entry hcamp (active_live hactive) _ _ (State.credit_entry he v)⟩

/-- What the credited campaign and the receiver become (R86 to R92). -/
structure State.Credited (s t : State) (k dest : Nat) (v : Verdict) (c c' : Campaign) (e e' : Entry) : Prop where
  campaign : t.campaign k = some c'
  entry    : t.entry dest = some e'
  counts   : c'.counts = (c.credited v).counts
  byReason : c'.byReason = (c.credited v).byReason
  settles  : v.Settles → k ∉ e'.pending ∧ k ∉ e'.tried
    ∧ (c.counts.outstanding = 1 → c' = (c.credited v).ended .complete .settled s.clock.time)
    ∧ (c.counts.outstanding ≠ 1 → c' = c.credited v)
  fails    : v.Fails → c' = c ∧ e' = e.markTried k
  nothing  : v = .interrupted ∨ v = .deferred → t = s

theorem State.credit_credited {s : State} (hb : s.Balanced) {k dest : Nat} {c : Campaign} {e : Entry}
    (hc : s.campaign k = some c) (ha : c.state.active = true) (he : s.entry dest = some e) (hk : k ∈ e.pending) (v : Verdict) :
    ∃ c' e', s.Credited ((s.credit k dest v).completeIfSettled k .settled) k dest v c c' e e' := by
  have hpos : 1 ≤ c.counts.outstanding := by
    obtain ⟨hmem, hslot⟩ := State.campaign_some hc
    exact hb.outstanding_pos (State.entry_some he).1 hmem (hslot.symm ▸ hk)
  by_cases hz : (c.credited v).counts.outstanding = 0
  · obtain ⟨hcamp, hentry⟩ := State.credited_last (k := k) hc ha he hz
    refine ⟨_, _, hcamp, hentry, rfl, rfl, fun hv => ?_, fun hv => ?_, fun hv => ?_⟩
    · exact ⟨(Entry.release_at _ k).1, (Entry.release_at _ k).2, fun _ => rfl, fun hne => by
        rw [hv.outstanding] at hz
        omega⟩
    · rw [hv.campaign] at hz
      omega
    · rcases hv with rfl | rfl <;> exact absurd (show c.counts.outstanding = 0 from hz) (by omega)
  · rw [State.completeIfSettled_goes (State.credit_campaign hc v) hz]
    refine ⟨_, _, State.credit_campaign hc v, State.credit_entry he v, rfl, rfl, fun hv => ?_, fun hv => ?_, fun hv => ?_⟩
    · rw [hv.entry]
      exact ⟨(e.release_at k).1, (e.release_at k).2, fun h1 => by
        rw [hv.outstanding] at hz
        omega, fun _ => rfl⟩
    · exact ⟨hv.campaign c, hv.entry e k⟩
    · rcases hv with rfl | rfl <;> rfl

end Sys2Proof.Machine
end

section
/-! Outcomes, settled. -/

namespace Sys2Proof.Machine

theorem execOutcomeTaken_exchange {ch : Phase} {s : State} {w : Work} {dest : Nat} {route : List Nat} {v : Verdict}
    {rest : List ChannelReport} (hfirst : takeFirst ChannelReport.isOutcome (s.reports ch) = some (.outcome w v, rest))
    (hkind : w.kind = .exchange dest route) {settled : State} (hs : (s.setReports ch rest).account w dest v = settled) :
    exec (.outcomeTaken ch) s = finish (((settled.learn ch w.seq dest route v).examineOwn w).examineSilenced
      (settled.silencedByVerdict ch dest route v)) := by
  subst hs
  simp only [exec, execOutcomeTaken, hfirst, State.takeOutcome, hkind]

/-- Settles O45: the account stands, the roster is told, and passes are examined. -/
theorem otherOutcomesMoveNoCount : Obligations.OtherOutcomesMoveNoCount := by
  refine ⟨fun ch s w dest route v rest hfirst hkind hno => ?_, fun ch s w group budget v rest hfirst hkind => ?_⟩
  · have huncredited := State.account_uncredited (s := s.setReports ch rest) (v := v) hno
    have htold := (s.setReports ch rest).told_touch ch w.seq dest route v
    refine ⟨_, _, execOutcomeTaken_exchange hfirst hkind huncredited, rfl, State.outcome_examined, htold.campaigns,
      State.told_sets _ ch w.seq dest route v, ?_⟩
    rw [State.learn_eq_told]
    refine Eq.trans (State.examinations_counts ((s.setReports ch rest).told ch w.seq dest route v) w _) ?_
    rw [htold.campaigns]
    rfl
  · simp only [exec, execOutcomeTaken, hfirst, State.takeOutcome, hkind]
    rfl

/-- Settles O44: the account by its verdict, and then the examinations. -/
theorem creditedOutcomesSettleTheReceiver : Obligations.CreditedOutcomesSettleTheReceiver := by
  intro ch s w dest route v rest c e hfirst hkind hb hc hseq ha he hk
  have hb : (s.setReports ch rest).Balanced := hb
  have hc : (s.setReports ch rest).campaign w.slot = some c := hc
  have he : (s.setReports ch rest).entry dest = some e := he
  have hcredited := State.account_credited (v := v) hc hseq ha he hk
  obtain ⟨c', e', h⟩ := State.credit_credited hb hc ha he hk v
  have honly := ((s.setReports ch rest).credit_only w.slot dest v).trans
    (State.completeIfSettled_only _ w.slot .settled)
  have hsets := State.credited_setsKept hb he hk v .settled
  rw [← hcredited] at h honly hsets
  obtain ⟨ended, hended, -⟩ := (s.setReports ch rest).account_ends w dest v
  refine ⟨_, _, _, c', e', execOutcomeTaken_exchange hfirst hkind rfl, State.account_touch _ w dest v,
    State.account_store _ w dest v, ⟨ended, hended⟩, hsets, rfl, State.outcome_examined, h.campaign, h.entry,
    fun d hd hne => ?_, ?_, ?_, fun hv => ?_, fun hv => ?_, fun hv => h.nothing hv⟩
  · exact (honly.others d.slot hne).trans ((hb : Accounts _ _).slots.findBy_of_mem hd)
  · rw [h.byReason]
    cases v <;> rfl
  · rw [h.counts]
    cases v <;> rfl
  · obtain ⟨hpending, htried, hlast, hmore⟩ := h.settles hv
    refine ⟨hpending, htried, fun h1 => ?_, fun h1 => ?_⟩
    · rw [h.counts, h.byReason, hlast h1, c.credited_eq v]
      rfl
    · rw [h.counts, h.byReason, hmore h1]
      exact c.credited_eq v
  · obtain ⟨hsame, hentry⟩ := h.fails hv
    rw [hentry]
    exact ⟨mem_insertNat.mpr (.inl rfl), rfl, hsame⟩

end Sys2Proof.Machine
end
